-- ==== Sys2Proof/Config.lean ====
section
/-! DEFINITION. The parameters of an MFHC: those of 00_scope.md R7, and the open ones of 92_eei_decisions.md that its
rules use. `Params` has one field for each, the model below `exec` and `step` takes them as an argument, and `Config.mfhc`
holds the values of this hardware. Beside them stand the codes the code tables are indexed by (41_header.md R505 to R507)
and the constants of the block's identity.
-/

namespace Sys2Proof.Model

/-- `version(H)` (41_header.md R506). -/
inductive Version where
  | v1
  | v2
  | v25
  deriving DecidableEq, Repr

/-- The version class `vc(H)` (R505): V1, or V2 for versions 2 and 2.5. -/
inductive VersionClass where
  | v1
  | v2
  deriving DecidableEq, Repr

/-- `layer(H)` (R507). -/
inductive Layer where
  | l1
  | l2
  | l3
  deriving DecidableEq, Repr

end Sys2Proof.Model

namespace Sys2Proof

open Model

/-- A table with one entry for each version class and layer. -/
structure ByClassAndLayer (entry : Type) where
  v1l1 : entry
  v1l2 : entry
  v1l3 : entry
  v2l1 : entry
  v2l2 : entry
  v2l3 : entry
  deriving DecidableEq, Repr

/-- The entry of a class and a layer. -/
def ByClassAndLayer.at {entry : Type} (t : ByClassAndLayer entry) : VersionClass → Layer → entry
  | .v1, .l1 => t.v1l1
  | .v1, .l2 => t.v1l2
  | .v1, .l3 => t.v1l3
  | .v2, .l1 => t.v2l1
  | .v2, .l2 => t.v2l2
  | .v2, .l3 => t.v2l3

/-- A row of `SI_TABLE` (41_header.md R511): the side-information lengths of a version class. -/
structure ByChannels where
  notMono : Nat
  mono : Nat
  deriving DecidableEq, Repr

/-- The parameters of an MFHC: those of R7, in the order of its table, then `SI_TABLE` and `MFHC_BASE` of
92_eei_decisions.md. -/
structure Params where
  /-- `CAPACITY`: bytes in the engine's window buffer, at least 256. -/
  capacity : Nat
  /-- `RESYNC_MARGIN_RESET`. -/
  resyncMarginReset : BitVec 16
  /-- `LOW_WATER_RESET`. -/
  lowWaterReset : BitVec 16
  /-- `MIN_REMAIN`: a step runs only when at least this many bytes remain (90_conflicts.md C1). -/
  minRemain : Nat
  /-- `SCRATCH_SIZE`: bytes in SCRATCH. -/
  scratchSize : Nat
  /-- `MAX_FIELDS`: entries of the format table and registers of the value file. -/
  maxFields : Nat
  /-- `MAX_WIDTH`: the largest field width in bits. -/
  maxWidth : Nat
  /-- `REC_DEPTH`: entries of the record FIFO. -/
  recDepth : Nat
  /-- `POS_WIDTH`: bits of stream positions, lengths and error offsets. -/
  posWidth : Nat
  /-- `CNT_WIDTH`: bits of each event counter, which wraps. -/
  cntWidth : Nat
  /-- `CRC_POLY_RESET`. -/
  crcPolyReset : BitVec 16
  /-- `CRC_INIT_RESET`. -/
  crcInitReset : BitVec 16
  /-- `FRAME_K[vc][layer]` (41_header.md R513). -/
  frameK : ByClassAndLayer Nat
  /-- `L1_PAD_MULT` (R513). -/
  l1PadMult : Nat
  /-- `BITRATE_TABLE[vc][layer]`: the kbit/s of the codes 1 to 14, in order (R508). -/
  bitrateTable : ByClassAndLayer (List Nat)
  /-- `SRATE_TABLE` of class V1: the rates in Hz of the codes 0 to 2 (R509). -/
  srateV1 : List Nat
  /-- `SRATE_TABLE` of class V2 (R509). -/
  srateV2 : List Nat
  /-- `VERSION_MAP` by `version_code` 0 to 3; code 1 is reserved (R506). -/
  versionMap : List (Option Version)
  /-- `LAYER_MAP` by `layer_code` 0 to 3; code 0 is invalid (R507). -/
  layerMap : List (Option Layer)
  /-- `SI_TABLE` of class V1 (R511). -/
  siV1 : ByChannels
  /-- `SI_TABLE` of class V2 (R511). -/
  siV2 : ByChannels
  /-- `MFHC_BASE`: where the 4 KiB register space sits in the host's address space (20_memory.md R212). -/
  base : Nat
  deriving DecidableEq, Repr

/-- The 32-bit words SCRATCH fills in the register map (20_memory.md R202). -/
abbrev Params.scratchWords (par : Params) : Nat := par.scratchSize / 4

namespace Config

/-- `MFHC_BASE` of this hardware. The spec leaves it OPEN, the platform's (20_memory.md R212, 92_eei_decisions.md), so it
has no value here (log entry 19). -/
opaque mfhcBase : Nat

/-- The values this hardware takes (R7), and its open base address. The spec marks the contents of `BITRATE_TABLE`, `SRATE_TABLE`, `VERSION_MAP`
and `LAYER_MAP` as taken from general knowledge (93_implementation_defined.md G1 to G4; PRESUMED by the spec, log
entry 15). -/
abbrev mfhc : Params :=
  { capacity := 8192
    resyncMarginReset := 12
    lowWaterReset := 12
    minRemain := 5
    scratchSize := 256
    maxFields := 32
    maxWidth := 32
    recDepth := 16
    posWidth := 64
    cntWidth := 32
    crcPolyReset := 0x8005
    crcInitReset := 0xFFFF
    frameK := { v1l1 := 12, v1l2 := 144, v1l3 := 144, v2l1 := 240, v2l2 := 72, v2l3 := 72 }
    l1PadMult := 4
    bitrateTable :=
      { v1l1 := [32, 64, 96, 128, 160, 192, 224, 256, 288, 320, 352, 384, 416, 448]
        v1l2 := [32, 48, 56, 64, 80, 96, 112, 128, 160, 192, 224, 256, 320, 384]
        v1l3 := [32, 40, 48, 56, 64, 80, 96, 112, 128, 160, 192, 224, 256, 320]
        v2l1 := [32, 48, 56, 64, 80, 96, 112, 128, 144, 160, 176, 192, 224, 256]
        v2l2 := [8, 16, 24, 32, 40, 48, 56, 64, 80, 96, 112, 128, 144, 160]
        v2l3 := [8, 16, 24, 32, 40, 48, 56, 64, 80, 96, 112, 128, 144, 160] }
    srateV1 := [44100, 48000, 32000]
    srateV2 := [22050, 24000, 16000]
    versionMap := [some .v25, none, some .v2, some .v1]
    layerMap := [none, some .l3, some .l2, some .l1]
    siV1 := { notMono := 32, mono := 17 }
    siV2 := { notMono := 17, mono := 9 }
    base := mfhcBase }

/-- The value of the `ID` register (R2, R110). -/
def idValue : BitVec 32 := 0x4D464843

/-- The value of the `VERSION` register (R2, R111). -/
def versionValue : BitVec 32 := 0x00010000

end Config

end Sys2Proof
end

