-- ==== Sys2Proof/Word.lean ====
section
/-! DEFINITION. The word types of the MFHC: bytes of the streams and of SCRATCH, the 16-bit CRC
registers, the 32-bit registers of the host bus and the stream positions and counters, whose widths are parameters
(00_scope.md R7, R9). -/

namespace Sys2Proof

/-- A byte of SCRATCH, of the side information or of a stream. -/
abbrev Byte := BitVec 8

/-- A 16-bit register: the CRC polynomial, seed and value, the margins. -/
abbrev Half := BitVec 16

/-- A 32-bit register of the host bus (20_memory.md R203). -/
abbrev Word := BitVec 32

/-- A stream position, length or error offset, of `POS_WIDTH` bits (R7). -/
abbrev Pos (par : Params) := BitVec par.posWidth

/-- An event counter, of `CNT_WIDTH` bits (R7). -/
abbrev Count (par : Params) := BitVec par.cntWidth

end Sys2Proof
end

