-- ==== Sys2Proof/Syntax.lean ====
section
/-! DEFINITION. The commands of the MFHC, one constructor for each row of spec/opcode_table.json
(30_encoding.md R302), with the operands the command's rule uses. An operand field a command does not
use is ignored by the hardware (R301) and is no part of the constructor. -/

namespace Sys2Proof

/-- `SRC`, the header source of HDR_DECODE (30_encoding.md R302, 41_header.md R530). -/
inductive HdrSource where
  /-- `SRC = 0`: the four SCRATCH bytes at the offset. -/
  | scratch
  /-- `SRC = 1`: the register `HDR_IN`. -/
  | hdrIn
  deriving DecidableEq, Repr

/-- One command (30_encoding.md R302). Offsets, indexes and counts are the unsigned operand values of
R301; `WellFormed` bounds each by the width of its field. -/
inductive Instr where
  /-- 0x00 NOP (40_codec.md R410). -/
  | nop
  /-- 0x01 FMT_CLEAR (R411). -/
  | fmtClear
  /-- 0x02 FMT_APPEND with `WIDTH`, `KIND` and `EXP_EN` (R412). -/
  | fmtAppend (width kind : Nat) (expEn : Bool)
  /-- 0x03 PACK at a SCRATCH offset (R413). -/
  | pack (off : Nat)
  /-- 0x04 UNPACK at a SCRATCH offset (R414). -/
  | unpack (off : Nat)
  /-- 0x10 HDR_DECODE from SCRATCH or from `HDR_IN` (41_header.md R530). -/
  | hdrDecode (off : Nat) (src : HdrSource)
  /-- 0x11 HDR_UPDATE with the offset of the header's byte 0 (R531). -/
  | hdrUpdate (off : Nat)
  /-- 0x12 HDR_ENCODE with `INCLUDE_CRC` (R532). -/
  | hdrEncode (off : Nat) (includeCrc : Bool)
  /-- 0x13 HDR_SETF with a field index and the new field value (R533). -/
  | hdrSetf (index value : Nat)
  /-- 0x14 HDR_CRCCHK (R534). -/
  | hdrCrcchk
  /-- 0x15 CRC16 over a byte count (R535). -/
  | crc16 (off count : Nat)
  /-- 0x20 ENG_START (43_engine.md R740). -/
  | engStart
  /-- 0x21 ENG_PAUSE (R741). -/
  | engPause
  /-- 0x22 ENG_RESUME (R742). -/
  | engResume
  /-- 0x23 ENG_STEP (R743). -/
  | engStep
  /-- 0x24 ENG_ABORT (R744). -/
  | engAbort
  /-- 0x25 REC_POP (R745). -/
  | recPop
  deriving DecidableEq, Repr

end Sys2Proof
end

