-- ==== Sys2Proof/WellFormed.lean ====
section
/-! DEFINITION. Which commands have an encoding: every operand lies in its field of the command word
(30_encoding.md R300, R301). A value a command's rule rejects (a width above 32, a field index above 12)
is well formed: it has an encoding, and the rule decides its validity (R304). -/

namespace Sys2Proof

/-- The operand fits in `RA`, bits [15:8] of the command word. -/
def fitsRa (n : Nat) : Bool := decide (n < 256)

/-- The operand fits in `IMM`, bits [31:16] of the command word. -/
def fitsImm (n : Nat) : Bool := decide (n < 65536)

/-- Every operand of the command fits in its field. -/
def Instr.wf : Instr → Bool
  | .nop => true
  | .fmtClear => true
  | .fmtAppend width kind _ => decide (width < 64) && decide (kind < 4)
  | .pack off => fitsRa off
  | .unpack off => fitsRa off
  | .hdrDecode off _ => fitsRa off
  | .hdrUpdate off => fitsRa off
  | .hdrEncode off _ => fitsRa off
  | .hdrSetf index value => fitsRa index && fitsImm value
  | .hdrCrcchk => true
  | .crc16 off count => fitsRa off && fitsImm count
  | .engStart => true
  | .engPause => true
  | .engResume => true
  | .engStep => true
  | .engAbort => true
  | .recPop => true

end Sys2Proof
end

