-- ==== Sys2Proof/Decode.lean ====
section
/-! DEFINITION. Decoding of a 32-bit command word (30_encoding.md R300 to R304): total on any word,
rejecting a reserved `OP` by name. After it the encoder, written from the same table, and the entry the
host uses to ask for one row of the opcode table. -/

namespace Sys2Proof

/-- `OP = CMD[7:0]` (R300). -/
def cmdOp (w : Word) : Byte := w.extractLsb' 0 8

/-- `RA = CMD[15:8]`, an unsigned byte (R301). -/
def cmdRa (w : Word) : Nat := (w.extractLsb' 8 8).toNat

/-- `IMM = CMD[31:16]`, an unsigned 16-bit value (R301). -/
def cmdImm (w : Word) : Half := w.extractLsb' 16 16

/-- Why a command word stands for no command. -/
inductive DecodeError where
  /-- A reserved `OP` value (R303): the command unit completes it with ILLEGAL_COMMAND. -/
  | illegalOp (op : Byte)
  deriving DecidableEq, Repr

/-- The command a word encodes: `OP` alone selects it, every `RA` and `IMM` value decodes (R300, R302,
R304); every `OP` not in the map of R302 is illegal (R303). -/
def decode (w : Word) : Except DecodeError Instr :=
  match (cmdOp w).toNat with
  | 0x00 => .ok .nop
  | 0x01 => .ok .fmtClear
  | 0x02 => .ok (.fmtAppend ((cmdImm w).extractLsb' 0 6).toNat ((cmdImm w).extractLsb' 6 2).toNat ((cmdImm w).getLsbD 8))
  | 0x03 => .ok (.pack (cmdRa w))
  | 0x04 => .ok (.unpack (cmdRa w))
  | 0x10 => .ok (.hdrDecode (cmdRa w) (if (cmdImm w).getLsbD 0 then .hdrIn else .scratch))
  | 0x11 => .ok (.hdrUpdate (cmdRa w))
  | 0x12 => .ok (.hdrEncode (cmdRa w) ((cmdImm w).getLsbD 0))
  | 0x13 => .ok (.hdrSetf (cmdRa w) (cmdImm w).toNat)
  | 0x14 => .ok .hdrCrcchk
  | 0x15 => .ok (.crc16 (cmdRa w) (cmdImm w).toNat)
  | 0x20 => .ok .engStart
  | 0x21 => .ok .engPause
  | 0x22 => .ok .engResume
  | 0x23 => .ok .engStep
  | 0x24 => .ok .engAbort
  | 0x25 => .ok .recPop
  | _ => .error (.illegalOp (cmdOp w))

/-- A command word from its three fields (R300). -/
def cmdWord (op ra imm : Nat) : Word :=
  (BitVec.ofNat 16 imm ++ BitVec.ofNat 8 ra ++ BitVec.ofNat 8 op : BitVec 32)

/-- The opcode of a command (R302). -/
def Instr.opcode : Instr → Nat
  | .nop => 0x00
  | .fmtClear => 0x01
  | .fmtAppend _ _ _ => 0x02
  | .pack _ => 0x03
  | .unpack _ => 0x04
  | .hdrDecode _ _ => 0x10
  | .hdrUpdate _ => 0x11
  | .hdrEncode _ _ => 0x12
  | .hdrSetf _ _ => 0x13
  | .hdrCrcchk => 0x14
  | .crc16 _ _ => 0x15
  | .engStart => 0x20
  | .engPause => 0x21
  | .engResume => 0x22
  | .engStep => 0x23
  | .engAbort => 0x24
  | .recPop => 0x25

/-- The commands of the engine family (43_engine.md section 5, R302). -/
def Instr.onEngine (i : Instr) : Bool := decide (0x20 ≤ i.opcode)

/-- The `RA` field of a command; 0 where the command does not use it (R302). -/
def Instr.ra : Instr → Nat
  | .pack off => off
  | .unpack off => off
  | .hdrDecode off _ => off
  | .hdrUpdate off => off
  | .hdrEncode off _ => off
  | .hdrSetf index _ => index
  | .crc16 off _ => off
  | .nop => 0
  | .fmtClear => 0
  | .fmtAppend _ _ _ => 0
  | .hdrCrcchk => 0
  | .engStart => 0
  | .engPause => 0
  | .engResume => 0
  | .engStep => 0
  | .engAbort => 0
  | .recPop => 0

/-- The `IMM` field of a command; 0 in the bits the command does not use (R302). -/
def Instr.imm : Instr → Nat
  | .fmtAppend width kind expEn => width + kind * 2 ^ 6 + expEn.toNat * 2 ^ 8
  | .hdrDecode _ src => match src with | .scratch => 0 | .hdrIn => 1
  | .hdrEncode _ includeCrc => includeCrc.toNat
  | .hdrSetf _ value => value
  | .crc16 _ count => count
  | .nop => 0
  | .fmtClear => 0
  | .pack _ => 0
  | .unpack _ => 0
  | .hdrUpdate _ => 0
  | .hdrCrcchk => 0
  | .engStart => 0
  | .engPause => 0
  | .engResume => 0
  | .engStep => 0
  | .engAbort => 0
  | .recPop => 0

/-- The word of a well-formed command (R300 to R302), with 0 in every ignored bit. -/
def encode (i : Instr) : Word := cmdWord i.opcode i.ra i.imm

/-- The command the decoder reads from a word whose low `nbits` bits are those of `w` and whose other bits
are 0, with bit 0 the least significant bit as spec/opcode_table.json numbers them. -/
def decodeTableWord (nbits w : Nat) : Option Instr :=
  match decode (BitVec.ofNat 32 (w % 2 ^ nbits)) with
  | .ok i => some i
  | .error _ => none

end Sys2Proof
end

