-- ==== Sys2Proof/Machine/State.lean ====
section
/-! DEFINITION. The state of the MFHC as plain data: the command unit, the stream engine with its ports,
the interrupt registers (10_state.md R100), the host's side of the bus, and the order in which the agents
move. The namespace Sys2Proof.Model holds the model of an MFHC with any parameters: each type whose contents depend on them
takes them as `par` (00_scope.md R7). Sys2Proof.Machine holds this hardware, the model at `Config.mfhc`. Beside the state the closed types of the reasons a step can
stop, and the state after reset (70_reset_and_hazards.md R900). -/

namespace Sys2Proof.Model

variable {par : Params}

/-! ## Codes -/

/-- `KIND` of a format entry (10_state.md R120). -/
inductive FieldKind where
  | integer
  | boolean
  deriving DecidableEq, Repr

/-- The 13 fields of the header word, in stream order (30_encoding.md R310). -/
inductive HdrField where
  | sync
  | versionCode
  | layerCode
  | crcFlag
  | bitrateCode
  | samplingrateCode
  | padding
  | priv
  | channelmode
  | modeextension
  | copyright
  | original
  | emphasis
  deriving DecidableEq, Repr

/-- Why a header is malformed (30_encoding.md R332). -/
inductive MalformedReason where
  | sync
  | version
  | layer
  | bitrate
  | samplingrate
  deriving DecidableEq, Repr

/-- The error codes of 60_exceptions.md R800, without NONE. -/
inductive ErrCode where
  | format
  | length
  | unexpectedValue
  | malformedHeader
  | incomplete
  | illegalCommand
  | state
  | unsupportedFormat
  | invalidData
  | endOfStream
  deriving DecidableEq, Repr

/-- A command error: the code and the argument `ERR` reports (R800, R801). -/
structure CmdError where
  code : ErrCode
  arg : Byte
  deriving DecidableEq, Repr

/-- CRC status codes (30_encoding.md R331). -/
inductive CrcStatus where
  | unprotected
  | isMatch
  | mismatch
  | incomplete
  deriving DecidableEq, Repr

/-- Frame kinds (30_encoding.md R330), without code 0 of the empty FIFO. -/
inductive FrameKind where
  | mpeg
  | xing
  | riffHdr
  | riffFmt
  | riffFact
  | riffData
  | id3v1
  | id3v2
  | apev1
  | apev2
  deriving DecidableEq, Repr

/-- `RUNSTATE` (43_engine.md R710). -/
inductive RunState where
  | idle
  | run
  | paused
  | step
  | done
  | error
  deriving DecidableEq, Repr

/-- `SYNC`, the Reader's state (10_state.md R139). -/
inductive SyncState where
  | inSync
  | lostSync
  deriving DecidableEq, Repr

/-! ## The command unit -/

/-- An entry of the format table (10_state.md R120). -/
structure FmtEntry where
  width : BitVec 6
  kind : FieldKind
  expEn : Bool
  exp : Word
  deriving DecidableEq, Repr

/-- The header state (10_state.md R124). -/
structure HdrState (par : Params) where
  word : Word
  valid : Bool
  storedCrc : Half
  crcCap : Bool
  si : Vector Byte 32
  siCap : Bool
  deriving DecidableEq, Repr

/-- The derived values of a valid header word (41_header.md R504 to R511): the arguments of the length
formulas, read from the code tables of the parameters once. -/
structure HdrInfo (par : Params) where
  version : Version
  layer : Layer
  prot : Bool
  kbps : Nat
  hz : Nat
  padding : Bool
  mono : Bool
  deriving DecidableEq, Repr

/-- Bytes by address, strictly rising, no entry equal to what an unlisted address reads as
(Sys2Proof/Machine/Ops.lean, `Memory.wf`). It holds SCRATCH: the address is the byte offset 0 to 255. -/
abbrev Memory := List Host.Cell

/-- A command in flight (60_exceptions.md R850): the word written to `CMD`, and whether steps 2 and 3 of the rule are
done, so that step 4, `BUSY <- 0`, alone is left. -/
structure InFlight where
  word : Word
  executed : Bool
  deriving DecidableEq, Repr

/-- The command unit (10_state.md R110 to R128). -/
structure CmdUnit (par : Params) where
  /-- The command in flight; `STATUS.BUSY` is 1 exactly while there is one (R113, R114). -/
  inFlight : Option InFlight
  /-- A soft reset waits for the command in flight to complete (70_reset_and_hazards.md R902). -/
  srstWaiting : Bool
  /-- `ERR` (R115). -/
  err : Word
  /-- `RESULT` (R116). -/
  result : Word
  /-- `SCRATCH_LEN`, 0 to 256 (R117). -/
  scratchLen : Fin (par.scratchSize + 1)
  /-- `FMT_EXPECT` (R118). -/
  fmtExpect : Word
  /-- `FMT[0 .. COUNT-1]`; `COUNT` is its length (R119, R120). -/
  fmt : List FmtEntry
  /-- `VAL[0..31]` (R122). -/
  val : Vector Word par.maxFields
  /-- SCRATCH (R123). -/
  scratch : Memory
  /-- The header state (R124). -/
  hdr : HdrState par
  /-- `HDR_IN` (R125). -/
  hdrIn : Word
  /-- `CRC_POLY[15:0]` (R128). -/
  crcPoly : Half
  /-- `CRC_INIT[15:0]` (R128). -/
  crcInit : Half
  deriving DecidableEq, Repr

/-! ## The stream engine -/

/-- The latched configuration (10_state.md R141). -/
structure LatchedCfg where
  cfg : BitVec 4
  margin : Half
  poly : Half
  init : Half
  deriving DecidableEq, Repr

/-- The parser session state (10_state.md R134). -/
structure Session where
  hasRiff : Bool
  hasXing : Option Bool
  expVersion : Option Version
  expLayer : Option Layer
  deriving DecidableEq, Repr

/-- The event counters (10_state.md R136). -/
structure Counters (par : Params) where
  frames : Count par
  suppressed : Count par
  lostSync : Count par
  resync : Count par
  discard : Count par
  deriving DecidableEq, Repr

/-- A frame record (10_state.md R140). -/
structure Record (par : Params) where
  kind : FrameKind
  off : Pos par
  len : Pos par
  hdr : Word
  crcStatus : CrcStatus
  xflags : BitVec 4
  xinfo : Bool
  xtagOff : Byte
  xframes : Word
  xsize : Word
  xqual : Word
  deriving DecidableEq, Repr

/-- A candidate of the detector (42_detector.md R600). Its derived values `d` are a function of `hdr`. -/
structure Candidate where
  kind : FrameKind
  len : Nat
  hdr : Word
  xtag : Nat
  xflags : BitVec 4
  xinfo : Bool
  deriving DecidableEq, Repr

/-- An accepted candidate with the changes its step makes when it completes (43_engine.md R711): the session
state the detector left, and whether the step regained synchronisation (R726). -/
structure Accepted where
  cand : Candidate
  sess : Session
  resynced : Bool
  deriving DecidableEq, Repr

/-- The step in progress (43_engine.md R711, R712, R730, R731) and with it the frame on the output port and
how many of its bytes have been delivered (10_state.md R144). -/
inductive Work where
  /-- Between two steps: no step in progress. -/
  | between
  /-- A step has begun; its detection waits until `need` stream bytes are delivered or end-of-stream is seen
  (0 when it has not yet looked at the stream). -/
  | detect (need : Nat)
  /-- An accepted frame is being delivered; `sent` of its bytes have been taken. -/
  | emit (a : Accepted) (sent : Nat)
  /-- FRAME_END has been taken; the record waits for a free FIFO entry. -/
  | push (a : Accepted)
  /-- An accepted frame of a suppressed kind is being dropped. -/
  | drop (a : Accepted)
  /-- FRAME_ABORT of a frame that runs past the end of the stream has been taken. -/
  | closed (a : Accepted)
  deriving DecidableEq, Repr

/-- The stream engine and its ports (10_state.md R130 to R141, R144). -/
structure Engine (par : Params) where
  /-- `ENG_CFG[3:0]` (R130). -/
  cfg : BitVec 4
  /-- `ENG_MARGIN[15:0]` (R131). -/
  margin : Half
  /-- `ENG_LOWWATER[15:0]` (R131). -/
  lowWater : Half
  /-- The latched configuration (R141). -/
  latch : LatchedCfg
  /-- `RUNSTATE` (R132). -/
  run : RunState
  /-- `SYNC` (R132, R139). -/
  sync : SyncState
  /-- `PAUSE_REQ` (R132). -/
  pauseReq : Bool
  /-- ENG_RESUME came while the single step stalled: the change to RUN waits for the step's completion (43_engine.md
  R712). -/
  resumeReq : Bool
  /-- The stream position `P` (R133). -/
  pos : Pos par
  /-- The session state (R134). -/
  sess : Session
  /-- `ENG_ERR`: none, or the fatal error (R135). -/
  err : Option ErrCode
  /-- `ENG_ERR_OFF` (R135). -/
  errOff : Pos par
  /-- The event counters (R136). -/
  cnt : Counters par
  /-- The bytes delivered in this session, `S[0 .. D-1]` (R144, 43_engine.md R702). -/
  stream : List Byte
  /-- `EOS_SEEN`, which is also `STATUS.IN_EOS` (R139, R113). -/
  eos : Bool
  /-- The record FIFO, head first (R140). -/
  fifo : List (Record par)
  /-- The step in progress. -/
  work : Work
  /-- FRAME_ABORT is owed to the output port after ENG_ABORT (43_engine.md R744). -/
  abortOwed : Bool
  deriving DecidableEq, Repr

/-! ## The host's side -/

/-- An item of the output port (43_engine.md R701). -/
inductive OutItem where
  | frameByte (b : Byte)
  | frameEnd
  | frameAbort
  deriving DecidableEq, Repr

/-- One operation of a host program (30_encoding.md R340). A register is named by its address in the host's address
space: `MFHC_BASE` plus its offset (20_memory.md R212). -/
inductive HostOp where
  /-- A register write. -/
  | wr (addr : Nat) (v : Word)
  /-- A register read. -/
  | rd (addr : Nat)
  /-- An input byte is offered. -/
  | inByte (b : Byte)
  /-- End-of-stream is offered. -/
  | inEos
  /-- The next output item is taken. -/
  | take
  /-- `STATUS` is polled until `BUSY = 0`. -/
  | wait
  /-- The platform pulls the reset input (70_reset_and_hazards.md R900). -/
  | hwReset
  deriving DecidableEq, Repr

/-- What the host is about to do, and what it has seen: the values its reads returned and the output items
it took, oldest first. The model's own fields; no part of the block. -/
structure HostSide where
  program : List HostOp
  reads : List Word
  taken : List OutItem
  deriving DecidableEq, Repr

/-- Who moves: one of the three agents (00_scope.md R3). The command unit can do all of a command at once
(`commandUnit`), or its effect alone (`commandEffect`: steps 2 and 3 of 60_exceptions.md R850) with BUSY still 1. -/
inductive Agent where
  | host
  | commandUnit
  | commandEffect
  | engine
  deriving DecidableEq, Repr

/-- The state of the whole machine (10_state.md R100). -/
structure State (par : Params) where
  cu : CmdUnit par
  eng : Engine par
  /-- `IRQ_PEND[7:0]` (R143). -/
  irqPend : BitVec 8
  /-- `IRQ_EN[7:0]` (R143). -/
  irqEn : BitVec 8
  host : HostSide
  /-- Which agent moves next, next first; the model's own field (70_reset_and_hazards.md R940 leaves the order
  open). When it is empty the default order of Sys2Proof/Machine/Agents.lean holds. -/
  turns : List Agent
  deriving DecidableEq, Repr

/-! ## Reset -/

/-- The header state after reset (R124): every element 0. -/
def HdrState.reset : HdrState par :=
  { word := 0, valid := false, storedCrc := 0, crcCap := false, si := Vector.replicate 32 0, siCap := false }

/-- The command unit after reset (R900). `VAL` and SCRATCH are unspecified there; here every register is 0
and no byte is listed (DESIGN CHOICE, unsafe: log entries 1 and 2). -/
def CmdUnit.reset : CmdUnit par :=
  { inFlight := none
    srstWaiting := false
    err := 0
    result := 0
    scratchLen := 0
    fmtExpect := 0
    fmt := []
    val := Vector.replicate par.maxFields 0
    scratch := []
    hdr := .reset
    hdrIn := 0
    crcPoly := par.crcPolyReset
    crcInit := par.crcInitReset }

/-- The session state of a new session (43_engine.md R740): false, none, none, none. -/
def Session.fresh : Session :=
  { hasRiff := false, hasXing := none, expVersion := none, expLayer := none }

/-- Every counter 0 (R136). -/
def Counters.zero : Counters par :=
  { frames := 0, suppressed := 0, lostSync := 0, resync := 0, discard := 0 }

/-- The engine after reset (R900). -/
def Engine.reset : Engine par :=
  { cfg := 0xF
    margin := par.resyncMarginReset
    lowWater := par.lowWaterReset
    latch := { cfg := 0xF, margin := par.resyncMarginReset, poly := par.crcPolyReset, init := par.crcInitReset }
    run := .idle
    sync := .inSync
    pauseReq := false
    resumeReq := false
    pos := 0
    sess := .fresh
    err := none
    errOff := 0
    cnt := .zero
    stream := []
    eos := false
    fifo := []
    work := .between
    abortOwed := false }

/-- A host with nothing to do that has seen nothing. -/
def HostSide.empty : HostSide := { program := [], reads := [], taken := [] }

/-- A machine with the parameters `par` right after hardware reset (R900). -/
def State.resetOf (par : Params) : State par :=
  { cu := .reset, eng := .reset, irqPend := 0, irqEn := 0, host := .empty, turns := [] }

end Sys2Proof.Model

namespace Sys2Proof.Machine

/-! ## This hardware: the model at the values of Config.mfhc -/

/-- The state of this machine. -/
abbrev State := Model.State Config.mfhc

/-- Its command unit. -/
abbrev CmdUnit := Model.CmdUnit Config.mfhc

/-- Its header state. -/
abbrev HdrState := Model.HdrState Config.mfhc

/-- The derived values of a header word, by its code tables. -/
abbrev HdrInfo := Model.HdrInfo Config.mfhc

/-- Its stream engine. -/
abbrev Engine := Model.Engine Config.mfhc

/-- Its event counters. -/
abbrev Counters := Model.Counters Config.mfhc

/-- An entry of its record FIFO. -/
abbrev Record := Model.Record Config.mfhc

/-- Why a step could stop with a fault: never. The MFHC has no trap (60_exceptions.md R830), every access to
the register space is answered (20_memory.md R205) and a stall is a wait (43_engine.md R705), so this type
has no constructor. Safe: nothing is stopped. -/
inductive Fault where
  deriving DecidableEq, Repr

/-- Why a step could be refused. -/
inductive Refusal where
  /-- Raised only by an arm of `exec` whose command has no meaning yet; no arm is left. Safe. -/
  | notModelled (mnemonic : String)
  deriving DecidableEq, Repr

/-- The machine right after hardware reset (R900). -/
def State.reset : State := Model.State.resetOf Config.mfhc

end Sys2Proof.Machine
end

