-- ==== Sys2Proof/Machine/Tables.lean ====
section
/-! DEFINITION. Lookup in the code tables of the MPEG header (41_header.md R506 to R513). The tables are configuration
data (R510) and stand in Sys2Proof/Config.lean. Contents from general knowledge are marked in log entry 15 (93_implementation_defined.md G1 to G5). -/

namespace Sys2Proof.Model

open Machine

/-- A column of `BITRATE_TABLE`: the kbit/s of the codes 1 to 14, in order (R508). -/
def bitrateColumn (vc : VersionClass) (l : Layer) (par : Params := Config.mfhc) : List Nat := par.bitrateTable.at vc l

/-- `BITRATE_TABLE[vc][layer][code]`; codes 0 and 15 have no entry (R508). -/
def bitrateEntry (vc : VersionClass) (l : Layer) (code : Nat) (par : Params := Config.mfhc) : Option Nat :=
  match code with
  | 0 => none
  | code + 1 => (bitrateColumn vc l par)[code]?

/-- `SRATE_TABLE[vc]`, the rates in Hz of the codes 0 to 2; code 3 has no entry (R509). -/
def srateColumn (vc : VersionClass) (par : Params := Config.mfhc) : List Nat :=
  match vc with
  | .v1 => par.srateV1
  | .v2 => par.srateV2

/-- `SI_TABLE[vc]` (R511). -/
def siRow (vc : VersionClass) (par : Params := Config.mfhc) : ByChannels :=
  match vc with
  | .v1 => par.siV1
  | .v2 => par.siV2

/-- The `channelmode` code of a single channel (R511). -/
def monoCode : Nat := 3

end Sys2Proof.Model
end

