-- ==== Sys2Proof/Machine/Ops.lean ====
section
/-! DEFINITION. The named operations every meaning is written over: SCRATCH as a byte memory, the value
file, byte order, the interrupt bits, and how a command completes or raises (60_exceptions.md R801, R820,
R850) and how the engine ends a session (R810). The MFHC has no trap, so nothing stands here for entering or
leaving a handler (R830): raising an error is the one form an exception takes, and it needs no return (R831). -/

namespace Sys2Proof.Model

open Machine

variable {par : Params}

/-! ## Byte order -/

/-- The integer of a byte string, first byte most significant (00_scope.md R9). -/
def beNat (bs : List Byte) : Nat := bs.foldl (fun acc b => acc * 256 + b.toNat) 0

/-- The integer of a byte string, first byte least significant (R9). -/
def leNat : List Byte → Nat
  | [] => 0
  | b :: bs => b.toNat + 256 * leNat bs

/-- The `n`-byte big-endian representation of `x` modulo `2^(8 n)` (40_codec.md R402). -/
def beBytes : Nat → Nat → List Byte
  | 0, _ => []
  | n + 1, x => BitVec.ofNat 8 (x / 256 ^ n) :: beBytes n x

/-- The four bytes of a word, least significant first: the little-endian lanes of 20_memory.md R210. -/
def wordLanes (w : Word) : List Byte :=
  [w.extractLsb' 0 8, w.extractLsb' 8 8, w.extractLsb' 16 8, w.extractLsb' 24 8]

/-- The word whose little-endian lanes are four bytes (R210). -/
def laneWord (b0 b1 b2 b3 : Byte) : Word := (b3 ++ b2 ++ b1 ++ b0 : BitVec 32)

/-- The four bytes of a header word, byte 0 in bits [31:24] (R210). -/
def headerBytes (w : Word) : List Byte :=
  [w.extractLsb' 24 8, w.extractLsb' 16 8, w.extractLsb' 8 8, w.extractLsb' 0 8]

/-! ## Byte memory -/

/-- What a byte that is not listed reads as (DESIGN CHOICE, unsafe: log entry 1). -/
def Memory.unlisted : Byte := 0

/-- The byte at an address. -/
def Memory.read : Memory → Nat → Byte
  | [], _ => Memory.unlisted
  | (a', b) :: m, a => if a = a' then b else Memory.read m a

/-- Put an entry in front unless an unlisted address already reads as it. -/
def Memory.cons (a : Nat) (b : Byte) (m : Memory) : Memory :=
  if b = Memory.unlisted then m else (a, b) :: m

/-- Write one byte, keeping the addresses rising and no entry equal to the unlisted value. -/
def Memory.write : Memory → Nat → Byte → Memory
  | [], a, b => Memory.cons a b []
  | (a', b') :: m, a, b =>
    if a < a' then Memory.cons a b ((a', b') :: m)
    else if a = a' then Memory.cons a b m
    else (a', b') :: Memory.write m a b

/-- Write a byte string from an address up. -/
def Memory.writeBytes (m : Memory) : Nat → List Byte → Memory
  | _, [] => m
  | a, b :: bs => Memory.writeBytes (m.write a b) (a + 1) bs

/-- Read `n` bytes from an address up. -/
def Memory.readBytes (m : Memory) (a : Nat) : Nat → List Byte
  | 0 => []
  | n + 1 => m.read a :: Memory.readBytes m (a + 1) n

/-- Every listed address is at least `lo` and below `size`, the addresses rise strictly, and no entry
equals the unlisted value. -/
def Memory.wfFrom (size : Nat) : Nat → Memory → Bool
  | _, [] => true
  | lo, (a, b) :: m =>
    decide (lo ≤ a) && decide (a < size) && decide (b ≠ Memory.unlisted) && Memory.wfFrom size (a + 1) m

/-- The canonical form of a memory that holds SCRATCH. -/
def Memory.wf (m : Memory) (par : Params := Config.mfhc) : Bool := Memory.wfFrom par.scratchSize 0 m

/-! ## Registers of the command unit -/

/-- `SCRATCH_LEN <- min(n, 256)` (10_state.md R117). -/
def clampLen (n : Nat) : Fin (par.scratchSize + 1) :=
  ⟨min n par.scratchSize, Nat.lt_succ_of_le (Nat.min_le_right _ _)⟩

/-- `ERR <- w`. -/
def State.setErr (s : State par) (w : Word) : State par := { s with cu := { s.cu with err := w } }

/-- `RESULT <- w`. -/
def State.setResult (s : State par) (w : Word) : State par := { s with cu := { s.cu with result := w } }

/-- The format table becomes `f`. -/
def State.setFmt (s : State par) (f : List FmtEntry) : State par := { s with cu := { s.cu with fmt := f } }

/-- The value file becomes `v`. -/
def State.setVal (s : State par) (v : Vector Word par.maxFields) : State par := { s with cu := { s.cu with val := v } }

/-- The header state becomes `h`. -/
def State.setHdr (s : State par) (h : HdrState par) : State par := { s with cu := { s.cu with hdr := h } }

/-- The engine becomes `e`. -/
def State.setEng (s : State par) (e : Engine par) : State par := { s with eng := e }

/-- Set the interrupt bits of `m` in `IRQ_PEND` (60_exceptions.md R820). -/
def State.setIrq (s : State par) (m : BitVec 8) : State par := { s with irqPend := s.irqPend ||| m }

/-- Write bytes to SCRATCH from an offset up, and raise `SCRATCH_LEN` to cover them (10_state.md R117; the last
two lines of PACK and HDR_ENCODE). Writing nothing raises nothing. -/
def State.storeScratch (s : State par) (off : Nat) (bs : List Byte) : State par :=
  { s with cu := { s.cu with
      scratch := s.cu.scratch.writeBytes off bs
      scratchLen := if bs.length = 0 then s.cu.scratchLen else clampLen (max s.cu.scratchLen.val (off + bs.length)) } }

/-- Write successive `VAL` registers from index `i` up (40_codec.md R414). -/
def writeVals (v : Vector Word par.maxFields) : Nat → List Nat → Vector Word par.maxFields
  | _, [] => v
  | i, x :: xs => writeVals (v.setIfInBounds i (BitVec.ofNat 32 x)) (i + 1) xs

/-! ## Interrupt events (60_exceptions.md R820) -/

/-- Bit 0, `CMD_DONE`. -/
def irqCmdDone : BitVec 8 := 0x01
/-- Bit 1, `CMD_ERR`. -/
def irqCmdErr : BitVec 8 := 0x02
/-- Bit 2, `REC_PUSH`. -/
def irqRecPush : BitVec 8 := 0x04
/-- Bit 3, `ENG_DONE`. -/
def irqEngDone : BitVec 8 := 0x08
/-- Bit 4, `ENG_ERR`. -/
def irqEngErr : BitVec 8 := 0x10
/-- Bit 5, `LOST_SYNC`. -/
def irqLostSync : BitVec 8 := 0x20
/-- Bit 6, `RESYNC`. -/
def irqResync : BitVec 8 := 0x40
/-- Bit 7, `OVERRUN`. -/
def irqOverrun : BitVec 8 := 0x80

/-- The bits of `m` when `c` holds, else none. -/
def irqIf (c : Bool) (m : BitVec 8) : BitVec 8 := if c then m else 0

/-! ## Errors -/

/-- The number of an error code (60_exceptions.md R800). -/
def ErrCode.code : ErrCode → Byte
  | .format => 1
  | .length => 2
  | .unexpectedValue => 3
  | .malformedHeader => 4
  | .incomplete => 5
  | .illegalCommand => 6
  | .state => 7
  | .unsupportedFormat => 8
  | .invalidData => 9
  | .endOfStream => 10

/-- `CODE | ARG << 8`, the value `ERR` takes (R801, 10_state.md R115). -/
def CmdError.word (e : CmdError) : Word := (0#16 ++ e.arg ++ e.code.code : BitVec 32)

/-- Raise a command error (00_scope.md R10, 60_exceptions.md R801): `ERR` reports it, `CMD_DONE` and `CMD_ERR`
are set, and nothing else changes. -/
def State.raise (s : State par) (e : CmdError) : State par := (s.setErr e.word).setIrq (irqCmdDone ||| irqCmdErr)

/-- Complete without an error (R801, R850): `ERR <- 0` and `CMD_DONE` is set. -/
def State.succeed (s : State par) : State par := (s.setErr 0).setIrq irqCmdDone

/-- How every command completes: from `s`, with the state its pseudocode reached or the first error it raised;
an error keeps `s` but for `ERR` and `IRQ_PEND` (R801). -/
def finishCommand (s : State par) (r : Except CmdError (State par)) : Host.Outcome (State par) Fault Refusal :=
  match r with
  | .ok t => .next t.succeed
  | .error e => .next (s.raise e)

/-! ## Ends of an engine session -/

/-- `finish(DONE)` (43_engine.md R720): the session ends normally; a pending pause is cleared (R713), and so is a
pending resume. -/
def Engine.finish (e : Engine par) : Engine par :=
  { e with run := .done, pauseReq := false, resumeReq := false, work := .between }

/-- `fatal(code, off)` (R720, 60_exceptions.md R810): the session ends with an error; a pending pause is cleared
(R713), and so is a pending resume. -/
def Engine.fatal (e : Engine par) (code : ErrCode) (off : Nat) : Engine par :=
  { e with
    err := some code
    errOff := BitVec.ofNat par.posWidth off
    run := .error
    pauseReq := false
    resumeReq := false
    work := .between }

/-- The end of a step that does not end the session (R710, R713): in RUN the pause request is tested; in STEP the engine
pauses, or goes on in RUN when ENG_RESUME came while the step stalled (R712, R742). -/
def Engine.boundary (e : Engine par) : Engine par :=
  match e.run with
  | .run => if e.pauseReq then { e with run := .paused, pauseReq := false, work := .between } else { e with work := .between }
  | .step =>
    if e.resumeReq then { e with run := .run, resumeReq := false, work := .between }
    else { e with run := .paused, work := .between }
  | _ => { e with work := .between }

end Sys2Proof.Model
end

