-- ==== Sys2Proof/Machine/HeaderWord.lean ====
section
/-! DEFINITION. The pure functions of the MPEG header word and the CRC-16 (41_header.md R500 to R523), used by
the header commands and by the detector. -/

namespace Sys2Proof.Model

open Machine

variable {par : Params}

/-! ## Fields (30_encoding.md R310, 41_header.md R500) -/

/-- The field of an index 0 to 12 (R310). -/
def HdrField.ofIndex : Nat → Option HdrField
  | 0 => some .sync
  | 1 => some .versionCode
  | 2 => some .layerCode
  | 3 => some .crcFlag
  | 4 => some .bitrateCode
  | 5 => some .samplingrateCode
  | 6 => some .padding
  | 7 => some .priv
  | 8 => some .channelmode
  | 9 => some .modeextension
  | 10 => some .copyright
  | 11 => some .original
  | 12 => some .emphasis
  | _ => none

/-- The lowest bit of a field in the header word (R310). -/
def HdrField.lo : HdrField → Nat
  | .sync => 21
  | .versionCode => 19
  | .layerCode => 17
  | .crcFlag => 16
  | .bitrateCode => 12
  | .samplingrateCode => 10
  | .padding => 9
  | .priv => 8
  | .channelmode => 6
  | .modeextension => 4
  | .copyright => 3
  | .original => 2
  | .emphasis => 0

/-- The width of a field in bits (R310). -/
def HdrField.width : HdrField → Nat
  | .sync => 11
  | .versionCode => 2
  | .layerCode => 2
  | .crcFlag => 1
  | .bitrateCode => 4
  | .samplingrateCode => 2
  | .padding => 1
  | .priv => 1
  | .channelmode => 2
  | .modeextension => 2
  | .copyright => 1
  | .original => 1
  | .emphasis => 2

/-- `field(H, i)` (R500). -/
def hdrField (h : Word) (f : HdrField) : Nat := (h.extractLsb' f.lo f.width).toNat

/-- `H` with a field replaced by `v mod 2^width` (R533). -/
def setHdrField (h : Word) (f : HdrField) (v : Nat) : Word :=
  let mask : Word := (BitVec.allOnes f.width).setWidth 32 <<< f.lo
  (h &&& ~~~mask) ||| ((BitVec.ofNat f.width v).setWidth 32 <<< f.lo)

/-! ## Validation (R501) -/

/-- The reason code of R332. -/
def MalformedReason.code : MalformedReason → Byte
  | .sync => 1
  | .version => 2
  | .layer => 3
  | .bitrate => 4
  | .samplingrate => 5

/-- `validate(H)`: the first failing check, or none for a valid header (R501). -/
def validate (h : Word) : Option MalformedReason :=
  if hdrField h .sync ≠ 0x7FF then some .sync
  else if hdrField h .versionCode = 1 then some .version
  else if hdrField h .layerCode = 0 then some .layer
  else if hdrField h .bitrateCode = 0 ∨ hdrField h .bitrateCode = 15 then some .bitrate
  else if hdrField h .samplingrateCode = 3 then some .samplingrate
  else none

/-! ## Derived values (R504 to R513) -/

/-- `vc`, the version class of a version (R505). -/
def Version.cls : Version → VersionClass
  | .v1 => .v1
  | .v2 => .v2
  | .v25 => .v2

/-- `samplingrate_hz` from the version and the code: the class's rate, halved for V2.5 (R509). -/
def samplingHz (v : Version) (code : Nat) (par : Params := Config.mfhc) : Option Nat :=
  match (srateColumn v.cls par)[code]? with
  | none => none
  | some hz => some (match v with | .v25 => hz / 2 | .v1 => hz | .v2 => hz)

/-- The derived values of a header word. They are defined for valid headers alone (R502): a reserved code has no
entry in its table and the word has no derived values. -/
def HdrInfo.ofWord (h : Word) (par : Params := Config.mfhc) : Option (HdrInfo par) :=
  if hdrField h .sync ≠ 0x7FF then none
  else
    match par.versionMap.getD (hdrField h .versionCode) none, par.layerMap.getD (hdrField h .layerCode) none with
    | some v, some l =>
      match bitrateEntry v.cls l (hdrField h .bitrateCode) par, samplingHz v (hdrField h .samplingrateCode) par with
      | some kbps, some hz =>
        some
          { version := v
            layer := l
            prot := hdrField h .crcFlag = 0
            kbps := kbps
            hz := hz
            padding := hdrField h .padding = 1
            mono := hdrField h .channelmode = monoCode }
      | _, _ => none
    | _, _ => none

/-- `si_len(H)`, the side-information length (R511). -/
def HdrInfo.siLen (d : HdrInfo par) : Nat :=
  let row := siRow d.version.cls par
  if d.mono then row.mono else row.notMono

/-- `2 * prot(H)`, the bytes of the stored CRC (30_encoding.md R312). -/
def HdrInfo.crcLen (d : HdrInfo par) : Nat := 2 * d.prot.toNat

/-- `hlen(H)`, the header byte length (R512). -/
def HdrInfo.hlen (d : HdrInfo par) : Nat := 4 + d.crcLen + d.siLen

/-- `flen(H)`, the frame byte length (R513): the products before the one division. -/
def HdrInfo.flen (d : HdrInfo par) : Nat :=
  let x := par.frameK.at d.version.cls d.layer * d.kbps * 1000 / d.hz
  match d.layer with
  | .l1 => (x + d.padding.toNat * par.l1PadMult) * 4
  | .l2 => x + d.padding.toNat
  | .l3 => x + d.padding.toNat

/-! ## CRC-16 (R520 to R523) -/

/-- One bit of the CRC register: shift, and add the polynomial when the bit shifted out differs from the input
bit (R520). -/
def crcBit (poly c : Half) (bit : Bool) : Half :=
  if c.msb != bit then (c <<< 1) ^^^ poly else c <<< 1

/-- One byte, most significant bit first (R520). -/
def crcByte (poly c : Half) (b : Byte) : Half :=
  [7, 6, 5, 4, 3, 2, 1, 0].foldl (fun acc i => crcBit poly acc (b.getLsbD i)) c

/-- `crc16(B)` with a polynomial and a seed (R520). -/
def crc16 (poly init : Half) (bs : List Byte) : Half := bs.foldl (crcByte poly) init

/-- `crc_input(H, S)`: header bytes 2 and 3, then the side information (R521). -/
def crcInput (h : Word) (si : List Byte) : List Byte := h.extractLsb' 8 8 :: h.extractLsb' 0 8 :: si

/-- `hdr_crc(H, S)` (R522). -/
def hdrCrc (poly init : Half) (h : Word) (si : List Byte) : Half := crc16 poly init (crcInput h si)

/-- `crc_status`, from the protection, the availability of the stored CRC and of the side information, and the
stored and computed CRC (R523). -/
def crcStatus (prot crcAvail siAvail : Bool) (stored computed : Half) : CrcStatus :=
  if !prot then .unprotected
  else if !crcAvail || !siAvail then .incomplete
  else if stored = computed then .isMatch
  else .mismatch

/-- The two bits of a CRC status (30_encoding.md R331). -/
def CrcStatus.code : CrcStatus → BitVec 2
  | .unprotected => 0
  | .isMatch => 1
  | .mismatch => 2
  | .incomplete => 3

/-- Whether a CRC status is valid (R331, R534). -/
def CrcStatus.valid : CrcStatus → Bool
  | .unprotected => true
  | .isMatch => true
  | .mismatch => false
  | .incomplete => false

end Sys2Proof.Model
end

