-- ==== Sys2Proof/Machine/Operands.lean ====
section
/-! DEFINITION. The operand forms of the commands: a SCRATCH region read within `SCRATCH_LEN` or written within
SCRATCH (40_codec.md R413, R414), the header source of HDR_DECODE (41_header.md R530), the held header (R531 to
R534), a header field index (R533), and the bytes available after an offset (R531). -/

namespace Sys2Proof.Model

open Machine

variable {par : Params}

/-- A SCRATCH region read by a command: LENGTH when it passes the valid bytes (10_state.md R117). The comparison is that of
the pseudocode also for an empty region, so one that starts past `SCRATCH_LEN` raises LENGTH; for UNPACK with `COUNT` = 0
and for CRC16 with `n` = 0 that settles a point R414 and R535 leave open (DEDUCED, unsafe: log entry 25). -/
def readRegion (s : State par) (off n : Nat) : Except CmdError (List Byte) :=
  if off + n > s.cu.scratchLen.val then .error ⟨.length, 0⟩
  else .ok (s.cu.scratch.readBytes off n)

/-- A SCRATCH region written by a command: LENGTH when it passes the end of SCRATCH, else the state with the
bytes stored and `SCRATCH_LEN` raised (R413, R532). -/
def writeRegion (s : State par) (off : Nat) (bs : List Byte) : Except CmdError (State par) :=
  if off + bs.length > par.scratchSize then .error ⟨.length, 0⟩
  else .ok (s.storeScratch off bs)

/-- The header word HDR_DECODE reads: `HDR_IN`, or four SCRATCH bytes big-endian (R530). -/
def headerSource (s : State par) (off : Nat) : HdrSource → Except CmdError Word
  | .hdrIn => .ok s.cu.hdrIn
  | .scratch =>
    match readRegion s off 4 with
    | .ok bs => .ok (BitVec.ofNat 32 (beNat bs))
    | .error e => .error e

/-- The derived values of the held header, none when no valid header is held (10_state.md R124). -/
def HdrState.info (h : HdrState par) : Option (HdrInfo par) := if h.valid then HdrInfo.ofWord h.word par else none

/-- The held header as an operand: STATE(0) when no valid header is held (R531 to R534). -/
def heldHeader (s : State par) : Except CmdError (HdrInfo par) :=
  match s.cu.hdr.info with
  | some d => .ok d
  | none => .error ⟨.state, 0⟩

/-- A header field index as an operand: ILLEGAL_COMMAND(i) above 12 (R533). -/
def fieldOperand (i : Nat) : Except CmdError HdrField :=
  match HdrField.ofIndex i with
  | some f => .ok f
  | none => .error ⟨.illegalCommand, BitVec.ofNat 8 i⟩

/-- A header word as an operand that must be valid: MALFORMED_HEADER with the first failing reason (R501). -/
def validHeader (h : Word) : Except CmdError Word :=
  match validate h with
  | some r => .error ⟨.malformedHeader, r.code⟩
  | none => .ok h

/-- The valid SCRATCH bytes from an offset on (R531). -/
def availableFrom (s : State par) (off : Nat) : Nat := s.cu.scratchLen.val - off

/-- The captured side information, `SI[0 .. si_len)` (R532, R534). -/
def HdrState.siBytes (h : HdrState par) (d : HdrInfo par) : List Byte := h.si.toList.take d.siLen

end Sys2Proof.Model
end

