-- ==== Sys2Proof/Machine/Codec.lean ====
section
/-! DEFINITION. The generic bit-field codec: the format (40_codec.md R400 to R402) and the commands NOP,
FMT_CLEAR, FMT_APPEND, PACK and UNPACK (R410 to R414). -/

namespace Sys2Proof.Model

open Machine

variable {par : Params}

/-! ## The format -/

/-- `TOTAL_BITS`, the sum of the widths (R400). -/
def totalBits (f : List FmtEntry) : Nat := (f.map (fun e => e.width.toNat)).sum

/-- `BYTE_LEN = ceil(TOTAL_BITS / 8)` (R400). -/
def byteLen (f : List FmtEntry) : Nat := (totalBits f + 7) / 8

/-- The number of pad bits, `8*BYTE_LEN - TOTAL_BITS` (R401, R402). -/
def padBits (f : List FmtEntry) : Nat := 8 * byteLen f - totalBits f

/-- The value a field packs: a Boolean coerced to 0 or 1, an Integer masked to its width (R402). -/
def packValue (e : FmtEntry) (v : Word) : Nat :=
  match e.kind with
  | .boolean => if v ≠ 0 then 1 else 0
  | .integer => v.toNat % 2 ^ e.width.toNat

/-- The accumulator of `packbits` after the fields, first field most significant (R402). -/
def packAcc : Nat → List (FmtEntry × Word) → Nat
  | acc, [] => acc
  | acc, (e, v) :: rest => packAcc (acc * 2 ^ e.width.toNat + packValue e v) rest

/-- `packbits(F, v)` (R402); the pad bits are 0. -/
def packbits (f : List FmtEntry) (v : List Word) : List Byte :=
  beBytes (byteLen f) (packAcc 0 (f.zip v) * 2 ^ padBits f)

/-- The loop of `unpackbits`, last field first: the values in index order and what is left of the accumulator
(R402). -/
def unpackAcc : List FmtEntry → Nat → List Nat × Nat
  | [], acc => ([], acc)
  | e :: rest, acc =>
    let r := unpackAcc rest acc
    (r.2 % 2 ^ e.width.toNat :: r.1, r.2 / 2 ^ e.width.toNat)

/-- `unpackbits(F, B)` (R402); the pad bits are ignored. -/
def unpackbits (f : List FmtEntry) (bs : List Byte) : List Nat :=
  (unpackAcc f (beNat (bs.take (byteLen f)) / 2 ^ padBits f)).1

/-- The lowest index, from `i` on, of a field whose value differs from its expected constant (R414). -/
def firstUnexpected : Nat → List FmtEntry → List Nat → Option Nat
  | i, e :: f, x :: xs => if e.expEn && decide (x ≠ e.exp.toNat) then some i else firstUnexpected (i + 1) f xs
  | _, _, _ => none

/-- The two-bit `KIND` of FMT_APPEND: codes 2 and 3 are unknown (R412). -/
def FieldKind.ofCode : Nat → Option FieldKind
  | 0 => some .integer
  | 1 => some .boolean
  | _ => none

/-! ## One field compiled -/

/-- The entry FMT_APPEND compiles, or the first check that fails, in the order of R412. -/
def compileField (width kind : Nat) (expEn : Bool) (expect : Word) (count : Nat)
    (par : Params := Config.mfhc) : Except CmdError FmtEntry :=
  match FieldKind.ofCode kind with
  | none => .error ⟨.format, 1⟩
  | some k =>
    if width = 0 ∨ width > par.maxWidth then .error ⟨.format, 2⟩
    else if k = .boolean ∧ width ≠ 1 then .error ⟨.format, 3⟩
    else if expEn = true ∧ expect.toNat ≥ 2 ^ width then .error ⟨.format, 4⟩
    else if count ≥ par.maxFields then .error ⟨.format, 5⟩
    else .ok { width := BitVec.ofNat 6 width, kind := k, expEn := expEn, exp := if expEn then expect else 0 }

end Sys2Proof.Model

namespace Sys2Proof.Machine

open Model

variable {par : Params}

/-! ## The commands -/

/-- NOP (R410): all state but `ERR` and `IRQ_PEND` unchanged. -/
def execNop (s : Model.State par) : Host.Outcome (Model.State par) Fault Refusal := finishCommand s (.ok s)

/-- FMT_CLEAR (R411): `COUNT <- 0`. -/
def execFmtClear (s : Model.State par) : Host.Outcome (Model.State par) Fault Refusal := finishCommand s (.ok (s.setFmt []))

/-- FMT_APPEND (R412). -/
def execFmtAppend (width kind : Nat) (expEn : Bool) (s : Model.State par) : Host.Outcome (Model.State par) Fault Refusal :=
  finishCommand s
    (match compileField width kind expEn s.cu.fmtExpect s.cu.fmt.length par with
     | .error e => .error e
     | .ok e => .ok (s.setFmt (s.cu.fmt ++ [e])))

/-- PACK (R413). -/
def execPack (off : Nat) (s : Model.State par) : Host.Outcome (Model.State par) Fault Refusal :=
  finishCommand s
    (match writeRegion s off (packbits s.cu.fmt s.cu.val.toList) with
     | .error e => .error e
     | .ok t => .ok (t.setResult (BitVec.ofNat 32 (byteLen s.cu.fmt))))

/-- UNPACK (R414): the length check, then the expected constants in index order, then the writes. With `COUNT` = 0 and `off`
past `SCRATCH_LEN` the length check raises, as the pseudocode has it (DEDUCED, unsafe: log entry 25). -/
def execUnpack (off : Nat) (s : Model.State par) : Host.Outcome (Model.State par) Fault Refusal :=
  finishCommand s
    (match readRegion s off (byteLen s.cu.fmt) with
     | .error e => .error e
     | .ok bs =>
       match firstUnexpected 0 s.cu.fmt (unpackbits s.cu.fmt bs) with
       | some i => .error ⟨.unexpectedValue, BitVec.ofNat 8 i⟩
       | none =>
         .ok ((s.setVal (writeVals s.cu.val 0 (unpackbits s.cu.fmt bs))).setResult (BitVec.ofNat 32 (byteLen s.cu.fmt))))

end Sys2Proof.Machine
end

