-- ==== Sys2Proof/Machine/Detector.lean ====
section
/-! DEFINITION. The frame-boundary detector (42_detector.md R600 to R640) over the stream bytes delivered so far
(43_engine.md R703, R704). A test that needs a byte which has not arrived does not answer: it says how many
bytes must have been delivered, and the engine stalls until then. Bytes are read in the order the rules write
their tests, and no further than the first that decides (DEDUCED, log entry 11). -/

namespace Sys2Proof.Model

open Machine

variable {par : Params}

/-- An answer, or the number of stream bytes that must be delivered (or end-of-stream seen) before there is one. -/
abbrev Look := Except Nat

/-- What the engine can see of the stream: the bytes delivered, whether end-of-stream was seen, and `P`. -/
structure View (par : Params) where
  stream : List Byte
  eos : Bool
  pos : Nat
  deriving DecidableEq, Repr

/-- `StreamByte(q)` (43_engine.md R703): none is ABSENT. -/
def streamByte (v : View par) (q : Nat) : Look (Option Byte) :=
  if q - v.pos ≥ par.capacity then .ok none
  else
    match v.stream[q]? with
    | some b => .ok (some b)
    | none => if v.eos then .ok none else .error (q + 1)

/-- `HAVE(x)` (R704). -/
def haveUpTo (v : View par) (x : Nat) : Look Bool :=
  if x ≤ v.stream.length then .ok true
  else if v.eos then .ok false
  else .error x

/-- `lit(q, s)` (42_detector.md R601). -/
def lit (v : View par) (q : Nat) : List Byte → Look Bool
  | [] => .ok true
  | c :: cs => do
    match ← streamByte v q with
    | some b => if b = c then lit v (q + 1) cs else .ok false
    | none => .ok false

/-- `n` bytes from `q`, none when any of them is ABSENT (R601). -/
def bytesAt (v : View par) (q : Nat) : Nat → Look (Option (List Byte))
  | 0 => .ok (some [])
  | n + 1 => do
    match ← streamByte v q with
    | none => .ok none
    | some b =>
      match ← bytesAt v (q + 1) n with
      | none => .ok none
      | some bs => .ok (some (b :: bs))

/-! ## The literals -/

/-- ASCII "Xing". -/
def litXing : List Byte := [0x58, 0x69, 0x6E, 0x67]
/-- ASCII "Info". -/
def litInfo : List Byte := [0x49, 0x6E, 0x66, 0x6F]
/-- ASCII "RIFF". -/
def litRiff : List Byte := [0x52, 0x49, 0x46, 0x46]
/-- ASCII "WAVE". -/
def litWave : List Byte := [0x57, 0x41, 0x56, 0x45]
/-- ASCII "fmt " with its space. -/
def litFmt : List Byte := [0x66, 0x6D, 0x74, 0x20]
/-- ASCII "fact". -/
def litFact : List Byte := [0x66, 0x61, 0x63, 0x74]
/-- ASCII "data". -/
def litData : List Byte := [0x64, 0x61, 0x74, 0x61]
/-- ASCII "TAG". -/
def litTag : List Byte := [0x54, 0x41, 0x47]
/-- ASCII "ID3". -/
def litId3 : List Byte := [0x49, 0x44, 0x33]
/-- ASCII "APETAGEX". -/
def litApe : List Byte := [0x41, 0x50, 0x45, 0x54, 0x41, 0x47, 0x45, 0x58]

/-- The `fmt ` format tag of MPEG Layer III (R621). -/
def mpegFormatTag : Nat := 0x55

/-! ## Results -/

/-- A candidate with no fields beyond its kind and length (R600). -/
def Candidate.plain (kind : FrameKind) (len : Nat) : Candidate :=
  { kind := kind, len := len, hdr := 0, xtag := 0, xflags := 0, xinfo := false }

/-- The result of `find` (R600, R603). -/
inductive Found where
  | hit (c : Candidate)
  | notThis
  | fatal (code : ErrCode) (off : Nat)
  deriving DecidableEq, Repr

/-! ## MPEG audio frames -/

/-- The session expects another version or layer (R610). -/
def Session.disagrees (sess : Session) (d : HdrInfo par) : Bool :=
  (sess.expVersion.isSome && decide (sess.expVersion ≠ some d.version))
    || (sess.expLayer.isSome && decide (sess.expLayer ≠ some d.layer))

/-- The valid header at `q`, and not one a strict trial refuses (R610). -/
def mpegHeaderAt (v : View par) (sess : Session) (q : Nat) (strict : Bool) : Look (Option (Word × HdrInfo par)) := do
  match ← bytesAt v q 4 with
  | none => .ok none
  | some bs =>
    match HdrInfo.ofWord (BitVec.ofNat 32 (beNat bs)) par with
    | none => .ok none
    | some d => if strict && sess.disagrees d then .ok none else .ok (some (BitVec.ofNat 32 (beNat bs), d))

/-- `try_MPEG(q, strict)` (R610). -/
def tryMpeg (v : View par) (sess : Session) (q : Nat) (strict : Bool) : Look (Option Candidate) := do
  match ← mpegHeaderAt v sess q strict with
  | none => .ok none
  | some (h, d) => .ok (some { kind := .mpeg, len := d.flen, hdr := h, xtag := 0, xflags := 0, xinfo := false })

/-- The bytes a Xing tag, its flags word and its fields span (R611). -/
def xingSpan (f : BitVec 4) : Nat :=
  8 + 4 * (f.getLsbD 0).toNat + 4 * (f.getLsbD 1).toNat + 100 * (f.getLsbD 2).toNat + 4 * (f.getLsbD 3).toNat

/-- A tag in the frame at `q` of length `len`, at frame offset `t`: its flags and whether it reads "Info"; none
when the position fails (R611, the body of its loop). -/
def xingTagAt (v : View par) (q len t : Nat) : Look (Option (BitVec 4 × Bool)) := do
  if t + 8 > len then .ok none
  else
    let isXing ← lit v (q + t) litXing
    let isInfo ← if isXing then .ok false else lit v (q + t) litInfo
    if !isXing && !isInfo then .ok none
    else
      match ← bytesAt v (q + t + 4) 4 with
      | none => .ok none
      | some bs =>
        let f : BitVec 4 := BitVec.ofNat 4 (beNat bs)
        if t + xingSpan f > len then .ok none else .ok (some (f, isInfo))

/-- The first position that holds a tag (R611, the loop). -/
def firstXingTag (v : View par) (q len : Nat) : List Nat → Look (Option (Nat × BitVec 4 × Bool))
  | [] => .ok none
  | t :: ts => do
    match ← xingTagAt v q len t with
    | some (f, isInfo) => .ok (some (t, f, isInfo))
    | none => firstXingTag v q len ts

/-- The tag positions: after the header, and 2 bytes later when protected (R611, 90_conflicts.md C7). -/
def xingPositions (d : HdrInfo par) : List Nat := if d.prot then [d.hlen, d.hlen + 2] else [d.hlen]

/-- `try_XING(q, strict)` with its write of `HAS_XING` (R611, R602). -/
def tryXing (v : View par) (sess : Session) (q : Nat) (strict : Bool) : Look (Session × Option Candidate) := do
  if sess.hasXing = some false then .ok (sess, none)
  else
    match ← mpegHeaderAt v sess q strict with
    | none => .ok (sess, none)
    | some (h, d) =>
      match ← firstXingTag v q d.flen (xingPositions d) with
      | some (t, f, isInfo) =>
        .ok ({ sess with hasXing := some true },
          some { kind := .xing, len := d.flen, hdr := h, xtag := t, xflags := f, xinfo := isInfo })
      | none => .ok ({ sess with hasXing := some false }, none)

/-! ## RIFF container -/

/-- The RIFF container header at `q` (R620). -/
def isRiffHeader (v : View par) (q : Nat) : Look Bool := do
  if ← lit v q litRiff then
    if ← lit v (q + 8) litWave then .ok (decide (q = 0)) else .ok false
  else .ok false

/-- The RIFF `fmt ` chunk at `q` (R621). -/
def tryRiffFmt (v : View par) (q : Nat) : Look Found := do
  if ← lit v q litFmt then
    match ← bytesAt v (q + 4) 6 with
    | none => .ok .notThis
    | some bs =>
      if leNat (bs.drop 4) ≠ mpegFormatTag then .ok (.fatal .unsupportedFormat q)
      else .ok (.hit (.plain .riffFmt (leNat (bs.take 4) + 8)))
  else .ok .notThis

/-- The RIFF `fact` chunk at `q` (R622). -/
def tryRiffFact (v : View par) (q : Nat) : Look Found := do
  if ← lit v q litFact then
    match ← bytesAt v (q + 4) 4 with
    | none => .ok .notThis
    | some bs => .ok (.hit (.plain .riffFact (leNat bs + 8)))
  else .ok .notThis

/-- The RIFF `data` chunk at `q` (R623). -/
def tryRiffData (v : View par) (q : Nat) : Look Found := do
  if ← lit v q litData then .ok (.hit (.plain .riffData 8)) else .ok .notThis

/-- The chunks inside a container, in the order `fmt `, `fact`, `data` (R603, R621 to R623). -/
def tryRiffChunk (v : View par) (q : Nat) : Look Found := do
  match ← tryRiffFmt v q with
  | .hit c => .ok (.hit c)
  | .fatal code off => .ok (.fatal code off)
  | .notThis =>
    match ← tryRiffFact v q with
    | .hit c => .ok (.hit c)
    | .fatal code off => .ok (.fatal code off)
    | .notThis => tryRiffData v q

/-- `try_RIFF`, with its write of `HAS_RIFF` (R603, R620, R602). -/
def tryRiff (v : View par) (sess : Session) (q : Nat) : Look (Session × Found) := do
  if ← isRiffHeader v q then .ok ({ sess with hasRiff := true }, .hit (.plain .riffHdr 12))
  else if sess.hasRiff then
    let r ← tryRiffChunk v q
    .ok (sess, r)
  else .ok (sess, .notThis)

/-! ## Tags -/

/-- The 28-bit size of four 7-bit bytes, first most significant; bit 7 of each is ignored (R631). -/
def id3Size (bs : List Byte) : Nat := bs.foldl (fun acc b => acc * 128 + b.toNat % 128) 0

/-- `try_ID3`: ID3v1, then ID3v2 (R630, R631). -/
def tryId3 (v : View par) (q : Nat) : Look (Option Candidate) := do
  if ← lit v q litTag then .ok (some (.plain .id3v1 128))
  else if ← lit v q litId3 then
    match ← bytesAt v (q + 3) 7 with
    | none => .ok none
    | some bs => .ok (some (.plain .id3v2 (id3Size (bs.drop 3) + 10)))
  else .ok none

/-- `try_APE` (R640). -/
def tryApe (v : View par) (q : Nat) : Look (Option Candidate) := do
  if ← lit v q litApe then
    match ← bytesAt v (q + 8) 8 with
    | none => .ok none
    | some bs =>
      if leNat (bs.take 4) = 2000 then .ok (some (.plain .apev2 (leNat (bs.drop 4) + 32)))
      else if leNat (bs.take 4) = 1000 then .ok (some (.plain .apev1 (leNat (bs.drop 4) + 32)))
      else .ok none
  else .ok none

/-! ## The whole detector -/

/-- `find(q, strict)` (R603): the groups XING, MPEG, RIFF, ID3, APE in this order, the first result that is not
`NotThis`. -/
def find (v : View par) (sess : Session) (q : Nat) (strict : Bool) : Look (Session × Found) := do
  match ← tryXing v sess q strict with
  | (s1, some c) => .ok (s1, .hit c)
  | (s1, none) =>
    match ← tryMpeg v s1 q strict with
    | some c => .ok (s1, .hit c)
    | none =>
      match ← tryRiff v s1 q with
      | (s2, .hit c) => .ok (s2, .hit c)
      | (s2, .fatal code off) => .ok (s2, .fatal code off)
      | (s2, .notThis) =>
        match ← tryId3 v q with
        | some c => .ok (s2, .hit c)
        | none =>
          match ← tryApe v q with
          | some c => .ok (s2, .hit c)
          | none => .ok (s2, .notThis)

end Sys2Proof.Model

namespace Sys2Proof.Machine

/-- What this machine's engine can see of the stream. -/
abbrev View := Model.View Config.mfhc

end Sys2Proof.Machine
end

