-- ==== Sys2Proof/Machine/Engine.lean ====
section
/-! DEFINITION. The stream engine: its ports (43_engine.md R700 to R706), one move of the step in progress
(R710 to R736), and the commands ENG_START, ENG_PAUSE, ENG_RESUME, ENG_STEP, ENG_ABORT and REC_POP (R740 to
R745). A move changes the engine alone and says which interrupt events it raises (60_exceptions.md R851). -/

namespace Sys2Proof.Model

open Machine

variable {par : Params}

/-! ## Run states, configuration and the stream -/

/-- The number of a run state (43_engine.md R710). -/
def RunState.code : RunState → Nat
  | .idle => 0
  | .run => 1
  | .paused => 2
  | .step => 3
  | .done => 4
  | .error => 5

/-- A session is active in RUN, PAUSED and STEP (R710). -/
def RunState.active : RunState → Bool
  | .run => true
  | .paused => true
  | .step => true
  | .idle => false
  | .done => false
  | .error => false

/-- `SKIP`, from the latched configuration (10_state.md R130, R141). -/
def LatchedCfg.skip (l : LatchedCfg) : Bool := l.cfg.getLsbD 0

/-- `emit_enabled(k)` (43_engine.md R732). -/
def LatchedCfg.emits (l : LatchedCfg) : FrameKind → Bool
  | .mpeg => true
  | .xing => true
  | .riffHdr => l.cfg.getLsbD 1
  | .riffFmt => l.cfg.getLsbD 1
  | .riffFact => l.cfg.getLsbD 1
  | .riffData => l.cfg.getLsbD 1
  | .id3v1 => l.cfg.getLsbD 2
  | .id3v2 => l.cfg.getLsbD 2
  | .apev1 => l.cfg.getLsbD 3
  | .apev2 => l.cfg.getLsbD 3

/-- The kinds MPEG and XING (R730, R732). -/
def FrameKind.isMpeg : FrameKind → Bool
  | .mpeg => true
  | .xing => true
  | .riffHdr => false
  | .riffFmt => false
  | .riffFact => false
  | .riffData => false
  | .id3v1 => false
  | .id3v2 => false
  | .apev1 => false
  | .apev2 => false

/-- `P` as a number. -/
def Engine.p (e : Engine par) : Nat := e.pos.toNat

/-- `D`, the number of bytes delivered (R702). -/
def Engine.d (e : Engine par) : Nat := e.stream.length

/-- `N`, the length of the stream, known once end-of-stream is seen (10_state.md R139). -/
def Engine.n (e : Engine par) : Option Nat := if e.eos then some e.d else none

/-- What the detector sees (43_engine.md R703). -/
def Engine.view (e : Engine par) : View par := { stream := e.stream, eos := e.eos, pos := e.p }

/-! ## The window buffer and the input port -/

/-- The stream position of the first byte in the window: `P`, but while an accepted frame longer than the
window streams through it, the first byte not yet delivered or dropped (R734; DEDUCED, log entry 10). -/
def Engine.windowBase (e : Engine par) : Nat :=
  match e.work with
  | .emit a sent => if a.cand.len > par.capacity then e.p + sent else e.p
  | .push a => if a.cand.len > par.capacity then e.p + a.cand.len else e.p
  | .drop a => if a.cand.len > par.capacity then min (e.p + a.cand.len) e.d else e.p
  | .closed a => if a.cand.len > par.capacity then min (e.p + a.cand.len) e.d else e.p
  | .between => e.p
  | .detect _ => e.p

/-- `W_LEN` (10_state.md R138): the window holds the bytes up to `min(D, base + CAPACITY)` (43_engine.md R702). -/
def Engine.windowLen (e : Engine par) : Nat := min (e.d - e.windowBase) par.capacity

/-- The bytes the window buffer holds (R138). -/
def Engine.window (e : Engine par) : List Byte := (e.stream.drop e.windowBase).take par.capacity

/-- The input port accepts a byte (43_engine.md R700). -/
def Engine.acceptsByte (e : Engine par) : Bool :=
  e.run.active && !e.eos && decide (e.windowLen < par.capacity)

/-- The input port accepts the end-of-stream mark (R700). -/
def Engine.acceptsEos (e : Engine par) : Bool := e.run.active && !e.eos

/-- A byte is delivered (R700). -/
def Engine.deliver (e : Engine par) (b : Byte) : Engine par := { e with stream := e.stream ++ [b] }

/-- End-of-stream is delivered (R700). -/
def Engine.deliverEos (e : Engine par) : Engine par := { e with eos := true }

/-! ## The output port -/

/-- The item the output port offers (R701, R731): the next byte of the frame once it has arrived, FRAME_END after
the last, FRAME_ABORT when the stream ends inside the frame (R730) or ENG_ABORT cut it (R744). -/
def Engine.offer (e : Engine par) : Option OutItem :=
  if e.abortOwed then some .frameAbort
  else
    match e.work with
    | .emit a sent =>
      if sent ≥ a.cand.len then some .frameEnd
      else
        match e.stream[e.p + sent]? with
        | some b => some (.frameByte b)
        | none => if e.eos then some .frameAbort else none
    | .between => none
    | .detect _ => none
    | .push _ => none
    | .drop _ => none
    | .closed _ => none

/-- The engine after the host took the offered item. -/
def Engine.taken (e : Engine par) : Engine par :=
  if e.abortOwed then { e with abortOwed := false }
  else
    match e.work with
    | .emit a sent =>
      if sent ≥ a.cand.len then { e with work := .push a }
      else
        match e.stream[e.p + sent]? with
        | some _ => { e with work := .emit a (sent + 1) }
        | none => if e.eos then { e with work := .closed a } else e
    | .between => e
    | .detect _ => e
    | .push _ => e
    | .drop _ => e
    | .closed _ => e

/-! ## Stalls -/

/-- `STALL_IN`: the engine waits for an input byte (10_state.md R132, 43_engine.md R703). Once a frame is accepted,
`HAVE(P + L)` of R730 waits until all of its bytes have arrived (R704), whether or not the host has taken those that
have. -/
def Engine.stallIn (e : Engine par) : Bool :=
  !e.eos &&
    match e.work with
    | .detect need => decide (need > e.d)
    | .emit a _ => decide (e.p + a.cand.len > e.d)
    | .drop a => decide (e.p + a.cand.len > e.d)
    | .between => false
    | .push _ => false
    | .closed _ => false

/-- `STALL_OUT`: the engine waits for the output port or the record FIFO (R132, R701, R731). -/
def Engine.stallOut (e : Engine par) : Bool :=
  match e.work with
  | .emit _ _ => e.offer.isSome
  | .push _ => decide (e.fifo.length ≥ par.recDepth)
  | .between => false
  | .detect _ => false
  | .drop _ => false
  | .closed _ => false

/-- The step in progress has looked at the stream. With none in progress the engine is between two steps, and a step that
has begun and not yet looked counts as between two steps too (DEDUCED, log entry 8). -/
def Work.underway : Work → Bool
  | .between => false
  | .detect need => decide (need ≠ 0)
  | .emit _ _ => true
  | .push _ => true
  | .drop _ => true
  | .closed _ => true

/-- An engine command can act now (60_exceptions.md R850, R712): the engine is between two steps or in a stall. -/
def Engine.yields (e : Engine par) : Bool := !e.work.underway || e.stallIn || e.stallOut

/-- `IN_REQ`, the advisory input request (R706). -/
def Engine.inReq (e : Engine par) : Bool :=
  e.run.active && !e.eos && (decide (e.windowLen < e.lowWater.toNat) || e.stallIn)

/-! ## The record of an emitted frame -/

/-- The first `n` bytes at `P`. -/
def Engine.frameBytes (e : Engine par) (n : Nat) : List Byte := (e.stream.drop e.p).take n

/-- The CRC status of an MPEG or XING record, from the frame's own bytes (R736). -/
def Engine.frameCrcStatus (e : Engine par) (d : HdrInfo par) (h : Word) (len : Nat) : CrcStatus :=
  if !d.prot then .unprotected
  else if 6 + d.siLen > len then .incomplete
  else
    crcStatus true true true
      (BitVec.ofNat 16 (beNat ((e.frameBytes 6).drop 4)))
      (hdrCrc e.latch.poly e.latch.init h ((e.frameBytes (6 + d.siLen)).drop 6))

/-- A big-endian 32-bit Xing field at frame offset `t`, 0 when its flag is clear (42_detector.md R612). -/
def Engine.xingField (e : Engine par) (flag : Bool) (t : Nat) : Word :=
  if flag then BitVec.ofNat 32 (beNat ((e.frameBytes (t + 4)).drop t)) else 0

/-- The record of an emitted frame (43_engine.md R731). -/
def Engine.record (e : Engine par) (c : Candidate) : Record par :=
  let f := c.xflags
  let a := c.xtag + 8
  let b := a + 4 * (f.getLsbD 0).toNat
  let q := b + 4 * (f.getLsbD 1).toNat + 100 * (f.getLsbD 2).toNat
  { kind := c.kind
    off := e.pos
    len := BitVec.ofNat par.posWidth c.len
    hdr := c.hdr
    crcStatus :=
      match c.kind.isMpeg, HdrInfo.ofWord c.hdr par with
      | true, some d => e.frameCrcStatus d c.hdr c.len
      | _, _ => .unprotected
    xflags := f
    xinfo := c.xinfo
    xtagOff := BitVec.ofNat 8 c.xtag
    xframes := e.xingField (f.getLsbD 0) a
    xsize := e.xingField (f.getLsbD 1) b
    xqual := e.xingField (f.getLsbD 3) q }

/-! ## The detection part of a step (R720, R726) -/

/-- What the detection part of a step decides (R720). -/
inductive Verdict where
  /-- `finish(DONE)`: too few bytes remain. -/
  | finish
  /-- `fatal(code, off)`. -/
  | fatal (code : ErrCode) (off : Nat)
  /-- No candidate accepted: one byte is discarded. -/
  | discard
  /-- A candidate is accepted. -/
  | accept (c : Candidate)
  deriving DecidableEq, Repr

/-- A decision with the changes it brings: the session state, and the two synchronisation transitions. -/
structure Decision where
  verdict : Verdict
  sess : Session
  lost : Bool
  resynced : Bool
  deriving DecidableEq, Repr

/-- Step 5 of R720: no candidate was accepted (R728). -/
def Engine.noCandidate (e : Engine par) (sess : Session) : Decision :=
  { verdict := if e.latch.skip then .discard else .fatal .invalidData e.p
    sess := sess
    lost := decide (e.sync = .inSync)
    resynced := false }

/-- Recovery confirmation of a candidate found in LostSync (R726). -/
def Engine.confirm (e : Engine par) (sess : Session) (c : Candidate) : Look Decision := do
  if c.len + e.latch.margin.toNat > par.capacity then .ok (e.noCandidate sess)
  else if ← haveUpTo e.view (e.p + c.len + e.latch.margin.toNat) then
    match ← find e.view sess (e.p + c.len) true with
    | (s2, .fatal code off) => .ok { verdict := .fatal code off, sess := s2, lost := false, resynced := false }
    | (s2, .notThis) => .ok (e.noCandidate s2)
    | (s2, .hit _) => .ok { verdict := .accept c, sess := s2, lost := false, resynced := true }
  else .ok (e.noCandidate sess)

/-- The detection part of `step()` (R720 to R728), or how far the stream must be delivered first. -/
def Engine.decision (e : Engine par) : Look Decision := do
  if ← haveUpTo e.view (e.p + par.minRemain) then
    match ← find e.view e.sess e.p (decide (e.sync = .inSync)) with
    | (s1, .fatal code off) => .ok { verdict := .fatal code off, sess := s1, lost := false, resynced := false }
    | (s1, .notThis) => .ok (e.noCandidate s1)
    | (s1, .hit c) =>
      match e.sync with
      | .inSync => .ok { verdict := .accept c, sess := s1, lost := false, resynced := false }
      | .lostSync => e.confirm s1 c
  else
    .ok
      { verdict := if e.d > e.p ∧ e.latch.skip = false then .fatal .invalidData e.p else .finish
        sess := e.sess
        lost := false
        resynced := false }

/-! ## One move of the engine -/

/-- The synchronisation transitions of a step take effect (R735). -/
def Engine.settle (e : Engine par) (sess : Session) (lost resynced : Bool) : Engine par :=
  { e with
    sess := sess
    sync := if lost then .lostSync else if resynced then .inSync else e.sync
    cnt :=
      { e.cnt with
        lostSync := if lost then e.cnt.lostSync + 1 else e.cnt.lostSync
        resync := if resynced then e.cnt.resync + 1 else e.cnt.resync } }

/-- The session state after a frame is accepted (R730, R733). -/
def Session.accepted (sess : Session) (c : Candidate) (par : Params := Config.mfhc) : Session :=
  match c.kind.isMpeg, HdrInfo.ofWord c.hdr par with
  | true, some d => { sess with expVersion := some d.version, expLayer := some d.layer }
  | _, _ => sess

/-- The accepted frame is consumed: session state, synchronisation and `P` (R730). -/
def Engine.consume (e : Engine par) (a : Accepted) : Engine par :=
  let e' := e.settle (a.sess.accepted a.cand par) false a.resynced
  { e' with pos := e.pos + BitVec.ofNat par.posWidth a.cand.len }

/-- The step of an emitted frame completes: its record is pushed and it is counted (R730, R731). -/
def Engine.commitEmitted (e : Engine par) (a : Accepted) : Engine par × BitVec 8 :=
  let e' := e.consume a
  ({ e' with fifo := e.fifo ++ [e.record a.cand], cnt := { e'.cnt with frames := e'.cnt.frames + 1 } }.boundary,
    irqRecPush ||| irqIf a.resynced irqResync)

/-- The step of a suppressed frame completes (R730, R732). -/
def Engine.commitSuppressed (e : Engine par) (a : Accepted) : Engine par × BitVec 8 :=
  let e' := e.consume a
  ({ e' with cnt := { e'.cnt with suppressed := e'.cnt.suppressed + 1 } }.boundary, irqIf a.resynced irqResync)

/-- The frame runs past the end of the stream: graceful end, or END_OF_STREAM at its first byte (R730). A synchronisation
its step regained stays regained (R726, R735), also when the session ends with END_OF_STREAM (DEDUCED, log entry 26). -/
def Engine.truncated (e : Engine par) (a : Accepted) : Engine par × BitVec 8 :=
  let e' := e.settle a.sess false a.resynced
  if e.latch.skip then (e'.finish, irqEngDone ||| irqIf a.resynced irqResync)
  else (e'.fatal .endOfStream e.p, irqEngErr ||| irqIf a.resynced irqResync)

/-- A decision takes effect; an accepted candidate begins its output or its drop (R720, R730). DEDUCED (log entry 26): a
step that loses synchronisation and then ends the session with INVALID_DATA keeps its loss (`SYNC`, `CNT_LOSTSYNC`,
`LOST_SYNC`), as R720's pseudocode and 60_exceptions.md R820 say, though 60_exceptions.md R830 says that a fatal error keeps of
the failing step its session writes alone. -/
def Engine.act (e : Engine par) (d : Decision) : Engine par × BitVec 8 :=
  match d.verdict with
  | .finish => ((e.settle d.sess d.lost d.resynced).finish, irqEngDone)
  | .fatal code off => ((e.settle d.sess d.lost d.resynced).fatal code off, irqEngErr ||| irqIf d.lost irqLostSync)
  | .discard =>
    let e' := e.settle d.sess d.lost d.resynced
    ({ e' with pos := e.pos + 1, cnt := { e'.cnt with discard := e'.cnt.discard + 1 } }.boundary,
      irqIf d.lost irqLostSync)
  | .accept c =>
    let a : Accepted := { cand := c, sess := d.sess, resynced := d.resynced }
    (if e.latch.emits c.kind then { e with work := .emit a 0 } else { e with work := .drop a }, 0)

/-- The detection part of the step in progress: it decides, or stalls on the input port (R703, R711). -/
def Engine.detectMove (e : Engine par) : Engine par × BitVec 8 :=
  match e.decision with
  | .ok d => e.act d
  | .error need => ({ e with work := .detect need }, 0)

/-- One move of the engine, and the interrupt events it raises. A step starts only in RUN or STEP (R712); a stalled
step stays where it is. -/
def Engine.move (e : Engine par) : Engine par × BitVec 8 :=
  match e.work with
  | .between =>
    match e.run with
    | .run => if e.pauseReq then (e.boundary, 0) else e.detectMove
    | .step => e.detectMove
    | .idle => (e, 0)
    | .paused => (e, 0)
    | .done => (e, 0)
    | .error => (e, 0)
  | .detect _ => if e.stallIn then (e, 0) else e.detectMove
  | .emit _ _ => (e, 0)
  | .push a => if e.fifo.length < par.recDepth then e.commitEmitted a else (e, 0)
  | .drop a =>
    if e.p + a.cand.len ≤ e.d then e.commitSuppressed a
    else if e.eos then e.truncated a
    else (e, 0)
  | .closed a => e.truncated a

/-- The engine can move: it is not waiting for the host (used by the default order of the agents alone). -/
def Engine.ready (e : Engine par) : Bool :=
  match e.work with
  | .between => decide (e.run = .run) || decide (e.run = .step)
  | .detect _ => !e.stallIn
  | .emit _ _ => false
  | .push _ => decide (e.fifo.length < par.recDepth)
  | .drop a => decide (e.p + a.cand.len ≤ e.d) || e.eos
  | .closed _ => true

/-! ## What the commands do to the engine -/

/-- STATE with `RUNSTATE` as its argument (43_engine.md section 5). -/
def Engine.stateError (e : Engine par) : CmdError := ⟨.state, BitVec.ofNat 8 e.run.code⟩

/-- The engine of a new session (R740): the configuration latched, the session state fresh, the first step
begun. -/
def Engine.started (e : Engine par) (poly init : Half) : Engine par :=
  { e with
    latch := { cfg := e.cfg, margin := e.margin, poly := poly, init := init }
    pos := 0
    stream := []
    eos := false
    sync := .inSync
    sess := .fresh
    cnt := .zero
    err := none
    errOff := 0
    fifo := []
    abortOwed := false
    pauseReq := false
    resumeReq := false
    run := .run
    work := .detect 0 }

/-- The step in progress had begun the output of a frame that FRAME_ABORT has not closed yet (R744; DESIGN CHOICE
for a frame whose FRAME_END was taken, log entry 9). -/
def Work.outputBegun : Work → Bool
  | .emit _ _ => true
  | .push _ => true
  | .between => false
  | .detect _ => false
  | .drop _ => false
  | .closed _ => false

/-- The session is cut (R744): the step in progress is abandoned. -/
def Engine.aborted (e : Engine par) : Engine par :=
  { e with
    run := .idle
    pauseReq := false
    resumeReq := false
    work := .between
    abortOwed := e.abortOwed || e.work.outputBegun }

end Sys2Proof.Model

namespace Sys2Proof.Machine

open Model

variable {par : Params}

/-! ## The commands -/

/-- ENG_START (R740). -/
def execEngStart (s : Model.State par) : Host.Outcome (Model.State par) Fault Refusal :=
  finishCommand s
    (if s.eng.run.active then .error s.eng.stateError
     else .ok (s.setEng (s.eng.started s.cu.crcPoly s.cu.crcInit)))

/-- ENG_PAUSE (R741): in RUN the pause is requested, and taken at once when no step is in progress. In STEP it changes
nothing, so a resume that waits for the step's completion stands (DEDUCED, log entry 24). -/
def execEngPause (s : Model.State par) : Host.Outcome (Model.State par) Fault Refusal :=
  finishCommand s
    (match s.eng.run with
     | .run =>
       let e := { s.eng with pauseReq := true }
       .ok (s.setEng (if e.work = .between then e.boundary else e))
     | .paused => .ok s
     | .step => .ok s
     | .idle => .error s.eng.stateError
     | .done => .error s.eng.stateError
     | .error => .error s.eng.stateError)

/-- ENG_RESUME (R742). In STEP, `RUNSTATE` becomes RUN, but while the step stalls the change waits for its completion
(R712): `RUNSTATE` reads STEP until then (R711, R743). -/
def execEngResume (s : Model.State par) : Host.Outcome (Model.State par) Fault Refusal :=
  finishCommand s
    (match s.eng.run with
     | .paused => .ok (s.setEng { s.eng with run := .run })
     | .step => .ok (s.setEng (if s.eng.work.underway then { s.eng with resumeReq := true } else { s.eng with run := .run }))
     | .run => .ok (s.setEng { s.eng with pauseReq := false })
     | .idle => .error s.eng.stateError
     | .done => .error s.eng.stateError
     | .error => .error s.eng.stateError)

/-- ENG_STEP (R743): from PAUSED one step begins. -/
def execEngStep (s : Model.State par) : Host.Outcome (Model.State par) Fault Refusal :=
  finishCommand s
    (match s.eng.run with
     | .paused => .ok (s.setEng { s.eng with run := .step, work := .detect 0 })
     | .run => .error s.eng.stateError
     | .step => .error s.eng.stateError
     | .idle => .error s.eng.stateError
     | .done => .error s.eng.stateError
     | .error => .error s.eng.stateError)

/-- ENG_ABORT (R744). -/
def execEngAbort (s : Model.State par) : Host.Outcome (Model.State par) Fault Refusal :=
  finishCommand s (.ok (if s.eng.run = .idle then s else s.setEng s.eng.aborted))

/-- REC_POP (R745): legal in every run state. -/
def execRecPop (s : Model.State par) : Host.Outcome (Model.State par) Fault Refusal :=
  finishCommand s
    (match s.eng.fifo with
     | [] => .error s.eng.stateError
     | _ :: rest => .ok (s.setEng { s.eng with fifo := rest }))

end Sys2Proof.Machine
end

