-- ==== Sys2Proof/Machine/Header.lean ====
section
/-! DEFINITION. The frame-header codec and CRC-16 commands: HDR_DECODE, HDR_UPDATE, HDR_ENCODE, HDR_SETF,
HDR_CRCCHK and CRC16 (41_header.md R530 to R535). -/

namespace Sys2Proof.Model

open Machine

variable {par : Params}

/-- The header state with nothing captured: word `w` held valid (R530). -/
def HdrState.decoded (w : Word) : HdrState par :=
  { word := w, valid := true, storedCrc := 0, crcCap := false, si := Vector.replicate 32 0, siCap := false }

/-- `HDR_STATE`: VALID, CRC_CAP, SI_CAP in bits 0 to 2 (10_state.md R126). -/
def HdrState.stateBits (h : HdrState par) : Word :=
  BitVec.ofNat 32 (h.valid.toNat + 2 * h.crcCap.toNat + 4 * h.siCap.toNat)

/-- Write bytes into the side-information file from index `i` up (R531). -/
def writeSi (v : Vector Byte 32) : Nat → List Byte → Vector Byte 32
  | _, [] => v
  | i, b :: bs => writeSi (v.setIfInBounds i b) (i + 1) bs

/-- Capture of the stored CRC: when protected, not yet captured, and at least 6 bytes are available (R531). -/
def captureCrc (m : Memory) (off avail : Nat) (d : HdrInfo par) (h : HdrState par) : HdrState par :=
  if d.prot = true ∧ h.crcCap = false ∧ avail ≥ 6 then
    { h with storedCrc := BitVec.ofNat 16 (beNat (m.readBytes (off + 4) 2)), crcCap := true }
  else h

/-- Capture of the side information: when not yet captured and all of it is available (R531). -/
def captureSi (m : Memory) (off avail : Nat) (d : HdrInfo par) (h : HdrState par) : HdrState par :=
  if h.siCap = false ∧ avail ≥ 4 + d.crcLen + d.siLen then
    { h with si := writeSi h.si 0 (m.readBytes (off + 4 + d.crcLen) d.siLen), siCap := true }
  else h

/-- The CRC HDR_ENCODE writes for a protected header: recomputed, or the stored one; INCOMPLETE when the bytes it
needs were not captured (R532). -/
def encodeCrc (poly init : Half) (h : HdrState par) (d : HdrInfo par) (includeCrc : Bool) : Except CmdError Half :=
  if includeCrc then
    if h.siCap then .ok (hdrCrc poly init h.word (h.siBytes d)) else .error ⟨.incomplete, 0⟩
  else
    if h.crcCap then .ok h.storedCrc else .error ⟨.incomplete, 1⟩

/-- The bytes HDR_ENCODE writes: the header, the CRC when protected, the side information when captured (R532). -/
def encodedHeader (h : HdrState par) (d : HdrInfo par) (c : Half) : List Byte :=
  headerBytes h.word
    ++ (if d.prot then [c.extractLsb' 8 8, c.extractLsb' 0 8] else [])
    ++ (if h.siCap then h.siBytes d else [])

/-- The header state HDR_SETF leaves, from the held header's derived values `d` and the new valid word: the
captured bytes are dropped when the protection or the side-information length changes (R533). -/
def HdrState.withWord (h : HdrState par) (d : HdrInfo par) (w : Word) : HdrState par :=
  match HdrInfo.ofWord w par with
  | some d' => if d'.prot ≠ d.prot ∨ d'.siLen ≠ d.siLen then .decoded w else { h with word := w }
  | none => .decoded w

/-- The CRC status of the held header under a polynomial and a seed (R523, R534). -/
def HdrState.status (h : HdrState par) (d : HdrInfo par) (poly init : Half) : CrcStatus :=
  crcStatus d.prot h.crcCap h.siCap h.storedCrc (hdrCrc poly init h.word (h.siBytes d))

end Sys2Proof.Model

namespace Sys2Proof.Machine

open Model

variable {par : Params}

/-! ## The commands -/

/-- HDR_DECODE (R530). -/
def execHdrDecode (off : Nat) (src : HdrSource) (s : Model.State par) : Host.Outcome (Model.State par) Fault Refusal :=
  finishCommand s
    (match headerSource s off src with
     | .error e => .error e
     | .ok h =>
       match validHeader h with
       | .error e => .error e
       | .ok h => .ok (s.setHdr (.decoded h)))

/-- HDR_UPDATE (R531): what is captured stays captured. -/
def execHdrUpdate (off : Nat) (s : Model.State par) : Host.Outcome (Model.State par) Fault Refusal :=
  finishCommand s
    (match heldHeader s with
     | .error e => .error e
     | .ok d =>
       let avail := availableFrom s off
       let h := captureSi s.cu.scratch off avail d (captureCrc s.cu.scratch off avail d s.cu.hdr)
       .ok ((s.setHdr h).setResult h.stateBits))

/-- HDR_ENCODE (R532): the held header, then the CRC source, then the length. -/
def execHdrEncode (off : Nat) (includeCrc : Bool) (s : Model.State par) : Host.Outcome (Model.State par) Fault Refusal :=
  finishCommand s
    (match heldHeader s with
     | .error e => .error e
     | .ok d =>
       match (if d.prot then encodeCrc s.cu.crcPoly s.cu.crcInit s.cu.hdr d includeCrc else .ok 0) with
       | .error e => .error e
       | .ok c =>
         match writeRegion s off (encodedHeader s.cu.hdr d c) with
         | .error e => .error e
         | .ok t =>
           let h := if d.prot && includeCrc then { s.cu.hdr with storedCrc := c, crcCap := true } else s.cu.hdr
           .ok ((t.setHdr h).setResult (BitVec.ofNat 32 (encodedHeader s.cu.hdr d c).length)))

/-- HDR_SETF (R533): the held header, then the index, then the validation of the new word. -/
def execHdrSetf (index value : Nat) (s : Model.State par) : Host.Outcome (Model.State par) Fault Refusal :=
  finishCommand s
    (match heldHeader s with
     | .error e => .error e
     | .ok d =>
       match fieldOperand index with
       | .error e => .error e
       | .ok f =>
         match validHeader (setHdrField s.cu.hdr.word f value) with
         | .error e => .error e
         | .ok h => .ok (s.setHdr (s.cu.hdr.withWord d h)))

/-- HDR_CRCCHK (R534): the status in `RESULT[1:0]`, validity in `RESULT[8]`. -/
def execHdrCrcchk (s : Model.State par) : Host.Outcome (Model.State par) Fault Refusal :=
  finishCommand s
    (match heldHeader s with
     | .error e => .error e
     | .ok d =>
       let st := s.cu.hdr.status d s.cu.crcPoly s.cu.crcInit
       .ok (s.setResult (BitVec.ofNat 32 (st.code.toNat + 256 * st.valid.toNat))))

/-- CRC16 (R535). With `n` = 0 at an offset past `SCRATCH_LEN` it raises LENGTH, as the pseudocode has it (DEDUCED, unsafe:
log entry 25). -/
def execCrc16 (off count : Nat) (s : Model.State par) : Host.Outcome (Model.State par) Fault Refusal :=
  finishCommand s
    (match readRegion s off count with
     | .error e => .error e
     | .ok bs => .ok (s.setResult ((crc16 s.cu.crcPoly s.cu.crcInit bs).setWidth 32)))

end Sys2Proof.Machine
end

