-- ==== Sys2Proof/Machine/Dispatch.lean ====
section
/-! DEFINITION. The meaning of each command (30_encoding.md R302), one arm for each constructor of Instr. -/

namespace Sys2Proof.Machine

open Model

def exec (i : Instr) (s : State) : Host.Outcome State Fault Refusal :=
  match i with
  -- 40_codec.md
  | .nop => Sys2Proof.Machine.execNop s
  | .fmtClear => Sys2Proof.Machine.execFmtClear s
  | .fmtAppend width kind expEn => Sys2Proof.Machine.execFmtAppend width kind expEn s
  | .pack off => Sys2Proof.Machine.execPack off s
  | .unpack off => Sys2Proof.Machine.execUnpack off s
  -- 41_header.md
  | .hdrDecode off src => Sys2Proof.Machine.execHdrDecode off src s
  | .hdrUpdate off => Sys2Proof.Machine.execHdrUpdate off s
  | .hdrEncode off includeCrc => Sys2Proof.Machine.execHdrEncode off includeCrc s
  | .hdrSetf index value => Sys2Proof.Machine.execHdrSetf index value s
  | .hdrCrcchk => Sys2Proof.Machine.execHdrCrcchk s
  | .crc16 off count => Sys2Proof.Machine.execCrc16 off count s
  -- 43_engine.md
  | .engStart => Sys2Proof.Machine.execEngStart s
  | .engPause => Sys2Proof.Machine.execEngPause s
  | .engResume => Sys2Proof.Machine.execEngResume s
  | .engStep => Sys2Proof.Machine.execEngStep s
  | .engAbort => Sys2Proof.Machine.execEngAbort s
  | .recPop => Sys2Proof.Machine.execRecPop s

end Sys2Proof.Machine
end

