-- ==== Sys2Proof/Machine/Flags.lean ====
section
/-! DEFINITION. The status words and flags computed from the state (10_state.md R113, R119, R121, R126, R127,
R132, R134, R142; 60_exceptions.md R821). -/

namespace Sys2Proof.Model

open Machine

variable {par : Params}

/-- `STATUS.BUSY` (R113). -/
def State.busy (s : State par) : Bool := s.cu.inFlight.isSome

/-- `STATUS` (R113): BUSY, REC_AVAIL, REC_FULL, REC_COUNT, IN_EOS. -/
def State.statusWord (s : State par) : Word :=
  BitVec.ofNat 32
    (s.busy.toNat
      + 2 * (decide (s.eng.fifo.length ≥ 1)).toNat
      + 4 * (decide (s.eng.fifo.length ≥ par.recDepth)).toNat
      + 2 ^ 8 * (s.eng.fifo.length % 2 ^ 5)
      + 2 ^ 16 * s.eng.eos.toNat)

/-- `FMT_INFO` (R119): COUNT, TOTAL_BITS, BYTE_LEN. -/
def fmtInfo (f : List FmtEntry) : Word :=
  BitVec.ofNat 32 (f.length % 2 ^ 6 + 2 ^ 8 * (totalBits f % 2 ^ 11) + 2 ^ 24 * (byteLen f % 2 ^ 8))

/-- The two bits of a field kind (R120). -/
def FieldKind.code : FieldKind → Nat
  | .integer => 0
  | .boolean => 1

/-- `FMT_DESC[i]` (R121). -/
def fmtDesc (f : List FmtEntry) (i : Nat) : Word :=
  match f[i]? with
  | some e => BitVec.ofNat 32 (e.width.toNat + 2 ^ 6 * e.kind.code + 2 ^ 8 * e.expEn.toNat)
  | none => 0

/-- `FMT_EXP[i]` (R121). -/
def fmtExp (f : List FmtEntry) (i : Nat) : Word :=
  match f[i]? with
  | some e => if e.expEn then e.exp else 0
  | none => 0

/-- The register encoding of a version (R127, R134; 41_header.md R506). -/
def Version.code : Version → Nat
  | .v1 => 1
  | .v2 => 2
  | .v25 => 3

/-- The number of a layer (R127, R134). -/
def Layer.number : Layer → Nat
  | .l1 => 1
  | .l2 => 2
  | .l3 => 3

/-- `HDR_DERIVED` (R127): VERSION, LAYER, PROT, MONO, HLEN, FLEN; 0 without a valid header. -/
def HdrState.derivedWord (h : HdrState par) : Word :=
  match h.info with
  | some d =>
    BitVec.ofNat 32
      (d.version.code + 2 ^ 2 * d.layer.number + 2 ^ 4 * d.prot.toNat + 2 ^ 5 * d.mono.toNat
        + 2 ^ 8 * (d.hlen % 2 ^ 8) + 2 ^ 16 * (d.flen % 2 ^ 16))
  | none => 0

/-- `HDR_BITRATE` in kbit/s (R127). -/
def HdrState.bitrateWord (h : HdrState par) : Word :=
  match h.info with
  | some d => BitVec.ofNat 32 d.kbps
  | none => 0

/-- `HDR_SRATE` in Hz (R127). -/
def HdrState.srateWord (h : HdrState par) : Word :=
  match h.info with
  | some d => BitVec.ofNat 32 d.hz
  | none => 0

/-- `HDR_CRC` (R127): the stored CRC when captured, and the CRC computed under the current parameters when the side
information is captured and the header is protected. -/
def HdrState.crcWord (h : HdrState par) (poly init : Half) : Word :=
  match h.info with
  | some d =>
    ((if h.siCap && d.prot then hdrCrc poly init h.word (h.siBytes d) else 0)
      ++ (if h.crcCap then h.storedCrc else 0) : BitVec 32)
  | none => 0

/-- A byte of `HDR_SI` (R127): 0 beyond the side-information length or when not captured. -/
def HdrState.siByte (h : HdrState par) (j : Nat) : Byte :=
  match h.info with
  | some d => if h.siCap && decide (j < d.siLen) then (h.si[j]?).getD 0 else 0
  | none => 0

/-- `HDR_SI[k]` (R127), little-endian lanes. -/
def HdrState.siWord (h : HdrState par) (k : Nat) : Word :=
  laneWord (h.siByte (4 * k)) (h.siByte (4 * k + 1)) (h.siByte (4 * k + 2)) (h.siByte (4 * k + 3))

/-- `ENG_STATUS` (R132): RUNSTATE, SYNC, PAUSE_REQ, STALL_IN, STALL_OUT. -/
def Engine.statusWord (e : Engine par) : Word :=
  BitVec.ofNat 32
    (e.run.code + 2 ^ 4 * (decide (e.sync = .lostSync)).toNat + 2 ^ 5 * e.pauseReq.toNat
      + 2 ^ 6 * e.stallIn.toNat + 2 ^ 7 * e.stallOut.toNat)

/-- `HAS_XING`: 0 none, 1 Some(false), 2 Some(true) (R134). -/
def xingCode : Option Bool → Nat
  | none => 0
  | some false => 1
  | some true => 2

/-- `ENG_SESS` (R134). -/
def Session.word (sess : Session) : Word :=
  BitVec.ofNat 32
    (sess.hasRiff.toNat + 2 * xingCode sess.hasXing
      + 2 ^ 4 * (match sess.expVersion with | some v => v.code | none => 0)
      + 2 ^ 6 * (match sess.expLayer with | some l => l.number | none => 0))

/-- `ENG_ERR` (R135): 0 when there is no fatal error. -/
def Engine.errWord (e : Engine par) : Word :=
  match e.err with
  | some c => c.code.setWidth 32
  | none => 0

/-- The number of a frame kind (30_encoding.md R330). -/
def FrameKind.code : FrameKind → Nat
  | .mpeg => 1
  | .xing => 2
  | .riffHdr => 3
  | .riffFmt => 4
  | .riffFact => 5
  | .riffData => 6
  | .id3v1 => 7
  | .id3v2 => 8
  | .apev1 => 9
  | .apev2 => 10

/-- `REC_INFO` of a record (R142). -/
def Record.infoWord (r : Record par) : Word :=
  BitVec.ofNat 32
    (r.crcStatus.code.toNat + 2 ^ 4 * r.xflags.toNat + 2 ^ 8 * r.xinfo.toNat + 2 ^ 16 * r.xtagOff.toNat)

/-- A word of the record window: 0 when the FIFO is empty (R142). -/
def Engine.headWord (e : Engine par) (f : Record par → Word) : Word :=
  match e.fifo with
  | r :: _ => f r
  | [] => 0

/-- The interrupt line, `OR over i of (IRQ_PEND[i] AND IRQ_EN[i])` (60_exceptions.md R821). -/
def State.irqLine (s : State par) : Bool := decide (s.irqPend &&& s.irqEn ≠ 0)

end Sys2Proof.Model
end

