-- ==== Sys2Proof/Machine/Registers.lean ====
section
/-! DEFINITION. The register space: the map of 20_memory.md R202, reads (R203 to R206) and writes with their side
effects (R206, R207), and the soft and hardware reset (70_reset_and_hazards.md R900, R902). -/

namespace Sys2Proof.Model

open Machine

variable {par : Params}

/-- The registers of the map (R202); `unmapped` is every other word address (R205). -/
inductive Reg (par : Params) where
  | id
  | version
  | ctrl
  | status
  | cmd
  | err
  | result
  | scratchLen
  | fmtExpect
  | fmtInfo
  | hdrIn
  | hdrRaw
  | hdrState
  | hdrDerived
  | hdrBitrate
  | hdrSrate
  | hdrCrc
  | hdrSi (k : Fin 8)
  | crcPoly
  | crcInit
  | irqPend
  | irqEn
  | engCfg
  | engMargin
  | engLowwater
  | engStatus
  | engPosLo
  | engPosHi
  | engSess
  | engErr
  | engErrOffLo
  | engErrOffHi
  | cntFrames
  | cntSuppressed
  | cntLostsync
  | cntResync
  | cntDiscard
  | engCapacity
  | recKind
  | recOffLo
  | recOffHi
  | recLenLo
  | recLenHi
  | recHdr
  | recInfo
  | recXframes
  | recXsize
  | recXqual
  | val (i : Fin par.maxFields)
  | fmtDesc (i : Fin par.maxFields)
  | fmtExp (i : Fin par.maxFields)
  | scratch (k : Fin par.scratchWords)
  | unmapped
  deriving DecidableEq, Repr

/-- The register of a word address below 0x100 (R202). -/
def Reg.ofLow : Nat → Reg par
  | 0x000 => .id
  | 0x004 => .version
  | 0x008 => .ctrl
  | 0x00C => .status
  | 0x010 => .cmd
  | 0x014 => .err
  | 0x018 => .result
  | 0x01C => .scratchLen
  | 0x020 => .fmtExpect
  | 0x024 => .fmtInfo
  | 0x028 => .hdrIn
  | 0x02C => .hdrRaw
  | 0x030 => .hdrState
  | 0x034 => .hdrDerived
  | 0x038 => .hdrBitrate
  | 0x03C => .hdrSrate
  | 0x040 => .hdrCrc
  | 0x044 => .hdrSi 0
  | 0x048 => .hdrSi 1
  | 0x04C => .hdrSi 2
  | 0x050 => .hdrSi 3
  | 0x054 => .hdrSi 4
  | 0x058 => .hdrSi 5
  | 0x05C => .hdrSi 6
  | 0x060 => .hdrSi 7
  | 0x064 => .crcPoly
  | 0x068 => .crcInit
  | 0x070 => .irqPend
  | 0x074 => .irqEn
  | 0x080 => .engCfg
  | 0x084 => .engMargin
  | 0x088 => .engLowwater
  | 0x08C => .engStatus
  | 0x090 => .engPosLo
  | 0x094 => .engPosHi
  | 0x098 => .engSess
  | 0x09C => .engErr
  | 0x0A0 => .engErrOffLo
  | 0x0A4 => .engErrOffHi
  | 0x0A8 => .cntFrames
  | 0x0AC => .cntSuppressed
  | 0x0B0 => .cntLostsync
  | 0x0B4 => .cntResync
  | 0x0B8 => .cntDiscard
  | 0x0BC => .engCapacity
  | 0x0C0 => .recKind
  | 0x0C4 => .recOffLo
  | 0x0C8 => .recOffHi
  | 0x0CC => .recLenLo
  | 0x0D0 => .recLenHi
  | 0x0D4 => .recHdr
  | 0x0D8 => .recInfo
  | 0x0DC => .recXframes
  | 0x0E0 => .recXsize
  | 0x0E4 => .recXqual
  | _ => .unmapped

/-- Register `i` of a file of `n` registers, unmapped beyond it. -/
def Reg.inFile {n : Nat} (file : Fin n → Reg par) (i : Nat) : Reg par :=
  if h : i < n then file ⟨i, h⟩ else .unmapped

/-- The register an access to address `a` reaches: address bits [1:0] are ignored (R203), and every address the map
does not list is unmapped (R202). -/
def Reg.ofAddr (a : BitVec 12) (par : Params := Config.mfhc) : Reg par :=
  let w := a.toNat / 4 * 4
  if w < 0x100 then Reg.ofLow w
  else if w < 0x180 then Reg.inFile .val ((w - 0x100) / 4)
  else if w < 0x200 then Reg.inFile .fmtDesc ((w - 0x180) / 4)
  else if w < 0x280 then Reg.inFile .fmtExp ((w - 0x200) / 4)
  else if w < 0x400 then .unmapped
  else if w < 0x500 then Reg.inFile .scratch ((w - 0x400) / 4)
  else .unmapped

/-- The offset in the register space that an address of the host reaches: the space sits at `MFHC_BASE` and has 4096 bytes
(R200, R212). An address outside it does not reach the MFHC. -/
def registerOffset (a : Nat) (par : Params := Config.mfhc) : Option (BitVec 12) :=
  if par.base ≤ a ∧ a < par.base + 4096 then some (BitVec.ofNat 12 (a - par.base)) else none

/-- Bits [31:0] of a position. -/
def posLo (p : Pos par) : Word := p.extractLsb' 0 32

/-- Bits [63:32] of a position. -/
def posHi (p : Pos par) : Word := p.extractLsb' 32 32

/-- SCRATCH word `k` in little-endian lanes (10_state.md R123, R210). -/
def scratchWord (m : Memory) (k : Nat) : Word :=
  laneWord (m.read (4 * k)) (m.read (4 * k + 1)) (m.read (4 * k + 2)) (m.read (4 * k + 3))

/-- The value a read of a register returns (R202 and the rules of 10_state.md it cites; R205). A read changes
nothing (R206). -/
def State.readReg (s : State par) : Reg par → Word
  | .id => Config.idValue
  | .version => Config.versionValue
  | .ctrl => 0
  | .status => s.statusWord
  | .cmd => 0
  | .err => s.cu.err
  | .result => s.cu.result
  | .scratchLen => BitVec.ofNat 32 s.cu.scratchLen.val
  | .fmtExpect => s.cu.fmtExpect
  | .fmtInfo => Model.fmtInfo s.cu.fmt
  | .hdrIn => s.cu.hdrIn
  | .hdrRaw => s.cu.hdr.word
  | .hdrState => s.cu.hdr.stateBits
  | .hdrDerived => s.cu.hdr.derivedWord
  | .hdrBitrate => s.cu.hdr.bitrateWord
  | .hdrSrate => s.cu.hdr.srateWord
  | .hdrCrc => s.cu.hdr.crcWord s.cu.crcPoly s.cu.crcInit
  | .hdrSi k => s.cu.hdr.siWord k.val
  | .crcPoly => s.cu.crcPoly.setWidth 32
  | .crcInit => s.cu.crcInit.setWidth 32
  | .irqPend => s.irqPend.setWidth 32
  | .irqEn => s.irqEn.setWidth 32
  | .engCfg => s.eng.cfg.setWidth 32
  | .engMargin => s.eng.margin.setWidth 32
  | .engLowwater => s.eng.lowWater.setWidth 32
  | .engStatus => s.eng.statusWord
  | .engPosLo => posLo s.eng.pos
  | .engPosHi => posHi s.eng.pos
  | .engSess => s.eng.sess.word
  | .engErr => s.eng.errWord
  | .engErrOffLo => posLo s.eng.errOff
  | .engErrOffHi => posHi s.eng.errOff
  | .cntFrames => s.eng.cnt.frames.setWidth 32
  | .cntSuppressed => s.eng.cnt.suppressed.setWidth 32
  | .cntLostsync => s.eng.cnt.lostSync.setWidth 32
  | .cntResync => s.eng.cnt.resync.setWidth 32
  | .cntDiscard => s.eng.cnt.discard.setWidth 32
  | .engCapacity => BitVec.ofNat 32 par.capacity
  | .recKind => s.eng.headWord (fun r => BitVec.ofNat 32 r.kind.code)
  | .recOffLo => s.eng.headWord (fun r => posLo r.off)
  | .recOffHi => s.eng.headWord (fun r => posHi r.off)
  | .recLenLo => s.eng.headWord (fun r => posLo r.len)
  | .recLenHi => s.eng.headWord (fun r => posHi r.len)
  | .recHdr => s.eng.headWord (fun r => r.hdr)
  | .recInfo => s.eng.headWord Record.infoWord
  | .recXframes => s.eng.headWord (fun r => r.xframes)
  | .recXsize => s.eng.headWord (fun r => r.xsize)
  | .recXqual => s.eng.headWord (fun r => r.xqual)
  | .val i => s.cu.val[i.val]
  | .fmtDesc i => Model.fmtDesc s.cu.fmt i.val
  | .fmtExp i => Model.fmtExp s.cu.fmt i.val
  | .scratch k => scratchWord s.cu.scratch k.val
  | .unmapped => 0

/-- Hardware reset (70_reset_and_hazards.md R900): the whole block in its reset values; the host's side and the order
of the agents are outside it. -/
def State.hardReset (s : State par) : State par :=
  { s with cu := .reset, eng := .reset, irqPend := 0, irqEn := 0 }

/-- Soft reset (R902): as hardware reset, but `VAL` and SCRATCH keep their contents. -/
def State.softReset (s : State par) : State par :=
  { s with
    cu := { CmdUnit.reset with val := s.cu.val, scratch := s.cu.scratch }
    eng := .reset
    irqPend := 0
    irqEn := 0 }

/-- A write that is dropped and sets OVERRUN while BUSY, else `t` (R207). -/
def State.unlessBusy (s t : State par) : State par := if s.busy then s.setIrq irqOverrun else t

/-- The effect of a write of `v` to a register (R202, R205 to R207). -/
def State.writeReg (s : State par) (r : Reg par) (v : Word) : State par :=
  match r with
  | .ctrl =>
    if v.getLsbD 0 then
      if s.busy then { s with cu := { s.cu with srstWaiting := true } } else s.softReset
    else s
  | .cmd => s.unlessBusy { s with cu := { s.cu with inFlight := some { word := v, executed := false } } }
  | .scratchLen => s.unlessBusy { s with cu := { s.cu with scratchLen := clampLen v.toNat } }
  | .fmtExpect => s.unlessBusy { s with cu := { s.cu with fmtExpect := v } }
  | .hdrIn => s.unlessBusy { s with cu := { s.cu with hdrIn := v } }
  | .crcPoly => s.unlessBusy { s with cu := { s.cu with crcPoly := v.setWidth 16 } }
  | .crcInit => s.unlessBusy { s with cu := { s.cu with crcInit := v.setWidth 16 } }
  | .val i => s.unlessBusy { s with cu := { s.cu with val := s.cu.val.set i.val v } }
  | .scratch k => s.unlessBusy { s with cu := { s.cu with scratch := s.cu.scratch.writeBytes (4 * k.val) (wordLanes v) } }
  | .irqPend => { s with irqPend := s.irqPend &&& ~~~(v.setWidth 8) }
  | .irqEn => { s with irqEn := v.setWidth 8 }
  | .engCfg => { s with eng := { s.eng with cfg := v.setWidth 4 } }
  | .engMargin => { s with eng := { s.eng with margin := v.setWidth 16 } }
  | .engLowwater => { s with eng := { s.eng with lowWater := v.setWidth 16 } }
  | .id => s
  | .version => s
  | .status => s
  | .err => s
  | .result => s
  | .fmtInfo => s
  | .hdrRaw => s
  | .hdrState => s
  | .hdrDerived => s
  | .hdrBitrate => s
  | .hdrSrate => s
  | .hdrCrc => s
  | .hdrSi _ => s
  | .engStatus => s
  | .engPosLo => s
  | .engPosHi => s
  | .engSess => s
  | .engErr => s
  | .engErrOffLo => s
  | .engErrOffHi => s
  | .cntFrames => s
  | .cntSuppressed => s
  | .cntLostsync => s
  | .cntResync => s
  | .cntDiscard => s
  | .engCapacity => s
  | .recKind => s
  | .recOffLo => s
  | .recOffHi => s
  | .recLenLo => s
  | .recLenHi => s
  | .recHdr => s
  | .recInfo => s
  | .recXframes => s
  | .recXsize => s
  | .recXqual => s
  | .fmtDesc _ => s
  | .fmtExp _ => s
  | .unmapped => s

end Sys2Proof.Model

namespace Sys2Proof.Machine

/-- A register of this machine. -/
abbrev Reg := Model.Reg Config.mfhc

end Sys2Proof.Machine
end

