-- ==== Sys2Proof/Machine/Agents.lean ====
section
/-! DEFINITION. What each agent does when it moves: the command unit runs the command in flight
(60_exceptions.md R850), the engine makes one move, the host performs its next operation (30_encoding.md R340,
43_engine.md R700, R701); and which agent moves next. -/

namespace Sys2Proof.Model

open Machine

variable {par : Params}

/-! ## The command unit -/

/-- A reserved `OP` (30_encoding.md R303): ILLEGAL_COMMAND with the `OP` as its argument, nothing else. -/
def illegalCommand (op : Byte) (s : State par) : Host.Outcome (State par) Fault Refusal :=
  finishCommand s (.error ⟨.illegalCommand, op⟩)

/-- `BUSY <- 0` (R850, step 4), and the soft reset that waited for it (70_reset_and_hazards.md R902). -/
def State.endCommand (s : State par) : State par :=
  if s.cu.srstWaiting then s.softReset else { s with cu := { s.cu with inFlight := none } }

/-- The effect of the command in flight has been taken, and `BUSY` is still 1 (R850, between steps 3 and 4). -/
def State.markExecuted (s : State par) (w : Word) : State par :=
  { s with cu := { s.cu with inFlight := some { word := w, executed := true } } }

/-- The command in flight is one of the engine's (43_engine.md section 5) and its effect is still to come. -/
def State.engineCommand (s : State par) : Bool :=
  match s.cu.inFlight with
  | none => false
  | some f =>
    match decode f.word with
    | .ok i => !f.executed && i.onEngine
    | .error _ => false

/-- The command unit can act: an engine command waits until the engine is between two steps or in a stall (R850). -/
def State.commandReady (s : State par) : Bool := !s.engineCommand || s.eng.yields

/-! ## The engine -/

/-- The engine moves and raises its interrupt events (60_exceptions.md R820, R851). -/
def engineMove (s : State par) : State par :=
  { s with eng := s.eng.move.1, irqPend := s.irqPend ||| s.eng.move.2 }

/-! ## The host -/

/-- The value a read at an offset returns (R203 to R205): that of the state it is performed in. While BUSY that
state is before the effect of the command in flight, or after it (20_memory.md R207, 93_implementation_defined.md U27),
as the order of the moves says. -/
def State.readAddr (s : State par) (a : BitVec 12) : Word := s.readReg (Reg.ofAddr a par)

/-- The next host operation is done. -/
def State.popOp (s : State par) : State par := { s with host := { s.host with program := s.host.program.tail } }

/-- The host has read a value. -/
def State.logRead (s : State par) (v : Word) : State par := { s with host := { s.host with reads := s.host.reads ++ [v] } }

/-- The host has taken an output item. -/
def State.logItem (s : State par) (x : OutItem) : State par := { s with host := { s.host with taken := s.host.taken ++ [x] } }

/-- A host write to an address of its own space (20_memory.md R212). One outside the register space is no access to the
MFHC. -/
def State.hostWrite (s : State par) (a : Nat) (v : Word) : State par :=
  match registerOffset a par with
  | some off => s.writeReg (Reg.ofAddr off par) v
  | none => s

/-- A host read of an address of its own space (R212). One outside the register space is no access to the MFHC, and what it
returns is not recorded (DESIGN CHOICE, log entry 19). -/
def State.hostRead (s : State par) (a : Nat) : State par :=
  match registerOffset a par with
  | some off => s.logRead (s.readAddr off)
  | none => s

/-- The host performs an operation. A byte or an end-of-stream mark that is refused, and a take when nothing is
offered, is tried again while a session is active and given up outside one (DESIGN CHOICE, log entry 5). -/
def hostDo (s : State par) : HostOp → State par
  | .wr a v => (s.hostWrite a v).popOp
  | .rd a => (s.hostRead a).popOp
  | .inByte b =>
    if s.eng.acceptsByte then (s.setEng (s.eng.deliver b)).popOp
    else if s.eng.run.active then s
    else s.popOp
  | .inEos =>
    if s.eng.acceptsEos then (s.setEng s.eng.deliverEos).popOp
    else if s.eng.run.active then s
    else s.popOp
  | .take =>
    match s.eng.offer with
    | some x => ((s.setEng s.eng.taken).logItem x).popOp
    | none => if s.eng.run.active then s else s.popOp
  | .wait => if s.busy then s else s.popOp
  | .hwReset => s.hardReset.popOp

/-- The host moves: its next operation, or nothing. -/
def hostMove (s : State par) : State par :=
  match s.host.program with
  | [] => s
  | op :: _ => hostDo s op

/-! ## Whose turn it is -/

/-- The agent that moves when `turns` is empty: the command unit while BUSY, else the engine while it can move, else
the host (DESIGN CHOICE, log entry 4). -/
def State.defaultAgent (s : State par) : Agent :=
  if s.busy && s.commandReady then .commandUnit else if s.eng.ready then .engine else .host

/-- The agent that moves next. A turn of the command unit that comes while its command must wait for the engine goes to
the engine (R850). An engine command completes at once (43_engine.md section 5), so its effect is not split from the end
of BUSY (DEDUCED, log entry 6). -/
def State.agent (s : State par) : Agent :=
  match s.turns with
  | .commandUnit :: _ => if s.commandReady then .commandUnit else .engine
  | .commandEffect :: _ =>
    if s.engineCommand then (if s.eng.yields then .commandUnit else .engine) else .commandEffect
  | .engine :: _ => .engine
  | .host :: _ => .host
  | [] => s.defaultAgent

/-- Its turn is used up. -/
def State.popTurn (s : State par) : State par := { s with turns := s.turns.tail }

/-- The state in which word `w` is in flight and the command unit moves next. -/
def State.issued (s : State par) (w : Word) : State par :=
  { s with
    cu := { s.cu with inFlight := some { word := w, executed := false }, srstWaiting := false }
    turns := .commandUnit :: s.turns }

/-- The engine moves, unless it is between two steps or in a stall. -/
def State.engineYields (s : State par) : State par := if s.eng.yields then s else engineMove s

/-- The engine has moved on until it is between two steps or in a stall: two moves bring it there. -/
def State.settled (s : State par) : State par := s.engineYields.engineYields

end Sys2Proof.Model

namespace Sys2Proof.Machine

open Model

/-! ## The moves of this machine -/

/-- The command a word encodes takes its effect (R850, steps 2 and 3). -/
def runCommand (w : Word) (s : State) : Host.Outcome State Fault Refusal :=
  match decode w with
  | .ok i => exec i s
  | .error (.illegalOp op) => illegalCommand op s

/-- The command unit finishes the command in flight: its effect, unless that was taken before, and `BUSY <- 0`, as one
transition (R850). -/
def commandMove (s : State) : Host.Outcome State Fault Refusal :=
  match s.cu.inFlight with
  | none => .next s
  | some f =>
    if f.executed then .next s.endCommand
    else
      match runCommand f.word s with
      | .next t => .next t.endCommand
      | .fault r => .fault r
      | .refused r => .refused r

/-- The command unit takes the effect of the command in flight and leaves `BUSY` 1 (R850, steps 2 and 3). -/
def commandEffectMove (s : State) : Host.Outcome State Fault Refusal :=
  match s.cu.inFlight with
  | none => .next s
  | some f =>
    if f.executed then .next s
    else
      match runCommand f.word s with
      | .next t => .next (t.markExecuted f.word)
      | .fault r => .fault r
      | .refused r => .refused r

/-- The agent makes its move. -/
def agentMove (s : State) : Agent → Host.Outcome State Fault Refusal
  | .commandUnit => commandMove s
  | .commandEffect => commandEffectMove s
  | .engine => .next (engineMove s)
  | .host => .next (hostMove s)

end Sys2Proof.Machine
end

