-- ==== Sys2Proof/Machine/Step.lean ====
section
/-! DEFINITION. One step of the machine: the agent whose turn it is makes one move. The MFHC fetches no code; a
command word comes from the host's write to `CMD` (20_memory.md R217, 60_exceptions.md R850). -/

namespace Sys2Proof.Machine

open Model

/-- One step: the next agent's turn is used up and it moves. -/
def step (s : State) : Host.Outcome State Fault Refusal := agentMove s.popTurn s.agent

/-- The command word with low `nbits` bits `w` and the others 0 is in flight, and the command unit moves next. For an
engine command the engine first moves on to where such a command can act (60_exceptions.md R850). -/
def State.withFetchWord (s : State) (nbits w : Nat) : State :=
  let word : Word := BitVec.ofNat 32 (w % 2 ^ nbits)
  if (s.issued word).engineCommand then s.settled.issued word else s.issued word

end Sys2Proof.Machine
end

