-- ==== Sys2Proof/Safety.lean ====
section
/-! DEFINITION. The invariant of the machine: what the rules say is true of the state between any two moves, and the
words in which the statements of Certificates/Slice0/Obligations.lean are written. A session's stream is assumed
shorter than 2^64 bytes, since every position has 64 bits (00_scope.md R7, log entry 13): what is said of positions is
said under that bound. -/

namespace Sys2Proof.Model

open Machine

variable {par : Params}

/-- A format entry as FMT_APPEND compiles it (40_codec.md R400, R412). -/
def FmtEntry.Ok (e : FmtEntry) (par : Params := Config.mfhc) : Prop :=
  1 ≤ e.width.toNat ∧ e.width.toNat ≤ par.maxWidth ∧ (e.kind = .boolean → e.width.toNat = 1)
    ∧ (e.expEn = true → e.exp.toNat < 2 ^ e.width.toNat) ∧ (e.expEn = false → e.exp = 0)

/-- The format table holds at most 32 valid entries (10_state.md R119, R120). -/
def FmtOk (f : List FmtEntry) (par : Params := Config.mfhc) : Prop := f.length ≤ par.maxFields ∧ ∀ e ∈ f, e.Ok par

/-- The header state (10_state.md R124): a held header passes validation, without one every element is 0; what is not
captured is 0; a stored CRC belongs to a protected header; no side information stands past its length. -/
def HdrState.Ok (h : HdrState par) : Prop :=
  (h.valid = true → validate h.word = none)
    ∧ (h.valid = false → h = HdrState.reset)
    ∧ (h.crcCap = false → h.storedCrc = 0)
    ∧ (h.siCap = false → h.si = Vector.replicate 32 0)
    ∧ (h.crcCap = true → hdrField h.word .crcFlag = 0)
    ∧ ∀ d, HdrInfo.ofWord h.word par = some d → ∀ j, d.siLen ≤ j → h.si.toList.getD j 0 = 0

/-- The command unit. -/
def CmdUnit.Ok (c : CmdUnit par) : Prop :=
  FmtOk c.fmt par ∧ c.scratch.wf par = true ∧ c.hdr.Ok ∧ (c.srstWaiting = true → c.inFlight.isSome = true)

/-- A candidate as the detector makes it (42_detector.md R600, R610, R611, R650): at least 8 bytes long; an MPEG or
XING candidate carries a valid header and its frame length; a XING candidate's tag and fields lie in the frame; the
fields a kind does not use are 0. -/
def Candidate.Ok (c : Candidate) (par : Params := Config.mfhc) : Prop :=
  8 ≤ c.len
    ∧ (c.kind.isMpeg = true → ∃ d, HdrInfo.ofWord c.hdr par = some d ∧ c.len = d.flen)
    ∧ (c.kind.isMpeg = false → c.hdr = 0)
    ∧ (c.kind = .xing → c.xtag ≤ 40 ∧ c.xtag + xingSpan c.xflags ≤ c.len)
    ∧ (c.kind ≠ .xing → c.xtag = 0 ∧ c.xflags = 0 ∧ c.xinfo = false)

/-- The step in progress (43_engine.md R711, R730, R731), given the engine it belongs to. -/
def Engine.WorkOk (e : Engine par) : Prop :=
  match e.work with
  | .between => True
  | .detect need => need ≤ e.p + par.capacity
  | .emit a sent => a.cand.Ok par ∧ e.latch.emits a.cand.kind = true ∧ sent ≤ a.cand.len ∧ e.p + sent ≤ e.d
  | .push a => a.cand.Ok par ∧ e.latch.emits a.cand.kind = true ∧ e.p + a.cand.len ≤ e.d
  | .drop a => a.cand.Ok par ∧ e.latch.emits a.cand.kind = false
  | .closed a => a.cand.Ok par ∧ e.latch.emits a.cand.kind = true ∧ e.eos = true ∧ e.d < e.p + a.cand.len

/-- Run state, step in progress, pause request, resume that waits, owed abort and fatal error agree (43_engine.md R710 to
R713, R744, R810). -/
def Engine.RunOk (e : Engine par) : Prop :=
  (e.work ≠ .between → e.run = .run ∨ e.run = .step)
    ∧ (e.run = .step → e.work ≠ .between)
    ∧ (e.pauseReq = true → e.run = .run ∧ e.work ≠ .between)
    ∧ (e.resumeReq = true → e.run = .step ∧ e.work.underway = true)
    ∧ (e.abortOwed = true → e.run = .idle)
    ∧ (e.run = .error → e.err.isSome = true)
    ∧ (e.run.active = true ∨ e.run = .done → e.err = none)

/-- The stream position lies in the delivered stream, and the window never needs more than `CAPACITY` bytes while a
session is active (43_engine.md R700, R702, R734). -/
def Engine.StreamOk (e : Engine par) : Prop :=
  e.d < 2 ^ 64 →
    e.p ≤ e.d ∧ e.WorkOk ∧ (e.run.active = true → e.d - e.windowBase ≤ par.capacity)

/-- The engine. -/
def Engine.Ok (e : Engine par) : Prop := e.fifo.length ≤ par.recDepth ∧ e.RunOk ∧ e.StreamOk

/-- The invariant of the machine. -/
def State.Inv (s : State par) : Prop := s.cu.Ok ∧ s.eng.Ok

/-! ## Words for the statements -/

/-- The state a command leaves that raises an error (60_exceptions.md R801, R820): `ERR` is `CODE | ARG << 8`, `CMD_DONE`
and `CMD_ERR` are set, nothing else changes. -/
def State.withError (s : State par) (code arg : Nat) : State par :=
  { s with cu := { s.cu with err := BitVec.ofNat 32 (code + 2 ^ 8 * arg) }, irqPend := s.irqPend ||| 0x03 }

/-- What completion without an error adds to the effect of a command (R801, R820): `ERR` is 0 and `CMD_DONE` is set. -/
def State.withDone (s : State par) : State par := { s with cu := { s.cu with err := 0 }, irqPend := s.irqPend ||| 0x01 }

/-- Two states that differ in the command unit and in `IRQ_PEND` at most. -/
def SameBesideCommandUnit (s t : State par) : Prop :=
  t.eng = s.eng ∧ t.irqEn = s.irqEn ∧ t.host = s.host ∧ t.turns = s.turns

/-- The word addresses that the map of 20_memory.md R202 does not list. -/
def UnlistedAddress (a : BitVec 12) : Prop :=
  let w := a.toNat - a.toNat % 4
  w = 0x06C ∨ w = 0x078 ∨ w = 0x07C ∨ (0x0E8 ≤ w ∧ w < 0x100) ∨ (0x280 ≤ w ∧ w < 0x400) ∨ 0x500 ≤ w

/-- The word addresses whose register the map of R202 marks RO. -/
def ReadOnlyAddress (a : BitVec 12) : Prop :=
  let w := a.toNat - a.toNat % 4
  w = 0x000 ∨ w = 0x004 ∨ w = 0x00C ∨ w = 0x014 ∨ w = 0x018 ∨ w = 0x024 ∨ (0x02C ≤ w ∧ w ≤ 0x060)
    ∨ (0x08C ≤ w ∧ w ≤ 0x0E4) ∨ (0x180 ≤ w ∧ w < 0x280)

/-- The registers whose writes are dropped while BUSY (R207). -/
def Reg.isOperand : Reg par → Prop
  | .cmd => True
  | .val _ => True
  | .scratch _ => True
  | .scratchLen => True
  | .fmtExpect => True
  | .hdrIn => True
  | .crcPoly => True
  | .crcInit => True
  | _ => False

/-- Bit position `k` of a byte string (00_scope.md R8): position 0 is the most significant bit of the first byte. -/
def bitAt (bs : Nat → Byte) (k : Nat) : Bool := (bs (k / 8)).getLsbD (7 - k % 8)

/-- The value of `n` bits from position `start`, most significant first (40_codec.md R401). -/
def bitsValue (bs : Nat → Byte) (start : Nat) : Nat → Nat
  | 0 => 0
  | n + 1 => 2 * bitsValue bs start n + (bitAt bs (start + n)).toNat

/-- `o_i`, the first bit position of field `i` (R401). -/
def fieldStart (f : List FmtEntry) (i : Nat) : Nat := totalBits (f.take i)

/-- The SCRATCH bytes from an offset on. -/
def State.bytesFrom (s : State par) (off : Nat) : Nat → Byte := fun j => s.cu.scratch.read (off + j)

/-- The engine runs the detection part of a step at this move: a step starts (R712), or a step that waited can go
on. -/
def Engine.Detects (e : Engine par) : Prop :=
  (e.work = .between ∧ (e.run = .run ∧ e.pauseReq = false ∨ e.run = .step))
    ∨ ∃ n, e.work = .detect n ∧ e.stallIn = false

/-- The bytes the detector can read from `q` on: those delivered, up to the end of the window (43_engine.md R703). -/
def View.readable (v : View par) (q : Nat) : List Byte := (v.stream.take (v.pos + par.capacity)).drop q

/-- What the detector reads of the `n` bytes from `q` on is decided: they have arrived, or those that have not are ABSENT,
past the end of the stream or of the window (R703). -/
def View.Decided (v : View par) (q n : Nat) : Prop :=
  v.eos = true ∨ n ≤ (v.readable q).length ∨ v.pos + par.capacity ≤ v.stream.length

/-- The items the host takes from the output port, one after another, and the engine afterwards; a take with nothing
offered ends it (43_engine.md R701). -/
def Engine.takeItems : Nat → Engine par → List OutItem × Engine par
  | 0, e => ([], e)
  | n + 1, e =>
    match e.offer with
    | none => ([], e)
    | some x =>
      let r := Engine.takeItems n e.taken
      (x :: r.1, r.2)

/-- The header format of 30_encoding.md R341: the widths and kinds of R310 in index order, with the sync constant
expected. -/
def headerFormat : List FmtEntry :=
  [ ⟨11, .integer, true, 0x7FF⟩, ⟨2, .integer, false, 0⟩, ⟨2, .integer, false, 0⟩, ⟨1, .boolean, false, 0⟩,
    ⟨4, .integer, false, 0⟩, ⟨2, .integer, false, 0⟩, ⟨1, .boolean, false, 0⟩, ⟨1, .boolean, false, 0⟩,
    ⟨2, .integer, false, 0⟩, ⟨2, .integer, false, 0⟩, ⟨1, .boolean, false, 0⟩, ⟨1, .boolean, false, 0⟩,
    ⟨2, .integer, false, 0⟩ ]

/-- The run-state transitions of the table of 43_engine.md R710. -/
def RunStateMayGo : RunState → RunState → Prop
  | .idle, .run => True
  | .done, .run => True
  | .error, .run => True
  | .run, .paused => True
  | .paused, .run => True
  | .paused, .step => True
  | .step, .paused => True
  | .step, .run => True
  | .run, .done => True
  | .step, .done => True
  | .run, .error => True
  | .step, .error => True
  | .run, .idle => True
  | .paused, .idle => True
  | .step, .idle => True
  | .done, .idle => True
  | .error, .idle => True
  | _, _ => False

end Sys2Proof.Model
end

