-- ==== Sys2Proof/Certificates/Slice0/Obligations.lean ====
section
/-! DEFINITION. The statements for the provers. Each docstring names the rules of spec/ it formalises. -/

open Sys2Proof Sys2Proof.Machine
open Sys2Proof.Model hiding State CmdUnit HdrState HdrInfo Engine Counters Record Reg View

/-! ## Reset (70_reset_and_hazards.md) -/

/-- R900: after hardware reset every register reads its reset value, and the state no register shows holds its own;
the reset input does the same from every state, and what it leaves in `VAL` and SCRATCH the rule leaves open. -/
def Obligations.ResetLeavesResetValues : Prop :=
  (∀ r : Reg,
      r ∉ [Reg.id, .version, .crcPoly, .crcInit, .engCfg, .engMargin, .engLowwater, .engCapacity] →
      (∀ i, r ≠ .val i) → (∀ k, r ≠ .scratch k) → State.reset.readReg r = 0)
    ∧ State.reset.readReg .id = 0x4D464843 ∧ State.reset.readReg .version = 0x00010000
    ∧ State.reset.readReg .crcPoly = 0x8005 ∧ State.reset.readReg .crcInit = 0xFFFF
    ∧ State.reset.readReg .engCfg = 0xF ∧ State.reset.readReg .engMargin = 12
    ∧ State.reset.readReg .engLowwater = 12 ∧ State.reset.readReg .engCapacity = 8192
    ∧ State.reset.cu.inFlight = none ∧ State.reset.cu.fmt = []
    ∧ State.reset.cu.hdr
        = { word := 0, valid := false, storedCrc := 0, crcCap := false, si := Vector.replicate 32 0, siCap := false }
    ∧ State.reset.eng.run = .idle ∧ State.reset.eng.sync = .inSync ∧ State.reset.eng.pauseReq = false
    ∧ State.reset.eng.pos = 0 ∧ State.reset.eng.err = none ∧ State.reset.eng.errOff = 0
    ∧ State.reset.eng.sess = { hasRiff := false, hasXing := none, expVersion := none, expLayer := none }
    ∧ State.reset.eng.cnt = { frames := 0, suppressed := 0, lostSync := 0, resync := 0, discard := 0 }
    ∧ State.reset.eng.latch = { cfg := 0xF, margin := 12, poly := 0x8005, init := 0xFFFF }
    ∧ State.reset.eng.windowLen = 0 ∧ State.reset.eng.d = 0 ∧ State.reset.eng.eos = false ∧ State.reset.eng.n = none
    ∧ State.reset.eng.fifo = [] ∧ State.reset.irqPend = 0 ∧ State.reset.irqEn = 0 ∧ State.reset.irqLine = false
    ∧ State.reset.eng.acceptsByte = false ∧ State.reset.eng.acceptsEos = false ∧ State.reset.eng.offer = none
    ∧ ∀ s : Sys2Proof.Machine.State, ∃ val scratch,
        hostDo s .hwReset
          = { State.reset with
              cu := { State.reset.cu with val := val, scratch := scratch }
              host := { s.host with program := s.host.program.tail }
              turns := s.turns }

/-- R902, R112: a write to `CTRL` with bit 0 set resets everything but `VAL` and SCRATCH, at once or, while BUSY, when
the command in flight has completed; with bit 0 clear it does nothing; `CTRL` reads 0. -/
def Obligations.SoftResetWaitsAndKeepsVal : Prop :=
  ∀ (s : Sys2Proof.Machine.State) (v : Word),
    (v.getLsbD 0 = false → s.writeReg .ctrl v = s)
      ∧ (v.getLsbD 0 = true → s.busy = false →
          s.writeReg .ctrl v
            = { s with
                cu := { CmdUnit.reset with val := s.cu.val, scratch := s.cu.scratch }
                eng := Engine.reset
                irqPend := 0
                irqEn := 0 })
      ∧ (v.getLsbD 0 = true → s.busy = true →
          s.writeReg .ctrl v = { s with cu := { s.cu with srstWaiting := true } })
      ∧ (∀ f, s.cu.inFlight = some f → s.cu.srstWaiting = true →
          ∃ t, (if f.executed then t = s else runCommand f.word s = .next t)
            ∧ commandMove s
              = .next
                  { t with
                    cu := { CmdUnit.reset with val := t.cu.val, scratch := t.cu.scratch }
                    eng := Engine.reset
                    irqPend := 0
                    irqEn := 0 })
      ∧ s.readReg .ctrl = 0

/-! ## The register space (20_memory.md, 10_state.md) -/

/-- R200, R202, R203, R205, R206, R212: the address of each register; address bits [1:0] are ignored; an unlisted address reads 0 and
ignores writes, a read-only register ignores writes, `CMD` reads 0; a read changes nothing but what the host has seen. These
addresses are offsets from `MFHC_BASE` (R212): wherever the platform puts the base, and for any parameters, a host access at
the base plus an offset is the access at that offset. That a host address is a natural number, and that an access outside the
4096 bytes from the base (R200) is none to the MFHC and changes nothing of the block, is the model's choice (DESIGN CHOICE,
log entry 19). -/
def Obligations.RegisterMapFollowsTable : Prop :=
  [0x000, 0x004, 0x008, 0x00C, 0x010, 0x014, 0x018, 0x01C, 0x020, 0x024, 0x028, 0x02C, 0x030, 0x034, 0x038, 0x03C,
      0x040, 0x064, 0x068, 0x070, 0x074].map (fun a => Reg.ofAddr (BitVec.ofNat 12 a))
    = [Reg.id, .version, .ctrl, .status, .cmd, .err, .result, .scratchLen, .fmtExpect, .fmtInfo, .hdrIn, .hdrRaw,
        .hdrState, .hdrDerived, .hdrBitrate, .hdrSrate, .hdrCrc, .crcPoly, .crcInit, .irqPend, .irqEn]
  ∧ [0x080, 0x084, 0x088, 0x08C, 0x090, 0x094, 0x098, 0x09C, 0x0A0, 0x0A4, 0x0A8, 0x0AC, 0x0B0, 0x0B4, 0x0B8, 0x0BC,
      0x0C0, 0x0C4, 0x0C8, 0x0CC, 0x0D0, 0x0D4, 0x0D8, 0x0DC, 0x0E0, 0x0E4].map (fun a => Reg.ofAddr (BitVec.ofNat 12 a))
    = [Reg.engCfg, .engMargin, .engLowwater, .engStatus, .engPosLo, .engPosHi, .engSess, .engErr, .engErrOffLo,
        .engErrOffHi, .cntFrames, .cntSuppressed, .cntLostsync, .cntResync, .cntDiscard, .engCapacity, .recKind,
        .recOffLo, .recOffHi, .recLenLo, .recLenHi, .recHdr, .recInfo, .recXframes, .recXsize, .recXqual]
  ∧ (∀ k : Fin 8, Reg.ofAddr (BitVec.ofNat 12 (0x044 + 4 * k.val)) = .hdrSi k)
  ∧ (∀ i : Fin 32, Reg.ofAddr (BitVec.ofNat 12 (0x100 + 4 * i.val)) = .val i
      ∧ Reg.ofAddr (BitVec.ofNat 12 (0x180 + 4 * i.val)) = .fmtDesc i
      ∧ Reg.ofAddr (BitVec.ofNat 12 (0x200 + 4 * i.val)) = .fmtExp i)
  ∧ (∀ k : Fin 64, Reg.ofAddr (BitVec.ofNat 12 (0x400 + 4 * k.val)) = .scratch k)
  ∧ (∀ (s : Sys2Proof.Machine.State) (a : BitVec 12) (v : Word),
      Reg.ofAddr a = Reg.ofAddr (BitVec.ofNat 12 (a.toNat - a.toNat % 4))
        ∧ (UnlistedAddress a → s.readAddr a = 0 ∧ s.writeReg (Reg.ofAddr a) v = s)
        ∧ (ReadOnlyAddress a → s.writeReg (Reg.ofAddr a) v = s)
        ∧ (a = 0x010 → s.readAddr a = 0))
  ∧ (∀ (par : Params) (s : Sys2Proof.Model.State par) (off : BitVec 12) (v : Word),
      hostDo s (.rd (par.base + off.toNat))
          = { s with
              host :=
                { s.host with
                  program := s.host.program.tail
                  reads := s.host.reads ++ [s.readReg (Reg.ofAddr off par)] } }
        ∧ hostDo s (.wr (par.base + off.toNat) v)
          = { s.writeReg (Reg.ofAddr off par) v with host := { s.host with program := s.host.program.tail } }
        ∧ ∀ a, a < par.base ∨ par.base + 4096 ≤ a → ∀ op, op = .rd a ∨ op = .wr a v →
            (hostDo s op).cu = s.cu ∧ (hostDo s op).eng = s.eng ∧ (hostDo s op).irqPend = s.irqPend
              ∧ (hostDo s op).irqEn = s.irqEn)

/-- R207: while BUSY a write to `CMD` or to an operand register is dropped and sets OVERRUN. A read returns the value of
the state it is performed in, before or after the effect of the command in flight. That the command unit may take the
effect of a command of its own (opcode below 0x20, or reserved) first and clear BUSY later, or do both at once with the
same result, is the model's reading of 60_exceptions.md R850 (DEDUCED, log entry 6). `STATUS.BUSY` reads 1 until then, and
once it reads 0 no write is dropped (20_memory.md R214). -/
def Obligations.BusyWritesAreDroppedWithOverrun : Prop :=
  ∀ s : Sys2Proof.Machine.State,
    (∀ a : BitVec 12, hostDo s (.rd (Config.mfhc.base + a.toNat))
        = { s with
            host :=
              { s.host with
                program := s.host.program.tail
                reads := s.host.reads ++ [s.readReg (Reg.ofAddr a)] } })
      ∧ ((s.readReg .status).getLsbD 0 = false → ∀ r v, (s.writeReg r v).irqPend.getLsbD 7 = true → s.irqPend.getLsbD 7 = true)
      ∧ ∀ f, s.cu.inFlight = some f →
        (∀ r v, r.isOperand → s.writeReg r v = { s with irqPend := s.irqPend ||| 0x80 })
          ∧ (s.readReg .status).getLsbD 0 = true
          ∧ (f.executed = false → ∃ t, runCommand f.word s = .next t
              ∧ (s.cu.srstWaiting = false → commandMove s = .next { t with cu := { t.cu with inFlight := none } })
              ∧ ((∀ i, decode f.word = .ok i → i.opcode < 0x20) →
                  ∃ u, commandEffectMove s = .next u
                    ∧ u = { t with cu := { t.cu with inFlight := some { f with executed := true } } }
                    ∧ commandMove u = commandMove s))
          ∧ (f.executed = true → s.cu.srstWaiting = false →
              commandMove s = .next { s with cu := { s.cu with inFlight := none } })

/-- R114, R117, R118, R122, R125, R128, R130, R131, R143: what a host write to each read-write register leaves there, with
nothing else changed: at any time for the engine's configuration and the interrupt registers, which R207 does not drop,
and when not BUSY for the others. -/
def Obligations.HostWritesReadBack : Prop :=
  ∀ (s : Sys2Proof.Machine.State) (v : Word),
    (s.busy = false →
    s.writeReg .cmd v = { s with cu := { s.cu with inFlight := some { word := v, executed := false } } }
      ∧ (∃ n, s.writeReg .scratchLen v = { s with cu := { s.cu with scratchLen := n } }
        ∧ n.val = min v.toNat 256
        ∧ ((s.writeReg .scratchLen v).readReg .scratchLen).toNat = min v.toNat 256)
      ∧ s.writeReg .fmtExpect v = { s with cu := { s.cu with fmtExpect := v } }
      ∧ (s.writeReg .fmtExpect v).readReg .fmtExpect = v
      ∧ s.writeReg .hdrIn v = { s with cu := { s.cu with hdrIn := v } }
      ∧ (s.writeReg .hdrIn v).readReg .hdrIn = v
      ∧ (∀ i : Fin 32, (s.writeReg (.val i) v).readReg (.val i) = v
          ∧ (∀ j, j ≠ i → (s.writeReg (.val i) v).readReg (.val j) = s.readReg (.val j))
          ∧ s.writeReg (.val i) v = { s with cu := { s.cu with val := (s.writeReg (.val i) v).cu.val } })
      ∧ (∃ p, s.writeReg .crcPoly v = { s with cu := { s.cu with crcPoly := p } } ∧ p.toNat = v.toNat % 2 ^ 16)
      ∧ ((s.writeReg .crcPoly v).readReg .crcPoly).toNat = v.toNat % 2 ^ 16
      ∧ (∃ p, s.writeReg .crcInit v = { s with cu := { s.cu with crcInit := p } } ∧ p.toNat = v.toNat % 2 ^ 16)
      ∧ ((s.writeReg .crcInit v).readReg .crcInit).toNat = v.toNat % 2 ^ 16)
      ∧ (∃ p, s.writeReg .engCfg v = { s with eng := { s.eng with cfg := p } } ∧ p.toNat = v.toNat % 2 ^ 4)
      ∧ ((s.writeReg .engCfg v).readReg .engCfg).toNat = v.toNat % 2 ^ 4
      ∧ (∃ p, s.writeReg .engMargin v = { s with eng := { s.eng with margin := p } } ∧ p.toNat = v.toNat % 2 ^ 16)
      ∧ ((s.writeReg .engMargin v).readReg .engMargin).toNat = v.toNat % 2 ^ 16
      ∧ (∃ p, s.writeReg .engLowwater v = { s with eng := { s.eng with lowWater := p } } ∧ p.toNat = v.toNat % 2 ^ 16)
      ∧ ((s.writeReg .engLowwater v).readReg .engLowwater).toNat = v.toNat % 2 ^ 16
      ∧ (∃ p, s.writeReg .irqEn v = { s with irqEn := p } ∧ p.toNat = v.toNat % 2 ^ 8)
      ∧ ((s.writeReg .irqEn v).readReg .irqEn).toNat = v.toNat % 2 ^ 8
      ∧ (∃ p, s.writeReg .irqPend v = { s with irqPend := p }
          ∧ ∀ i, p.getLsbD i = (s.irqPend.getLsbD i && !v.getLsbD i))

/-- R123, R210, R921: a host write of a SCRATCH word puts bits [8j+7:8j] into byte `4k + j` and changes no other byte,
not `SCRATCH_LEN` and nothing else; the word reads back; the memory keeps its canonical form. -/
def Obligations.ScratchWordsAreLittleEndian : Prop :=
  ∀ (s : Sys2Proof.Machine.State) (k : Fin 64) (v : Word), s.busy = false → Memory.wf s.cu.scratch = true →
    (∀ j, j < 4 → (s.writeReg (.scratch k) v).cu.scratch.read (4 * k.val + j) = v.extractLsb' (8 * j) 8)
      ∧ (∀ a, a < 4 * k.val ∨ 4 * k.val + 4 ≤ a →
          (s.writeReg (.scratch k) v).cu.scratch.read a = s.cu.scratch.read a)
      ∧ (s.writeReg (.scratch k) v).readReg (.scratch k) = v
      ∧ (∀ k', k' ≠ k → (s.writeReg (.scratch k) v).readReg (.scratch k') = s.readReg (.scratch k'))
      ∧ s.writeReg (.scratch k) v = { s with cu := { s.cu with scratch := (s.writeReg (.scratch k) v).cu.scratch } }
      ∧ Memory.wf (s.writeReg (.scratch k) v).cu.scratch = true

/-- R110 to R118, R122, R123, R125, R128, R130, R131, R143: the host reads `ID` and `VERSION` as their constants, `CTRL` as 0,
and `ERR`, `RESULT`, `IRQ_PEND` and every register the host writes as what the state holds, with the bits above its width 0.
R113, R132 to R137, R142, R701, R704, R706, R730, R731, R800, R821: the bits of `STATUS`, `ENG_STATUS` and `ENG_SESS`, the words
of the engine's position, error and counters, the interrupt line, the input request `IN_REQ`, and the record window, which shows
the head of the FIFO and 0 when it is empty. STALL_IN is 1 exactly while the end of the stream has not been seen and bytes have
not arrived that a detection has found it needs, or that an accepted frame has up to its end `P + L`. While a frame is in output
the engine does not move on by itself, and STALL_OUT is 1 exactly while the output port offers an item of it: FRAME_END after
its last byte, a byte that has arrived, or FRAME_ABORT at the end of the stream; else it is 1 exactly while a record waits for a
full FIFO. The instants at which the stall bits read 1 are the model's reading (DEDUCED, log entry 17). -/
def Obligations.StatusRegistersShowState : Prop :=
  ∀ s : Sys2Proof.Machine.State, s.eng.fifo.length ≤ 16 →
    (s.readReg .id = 0x4D464843 ∧ s.readReg .version = 0x00010000 ∧ s.readReg .ctrl = 0
      ∧ s.readReg .err = s.cu.err ∧ s.readReg .result = s.cu.result
      ∧ (s.readReg .irqPend).toNat = s.irqPend.toNat ∧ (s.readReg .irqEn).toNat = s.irqEn.toNat
      ∧ (s.readReg .scratchLen).toNat = s.cu.scratchLen.val ∧ s.readReg .fmtExpect = s.cu.fmtExpect
      ∧ s.readReg .hdrIn = s.cu.hdrIn ∧ (s.readReg .crcPoly).toNat = s.cu.crcPoly.toNat
      ∧ (s.readReg .crcInit).toNat = s.cu.crcInit.toNat ∧ (s.readReg .engCfg).toNat = s.eng.cfg.toNat
      ∧ (s.readReg .engMargin).toNat = s.eng.margin.toNat ∧ (s.readReg .engLowwater).toNat = s.eng.lowWater.toNat
      ∧ (∀ i : Fin 32, s.readReg (.val i) = s.cu.val[i.val])
      ∧ ∀ (k : Fin 64) (j : Nat), j < 4 →
          (s.readReg (.scratch k)).extractLsb' (8 * j) 8 = s.cu.scratch.read (4 * k.val + j))
    ∧ ((s.readReg .status).getLsbD 0 = s.cu.inFlight.isSome
      ∧ (s.readReg .status).getLsbD 1 = decide (1 ≤ s.eng.fifo.length)
      ∧ (s.readReg .status).getLsbD 2 = decide (s.eng.fifo.length = 16)
      ∧ ((s.readReg .status).extractLsb' 8 5).toNat = s.eng.fifo.length
      ∧ (s.readReg .status).getLsbD 16 = s.eng.eos
      ∧ (∀ i, 3 ≤ i ∧ i < 8 ∨ 13 ≤ i ∧ i < 16 ∨ 17 ≤ i → (s.readReg .status).getLsbD i = false))
    ∧ (((s.readReg .engStatus).extractLsb' 0 3).toNat
          = (match s.eng.run with | .idle => 0 | .run => 1 | .paused => 2 | .step => 3 | .done => 4 | .error => 5)
      ∧ (s.readReg .engStatus).getLsbD 4 = decide (s.eng.sync = .lostSync)
      ∧ (s.readReg .engStatus).getLsbD 5 = s.eng.pauseReq
      ∧ (s.readReg .engStatus).getLsbD 6 = s.eng.stallIn
      ∧ (s.readReg .engStatus).getLsbD 7 = s.eng.stallOut
      ∧ (∀ i, i = 3 ∨ 8 ≤ i → (s.readReg .engStatus).getLsbD i = false)
      ∧ ((s.readReg .engStatus).getLsbD 6 = true
          ↔ s.eng.eos = false
            ∧ ((∃ n, s.eng.work = .detect n ∧ s.eng.d < n)
              ∨ ∃ a, ((∃ sent, s.eng.work = .emit a sent) ∨ s.eng.work = .drop a) ∧ s.eng.d < s.eng.p + a.cand.len))
      ∧ ((∀ a sent, s.eng.work ≠ .emit a sent) →
          ((s.readReg .engStatus).getLsbD 7 = true ↔ (∃ a, s.eng.work = .push a) ∧ s.eng.fifo.length = 16))
      ∧ (∀ a sent, s.eng.work = .emit a sent →
          s.eng.move = (s.eng, 0)
            ∧ ((s.readReg .engStatus).getLsbD 7 = true ↔ ∃ x, s.eng.offer = some x)
            ∧ (s.eng.abortOwed = false →
                ((s.readReg .engStatus).getLsbD 7 = true
                  ↔ a.cand.len ≤ sent ∨ s.eng.p + sent < s.eng.d ∨ s.eng.eos = true))))
    ∧ ((s.readReg .engSess).getLsbD 0 = s.eng.sess.hasRiff
      ∧ ((s.readReg .engSess).extractLsb' 1 2).toNat
          = (match s.eng.sess.hasXing with | none => 0 | some false => 1 | some true => 2)
      ∧ ((s.readReg .engSess).extractLsb' 4 2).toNat
          = (match s.eng.sess.expVersion with | none => 0 | some .v1 => 1 | some .v2 => 2 | some .v25 => 3)
      ∧ ((s.readReg .engSess).extractLsb' 6 2).toNat
          = (match s.eng.sess.expLayer with | none => 0 | some .l1 => 1 | some .l2 => 2 | some .l3 => 3)
      ∧ (∀ i, i = 3 ∨ 8 ≤ i → (s.readReg .engSess).getLsbD i = false))
    ∧ (s.readReg .engPosHi ++ s.readReg .engPosLo = s.eng.pos
      ∧ s.readReg .engErrOffHi ++ s.readReg .engErrOffLo = s.eng.errOff
      ∧ (s.eng.err = none → s.readReg .engErr = 0)
      ∧ (∀ c, s.eng.err = some c →
          (s.readReg .engErr).toNat
            = (match c with
               | .format => 1 | .length => 2 | .unexpectedValue => 3 | .malformedHeader => 4 | .incomplete => 5
               | .illegalCommand => 6 | .state => 7 | .unsupportedFormat => 8 | .invalidData => 9 | .endOfStream => 10))
      ∧ s.readReg .cntFrames = s.eng.cnt.frames ∧ s.readReg .cntSuppressed = s.eng.cnt.suppressed
      ∧ s.readReg .cntLostsync = s.eng.cnt.lostSync ∧ s.readReg .cntResync = s.eng.cnt.resync
      ∧ s.readReg .cntDiscard = s.eng.cnt.discard)
    ∧ (s.irqLine = true ↔ ∃ i, i < 8 ∧ s.irqPend.getLsbD i = true ∧ s.irqEn.getLsbD i = true)
    ∧ (s.eng.inReq = true
        ↔ (s.eng.run = .run ∨ s.eng.run = .paused ∨ s.eng.run = .step) ∧ s.eng.eos = false
          ∧ (s.eng.windowLen < (s.readReg .engLowwater).toNat ∨ s.eng.stallIn = true))
    ∧ (s.readReg .engCapacity = 8192
      ∧ (s.eng.fifo = [] → ∀ r ∈ [Reg.recKind, .recOffLo, .recOffHi, .recLenLo, .recLenHi, .recHdr, .recInfo, .recXframes,
          .recXsize, .recXqual], s.readReg r = 0)
      ∧ (∀ r rest, s.eng.fifo = r :: rest →
          (s.readReg .recKind).toNat
              = (match r.kind with
                 | .mpeg => 1 | .xing => 2 | .riffHdr => 3 | .riffFmt => 4 | .riffFact => 5 | .riffData => 6 | .id3v1 => 7
                 | .id3v2 => 8 | .apev1 => 9 | .apev2 => 10)
            ∧ s.readReg .recOffHi ++ s.readReg .recOffLo = r.off ∧ s.readReg .recLenHi ++ s.readReg .recLenLo = r.len
            ∧ s.readReg .recHdr = r.hdr
            ∧ ((s.readReg .recInfo).extractLsb' 0 2).toNat
                = (match r.crcStatus with | .unprotected => 0 | .isMatch => 1 | .mismatch => 2 | .incomplete => 3)
            ∧ (s.readReg .recInfo).extractLsb' 4 4 = r.xflags ∧ (s.readReg .recInfo).getLsbD 8 = r.xinfo
            ∧ (s.readReg .recInfo).extractLsb' 16 8 = r.xtagOff
            ∧ s.readReg .recXframes = r.xframes ∧ s.readReg .recXsize = r.xsize ∧ s.readReg .recXqual = r.xqual))

/-- R119, R121: `FMT_INFO`, `FMT_DESC` and `FMT_EXP` show the format table, and 0 at `COUNT` and above. -/
def Obligations.FormatRegistersShowTable : Prop :=
  ∀ s : Sys2Proof.Machine.State, FmtOk s.cu.fmt →
    ((s.readReg .fmtInfo).extractLsb' 0 6).toNat = s.cu.fmt.length
      ∧ ((s.readReg .fmtInfo).extractLsb' 8 11).toNat = (s.cu.fmt.map (fun e => e.width.toNat)).sum
      ∧ ((s.readReg .fmtInfo).extractLsb' 24 8).toNat = ((s.cu.fmt.map (fun e => e.width.toNat)).sum + 7) / 8
      ∧ (∀ b, b = 6 ∨ b = 7 ∨ 19 ≤ b ∧ b < 24 → (s.readReg .fmtInfo).getLsbD b = false)
      ∧ (∀ (i : Fin 32) (e : FmtEntry), s.cu.fmt[i.val]? = some e →
          (s.readReg (.fmtDesc i)).toNat
              = e.width.toNat + (match e.kind with | .integer => 0 | .boolean => 2 ^ 6) + 2 ^ 8 * e.expEn.toNat
            ∧ s.readReg (.fmtExp i) = e.exp)
      ∧ (∀ i : Fin 32, s.cu.fmt.length ≤ i.val → s.readReg (.fmtDesc i) = 0 ∧ s.readReg (.fmtExp i) = 0)

/-- R126, R127: the header registers are functions of the header state, 0 when no valid header is held. -/
def Obligations.HeaderRegistersShowHeader : Prop :=
  ∀ s : Sys2Proof.Machine.State,
    (s.readReg .hdrRaw = s.cu.hdr.word
      ∧ (s.readReg .hdrState).getLsbD 0 = s.cu.hdr.valid ∧ (s.readReg .hdrState).getLsbD 1 = s.cu.hdr.crcCap
      ∧ (s.readReg .hdrState).getLsbD 2 = s.cu.hdr.siCap ∧ (∀ i, 3 ≤ i → (s.readReg .hdrState).getLsbD i = false))
    ∧ (s.cu.hdr.valid = false →
        s.readReg .hdrDerived = 0 ∧ s.readReg .hdrBitrate = 0 ∧ s.readReg .hdrSrate = 0 ∧ s.readReg .hdrCrc = 0
          ∧ ∀ k, s.readReg (.hdrSi k) = 0)
    ∧ (s.cu.hdr.valid = true → ∀ d, HdrInfo.ofWord s.cu.hdr.word = some d →
        ((s.readReg .hdrDerived).extractLsb' 0 2).toNat = (match d.version with | .v1 => 1 | .v2 => 2 | .v25 => 3)
          ∧ ((s.readReg .hdrDerived).extractLsb' 2 2).toNat = (match d.layer with | .l1 => 1 | .l2 => 2 | .l3 => 3)
          ∧ (s.readReg .hdrDerived).getLsbD 4 = d.prot ∧ (s.readReg .hdrDerived).getLsbD 5 = d.mono
          ∧ (s.readReg .hdrDerived).getLsbD 6 = false ∧ (s.readReg .hdrDerived).getLsbD 7 = false
          ∧ ((s.readReg .hdrDerived).extractLsb' 8 8).toNat = d.hlen
          ∧ ((s.readReg .hdrDerived).extractLsb' 16 16).toNat = d.flen
          ∧ (s.readReg .hdrBitrate).toNat = d.kbps ∧ (s.readReg .hdrSrate).toNat = d.hz
          ∧ (s.readReg .hdrCrc).extractLsb' 0 16 = (if s.cu.hdr.crcCap then s.cu.hdr.storedCrc else 0)
          ∧ (s.readReg .hdrCrc).extractLsb' 16 16
              = (if s.cu.hdr.siCap && d.prot then
                  hdrCrc s.cu.crcPoly s.cu.crcInit s.cu.hdr.word (s.cu.hdr.si.toList.take d.siLen) else 0)
          ∧ ∀ (k : Fin 8) (j : Nat), j < 4 →
              (s.readReg (.hdrSi k)).extractLsb' (8 * j) 8
                = if s.cu.hdr.siCap && decide (4 * k.val + j < d.siLen) then s.cu.hdr.si.toList.getD (4 * k.val + j) 0 else 0)

/-! ## Encoding (30_encoding.md) -/

/-- R300 to R302: decoding the word of a well-formed command gives the command back, with every operand. -/
def Obligations.DecodeOfEncodeIsIdentity : Prop := ∀ i : Instr, i.wf = true → decode (encode i) = .ok i

/-- R300, R301, R302, R304: `OP` alone selects the command, and each operand is its field of the word as an unsigned
number; every operand value decodes. -/
def Obligations.OpcodeMapReadsOperandFields : Prop :=
  ∀ (op ra imm : Nat), op < 2 ^ 8 → ra < 2 ^ 8 → imm < 2 ^ 16 →
    let w := BitVec.ofNat 32 (op + 2 ^ 8 * ra + 2 ^ 16 * imm)
    (op = 0x00 → decode w = .ok .nop) ∧ (op = 0x01 → decode w = .ok .fmtClear)
      ∧ (op = 0x02 → decode w = .ok (.fmtAppend (imm % 2 ^ 6) (imm / 2 ^ 6 % 2 ^ 2) (decide (imm / 2 ^ 8 % 2 = 1))))
      ∧ (op = 0x03 → decode w = .ok (.pack ra)) ∧ (op = 0x04 → decode w = .ok (.unpack ra))
      ∧ (op = 0x10 → decode w = .ok (.hdrDecode ra (if imm % 2 = 1 then .hdrIn else .scratch)))
      ∧ (op = 0x11 → decode w = .ok (.hdrUpdate ra))
      ∧ (op = 0x12 → decode w = .ok (.hdrEncode ra (decide (imm % 2 = 1))))
      ∧ (op = 0x13 → decode w = .ok (.hdrSetf ra imm)) ∧ (op = 0x14 → decode w = .ok .hdrCrcchk)
      ∧ (op = 0x15 → decode w = .ok (.crc16 ra imm)) ∧ (op = 0x20 → decode w = .ok .engStart)
      ∧ (op = 0x21 → decode w = .ok .engPause) ∧ (op = 0x22 → decode w = .ok .engResume)
      ∧ (op = 0x23 → decode w = .ok .engStep) ∧ (op = 0x24 → decode w = .ok .engAbort)
      ∧ (op = 0x25 → decode w = .ok .recPop)

/-- R303: every other `OP` completes with ILLEGAL_COMMAND and the `OP` as its argument, and changes nothing else but
`IRQ_PEND`. -/
def Obligations.ReservedOpcodesAreIllegalCommands : Prop :=
  ∀ (op ra imm : Nat) (s : Sys2Proof.Machine.State), ra < 2 ^ 8 → imm < 2 ^ 16 →
    (0x05 ≤ op ∧ op ≤ 0x0F) ∨ (0x16 ≤ op ∧ op ≤ 0x1F) ∨ (0x26 ≤ op ∧ op ≤ 0xFF) →
    runCommand (BitVec.ofNat 32 (op + 2 ^ 8 * ra + 2 ^ 16 * imm)) s = .next (s.withError 6 op)

/-- Words the spec writes out decode to the commands it gives them (R411 to R414, R530 to R535, R740 to R745, their
examples). -/
def Obligations.WordsOfTheExamplesDecode : Prop :=
  decode 0x00000001 = .ok .fmtClear ∧ decode 0x010B0002 = .ok (.fmtAppend 11 0 true) ∧ decode 0x00000003 = .ok (.pack 0)
    ∧ decode 0x00000004 = .ok (.unpack 0) ∧ decode 0x00010010 = .ok (.hdrDecode 0 .hdrIn)
    ∧ decode 0x00000011 = .ok (.hdrUpdate 0) ∧ decode 0x00000012 = .ok (.hdrEncode 0 false)
    ∧ decode 0x00010613 = .ok (.hdrSetf 6 1) ∧ decode 0x00090015 = .ok (.crc16 0 9) ∧ decode 0x00000020 = .ok .engStart
    ∧ decode 0x00000025 = .ok .recPop

/-- R3, R340, R850: a step uses up the turn of the agent that moves and is the move of that agent: of the command unit, of
the engine, whose events go to `IRQ_PEND`, or of the host, which performs the first operation of its program and nothing when
there is none. A turn that names the host or the engine goes to it (the order of the turns: log entry 4). When the command
unit moves, the step is `exec` of the command the word in flight decodes to, and then BUSY is 0,
a waiting soft reset following (R902). An engine command acts only between two steps of the engine (a step that has not
looked at the stream yet counts as such: the model's reading, log entry 8) or in a stall. The model's reading too (DEDUCED,
log entry 6): a turn may take the effect of a command alone and leave BUSY 1, and an engine command is never split so.
`withFetchWord` leaves the command unit to move next, with its word in flight (log entry 3). -/
def Obligations.StepRunsDecodedCommand : Prop :=
  (∀ (s : Sys2Proof.Machine.State) (w : Word) (i : Instr),
    s.cu.inFlight = some { word := w, executed := false } → decode w = .ok i → i.wf = true →
    (s.agent = .commandUnit ∨ s.agent = .commandEffect →
        ∃ t, exec i { s with turns := s.turns.tail } = .next t
          ∧ (s.agent = .commandUnit → s.cu.srstWaiting = false → step s = .next { t with cu := { t.cu with inFlight := none } })
          ∧ (s.agent = .commandUnit → s.cu.srstWaiting = true → step s = .next t.softReset)
          ∧ (s.agent = .commandEffect →
              step s = .next { t with cu := { t.cu with inFlight := some { word := w, executed := true } } }))
      ∧ (0x20 ≤ i.opcode →
          s.agent ≠ .commandEffect
            ∧ (s.agent = .commandUnit →
                s.eng.work = .between ∨ s.eng.work = .detect 0 ∨ s.eng.stallIn = true ∨ s.eng.stallOut = true)))
  ∧ (∀ s : Sys2Proof.Machine.State,
      let u : Sys2Proof.Machine.State := { s with turns := s.turns.tail }
      (s.agent = .commandUnit → step s = commandMove u)
        ∧ (s.agent = .commandEffect → step s = commandEffectMove u)
        ∧ (s.agent = .engine →
            step s = .next { u with eng := s.eng.move.1, irqPend := s.irqPend ||| s.eng.move.2 })
        ∧ (s.agent = .host →
            (s.host.program = [] → step s = .next u)
              ∧ ∀ op rest, s.host.program = op :: rest → step s = .next (hostDo u op))
        ∧ ∀ rest,
            (s.turns = .engine :: rest → s.agent = .engine) ∧ (s.turns = .host :: rest → s.agent = .host))
  ∧ ∀ (s : Sys2Proof.Machine.State) (w : Word),
      (s.withFetchWord 32 w.toNat).cu.inFlight = some { word := w, executed := false }
        ∧ (s.withFetchWord 32 w.toNat).agent = .commandUnit

/-! ## Errors (60_exceptions.md) -/

/-- R801, R820: every command word, reserved or not, completes; it writes `ERR` 0 and sets `CMD_DONE`, or it raises a code
of R800, sets `CMD_DONE` and `CMD_ERR` and changes nothing else. -/
def Obligations.CommandErrorsArePrecise : Prop :=
  ∀ (w : Word) (s : Sys2Proof.Machine.State),
    ∃ t, runCommand w s = .next t
      ∧ ((t.cu.err = 0 ∧ t.irqPend = s.irqPend ||| 0x01)
        ∨ ∃ code arg, 1 ≤ code ∧ code ≤ 7 ∧ arg < 2 ^ 8 ∧ t = s.withError code arg)

/-- R851: a codec or header command leaves the engine alone; an engine command leaves the command unit alone but for
`ERR`; a move of the engine leaves the command unit alone. -/
def Obligations.CommandUnitAndEngineAreDisjoint : Prop :=
  (∀ (i : Instr) (s t : Sys2Proof.Machine.State), exec i s = .next t → i.opcode < 0x20 → SameBesideCommandUnit s t)
    ∧ (∀ (i : Instr) (s t : Sys2Proof.Machine.State), exec i s = .next t → 0x20 ≤ i.opcode →
        t.cu = { s.cu with err := t.cu.err } ∧ t.irqEn = s.irqEn ∧ t.host = s.host ∧ t.turns = s.turns)
    ∧ (∀ s : Sys2Proof.Machine.State,
        (engineMove s).cu = s.cu ∧ (engineMove s).irqEn = s.irqEn ∧ (engineMove s).host = s.host
          ∧ (engineMove s).turns = s.turns)

/-- R820: a pending interrupt bit stays set through every step, until the host clears it by a write of 1 or the block is
reset. -/
def Obligations.PendingBitsStayUntilCleared : Prop :=
  ∀ (s t : Sys2Proof.Machine.State) (i : Nat), step s = .next t → s.irqPend.getLsbD i = true →
    t.irqPend.getLsbD i = true
      ∨ (s.agent = .host ∧ ∃ (a : BitVec 12) (v : Word) (rest : List HostOp),
          s.host.program = .wr (Config.mfhc.base + a.toNat) v :: rest ∧ Reg.ofAddr a = .irqPend ∧ v.getLsbD i = true)
      ∨ (t.irqPend = 0 ∧ t.eng = Engine.reset)

/-- R705, R830: the machine has no trap and no stop: every state has a next state. -/
def Obligations.EveryStateHasANextState : Prop := ∀ s : Sys2Proof.Machine.State, ∃ t, step s = .next t

/-! ## Codec commands (40_codec.md) -/

/-- R410, R411: NOP changes `ERR` and `IRQ_PEND` alone; FMT_CLEAR empties the format table besides, so that `FMT_INFO`
reads 0. -/
def Obligations.NopAndFmtClearComplete : Prop :=
  ∀ s : Sys2Proof.Machine.State,
    exec .nop s = .next { s with cu := { s.cu with err := 0 }, irqPend := s.irqPend ||| 0x01 }
      ∧ exec .fmtClear s = .next { s with cu := { s.cu with fmt := [], err := 0 }, irqPend := s.irqPend ||| 0x01 }
      ∧ ∀ t, exec .fmtClear s = .next t → t.readReg .fmtInfo = 0

/-- R412, R802: the five checks of FMT_APPEND in their order, and the entry it appends when none fails. -/
def Obligations.FmtAppendChecksThenAppends : Prop :=
  ∀ (w k : Nat) (e : Bool) (s : Sys2Proof.Machine.State), w < 64 → k < 4 → s.cu.fmt.length ≤ 32 →
    (2 ≤ k → exec (.fmtAppend w k e) s = .next (s.withError 1 1))
      ∧ (k < 2 → w = 0 ∨ 32 < w → exec (.fmtAppend w k e) s = .next (s.withError 1 2))
      ∧ (k = 1 → 1 < w → w ≤ 32 → exec (.fmtAppend w k e) s = .next (s.withError 1 3))
      ∧ (k < 2 → 1 ≤ w → w ≤ 32 → (k = 1 → w = 1) → e = true → 2 ^ w ≤ s.cu.fmtExpect.toNat →
          exec (.fmtAppend w k e) s = .next (s.withError 1 4))
      ∧ (k < 2 → 1 ≤ w → w ≤ 32 → (k = 1 → w = 1) → (e = true → s.cu.fmtExpect.toNat < 2 ^ w) → s.cu.fmt.length = 32 →
          exec (.fmtAppend w k e) s = .next (s.withError 1 5))
      ∧ (k < 2 → 1 ≤ w → w ≤ 32 → (k = 1 → w = 1) → (e = true → s.cu.fmtExpect.toNat < 2 ^ w) → s.cu.fmt.length < 32 →
          exec (.fmtAppend w k e) s
            = .next
                { s with
                  cu :=
                    { s.cu with
                      fmt :=
                        s.cu.fmt
                          ++ [{ width := BitVec.ofNat 6 w
                                kind := if k = 1 then .boolean else .integer
                                expEn := e
                                exp := if e then s.cu.fmtExpect else 0 }]
                      err := 0 }
                  irqPend := s.irqPend ||| 0x01 })

/-- R401, R402, R413: PACK raises LENGTH when the bytes do not fit in SCRATCH from its offset; else it completes, stores
to `off .. off + BYTE_LEN - 1` alone, raises `SCRATCH_LEN` to cover them, returns `BYTE_LEN` and changes nothing else. Bit
`b` of field `i`, most significant first, goes to bit position `o_i + b` from the offset: an Integer's low `WIDTH` bits, a
Boolean as 0 or 1; the pad bits are 0. -/
def Obligations.PackStoresFieldBitsInOrder : Prop :=
  ∀ (off : Nat) (s : Sys2Proof.Machine.State), off < 256 →
    (256 < off + byteLen s.cu.fmt → exec (.pack off) s = .next (s.withError 2 0))
      ∧ (off + byteLen s.cu.fmt ≤ 256 →
          ∃ t, exec (.pack off) s = .next t
            ∧ t = { s with
                cu :=
                  { s.cu with
                    err := 0
                    result := BitVec.ofNat 32 (byteLen s.cu.fmt)
                    scratch := t.cu.scratch
                    scratchLen := t.cu.scratchLen }
                irqPend := s.irqPend ||| 0x01 }
            ∧ t.cu.scratchLen.val
                = (if byteLen s.cu.fmt = 0 then s.cu.scratchLen.val
                   else max s.cu.scratchLen.val (off + byteLen s.cu.fmt))
            ∧ (∀ a, a < off ∨ off + byteLen s.cu.fmt ≤ a → t.cu.scratch.read a = s.cu.scratch.read a)
            ∧ (FmtOk s.cu.fmt → Memory.wf s.cu.scratch = true →
                (∀ (i : Fin 32) (e : FmtEntry) (b : Nat), s.cu.fmt[i.val]? = some e → b < e.width.toNat →
                    bitAt (t.bytesFrom off) (fieldStart s.cu.fmt i.val + b)
                      = (match e.kind with
                         | .integer => s.cu.val[i.val].getLsbD (e.width.toNat - 1 - b)
                         | .boolean => decide (s.cu.val[i.val] ≠ 0)))
                  ∧ (∀ k, totalBits s.cu.fmt ≤ k → k < 8 * byteLen s.cu.fmt → bitAt (t.bytesFrom off) k = false)))

/-- R414, R401: UNPACK raises LENGTH past the valid bytes, else UNEXPECTED_VALUE of the lowest field whose bits differ
from its expected constant, else it writes each field's bits to its `VAL` register and changes nothing else. That an empty
format raises LENGTH too when the offset itself lies past `SCRATCH_LEN` is the model's choice between two sentences of R414
(DEDUCED, log entry 25). -/
def Obligations.UnpackReadsFieldBitsInOrder : Prop :=
  ∀ (off : Nat) (s : Sys2Proof.Machine.State), off < 256 → FmtOk s.cu.fmt →
    let v : Nat → FmtEntry → Nat := fun i e => bitsValue (s.bytesFrom off) (fieldStart s.cu.fmt i) e.width.toNat
    let bad : Nat → Prop := fun i => ∃ e, s.cu.fmt[i]? = some e ∧ e.expEn = true ∧ v i e ≠ e.exp.toNat
    (s.cu.scratchLen.val < off + byteLen s.cu.fmt → exec (.unpack off) s = .next (s.withError 2 0))
      ∧ (off + byteLen s.cu.fmt ≤ s.cu.scratchLen.val → ∀ i, bad i → (∀ j, j < i → ¬ bad j) →
          exec (.unpack off) s = .next (s.withError 3 i))
      ∧ (off + byteLen s.cu.fmt ≤ s.cu.scratchLen.val → (∀ i, ¬ bad i) →
          ∃ t, exec (.unpack off) s = .next t
            ∧ t = { s with
                cu := { s.cu with err := 0, result := BitVec.ofNat 32 (byteLen s.cu.fmt), val := t.cu.val }
                irqPend := s.irqPend ||| 0x01 }
            ∧ ∀ i : Fin 32,
                (∀ e, s.cu.fmt[i.val]? = some e → t.cu.val[i.val].toNat = v i.val e)
                  ∧ (s.cu.fmt.length ≤ i.val → t.cu.val[i.val] = s.cu.val[i.val]))

/-- R402: `unpackbits(F, packbits(F, v))` gives `v` back, each Integer masked to its width, each Boolean as 0 or 1; the pad
bits do not matter. -/
def Obligations.UnpackbitsInvertsPackbits : Prop :=
  ∀ (f : List FmtEntry) (v : List Word), FmtOk f → v.length = f.length →
    unpackbits f (packbits f v)
      = List.zipWith
          (fun e x => match e.kind with
            | .integer => x.toNat % 2 ^ e.width.toNat
            | .boolean => if x = 0 then 0 else 1) f v

/-- R402, R413, R414: PACK and then UNPACK at the same offset leaves in each `VAL` register below `COUNT` its value masked
or coerced, and the others as they were, when the packed values meet the expected constants. An empty format moves nothing,
so there the offset must lie within `SCRATCH_LEN` for UNPACK to complete (log entry 25). -/
def Obligations.PackThenUnpackRestoresValues : Prop :=
  ∀ (off : Nat) (s : Sys2Proof.Machine.State), off < 256 → FmtOk s.cu.fmt → Memory.wf s.cu.scratch = true →
    off + byteLen s.cu.fmt ≤ 256 → s.cu.fmt ≠ [] ∨ off ≤ s.cu.scratchLen.val →
    (∀ (i : Fin 32) (e : FmtEntry), s.cu.fmt[i.val]? = some e → e.expEn = true →
        (match e.kind with
         | .integer => s.cu.val[i.val].toNat % 2 ^ e.width.toNat
         | .boolean => if s.cu.val[i.val] = 0 then 0 else 1) = e.exp.toNat) →
    ∃ t u, exec (.pack off) s = .next t ∧ exec (.unpack off) t = .next u ∧ u.cu.err = 0
      ∧ ∀ i : Fin 32,
          (∀ e, s.cu.fmt[i.val]? = some e →
            u.cu.val[i.val].toNat
              = (match e.kind with
                 | .integer => s.cu.val[i.val].toNat % 2 ^ e.width.toNat
                 | .boolean => if s.cu.val[i.val] = 0 then 0 else 1))
            ∧ (s.cu.fmt.length ≤ i.val → u.cu.val[i.val] = s.cu.val[i.val])

/-! ## The header word (30_encoding.md, 41_header.md) -/

/-- R310, R500, R501: the 13 fields are the bit ranges of the header word, which is what `unpackbits` gives with the header
format on the header's four bytes; `validate` gives the first check that fails, in the order sync, version, layer,
bitrate, samplingrate. -/
def Obligations.HeaderFieldsAreUnpackedAndValidated : Prop :=
  ∀ h : Word,
    [HdrField.sync, .versionCode, .layerCode, .crcFlag, .bitrateCode, .samplingrateCode, .padding, .priv, .channelmode,
        .modeextension, .copyright, .original, .emphasis].map (hdrField h)
      = [h.toNat / 2 ^ 21, h.toNat / 2 ^ 19 % 4, h.toNat / 2 ^ 17 % 4, h.toNat / 2 ^ 16 % 2, h.toNat / 2 ^ 12 % 16,
          h.toNat / 2 ^ 10 % 4, h.toNat / 2 ^ 9 % 2, h.toNat / 2 ^ 8 % 2, h.toNat / 2 ^ 6 % 4, h.toNat / 2 ^ 4 % 4,
          h.toNat / 2 ^ 3 % 2, h.toNat / 2 ^ 2 % 2, h.toNat % 4]
      ∧ unpackbits headerFormat [h.extractLsb' 24 8, h.extractLsb' 16 8, h.extractLsb' 8 8, h.extractLsb' 0 8]
          = [HdrField.sync, .versionCode, .layerCode, .crcFlag, .bitrateCode, .samplingrateCode, .padding, .priv,
              .channelmode, .modeextension, .copyright, .original, .emphasis].map (hdrField h)
      ∧ ((h.toNat / 2 ^ 21 ≠ 0x7FF → validate h = some .sync)
      ∧ (h.toNat / 2 ^ 21 = 0x7FF →
          (h.toNat / 2 ^ 19 % 4 = 1 → validate h = some .version)
          ∧ (h.toNat / 2 ^ 19 % 4 ≠ 1 →
            (h.toNat / 2 ^ 17 % 4 = 0 → validate h = some .layer)
            ∧ (h.toNat / 2 ^ 17 % 4 ≠ 0 →
              (h.toNat / 2 ^ 12 % 16 = 0 ∨ h.toNat / 2 ^ 12 % 16 = 15 → validate h = some .bitrate)
              ∧ (h.toNat / 2 ^ 12 % 16 ≠ 0 → h.toNat / 2 ^ 12 % 16 ≠ 15 →
                (h.toNat / 2 ^ 10 % 4 = 3 → validate h = some .samplingrate)
                ∧ (h.toNat / 2 ^ 10 % 4 ≠ 3 → validate h = none))))))

/-- R502, R504 to R513: the derived values exist exactly for valid words; version, layer, bitrate and sampling rate are
those of the word's codes in the maps and tables of R506 to R509 (marked by the spec as general knowledge: log entry 15);
the header length is `4 + 2 prot + si_len` with the
values the rule lists, the frame length follows the formula of R513 and lies between 24 and 30736. -/
def Obligations.ValidHeadersHaveBoundedLengths : Prop :=
  ∀ h : Word,
    ((HdrInfo.ofWord h).isSome = true ↔ validate h = none)
      ∧ ∀ d, HdrInfo.ofWord h = some d →
          (d.prot = true ↔ h.toNat / 2 ^ 16 % 2 = 0) ∧ (d.mono = true ↔ h.toNat / 2 ^ 6 % 4 = 3)
            ∧ d.siLen = (match d.version, d.mono with
                | .v1, false => 32 | .v1, true => 17 | .v2, false => 17 | .v2, true => 9 | .v25, false => 17 | .v25, true => 9)
            ∧ d.hlen = 4 + (if d.prot then 2 else 0) + d.siLen ∧ d.hlen ∈ [13, 15, 21, 23, 36, 38]
            ∧ h.toNat / 2 ^ 19 % 4 = (match d.version with | .v1 => 3 | .v2 => 2 | .v25 => 0)
            ∧ h.toNat / 2 ^ 17 % 4 = (match d.layer with | .l1 => 3 | .l2 => 2 | .l3 => 1)
            ∧ (let column := match d.version, d.layer with
                 | .v1, .l1 => [32, 64, 96, 128, 160, 192, 224, 256, 288, 320, 352, 384, 416, 448]
                 | .v1, .l2 => [32, 48, 56, 64, 80, 96, 112, 128, 160, 192, 224, 256, 320, 384]
                 | .v1, .l3 => [32, 40, 48, 56, 64, 80, 96, 112, 128, 160, 192, 224, 256, 320]
                 | _, .l1 => [32, 48, 56, 64, 80, 96, 112, 128, 144, 160, 176, 192, 224, 256]
                 | _, _ => [8, 16, 24, 32, 40, 48, 56, 64, 80, 96, 112, 128, 144, 160]
               let rates := match d.version with
                 | .v1 => [44100, 48000, 32000] | .v2 => [22050, 24000, 16000] | .v25 => [11025, 12000, 8000]
               column[h.toNat / 2 ^ 12 % 16 - 1]? = some d.kbps ∧ rates[h.toNat / 2 ^ 10 % 4]? = some d.hz)
            ∧ (let k := match d.version, d.layer with
                 | .v1, .l1 => 12 | .v1, _ => 144 | _, .l1 => 240 | _, _ => 72
               let x := k * d.kbps * 1000 / d.hz
               let pad := h.toNat / 2 ^ 9 % 2
               d.flen = if d.layer = .l1 then (x + pad * 4) * 4 else x + pad)
            ∧ 24 ≤ d.flen ∧ d.flen ≤ 30736

/-- R520: the CRC register takes one message bit at a time, most significant bit of each byte first: it is doubled
modulo 2^16, and the polynomial is added when its top bit differed from the message bit. -/
def Obligations.CrcIsBitSerial : Prop :=
  ∀ (poly init : Half) (bs : List Byte),
    crc16 poly init bs
      = (bs.flatMap (fun b => (List.range 8).map (fun k => b.getLsbD (7 - k)))).foldl
          (fun c bit =>
            let shifted : Half := BitVec.ofNat 16 (c.toNat * 2)
            if c.getLsbD 15 = bit then shifted else shifted ^^^ poly) init

/-! ## Header commands (41_header.md) -/

/-- R530: HDR_DECODE from `HDR_IN` or from four SCRATCH bytes raises LENGTH or the first failing validation, or holds
the word with nothing captured, and changes nothing else. -/
def Obligations.HdrDecodeHoldsValidWord : Prop :=
  ∀ (off : Nat) (s : Sys2Proof.Machine.State), off < 256 →
    let outcome : Word → Host.Outcome Sys2Proof.Machine.State Fault Refusal := fun h =>
      match validate h with
      | some r => .next (s.withError 4 (match r with | .sync => 1 | .version => 2 | .layer => 3 | .bitrate => 4 | .samplingrate => 5))
      | none =>
        .next
          { s with
            cu :=
              { s.cu with
                hdr :=
                  { word := h, valid := true, storedCrc := 0, crcCap := false, si := Vector.replicate 32 0, siCap := false }
                err := 0 }
            irqPend := s.irqPend ||| 0x01 }
    exec (.hdrDecode off .hdrIn) s = outcome s.cu.hdrIn
      ∧ (s.cu.scratchLen.val < off + 4 → exec (.hdrDecode off .scratch) s = .next (s.withError 2 0))
      ∧ (off + 4 ≤ s.cu.scratchLen.val →
          exec (.hdrDecode off .scratch) s
            = outcome (s.bytesFrom off 0 ++ s.bytesFrom off 1 ++ s.bytesFrom off 2 ++ s.bytesFrom off 3))

/-- R531: HDR_UPDATE raises STATE without a held header; else it captures the stored CRC and the side information when
they are available and not yet captured, returns `HDR_STATE`, and changes nothing else. -/
def Obligations.HdrUpdateCapturesWhatIsAvailable : Prop :=
  ∀ (off : Nat) (s : Sys2Proof.Machine.State), off < 256 →
    (s.cu.hdr.valid = false → exec (.hdrUpdate off) s = .next (s.withError 7 0))
      ∧ ∀ d, s.cu.hdr.valid = true → HdrInfo.ofWord s.cu.hdr.word = some d →
          let avail := s.cu.scratchLen.val - off
          let crc := d.prot = true ∧ s.cu.hdr.crcCap = false ∧ 6 ≤ avail
          let side := s.cu.hdr.siCap = false ∧ 4 + (if d.prot then 2 else 0) + d.siLen ≤ avail
          ∃ t, exec (.hdrUpdate off) s = .next t
            ∧ t = { s with
                cu :=
                  { s.cu with
                    hdr :=
                      { s.cu.hdr with
                        storedCrc := t.cu.hdr.storedCrc
                        crcCap := t.cu.hdr.crcCap
                        si := t.cu.hdr.si
                        siCap := t.cu.hdr.siCap }
                    result := t.readReg .hdrState
                    err := 0 }
                irqPend := s.irqPend ||| 0x01 }
            ∧ (crc → t.cu.hdr.crcCap = true ∧ t.cu.hdr.storedCrc = s.bytesFrom off 4 ++ s.bytesFrom off 5)
            ∧ (¬ crc → t.cu.hdr.crcCap = s.cu.hdr.crcCap ∧ t.cu.hdr.storedCrc = s.cu.hdr.storedCrc)
            ∧ (side → t.cu.hdr.siCap = true
                ∧ ∀ j, j < 32 → t.cu.hdr.si.toList.getD j 0
                    = if j < d.siLen then s.bytesFrom off (4 + (if d.prot then 2 else 0) + j)
                      else s.cu.hdr.si.toList.getD j 0)
            ∧ (¬ side → t.cu.hdr.siCap = s.cu.hdr.siCap ∧ t.cu.hdr.si = s.cu.hdr.si)

/-- R922: what HDR_UPDATE has captured stays until HDR_DECODE, HDR_ENCODE with a new CRC, or a HDR_SETF that changes the
protection or the side-information length. -/
def Obligations.CapturedBytesAreSticky : Prop :=
  ∀ (i : Instr) (s t : Sys2Proof.Machine.State), exec i s = .next t →
    (∀ off src, i ≠ .hdrDecode off src) →
    (∀ f v d d', i = .hdrSetf f v → HdrInfo.ofWord s.cu.hdr.word = some d → HdrInfo.ofWord t.cu.hdr.word = some d' →
        d'.prot = d.prot ∧ d'.siLen = d.siLen) →
    s.cu.hdr.valid = true → validate s.cu.hdr.word = none →
    t.cu.hdr.valid = true
      ∧ (s.cu.hdr.crcCap = true → t.cu.hdr.crcCap = true)
      ∧ (s.cu.hdr.crcCap = true → (∀ off, i ≠ .hdrEncode off true) → t.cu.hdr.storedCrc = s.cu.hdr.storedCrc)
      ∧ (s.cu.hdr.siCap = true → t.cu.hdr.siCap = true ∧ t.cu.hdr.si = s.cu.hdr.si)

/-- R532, R802: HDR_ENCODE checks the held header, then the CRC source, then the length; else it writes the header's four
bytes, the CRC when protected and the captured side information to SCRATCH from its offset and to no other byte. -/
def Obligations.HdrEncodeWritesHeaderBytes : Prop :=
  ∀ (off : Nat) (inc : Bool) (s : Sys2Proof.Machine.State), off < 256 → Memory.wf s.cu.scratch = true →
    (s.cu.hdr.valid = false → exec (.hdrEncode off inc) s = .next (s.withError 7 0))
      ∧ ∀ d, s.cu.hdr.valid = true → HdrInfo.ofWord s.cu.hdr.word = some d →
          let side := s.cu.hdr.si.toList.take d.siLen
          let c := if inc then hdrCrc s.cu.crcPoly s.cu.crcInit s.cu.hdr.word side else s.cu.hdr.storedCrc
          let out :=
            [s.cu.hdr.word.extractLsb' 24 8, s.cu.hdr.word.extractLsb' 16 8, s.cu.hdr.word.extractLsb' 8 8,
                s.cu.hdr.word.extractLsb' 0 8]
              ++ (if d.prot then [c.extractLsb' 8 8, c.extractLsb' 0 8] else [])
              ++ (if s.cu.hdr.siCap then side else [])
          let source := d.prot = false ∨ (if inc then s.cu.hdr.siCap else s.cu.hdr.crcCap) = true
          (¬ source → exec (.hdrEncode off inc) s = .next (s.withError 5 (if inc then 0 else 1)))
            ∧ (source → 256 < off + out.length → exec (.hdrEncode off inc) s = .next (s.withError 2 0))
            ∧ (source → off + out.length ≤ 256 →
                ∃ t, exec (.hdrEncode off inc) s = .next t
                  ∧ t = { s with
                      cu :=
                        { s.cu with
                          hdr :=
                            if d.prot && inc then { s.cu.hdr with storedCrc := c, crcCap := true } else s.cu.hdr
                          scratch := t.cu.scratch
                          scratchLen := t.cu.scratchLen
                          result := BitVec.ofNat 32 out.length
                          err := 0 }
                      irqPend := s.irqPend ||| 0x01 }
                  ∧ t.cu.scratchLen.val = max s.cu.scratchLen.val (off + out.length)
                  ∧ (∀ j, j < out.length → t.bytesFrom off j = out.getD j 0)
                  ∧ ∀ a, a < off ∨ off + out.length ≤ a → t.cu.scratch.read a = s.cu.scratch.read a)

/-- R533, R802: HDR_SETF checks the held header, then the index, then the new word; else it replaces the field of that
index (R310) by the value modulo its width and no other field, and drops the captured bytes when the protection or the side-information length
changes. -/
def Obligations.HdrSetfReplacesOneField : Prop :=
  ∀ (i v : Nat) (s : Sys2Proof.Machine.State), i < 256 → v < 2 ^ 16 →
    (s.cu.hdr.valid = false → exec (.hdrSetf i v) s = .next (s.withError 7 0))
      ∧ ∀ d, s.cu.hdr.valid = true → HdrInfo.ofWord s.cu.hdr.word = some d →
          (12 < i → exec (.hdrSetf i v) s = .next (s.withError 6 i))
            ∧ ∀ f n,
                [(HdrField.sync, 11), (.versionCode, 2), (.layerCode, 2), (.crcFlag, 1), (.bitrateCode, 4),
                    (.samplingrateCode, 2), (.padding, 1), (.priv, 1), (.channelmode, 2), (.modeextension, 2),
                    (.copyright, 1), (.original, 1), (.emphasis, 2)][i]? = some (f, n) →
                ∃ h : Word,
                  hdrField h f = v % 2 ^ n ∧ (∀ g, g ≠ f → hdrField h g = hdrField s.cu.hdr.word g)
                    ∧ (∀ r, validate h = some r →
                        exec (.hdrSetf i v) s
                          = .next (s.withError 4 (match r with
                              | .sync => 1 | .version => 2 | .layer => 3 | .bitrate => 4 | .samplingrate => 5)))
                    ∧ (∀ d', validate h = none → HdrInfo.ofWord h = some d' →
                        exec (.hdrSetf i v) s
                          = .next
                              { s with
                                cu :=
                                  { s.cu with
                                    hdr :=
                                      if d'.prot ≠ d.prot ∨ d'.siLen ≠ d.siLen then
                                        { word := h
                                          valid := true
                                          storedCrc := 0
                                          crcCap := false
                                          si := Vector.replicate 32 0
                                          siCap := false }
                                      else { s.cu.hdr with word := h }
                                    err := 0 }
                                irqPend := s.irqPend ||| 0x01 })

/-- R523, R534, R535: HDR_CRCCHK raises STATE without a held header, else returns the CRC status with its validity in bit 8;
CRC16 raises LENGTH past the valid bytes, else returns the CRC of the bytes. Neither changes anything else. That CRC16 of no
byte raises LENGTH too when the offset itself lies past `SCRATCH_LEN` is the model's choice between two sentences of R535
(DEDUCED, log entry 25). -/
def Obligations.CrcCommandsReturnTheirResult : Prop :=
  (∀ s : Sys2Proof.Machine.State,
    (s.cu.hdr.valid = false → exec .hdrCrcchk s = .next (s.withError 7 0))
      ∧ ∀ d, s.cu.hdr.valid = true → HdrInfo.ofWord s.cu.hdr.word = some d →
          exec .hdrCrcchk s
            = .next
                { s with
                  cu :=
                    { s.cu with
                      result :=
                        if d.prot = false then 0x100
                        else if s.cu.hdr.crcCap = false ∨ s.cu.hdr.siCap = false then 0x003
                        else if s.cu.hdr.storedCrc
                            = crc16 s.cu.crcPoly s.cu.crcInit
                                (s.cu.hdr.word.extractLsb' 8 8 :: s.cu.hdr.word.extractLsb' 0 8
                                  :: s.cu.hdr.si.toList.take d.siLen) then 0x101
                        else 0x002
                      err := 0 }
                  irqPend := s.irqPend ||| 0x01 })
  ∧ (∀ (off n : Nat) (s : Sys2Proof.Machine.State), off < 256 → n < 2 ^ 16 →
    (s.cu.scratchLen.val < off + n → exec (.crc16 off n) s = .next (s.withError 2 0))
      ∧ (off + n ≤ s.cu.scratchLen.val →
          exec (.crc16 off n) s
            = .next
                { s with
                  cu :=
                    { s.cu with
                      result := (crc16 s.cu.crcPoly s.cu.crcInit ((List.range n).map (s.bytesFrom off))).setWidth 32
                      err := 0 }
                  irqPend := s.irqPend ||| 0x01 }))

/-- R532 (its property "`decode(encode(h)) == h`"): HDR_ENCODE with the CRC, HDR_DECODE of the output and HDR_UPDATE give
back the header state that the encode left. -/
def Obligations.DecodeOfEncodedHeaderGivesItBack : Prop :=
  ∀ (off : Nat) (s t : Sys2Proof.Machine.State), off < 256 → Memory.wf s.cu.scratch = true → s.cu.hdr.Ok →
    s.cu.hdr.valid = true → s.cu.hdr.siCap = true → exec (.hdrEncode off true) s = .next t → t.cu.err = 0 →
    ∃ u v, exec (.hdrDecode off .scratch) t = .next u ∧ exec (.hdrUpdate off) u = .next v ∧ v.cu.hdr = t.cu.hdr
      ∧ v.cu.err = 0

/-- R523 ("corrupting any single bit of the side-info makes `valid()` false"), for a polynomial with a constant term, as
0x8005 and 0x1021 have: a header whose CRC matches reports MISMATCH once one bit of its side information is flipped. -/
def Obligations.CrcDetectsSideInfoBitFlip : Prop :=
  ∀ (s t : Sys2Proof.Machine.State) (d : HdrInfo) (j b : Nat) (h : j < 32),
    s.cu.hdr.valid = true → HdrInfo.ofWord s.cu.hdr.word = some d → d.prot = true → s.cu.crcPoly.getLsbD 0 = true →
    j < d.siLen → b < 8 → exec .hdrCrcchk s = .next t → t.cu.result = 0x101 →
    ∃ u, exec .hdrCrcchk
          { s with cu := { s.cu with hdr := { s.cu.hdr with si := s.cu.hdr.si.set j (s.cu.hdr.si[j] ^^^ BitVec.twoPow 8 b) } } }
        = .next u
      ∧ u.cu.result = 0x002

/-! ## Engine commands (43_engine.md section 5) -/

/-- R740: ENG_START raises STATE in an active session; else it latches the configuration and starts a session with the
state of a new Reader, and changes nothing else. That the first step of the session has then begun is the model's choice
(log entry 8). -/
def Obligations.EngStartBeginsFreshSession : Prop :=
  ∀ s : Sys2Proof.Machine.State,
    (s.eng.run = .run → exec .engStart s = .next (s.withError 7 1))
      ∧ (s.eng.run = .paused → exec .engStart s = .next (s.withError 7 2))
      ∧ (s.eng.run = .step → exec .engStart s = .next (s.withError 7 3))
      ∧ (s.eng.run = .idle ∨ s.eng.run = .done ∨ s.eng.run = .error →
          exec .engStart s
            = .next
                { s with
                  cu := { s.cu with err := 0 }
                  eng :=
                    { cfg := s.eng.cfg
                      margin := s.eng.margin
                      lowWater := s.eng.lowWater
                      latch := { cfg := s.eng.cfg, margin := s.eng.margin, poly := s.cu.crcPoly, init := s.cu.crcInit }
                      run := .run
                      sync := .inSync
                      pauseReq := false
                      resumeReq := false
                      pos := 0
                      sess := { hasRiff := false, hasXing := none, expVersion := none, expLayer := none }
                      err := none
                      errOff := 0
                      cnt := { frames := 0, suppressed := 0, lostSync := 0, resync := 0, discard := 0 }
                      stream := []
                      eos := false
                      fifo := []
                      work := .detect 0
                      abortOwed := false }
                  irqPend := s.irqPend ||| 0x01 })

/-- R741, R742, R743, R712, R713: ENG_PAUSE requests a pause in RUN, which is taken at once when no step is in progress, and
does nothing in PAUSED and STEP; ENG_RESUME returns to RUN from PAUSED and STEP, from a stalled STEP when the step completes,
`RUNSTATE` reading STEP until then, and drops a pause request in RUN; ENG_STEP starts one step from PAUSED. Each raises STATE
in the other run states. The model's choices: ENG_STEP begins its step at once, and a single step that has not looked at the
stream is not stalled (log entry 8); ENG_PAUSE leaves a resume that waits as it is (log entry 24). -/
def Obligations.PauseResumeAndStepSetRunState : Prop :=
  ∀ s : Sys2Proof.Machine.State,
    ((s.eng.run = .run → s.eng.work ≠ .between →
        exec .engPause s
          = .next { s with cu := { s.cu with err := 0 }, eng := { s.eng with pauseReq := true }, irqPend := s.irqPend ||| 0x01 })
      ∧ (s.eng.run = .run → s.eng.work = .between →
          exec .engPause s
            = .next
                { s with
                  cu := { s.cu with err := 0 }
                  eng := { s.eng with run := .paused, pauseReq := false }
                  irqPend := s.irqPend ||| 0x01 })
      ∧ (s.eng.run = .paused ∨ s.eng.run = .step → exec .engPause s = .next s.withDone)
      ∧ (s.eng.run = .idle → exec .engPause s = .next (s.withError 7 0))
      ∧ (s.eng.run = .done → exec .engPause s = .next (s.withError 7 4))
      ∧ (s.eng.run = .error → exec .engPause s = .next (s.withError 7 5)))
    ∧ ((s.eng.run = .paused ∨ s.eng.run = .step ∧ (s.eng.work = .between ∨ s.eng.work = .detect 0) →
        exec .engResume s
          = .next { s with cu := { s.cu with err := 0 }, eng := { s.eng with run := .run }, irqPend := s.irqPend ||| 0x01 })
      ∧ (s.eng.run = .step → s.eng.work ≠ .between → s.eng.work ≠ .detect 0 →
          exec .engResume s
              = .next { s with cu := { s.cu with err := 0 }, eng := { s.eng with resumeReq := true }, irqPend := s.irqPend ||| 0x01 }
            ∧ ∀ t, exec .engResume s = .next t → ((t.readReg .engStatus).extractLsb' 0 3).toNat = 3)
      ∧ (s.eng.stallIn = true ∨ s.eng.stallOut = true → s.eng.work ≠ .between ∧ s.eng.work ≠ .detect 0)
      ∧ (s.eng.run = .run →
          exec .engResume s
            = .next { s with cu := { s.cu with err := 0 }, eng := { s.eng with pauseReq := false }, irqPend := s.irqPend ||| 0x01 })
      ∧ (s.eng.run = .idle → exec .engResume s = .next (s.withError 7 0))
      ∧ (s.eng.run = .done → exec .engResume s = .next (s.withError 7 4))
      ∧ (s.eng.run = .error → exec .engResume s = .next (s.withError 7 5)))
    ∧ ((s.eng.run = .paused →
        exec .engStep s
          = .next
              { s with
                cu := { s.cu with err := 0 }
                eng := { s.eng with run := .step, work := .detect 0 }
                irqPend := s.irqPend ||| 0x01 })
      ∧ (s.eng.run = .idle → exec .engStep s = .next (s.withError 7 0))
      ∧ (s.eng.run = .run → exec .engStep s = .next (s.withError 7 1))
      ∧ (s.eng.run = .step → exec .engStep s = .next (s.withError 7 3))
      ∧ (s.eng.run = .done → exec .engStep s = .next (s.withError 7 4))
      ∧ (s.eng.run = .error → exec .engStep s = .next (s.withError 7 5)))

/-- R700, R744: ENG_ABORT does nothing in IDLE; else it abandons the step in progress, drops a pause request and enters IDLE,
keeping all else of the engine; FRAME_ABORT is offered when a frame was being delivered, and nothing is offered when no output
had begun or FRAME_ABORT was already taken; the input port refuses from then on. The model's choices: a resume that waits for
the step (R712) is held in a bit, which ENG_ABORT clears (DEDUCED, log entry 24); FRAME_ABORT is offered too when FRAME_END
was taken and only the record was to be pushed (DESIGN CHOICE, log entry 9). -/
def Obligations.EngAbortCutsSession : Prop :=
  ∀ s : Sys2Proof.Machine.State,
    (s.eng.run = .idle → exec .engAbort s = .next s.withDone)
      ∧ (s.eng.run ≠ .idle →
          ∃ t, exec .engAbort s = .next t
            ∧ t = { s with
                cu := { s.cu with err := 0 }
                eng :=
                  { s.eng with
                    run := .idle
                    pauseReq := false
                    resumeReq := false
                    work := .between
                    abortOwed := t.eng.abortOwed }
                irqPend := s.irqPend ||| 0x01 }
            ∧ ((∃ a sent, s.eng.work = .emit a sent) ∨ (∃ a, s.eng.work = .push a) → t.eng.offer = some .frameAbort)
            ∧ (s.eng.abortOwed = false →
                s.eng.work = .between ∨ (∃ n, s.eng.work = .detect n) ∨ (∃ a, s.eng.work = .drop a)
                  ∨ (∃ a, s.eng.work = .closed a) →
                t.eng.offer = none)
            ∧ t.eng.acceptsByte = false ∧ t.eng.acceptsEos = false)

/-- R745: REC_POP removes the head record in every run state, or raises STATE when there is none. -/
def Obligations.RecPopRemovesHead : Prop :=
  ∀ s : Sys2Proof.Machine.State,
    (s.eng.fifo = [] →
        exec .recPop s
          = .next (s.withError 7 (match s.eng.run with
              | .idle => 0 | .run => 1 | .paused => 2 | .step => 3 | .done => 4 | .error => 5)))
      ∧ ∀ r rest, s.eng.fifo = r :: rest →
          exec .recPop s
            = .next { s with cu := { s.cu with err := 0 }, eng := { s.eng with fifo := rest }, irqPend := s.irqPend ||| 0x01 }

/-! ## Ports and run states (43_engine.md sections 1 and 2) -/

/-- R700: the input port takes a byte or the end-of-stream mark in an active session before end-of-stream, a byte only
while the window has room; what it refuses changes nothing of the block. Between steps, and while a step looks at the
stream, the window holds `S[P .. min(D, P + CAPACITY))`, so `W_LEN` is `min(D - P, CAPACITY)` (R138, R702). -/
def Obligations.InputPortAcceptsInSession : Prop :=
  ∀ (s : Sys2Proof.Machine.State) (b : Byte),
    let active := s.eng.run = .run ∨ s.eng.run = .paused ∨ s.eng.run = .step
    (active → s.eng.eos = false → s.eng.windowLen < 8192 →
        (hostDo s (.inByte b)).eng = { s.eng with stream := s.eng.stream ++ [b] })
      ∧ (active → s.eng.eos = false →
          (hostDo s .inEos).eng = { s.eng with eos := true }
            ∧ ((hostDo s .inEos).readReg .status).getLsbD 16 = true
            ∧ (hostDo s .inEos).eng.n = some s.eng.stream.length)
      ∧ (¬ active ∨ s.eng.eos = true ∨ 8192 ≤ s.eng.windowLen → (hostDo s (.inByte b)).eng = s.eng)
      ∧ (¬ active ∨ s.eng.eos = true → (hostDo s .inEos).eng = s.eng)
      ∧ (hostDo s (.inByte b)).cu = s.cu ∧ (hostDo s .inEos).cu = s.cu
      ∧ (hostDo s (.inByte b)).irqPend = s.irqPend ∧ (hostDo s .inEos).irqPend = s.irqPend
      ∧ ((s.eng.work = .between ∨ ∃ n, s.eng.work = .detect n) →
          s.eng.windowLen = min (s.eng.stream.length - s.eng.pos.toNat) 8192
            ∧ s.eng.window = (s.eng.stream.drop s.eng.pos.toNat).take s.eng.windowLen)

/-- R702, R703, R705, R925: an engine of an active session that waits for an input byte can be given the end-of-stream mark,
and a byte unless the host must take an output item first: the window is full only of bytes of a frame longer than the
window that the host has not taken (R734). -/
def Obligations.InputStallLeavesRoom : Prop :=
  ∀ e : Engine, e.Ok → e.d < 2 ^ 64 → e.stallIn = true →
    e.run.active = true ∧ e.acceptsEos = true
      ∧ (e.acceptsByte = true ∨ (e.stallOut = true ∧ ∃ a sent, e.work = .emit a sent ∧ 8192 < a.cand.len))

/-- R710: the run state changes along the table of R710 and in no other way, but for a reset of the block. R711, R712: a step
starts in RUN and STEP alone; a move that does not complete it changes nothing but the step itself and raises nothing; no
command but ENG_ABORT drops or restarts a step in progress, and none changes the run state while it is in progress, but for
an ENG_RESUME before a single step has looked at the stream (the model's reading: log entry 8). -/
def Obligations.RunStateFollowsTable : Prop :=
  (∀ s t : Sys2Proof.Machine.State, s.eng.Ok → step s = .next t →
    t.eng.run = s.eng.run ∨ RunStateMayGo s.eng.run t.eng.run ∨ t.eng = Engine.reset)
  ∧ (∀ e : Engine,
      (e.work = .between → e.run ≠ .run → e.run ≠ .step → e.move = (e, 0))
        ∧ (e.move.1.work ≠ .between → e.move = ({ e with work := e.move.1.work }, 0)))
  ∧ ∀ (i : Instr) (s t : Sys2Proof.Machine.State), s.eng.RunOk → s.eng.work ≠ .between → i ≠ .engAbort → exec i s = .next t →
      t.eng.work = s.eng.work
        ∧ (t.eng.run = s.eng.run ∨ (i = .engResume ∧ s.eng.run = .step ∧ s.eng.work = .detect 0 ∧ t.eng.run = .run))

/-- R141, R923, R706: a session keeps the configuration it latched: no step that stays in an active session changes it,
and what the engine does at a move does not depend on the registers `ENG_CFG`, `ENG_MARGIN` and `ENG_LOWWATER`. -/
def Obligations.LatchedConfigurationHoldsForSession : Prop :=
  (∀ s t : Sys2Proof.Machine.State, step s = .next t → s.eng.run.active = true → t.eng.run.active = true →
    t.eng.latch = s.eng.latch)
  ∧ ∀ (e : Engine) (cfg : BitVec 4) (margin lowWater : Half),
      ({ e with cfg := cfg, margin := margin, lowWater := lowWater } : Engine).move
        = ({ e.move.1 with cfg := cfg, margin := margin, lowWater := lowWater }, e.move.2)

/-! ## The detector (42_detector.md) -/

/-- R610: an MPEG candidate is a valid header at the position, of the expected version and layer when strict, with the
frame length of the header; with fewer than four bytes before the end of the stream or of the window there is none. -/
def Obligations.MpegTrialMatchesValidHeaders : Prop :=
  ∀ (v : View) (sess : Session) (q : Nat) (strict : Bool),
    (v.eos = true → v.stream.length < q + 4 → tryMpeg v sess q strict = .ok none)
      ∧ (v.pos ≤ q → v.pos + 8192 < q + 4 → v.pos + 8192 ≤ v.stream.length → tryMpeg v sess q strict = .ok none)
      ∧ ∀ b0 b1 b2 b3 : Byte, v.pos ≤ q → q + 3 < v.pos + 8192 →
        v.stream[q]? = some b0 → v.stream[q + 1]? = some b1 → v.stream[q + 2]? = some b2 → v.stream[q + 3]? = some b3 →
        let h : Word := b0 ++ b1 ++ b2 ++ b3
        (validate h ≠ none → tryMpeg v sess q strict = .ok none)
          ∧ ∀ d, HdrInfo.ofWord h = some d →
              (strict = true →
                  (∃ x, sess.expVersion = some x ∧ x ≠ d.version) ∨ (∃ x, sess.expLayer = some x ∧ x ≠ d.layer) →
                  tryMpeg v sess q strict = .ok none)
                ∧ (strict = false
                    ∨ ((∀ x, sess.expVersion = some x → x = d.version) ∧ (∀ x, sess.expLayer = some x → x = d.layer)) →
                  tryMpeg v sess q strict
                    = .ok (some { kind := .mpeg, len := d.flen, hdr := h, xtag := 0, xflags := 0, xinfo := false }))

/-- R611: a XING candidate is the MPEG candidate of its position but for the tag's fields, its tag and fields lie in the
frame, and `HAS_XING` records the outcome of a trial that found a header. Once the 48 bytes it may need are decided, the
first position that holds the bytes "Xing" or "Info" with flags whose fields fit the frame is the tag, with the low four
bits of the flags word's last byte as its flags, and when no position does there is no candidate. -/
def Obligations.XingTrialRefinesMpegTrial : Prop :=
  (∀ (v : View) (sess sess' : Session) (q : Nat) (strict : Bool) (r : Option Candidate),
    tryXing v sess q strict = .ok (sess', r) →
    (sess.hasXing = some false → r = none ∧ sess' = sess)
      ∧ (sess.hasXing ≠ some false → tryMpeg v sess q strict = .ok none → r = none ∧ sess' = sess)
      ∧ (∀ m, sess.hasXing ≠ some false → tryMpeg v sess q strict = .ok (some m) →
          sess' = { sess with hasXing := some r.isSome })
      ∧ (∀ c, r = some c →
          ∃ m, tryMpeg v sess q strict = .ok (some m) ∧ c.kind = .xing ∧ c.len = m.len ∧ c.hdr = m.hdr
            ∧ ∃ d, HdrInfo.ofWord c.hdr = some d ∧ (c.xtag = d.hlen ∨ (d.prot = true ∧ c.xtag = d.hlen + 2))
              ∧ c.xtag + 8 + 4 * (c.xflags.getLsbD 0).toNat + 4 * (c.xflags.getLsbD 1).toNat
                  + 100 * (c.xflags.getLsbD 2).toNat + 4 * (c.xflags.getLsbD 3).toNat ≤ c.len))
  ∧ ∀ (v : View) (sess : Session) (q : Nat) (strict : Bool) (m : Candidate) (d : HdrInfo),
      v.pos ≤ q → v.Decided q 48 → sess.hasXing ≠ some false → tryMpeg v sess q strict = .ok (some m) →
      HdrInfo.ofWord m.hdr = some d →
      let w := v.readable q
      let flags : Nat → BitVec 4 := fun t => (w.getD (t + 7) 0).extractLsb' 0 4
      let reads : Nat → List Byte → Prop := fun t tag => (w.drop t).take 4 = tag
      let holds : Nat → Prop := fun t =>
        t + 8 ≤ w.length ∧ (reads t [0x58, 0x69, 0x6E, 0x67] ∨ reads t [0x49, 0x6E, 0x66, 0x6F])
          ∧ t + 8 + 4 * ((flags t).getLsbD 0).toNat + 4 * ((flags t).getLsbD 1).toNat
              + 100 * ((flags t).getLsbD 2).toNat + 4 * ((flags t).getLsbD 3).toNat ≤ m.len
      let found : Nat → Prop := fun t =>
        ∃ info, (info = true ↔ reads t [0x49, 0x6E, 0x66, 0x6F])
          ∧ tryXing v sess q strict
            = .ok ({ sess with hasXing := some true },
                some { kind := .xing, len := m.len, hdr := m.hdr, xtag := t, xflags := flags t, xinfo := info })
      (holds d.hlen → found d.hlen)
        ∧ (¬ holds d.hlen → d.prot = true → holds (d.hlen + 2) → found (d.hlen + 2))
        ∧ (¬ holds d.hlen → (d.prot = true → ¬ holds (d.hlen + 2)) →
            tryXing v sess q strict = .ok ({ sess with hasXing := some false }, none))

/-- R620 to R623, R630, R631, R640: the RIFF container header at position 0 alone, which opens the container, and the
`fmt `, `fact` and `data` chunks inside one, with a format tag other than 0x55 fatal at the chunk's position; the ID3 and
APE tags. Each length is read from the bytes at the position; any other bytes, too few bytes before the end of the stream
or of the window, and a chunk outside a container are no frame. -/
def Obligations.RiffAndTagTrialsReadTheirLengths : Prop :=
  (∀ (v : View) (sess : Session) (q : Nat), v.pos ≤ q → q + 16 ≤ v.pos + 8192 →
    (∀ z0 z1 z2 z3,
        (v.stream.drop q).take 12 = [0x52, 0x49, 0x46, 0x46, z0, z1, z2, z3, 0x57, 0x41, 0x56, 0x45] →
        (q = 0 → tryRiff v sess q = .ok ({ sess with hasRiff := true }, .hit (.plain .riffHdr 12)))
          ∧ (q ≠ 0 → tryRiff v sess q = .ok (sess, .notThis)))
      ∧ (∀ n0 n1 n2 n3 t0 t1, (v.stream.drop q).take 10 = [0x66, 0x6D, 0x74, 0x20, n0, n1, n2, n3, t0, t1] →
          let n := n0.toNat + 2 ^ 8 * n1.toNat + 2 ^ 16 * n2.toNat + 2 ^ 24 * n3.toNat
          let tag := t0.toNat + 2 ^ 8 * t1.toNat
          (sess.hasRiff = false → tryRiff v sess q = .ok (sess, .notThis))
            ∧ (sess.hasRiff = true → tag = 0x55 → tryRiff v sess q = .ok (sess, .hit (.plain .riffFmt (n + 8))))
            ∧ (sess.hasRiff = true → tag ≠ 0x55 → tryRiff v sess q = .ok (sess, .fatal .unsupportedFormat q)))
      ∧ (∀ n0 n1 n2 n3, (v.stream.drop q).take 8 = [0x66, 0x61, 0x63, 0x74, n0, n1, n2, n3] → sess.hasRiff = true →
          tryRiff v sess q
            = .ok (sess, .hit (.plain .riffFact
                (n0.toNat + 2 ^ 8 * n1.toNat + 2 ^ 16 * n2.toNat + 2 ^ 24 * n3.toNat + 8))))
      ∧ ((v.stream.drop q).take 4 = [0x64, 0x61, 0x74, 0x61] → sess.hasRiff = true →
          tryRiff v sess q = .ok (sess, .hit (.plain .riffData 8))))
  ∧ (∀ (v : View) (q : Nat), v.pos ≤ q → q + 16 ≤ v.pos + 8192 →
    (∀ n, (v.stream.drop q).take 3 = [0x54, 0x41, 0x47] → n = 128 → tryId3 v q = .ok (some (.plain .id3v1 n)))
      ∧ (∀ x0 x1 x2 b6 b7 b8 b9, (v.stream.drop q).take 10 = [0x49, 0x44, 0x33, x0, x1, x2, b6, b7, b8, b9] →
          tryId3 v q
            = .ok (some (.plain .id3v2
                (b6.toNat % 128 * 2 ^ 21 + b7.toNat % 128 * 2 ^ 14 + b8.toNat % 128 * 2 ^ 7 + b9.toNat % 128 + 10))))
      ∧ (∀ v0 v1 v2 v3 n0 n1 n2 n3,
          (v.stream.drop q).take 16
              = [0x41, 0x50, 0x45, 0x54, 0x41, 0x47, 0x45, 0x58, v0, v1, v2, v3, n0, n1, n2, n3] →
          let ver := v0.toNat + 2 ^ 8 * v1.toNat + 2 ^ 16 * v2.toNat + 2 ^ 24 * v3.toNat
          let n := n0.toNat + 2 ^ 8 * n1.toNat + 2 ^ 16 * n2.toNat + 2 ^ 24 * n3.toNat
          (ver = 2000 → tryApe v q = .ok (some (.plain .apev2 (n + 32))))
            ∧ (ver = 1000 → tryApe v q = .ok (some (.plain .apev1 (n + 32))))
            ∧ (ver ≠ 2000 → ver ≠ 1000 → tryApe v q = .ok none))
      ∧ (v.eos = true → v.stream.length < q + 3 → tryId3 v q = .ok none ∧ tryApe v q = .ok none))
  ∧ (∀ (v : View) (sess : Session) (q : Nat), v.pos ≤ q →
    let w := v.readable q
    let riff := q = 0 ∧ w.take 4 = [0x52, 0x49, 0x46, 0x46] ∧ (w.drop 8).take 4 = [0x57, 0x41, 0x56, 0x45]
    (v.Decided q 12 → ¬ riff → sess.hasRiff = false → tryRiff v sess q = .ok (sess, .notThis))
      ∧ (v.Decided q 12 → ¬ riff → w.take 4 ≠ [0x66, 0x6D, 0x74, 0x20] ∨ w.length < 10 →
          w.take 4 ≠ [0x66, 0x61, 0x63, 0x74] ∨ w.length < 8 → w.take 4 ≠ [0x64, 0x61, 0x74, 0x61] →
          tryRiff v sess q = .ok (sess, .notThis))
      ∧ (v.Decided q 10 → w.take 3 ≠ [0x54, 0x41, 0x47] → w.take 3 ≠ [0x49, 0x44, 0x33] ∨ w.length < 10 →
          tryId3 v q = .ok none)
      ∧ (v.Decided q 16 → w.take 8 ≠ [0x41, 0x50, 0x45, 0x54, 0x41, 0x47, 0x45, 0x58] ∨ w.length < 16 →
          tryApe v q = .ok none))

/-- R603: `find` tries the groups XING, MPEG, RIFF, ID3 and APE in this order and gives the first result that is not
`NotThis`, with the session writes of the trials made; a group that waits for a byte makes it wait. -/
def Obligations.FindTriesVariantsInOrder : Prop :=
  ∀ (v : View) (sess : Session) (q : Nat) (strict : Bool),
    (∀ n, tryXing v sess q strict = .error n → find v sess q strict = .error n)
      ∧ (∀ s1 c, tryXing v sess q strict = .ok (s1, some c) → find v sess q strict = .ok (s1, .hit c))
      ∧ ∀ s1, tryXing v sess q strict = .ok (s1, none) →
        (∀ n, tryMpeg v s1 q strict = .error n → find v sess q strict = .error n)
          ∧ (∀ c, tryMpeg v s1 q strict = .ok (some c) → find v sess q strict = .ok (s1, .hit c))
          ∧ (tryMpeg v s1 q strict = .ok none →
            (∀ n, tryRiff v s1 q = .error n → find v sess q strict = .error n)
              ∧ (∀ s2 r, tryRiff v s1 q = .ok (s2, r) → r ≠ .notThis → find v sess q strict = .ok (s2, r))
              ∧ ∀ s2, tryRiff v s1 q = .ok (s2, .notThis) →
                (∀ n, tryId3 v q = .error n → find v sess q strict = .error n)
                  ∧ (∀ c, tryId3 v q = .ok (some c) → find v sess q strict = .ok (s2, .hit c))
                  ∧ (tryId3 v q = .ok none →
                    (∀ n, tryApe v q = .error n → find v sess q strict = .error n)
                      ∧ (∀ c, tryApe v q = .ok (some c) → find v sess q strict = .ok (s2, .hit c))
                      ∧ (tryApe v q = .ok none → find v sess q strict = .ok (s2, .notThis))))

/-- R600, R650, R940: every candidate is at least 8 bytes long and its fields are those of its kind; a call of the detector
reads no byte more than 47 past its position: streams that agree there give the same answer. -/
def Obligations.DetectorIsBoundedAndSound : Prop :=
  (∀ (v : View) (sess sess' : Session) (q : Nat) (strict : Bool) (c : Candidate),
    find v sess q strict = .ok (sess', .hit c) → c.Ok)
  ∧ ∀ (v w : View) (sess : Session) (q : Nat) (strict : Bool),
      (∀ k, k < 48 → streamByte v (q + k) = streamByte w (q + k)) → find v sess q strict = find w sess q strict

/-! ## The step (43_engine.md sections 3 and 4) -/

/-- R703, R704, R750: what a step decides depends on the stream alone: bytes that arrive later, and the end of the stream
seen later, change no decision. A detection waits for the `MIN_REMAIN` bytes of R720, and then for the byte the detector waits
for. One that waits, be its step begun by this move or before, has not seen the end of the stream and waits for bytes of the
window that have not arrived; the engine's move leaves the step in progress with STALL_IN 1 and changes nothing else, and the
step stays so until these bytes, or the end of the stream, have arrived; then the detection runs again (that STALL_IN reads 1
from that move on: log entry 17). -/
def Obligations.DecisionIgnoresLaterDelivery : Prop :=
  (∀ (e : Engine) (d : Decision) (more : List Byte) (eos : Bool),
    e.eos = false → e.decision = .ok d → { e with stream := e.stream ++ more, eos := eos }.decision = .ok d)
  ∧ (∀ e : Engine,
      (e.d < e.p + 5 → e.eos = false → e.decision = .error (e.p + 5))
        ∧ ∀ n, e.p + 5 ≤ e.d → find e.view e.sess e.p (decide (e.sync = .inSync)) = .error n → e.decision = .error n)
  ∧ ∀ (e : Engine) (n : Nat), e.Detects → e.decision = .error n →
      let waiting : Engine := { e with work := .detect n }
      e.eos = false ∧ e.d < n ∧ n ≤ e.p + 8192
        ∧ e.move = (waiting, 0) ∧ waiting.stallIn = true
        ∧ ∀ (more : List Byte) (eos : Bool),
            let later : Engine := { waiting with stream := e.stream ++ more, eos := eos }
            (e.d + more.length < n → eos = false → later.stallIn = true ∧ later.move = (later, 0))
              ∧ (n ≤ e.d + more.length ∨ eos = true → later.stallIn = false ∧ later.Detects)

/-- R720, R728, R820: when no variant matches at `P`, InSync becomes LostSync and is counted once, and one byte is discarded,
or the session ends with INVALID_DATA at `P` when invalid data is not skipped. That the loss of synchronisation stands when the
session ends so, which R720 and R820 say and R830 does not, is the model's reading (DEDUCED, log entry 26). After the discard
a single step for which no resume waits, and a pause requested in RUN, lead to PAUSED; else the engine is in RUN (R710, R712,
R713). SKIP_INVALID is bit 0 of the latched `ENG_CFG` (R130, R141). -/
def Obligations.GarbageByteIsDiscarded : Prop :=
  ∀ (e : Engine) (sess : Session), e.Detects → e.RunOk → e.p + 5 ≤ e.d →
    find e.view e.sess e.p (decide (e.sync = .inSync)) = .ok (sess, .notThis) →
    (e.latch.cfg.getLsbD 0 = true →
        e.move
          = ({ e with
               sess := sess
               sync := .lostSync
               pos := e.pos + 1
               cnt :=
                 { e.cnt with
                   lostSync := if e.sync = .inSync then e.cnt.lostSync + 1 else e.cnt.lostSync
                   discard := e.cnt.discard + 1 }
               run := if e.run = .step ∧ e.resumeReq = false ∨ e.pauseReq = true then .paused else .run
               pauseReq := false
               resumeReq := false
               work := .between },
             if e.sync = .inSync then 0x20 else 0))
      ∧ (e.latch.cfg.getLsbD 0 = false →
          e.move
            = ({ e with
                 sess := sess
                 sync := .lostSync
                 cnt := { e.cnt with lostSync := if e.sync = .inSync then e.cnt.lostSync + 1 else e.cnt.lostSync }
                 err := some .invalidData
                 errOff := e.pos
                 run := .error
                 pauseReq := false
                 resumeReq := false
                 work := .between },
               if e.sync = .inSync then 0x30 else 0x10))

/-- R720, R721, R723, R730, R732, R810: a fatal result of the detector ends the session in ERROR with its code and offset
whatever the configuration says, keeping the session writes of the trial and nothing else of the step. In InSync a
candidate at `P` is accepted without confirmation: its output begins when its kind is emitted, else it is dropped, and no
other state of the engine changes yet. -/
def Obligations.FatalEndsAndInSyncCandidateIsAccepted : Prop :=
  (∀ (e : Engine) (sess : Session) (code : ErrCode) (off : Nat), e.Detects → e.p + 5 ≤ e.d →
    find e.view e.sess e.p (decide (e.sync = .inSync)) = .ok (sess, .fatal code off) →
    e.move
      = ({ e with
           sess := sess
           err := some code
           errOff := BitVec.ofNat 64 off
           run := .error
           pauseReq := false
           resumeReq := false
           work := .between }, 0x10)
      ∧ code = .unsupportedFormat ∧ off = e.p)
  ∧ (∀ (e : Engine) (sess : Session) (c : Candidate), e.Detects → e.sync = .inSync → e.p + 5 ≤ e.d →
    find e.view e.sess e.p true = .ok (sess, .hit c) →
    let a : Accepted := { cand := c, sess := sess, resynced := false }
    let emitted := match c.kind with
      | .mpeg => true | .xing => true
      | .riffHdr => e.latch.cfg.getLsbD 1 | .riffFmt => e.latch.cfg.getLsbD 1 | .riffFact => e.latch.cfg.getLsbD 1
      | .riffData => e.latch.cfg.getLsbD 1
      | .id3v1 => e.latch.cfg.getLsbD 2 | .id3v2 => e.latch.cfg.getLsbD 2
      | .apev1 => e.latch.cfg.getLsbD 3 | .apev2 => e.latch.cfg.getLsbD 3
    e.move = ({ e with work := if emitted then .emit a 0 else .drop a }, 0))

/-- R726, R728, R721, R927: in LostSync a candidate is accepted exactly when its look-ahead fits the window, is there, and a
frame follows it in a strict trial; then, and only then, the step regains synchronisation. When the look-ahead can never
be had or no frame follows, the step takes the no-candidate path; while it may still arrive the engine waits; a fatal
result of the confirming trial ends the session. The session writes of the trials made are kept. SKIP_INVALID is bit 0 of
the latched `ENG_CFG` (R130, R141). -/
def Obligations.LostSyncNeedsConfirmation : Prop :=
  (∀ (e : Engine) (d : Decision) (c : Candidate), e.sync = .lostSync → e.decision = .ok d → d.verdict = .accept c →
    d.resynced = true ∧ d.lost = false
      ∧ c.len + e.latch.margin.toNat ≤ 8192 ∧ e.p + c.len + e.latch.margin.toNat ≤ e.d
      ∧ ∃ s1 c', find e.view e.sess e.p false = .ok (s1, .hit c) ∧ find e.view s1 (e.p + c.len) true = .ok (d.sess, .hit c'))
  ∧ ∀ (e : Engine) (s1 : Session) (c : Candidate), e.sync = .lostSync → e.Detects → e.RunOk → e.p + 5 ≤ e.d →
    find e.view e.sess e.p false = .ok (s1, .hit c) →
    let look := c.len + e.latch.margin.toNat
    let noCandidate : Session → Engine × BitVec 8 := fun sess =>
      if e.latch.cfg.getLsbD 0 then
        ({ e with
           sess := sess
           pos := e.pos + 1
           cnt := { e.cnt with discard := e.cnt.discard + 1 }
           run := if e.run = .step ∧ e.resumeReq = false ∨ e.pauseReq = true then .paused else .run
           pauseReq := false
           resumeReq := false
           work := .between }, 0)
      else
        ({ e with
           sess := sess
           err := some .invalidData
           errOff := e.pos
           run := .error
           pauseReq := false
           resumeReq := false
           work := .between }, 0x10)
    (8192 < look → e.move = noCandidate s1)
      ∧ (look ≤ 8192 → e.d < e.p + look → e.eos = true → e.move = noCandidate s1)
      ∧ (look ≤ 8192 → e.d < e.p + look → e.eos = false →
          e.move = ({ e with work := .detect (e.p + look) }, 0) ∧ e.move.1.stallIn = true)
      ∧ (look ≤ 8192 → e.p + look ≤ e.d →
          (∀ s2, find e.view s1 (e.p + c.len) true = .ok (s2, .notThis) → e.move = noCandidate s2)
            ∧ (∀ s2 code off, find e.view s1 (e.p + c.len) true = .ok (s2, .fatal code off) →
                e.move
                  = ({ e with
                       sess := s2
                       err := some code
                       errOff := BitVec.ofNat 64 off
                       run := .error
                       pauseReq := false
                       resumeReq := false
                       work := .between }, 0x10)
                  ∧ code = .unsupportedFormat ∧ off = e.p + c.len)
            ∧ (∀ s2 c', find e.view s1 (e.p + c.len) true = .ok (s2, .hit c') →
                let a : Accepted := { cand := c, sess := s2, resynced := true }
                e.move = ({ e with work := if e.latch.emits c.kind then .emit a 0 else .drop a }, 0)))

/-- R701, R731: the items taken from the output port for an emitted frame are its bytes in stream order, each as soon as it
has arrived, whether or not the rest of the frame has, and then FRAME_END, after which the record waits to be pushed. A
FRAME_ABORT that ENG_ABORT left owed (R744) comes before anything else, once. The host operation `take` takes the item the
port offers and logs it; with none offered it is tried again in an active session and given up outside one (the model's
choice, log entry 5). -/
def Obligations.EmittedFrameIsDeliveredInOrder : Prop :=
  (∀ (e : Engine) (a : Accepted) (sent : Nat), e.work = .emit a sent → e.abortOwed = false →
    (∀ k, sent + k ≤ a.cand.len → e.p + sent + k ≤ e.d →
        Engine.takeItems k e
          = (((e.stream.drop (e.p + sent)).take k).map OutItem.frameByte, { e with work := .emit a (sent + k) }))
      ∧ (sent < a.cand.len → e.d = e.p + sent → e.eos = false →
          e.offer = none ∧ ∀ b, ({ e with stream := e.stream ++ [b] } : Engine).offer = some (.frameByte b))
      ∧ (sent ≤ a.cand.len → e.p + a.cand.len ≤ e.d →
          Engine.takeItems (a.cand.len - sent + 1) e
            = (((e.stream.drop (e.p + sent)).take (a.cand.len - sent)).map OutItem.frameByte ++ [.frameEnd],
                { e with work := .push a })))
  ∧ (∀ e : Engine, e.abortOwed = true → e.offer = some .frameAbort ∧ e.taken = { e with abortOwed := false })
  ∧ ∀ s : Sys2Proof.Machine.State,
      (∀ x, s.eng.offer = some x →
        hostDo s .take
          = { s with
              eng := s.eng.taken
              host := { s.host with program := s.host.program.tail, taken := s.host.taken ++ [x] } })
      ∧ (s.eng.offer = none →
        hostDo s .take
          = if s.eng.run = .run ∨ s.eng.run = .paused ∨ s.eng.run = .step then s
            else { s with host := { s.host with program := s.host.program.tail } })

/-- R730, R731, R733, R735: a record is pushed when the FIFO has room and not before; then the frame is counted and
consumed, the session expects its version and layer, and REC_PUSH is set, with RESYNC when the step regained
synchronisation; a single step for which no resume waits, and a pause requested in RUN, lead to PAUSED, else the engine is
in RUN (R710, R712, R713). -/
def Obligations.RecordIsPushedWhenFifoHasRoom : Prop :=
  ∀ (e : Engine) (a : Accepted), e.work = .push a → e.RunOk →
    (16 ≤ e.fifo.length → e.move = (e, 0) ∧ e.stallOut = true)
      ∧ (e.fifo.length < 16 →
          e.move
            = ({ e with
                 fifo := e.fifo ++ [e.record a.cand]
                 pos := e.pos + BitVec.ofNat 64 a.cand.len
                 sess := e.move.1.sess
                 sync := if a.resynced then .inSync else e.sync
                 cnt :=
                   { e.cnt with
                     frames := e.cnt.frames + 1
                     resync := if a.resynced then e.cnt.resync + 1 else e.cnt.resync }
                 run := if e.run = .step ∧ e.resumeReq = false ∨ e.pauseReq = true then .paused else .run
                 pauseReq := false
                 resumeReq := false
                 work := .between },
               if a.resynced then 0x44 else 0x04)
          ∧ (a.cand.kind.isMpeg = false → e.move.1.sess = a.sess)
          ∧ (∀ d, a.cand.kind.isMpeg = true → HdrInfo.ofWord a.cand.hdr = some d →
              e.move.1.sess = { a.sess with expVersion := some d.version, expLayer := some d.layer }))

/-- R612, R731, R736: the fields of the record of an emitted frame. -/
def Obligations.RecordHoldsFrameFields : Prop :=
  ∀ (e : Engine) (c : Candidate), c.Ok → e.p + c.len ≤ e.d → e.d < 2 ^ 64 →
    let r := e.record c
    let byte : Nat → Byte := fun k => e.stream.getD (e.p + k) 0
    let be32 : Nat → Word := fun k => byte k ++ byte (k + 1) ++ byte (k + 2) ++ byte (k + 3)
    let a := c.xtag + 8
    let b := a + 4 * (c.xflags.getLsbD 0).toNat
    let q := b + 4 * (c.xflags.getLsbD 1).toNat + 100 * (c.xflags.getLsbD 2).toNat
    r.kind = c.kind ∧ r.off = e.pos ∧ (c.len < 2 ^ 64 ∧ r.len.toNat = c.len)
      ∧ (c.kind ≠ .mpeg → c.kind ≠ .xing → r.hdr = 0 ∧ r.crcStatus = .unprotected)
      ∧ (c.kind ≠ .xing → r.xflags = 0 ∧ r.xinfo = false ∧ r.xtagOff = 0 ∧ r.xframes = 0 ∧ r.xsize = 0 ∧ r.xqual = 0)
      ∧ (c.kind = .xing → r.xflags = c.xflags ∧ r.xinfo = c.xinfo ∧ r.xtagOff.toNat = c.xtag
          ∧ r.xframes = (if c.xflags.getLsbD 0 then be32 a else 0) ∧ r.xsize = (if c.xflags.getLsbD 1 then be32 b else 0)
          ∧ r.xqual = (if c.xflags.getLsbD 3 then be32 q else 0))
      ∧ (∀ d, c.kind = .mpeg ∨ c.kind = .xing → HdrInfo.ofWord c.hdr = some d →
          r.hdr = c.hdr
            ∧ r.crcStatus
                = (if d.prot = false then .unprotected
                   else if c.len < 6 + d.siLen then .incomplete
                   else if crc16 e.latch.poly e.latch.init
                        (c.hdr.extractLsb' 8 8 :: c.hdr.extractLsb' 0 8 :: (List.range d.siLen).map (fun j => byte (6 + j)))
                      = byte 4 ++ byte 5 then .isMatch
                   else .mismatch))

/-- R730, R732: a suppressed frame offers nothing on the output port; once its bytes have arrived it is consumed and
counted, its record is not pushed, and the session is the one its trial left, expecting the version and layer of an MPEG
kind alone (R733); a single step for which no resume waits, and a pause requested in RUN, lead to PAUSED, else the engine is
in RUN (R710, R712, R713). -/
def Obligations.SuppressedFrameIsDropped : Prop :=
  ∀ (e : Engine) (a : Accepted), e.work = .drop a → e.abortOwed = false → e.RunOk →
    e.offer = none
      ∧ (e.d < e.p + a.cand.len → e.eos = false → e.move = (e, 0) ∧ e.stallIn = true)
      ∧ (e.p + a.cand.len ≤ e.d →
          e.move
            = ({ e with
                 pos := e.pos + BitVec.ofNat 64 a.cand.len
                 sess := e.move.1.sess
                 sync := if a.resynced then .inSync else e.sync
                 cnt :=
                   { e.cnt with
                     suppressed := e.cnt.suppressed + 1
                     resync := if a.resynced then e.cnt.resync + 1 else e.cnt.resync }
                 run := if e.run = .step ∧ e.resumeReq = false ∨ e.pauseReq = true then .paused else .run
                 pauseReq := false
                 resumeReq := false
                 work := .between },
               if a.resynced then 0x40 else 0)
            ∧ (a.cand.kind.isMpeg = false → e.move.1.sess = a.sess)
            ∧ (∀ d, a.cand.kind.isMpeg = true → HdrInfo.ofWord a.cand.hdr = some d →
                e.move.1.sess = { a.sess with expVersion := some d.version, expLayer := some d.layer }))

/-- R720, R722, R730: with fewer than 5 bytes left at the end of the stream the session ends in DONE, or with INVALID_DATA
at `P` when bytes are left and invalid data is not skipped. A frame that runs past the end of the stream is closed with
FRAME_ABORT when it was being delivered, is neither counted nor recorded, and ends the session in DONE, or with
END_OF_STREAM at its first byte when invalid data is not skipped; a synchronisation its step regained stays regained
(R735), at END_OF_STREAM too (DEDUCED, log entry 26). Invalid data is skipped when bit 0 of the latched `ENG_CFG` is 1 (R130, R141). -/
def Obligations.EndOfStreamEndsSession : Prop :=
  (∀ e : Engine, e.Detects → e.eos = true → e.p ≤ e.d → e.d < e.p + 5 →
    (e.p = e.d ∨ e.latch.cfg.getLsbD 0 = true →
        e.move = ({ e with run := .done, pauseReq := false, resumeReq := false, work := .between }, 0x08))
      ∧ (e.p < e.d → e.latch.cfg.getLsbD 0 = false →
          e.move
            = ({ e with
                 run := .error
                 err := some .invalidData
                 errOff := e.pos
                 pauseReq := false
                 resumeReq := false
                 work := .between }, 0x10)))
  ∧ (∀ (e : Engine) (a : Accepted), e.eos = true → e.abortOwed = false → e.d < e.p + a.cand.len →
    (∀ sent, e.work = .emit a sent → e.p + sent = e.d →
        e.offer = some .frameAbort ∧ e.taken = { e with work := .closed a })
      ∧ (e.work = .drop a ∨ e.work = .closed a →
          let sync : SyncState := if a.resynced then .inSync else e.sync
          let cnt : Counters := { e.cnt with resync := if a.resynced then e.cnt.resync + 1 else e.cnt.resync }
          (e.latch.cfg.getLsbD 0 = true →
              e.move
                = ({ e with
                     sess := a.sess
                     sync := sync
                     cnt := cnt
                     run := .done
                     pauseReq := false
                     resumeReq := false
                     work := .between },
                  if a.resynced then 0x48 else 0x08))
            ∧ (e.latch.cfg.getLsbD 0 = false →
              e.move
                = ({ e with
                     sess := a.sess
                     sync := sync
                     cnt := cnt
                     err := some .endOfStream
                     errOff := e.pos
                     run := .error
                     pauseReq := false
                     resumeReq := false
                     work := .between },
                  if a.resynced then 0x50 else 0x10))))

/-- R710, R712, R713, R742, R751: a step that completes, be it begun by the same move or before, ends the session or moves `P`
forward, by exactly 1 on a discard and by at least 8 on an acceptance. Unless it ended the session, which wins, a single step
for which no ENG_RESUME waits and a pause requested in RUN lead to PAUSED; a single step for which one waits leads to RUN, and
RUN without a pause request goes on. No request is left. -/
def Obligations.EveryStepMakesProgress : Prop :=
  ∀ e : Engine, e.Ok → e.d < 2 ^ 64 → e.work ≠ .between ∨ e.Detects → e.move.1.work = .between →
    (e.move.1.run = .done ∨ e.move.1.run = .error
      ∨ (e.move.1.run = (if e.run = .step ∧ e.resumeReq = false ∨ e.pauseReq = true then .paused else .run)
        ∧ ((e.move.1.p = e.p + 1 ∧ e.move.1.cnt.discard = e.cnt.discard + 1)
          ∨ (e.p + 8 ≤ e.move.1.p ∧ e.move.1.p ≤ e.d
              ∧ (e.move.1.cnt.frames = e.cnt.frames + 1 ∨ e.move.1.cnt.suppressed = e.cnt.suppressed + 1)))))
      ∧ e.move.1.pauseReq = false ∧ e.move.1.resumeReq = false

/-! ## The invariant (Sys2Proof/Safety.lean) -/

/-- The invariant holds after reset: the format table is valid, SCRATCH is in canonical form, the header state is valid or
0, the FIFO holds at most 16 records, the run state and the step in progress agree, the window never needs more than its
capacity (R119, R120, R124, R138, R140, R700, R710, R713). -/
def Obligations.ResetMeetsInvariant : Prop := State.reset.Inv

/-- Every step keeps the invariant. -/
def Obligations.StepKeepsInvariant : Prop :=
  ∀ s t : Sys2Proof.Machine.State, s.Inv → step s = .next t → t.Inv
end

