-- ==== Sys2Proof/Laws/Memory.lean ====
section
/-! SUPPORT. The byte memory: every operation keeps its canonical form, a write is read back, and every other byte
reads as before. -/

namespace Sys2Proof.Model

open Machine

variable {par : Params} {size : Nat}

/-! ## Canonical form -/

theorem Memory.wfFrom_mono {lo lo' : Nat} (h : lo' ≤ lo) (m : Memory) (hm : Memory.wfFrom size lo m = true) :
    Memory.wfFrom size lo' m = true := by
  cases m with
  | nil => rfl
  | cons c m =>
    simp only [Memory.wfFrom, Bool.and_eq_true, decide_eq_true_eq] at hm ⊢
    exact ⟨⟨⟨by omega, hm.1.1.2⟩, hm.1.2⟩, hm.2⟩

theorem Memory.wfFrom_cons {lo a : Nat} {b : Byte} {m : Memory} (hlo : lo ≤ a) (ha : a < size)
    (hm : Memory.wfFrom size (a + 1) m = true) : Memory.wfFrom size lo (Memory.cons a b m) = true := by
  unfold Memory.cons
  split
  · exact Memory.wfFrom_mono (by omega) m hm
  · simp only [Memory.wfFrom, Bool.and_eq_true, decide_eq_true_eq]
    exact ⟨⟨⟨hlo, ha⟩, ‹_›⟩, hm⟩

theorem Memory.wfFrom_write {a : Nat} (ha : a < size) (b : Byte) :
    ∀ (m : Memory) (lo : Nat), lo ≤ a → Memory.wfFrom size lo m = true → Memory.wfFrom size lo (m.write a b) = true
  | [], lo, hlo, _ => Memory.wfFrom_cons hlo ha rfl
  | (a', b') :: m, lo, hlo, hm => by
    simp only [Memory.wfFrom, Bool.and_eq_true, decide_eq_true_eq] at hm
    unfold Memory.write
    split
    · refine Memory.wfFrom_cons hlo ha ?_
      simp only [Memory.wfFrom, Bool.and_eq_true, decide_eq_true_eq]
      exact ⟨⟨⟨by omega, hm.1.1.2⟩, hm.1.2⟩, hm.2⟩
    · split
      · subst a'
        exact Memory.wfFrom_cons hlo ha hm.2
      · simp only [Memory.wfFrom, Bool.and_eq_true, decide_eq_true_eq]
        exact ⟨hm.1, Memory.wfFrom_write ha b m (a' + 1) (by omega) hm.2⟩

/-- Writing one byte inside SCRATCH keeps the canonical form. -/
theorem Memory.wf_write {m : Memory} {a : Nat} (ha : a < par.scratchSize) (b : Byte) (hm : m.wf par = true) :
    (m.write a b).wf par = true := Memory.wfFrom_write ha b m 0 (Nat.zero_le _) hm

/-- Writing a byte string inside SCRATCH keeps the canonical form. -/
theorem Memory.wf_writeBytes (bs : List Byte) : ∀ (m : Memory) (a : Nat), a + bs.length ≤ par.scratchSize →
    m.wf par = true → (m.writeBytes a bs).wf par = true := by
  induction bs with
  | nil => intro m a _ hm; exact hm
  | cons b bs ih =>
    intro m a ha hm
    simp only [List.length_cons] at ha
    exact ih _ _ (by omega) (Memory.wf_write (by omega) b hm)

/-- The empty memory is in canonical form. -/
theorem Memory.wf_nil : Memory.wf [] par = true := rfl

/-! ## Read after write -/

theorem Memory.read_cons_ne {a x : Nat} (h : x ≠ a) (b : Byte) (m : Memory) :
    (Memory.cons a b m).read x = m.read x := by
  unfold Memory.cons
  split
  · rfl
  · simp [Memory.read, h]

theorem Memory.read_of_wfFrom {lo x : Nat} (hx : x < lo) (m : Memory) (hm : Memory.wfFrom size lo m = true) :
    m.read x = Memory.unlisted := by
  induction m generalizing lo with
  | nil => rfl
  | cons c m ih =>
    obtain ⟨a, b⟩ := c
    simp only [Memory.wfFrom, Bool.and_eq_true, decide_eq_true_eq] at hm
    rw [Memory.read, if_neg (by omega)]
    exact ih (lo := a + 1) (by omega) hm.2

theorem Memory.read_cons_self {a : Nat} (b : Byte) {m : Memory} (hm : Memory.wfFrom size (a + 1) m = true) :
    (Memory.cons a b m).read a = b := by
  unfold Memory.cons
  split
  · rw [Memory.read_of_wfFrom (Nat.lt_succ_self a) m hm, ‹b = _›]
  · simp [Memory.read]

/-- Every other byte reads as before. -/
theorem Memory.read_write_ne {a x : Nat} (h : x ≠ a) (b : Byte) (m : Memory) : (m.write a b).read x = m.read x := by
  induction m with
  | nil => exact Memory.read_cons_ne h b []
  | cons c m ih =>
    obtain ⟨a', b'⟩ := c
    unfold Memory.write
    split
    · exact Memory.read_cons_ne h b _
    · split
      · subst a'
        rw [Memory.read_cons_ne h, Memory.read, if_neg h]
      · simp only [Memory.read, ih]

/-- The byte written is read back. -/
theorem Memory.read_write_self {a : Nat} (b : Byte) :
    ∀ (m : Memory) (lo : Nat), Memory.wfFrom size lo m = true → (m.write a b).read a = b
  | [], _, _ => Memory.read_cons_self (size := size) b rfl
  | (a', b') :: m, lo, hm => by
    simp only [Memory.wfFrom, Bool.and_eq_true, decide_eq_true_eq] at hm
    unfold Memory.write
    split
    · refine Memory.read_cons_self (size := size) b ?_
      simp only [Memory.wfFrom, Bool.and_eq_true, decide_eq_true_eq]
      exact ⟨⟨⟨by omega, hm.1.1.2⟩, hm.1.2⟩, hm.2⟩
    · split
      · subst a'
        exact Memory.read_cons_self b hm.2
      · rename_i h1 h2
        rw [Memory.read, if_neg h2]
        exact Memory.read_write_self b m (a' + 1) hm.2

/-- Bytes below or above a written string read as before. -/
theorem Memory.read_writeBytes_outside (bs : List Byte) : ∀ (m : Memory) (a x : Nat), x < a ∨ a + bs.length ≤ x →
    (m.writeBytes a bs).read x = m.read x := by
  induction bs with
  | nil => intro m a x _; rfl
  | cons b bs ih =>
    intro m a x hx
    simp only [List.length_cons] at hx
    rw [Memory.writeBytes, ih _ _ _ (by omega), Memory.read_write_ne (by omega)]

/-- A written string is read back byte by byte. -/
theorem Memory.read_writeBytes_inside (bs : List Byte) : ∀ (m : Memory) (a j : Nat), m.wf par = true →
    a + bs.length ≤ par.scratchSize → (hj : j < bs.length) → (m.writeBytes a bs).read (a + j) = bs[j] := by
  induction bs with
  | nil => intro m a j _ _ hj; exact absurd hj (Nat.not_lt_zero _)
  | cons b bs ih =>
    intro m a j hm ha hj
    simp only [List.length_cons] at ha hj
    rw [Memory.writeBytes]
    cases j with
    | zero =>
      rw [Memory.read_writeBytes_outside bs _ _ _ (by omega), Nat.add_zero, List.getElem_cons_zero]
      exact Memory.read_write_self b m 0 hm
    | succ j =>
      rw [show a + (j + 1) = a + 1 + j by omega, List.getElem_cons_succ]
      exact ih _ _ j (Memory.wf_write (by omega) b hm) (by omega) (by omega)

/-! ## Byte strings -/

@[simp] theorem Memory.length_readBytes (m : Memory) (a n : Nat) : (m.readBytes a n).length = n := by
  induction n generalizing a with
  | zero => rfl
  | succ n ih => simp [Memory.readBytes, ih]

theorem Memory.getElem?_readBytes (m : Memory) (a n j : Nat) :
    (m.readBytes a n)[j]? = if j < n then some (m.read (a + j)) else none := by
  induction n generalizing a j with
  | zero => simp [Memory.readBytes]
  | succ n ih =>
    cases j with
    | zero => simp [Memory.readBytes]
    | succ j =>
      simp only [Memory.readBytes, List.getElem?_cons_succ, ih, Nat.add_lt_add_iff_right]
      rw [show a + 1 + j = a + (j + 1) by omega]

theorem Memory.getElem_readBytes (m : Memory) (a n j : Nat) (h : j < (m.readBytes a n).length) :
    (m.readBytes a n)[j] = m.read (a + j) := by
  have := Memory.getElem?_readBytes m a n j
  rw [List.getElem?_eq_getElem h] at this
  rw [Memory.length_readBytes] at h
  simpa [h] using this

/-- Reading back a written string gives the string. -/
theorem Memory.readBytes_writeBytes (bs : List Byte) (m : Memory) (a : Nat) (hm : m.wf par = true)
    (ha : a + bs.length ≤ par.scratchSize) : (m.writeBytes a bs).readBytes a bs.length = bs := by
  apply List.ext_getElem
  · simp
  · intro j h1 h2
    rw [Memory.getElem_readBytes, Memory.read_writeBytes_inside bs m a j hm ha h2]

@[simp] theorem wordLanes_length (w : Word) : (wordLanes w).length = 4 := rfl

@[simp] theorem headerBytes_length (w : Word) : (headerBytes w).length = 4 := rfl

@[simp] theorem beBytes_length (n x : Nat) : (beBytes n x).length = n := by
  induction n with
  | zero => rfl
  | succ n ih => simp [beBytes, ih]

/-! ## SCRATCH of a state -/

/-- A host write of a SCRATCH word keeps the canonical form. -/
theorem Memory.wf_writeWord {m : Memory} (k : Fin par.scratchWords) (w : Word) (hm : m.wf par = true) :
    (m.writeBytes (4 * k.val) (wordLanes w)).wf par = true :=
  Memory.wf_writeBytes _ m _ (by have := k.isLt; simp only [Params.scratchWords, wordLanes_length] at *; omega) hm

/-- What a command's SCRATCH write can do (40_codec.md R413, 41_header.md R532): LENGTH when it does not fit, else
the bytes are stored and `SCRATCH_LEN` covers them. -/
theorem writeRegion_cases (s : State par) (off : Nat) (bs : List Byte) :
    (off + bs.length > par.scratchSize ∧ writeRegion s off bs = .error ⟨.length, 0⟩)
      ∨ (off + bs.length ≤ par.scratchSize ∧ writeRegion s off bs = .ok (s.storeScratch off bs)) := by
  unfold writeRegion
  by_cases h : off + bs.length > par.scratchSize
  · exact .inl ⟨h, if_pos h⟩
  · exact .inr ⟨by omega, if_neg h⟩

/-- What a command's SCRATCH read can do (10_state.md R117): LENGTH past the valid bytes, else the bytes. -/
theorem readRegion_cases (s : State par) (off n : Nat) :
    (off + n > s.cu.scratchLen.val ∧ readRegion s off n = .error ⟨.length, 0⟩)
      ∨ (off + n ≤ s.cu.scratchLen.val ∧ readRegion s off n = .ok (s.cu.scratch.readBytes off n)) := by
  unfold readRegion
  by_cases h : off + n > s.cu.scratchLen.val
  · exact .inl ⟨h, if_pos h⟩
  · exact .inr ⟨by omega, if_neg h⟩

/-- A stored region keeps the canonical form of SCRATCH. -/
theorem State.storeScratch_wf {s : State par} {off : Nat} {bs : List Byte} (hb : off + bs.length ≤ par.scratchSize)
    (hs : s.cu.scratch.wf par = true) : (s.storeScratch off bs).cu.scratch.wf par = true :=
  Memory.wf_writeBytes bs _ _ hb hs

/-- `SCRATCH_LEN` after a region that fits is stored: raised to cover it when it is not empty (R117). -/
theorem State.storeScratch_len {s : State par} {off : Nat} {bs : List Byte} (hb : off + bs.length ≤ par.scratchSize) :
    (s.storeScratch off bs).cu.scratchLen.val
      = if bs.length = 0 then s.cu.scratchLen.val else max s.cu.scratchLen.val (off + bs.length) := by
  have hl := s.cu.scratchLen.isLt
  simp only [State.storeScratch]
  split
  · rfl
  · have h : max s.cu.scratchLen.val (off + bs.length) ≤ par.scratchSize :=
      Nat.max_le.2 ⟨Nat.le_of_lt_succ hl, hb⟩
    exact Nat.min_eq_left h

end Sys2Proof.Model
end

