-- ==== Sys2Proof/Laws/State.lean ====
section
/-! SUPPORT. One lemma for each field and each update of State: what the update leaves there. Each holds by `rfl`
and is a simp lemma, so that no later proof unfolds a record update. -/

namespace Sys2Proof.Model

open Machine

variable {par : Params}

@[simp] theorem State.setErr_cu (s : State par) (w : Word) : (s.setErr w).cu = { s.cu with err := w } := rfl
@[simp] theorem State.setErr_eng (s : State par) (w : Word) : (s.setErr w).eng = s.eng := rfl
@[simp] theorem State.setErr_irqPend (s : State par) (w : Word) : (s.setErr w).irqPend = s.irqPend := rfl
@[simp] theorem State.setErr_irqEn (s : State par) (w : Word) : (s.setErr w).irqEn = s.irqEn := rfl
@[simp] theorem State.setErr_host (s : State par) (w : Word) : (s.setErr w).host = s.host := rfl
@[simp] theorem State.setErr_turns (s : State par) (w : Word) : (s.setErr w).turns = s.turns := rfl

@[simp] theorem State.setResult_cu (s : State par) (w : Word) : (s.setResult w).cu = { s.cu with result := w } := rfl
@[simp] theorem State.setResult_eng (s : State par) (w : Word) : (s.setResult w).eng = s.eng := rfl
@[simp] theorem State.setResult_irqPend (s : State par) (w : Word) : (s.setResult w).irqPend = s.irqPend := rfl
@[simp] theorem State.setResult_irqEn (s : State par) (w : Word) : (s.setResult w).irqEn = s.irqEn := rfl
@[simp] theorem State.setResult_host (s : State par) (w : Word) : (s.setResult w).host = s.host := rfl
@[simp] theorem State.setResult_turns (s : State par) (w : Word) : (s.setResult w).turns = s.turns := rfl

@[simp] theorem State.setFmt_cu (s : State par) (f : List FmtEntry) : (s.setFmt f).cu = { s.cu with fmt := f } := rfl
@[simp] theorem State.setFmt_eng (s : State par) (f : List FmtEntry) : (s.setFmt f).eng = s.eng := rfl
@[simp] theorem State.setFmt_irqPend (s : State par) (f : List FmtEntry) : (s.setFmt f).irqPend = s.irqPend := rfl
@[simp] theorem State.setFmt_irqEn (s : State par) (f : List FmtEntry) : (s.setFmt f).irqEn = s.irqEn := rfl
@[simp] theorem State.setFmt_host (s : State par) (f : List FmtEntry) : (s.setFmt f).host = s.host := rfl
@[simp] theorem State.setFmt_turns (s : State par) (f : List FmtEntry) : (s.setFmt f).turns = s.turns := rfl

@[simp] theorem State.setVal_cu (s : State par) (v : Vector Word par.maxFields) : (s.setVal v).cu = { s.cu with val := v } := rfl
@[simp] theorem State.setVal_eng (s : State par) (v : Vector Word par.maxFields) : (s.setVal v).eng = s.eng := rfl
@[simp] theorem State.setVal_irqPend (s : State par) (v : Vector Word par.maxFields) : (s.setVal v).irqPend = s.irqPend := rfl
@[simp] theorem State.setVal_irqEn (s : State par) (v : Vector Word par.maxFields) : (s.setVal v).irqEn = s.irqEn := rfl
@[simp] theorem State.setVal_host (s : State par) (v : Vector Word par.maxFields) : (s.setVal v).host = s.host := rfl
@[simp] theorem State.setVal_turns (s : State par) (v : Vector Word par.maxFields) : (s.setVal v).turns = s.turns := rfl

@[simp] theorem State.setHdr_cu (s : State par) (h : HdrState par) : (s.setHdr h).cu = { s.cu with hdr := h } := rfl
@[simp] theorem State.setHdr_eng (s : State par) (h : HdrState par) : (s.setHdr h).eng = s.eng := rfl
@[simp] theorem State.setHdr_irqPend (s : State par) (h : HdrState par) : (s.setHdr h).irqPend = s.irqPend := rfl
@[simp] theorem State.setHdr_irqEn (s : State par) (h : HdrState par) : (s.setHdr h).irqEn = s.irqEn := rfl
@[simp] theorem State.setHdr_host (s : State par) (h : HdrState par) : (s.setHdr h).host = s.host := rfl
@[simp] theorem State.setHdr_turns (s : State par) (h : HdrState par) : (s.setHdr h).turns = s.turns := rfl

@[simp] theorem State.setEng_cu (s : State par) (e : Engine par) : (s.setEng e).cu = s.cu := rfl
@[simp] theorem State.setEng_eng (s : State par) (e : Engine par) : (s.setEng e).eng = e := rfl
@[simp] theorem State.setEng_irqPend (s : State par) (e : Engine par) : (s.setEng e).irqPend = s.irqPend := rfl
@[simp] theorem State.setEng_irqEn (s : State par) (e : Engine par) : (s.setEng e).irqEn = s.irqEn := rfl
@[simp] theorem State.setEng_host (s : State par) (e : Engine par) : (s.setEng e).host = s.host := rfl
@[simp] theorem State.setEng_turns (s : State par) (e : Engine par) : (s.setEng e).turns = s.turns := rfl

@[simp] theorem State.setIrq_cu (s : State par) (m : BitVec 8) : (s.setIrq m).cu = s.cu := rfl
@[simp] theorem State.setIrq_eng (s : State par) (m : BitVec 8) : (s.setIrq m).eng = s.eng := rfl
@[simp] theorem State.setIrq_irqPend (s : State par) (m : BitVec 8) : (s.setIrq m).irqPend = s.irqPend ||| m := rfl
@[simp] theorem State.setIrq_irqEn (s : State par) (m : BitVec 8) : (s.setIrq m).irqEn = s.irqEn := rfl
@[simp] theorem State.setIrq_host (s : State par) (m : BitVec 8) : (s.setIrq m).host = s.host := rfl
@[simp] theorem State.setIrq_turns (s : State par) (m : BitVec 8) : (s.setIrq m).turns = s.turns := rfl

@[simp] theorem State.storeScratch_cu (s : State par) (off : Nat) (bs : List Byte) : (s.storeScratch off bs).cu = 
      { s.cu with
        scratch := s.cu.scratch.writeBytes off bs
        scratchLen := if bs.length = 0 then s.cu.scratchLen else clampLen (max s.cu.scratchLen.val (off + bs.length)) } := rfl
@[simp] theorem State.storeScratch_eng (s : State par) (off : Nat) (bs : List Byte) :
    (s.storeScratch off bs).eng = s.eng := rfl
@[simp] theorem State.storeScratch_irqPend (s : State par) (off : Nat) (bs : List Byte) :
    (s.storeScratch off bs).irqPend = s.irqPend := rfl
@[simp] theorem State.storeScratch_irqEn (s : State par) (off : Nat) (bs : List Byte) :
    (s.storeScratch off bs).irqEn = s.irqEn := rfl
@[simp] theorem State.storeScratch_host (s : State par) (off : Nat) (bs : List Byte) :
    (s.storeScratch off bs).host = s.host := rfl
@[simp] theorem State.storeScratch_turns (s : State par) (off : Nat) (bs : List Byte) :
    (s.storeScratch off bs).turns = s.turns := rfl

@[simp] theorem State.raise_cu (s : State par) (e : CmdError) : (s.raise e).cu = { s.cu with err := e.word } := rfl
@[simp] theorem State.raise_eng (s : State par) (e : CmdError) : (s.raise e).eng = s.eng := rfl
@[simp] theorem State.raise_irqPend (s : State par) (e : CmdError) :
    (s.raise e).irqPend = s.irqPend ||| (irqCmdDone ||| irqCmdErr) := rfl
@[simp] theorem State.raise_irqEn (s : State par) (e : CmdError) : (s.raise e).irqEn = s.irqEn := rfl
@[simp] theorem State.raise_host (s : State par) (e : CmdError) : (s.raise e).host = s.host := rfl
@[simp] theorem State.raise_turns (s : State par) (e : CmdError) : (s.raise e).turns = s.turns := rfl

@[simp] theorem State.succeed_cu (s : State par) : (s.succeed).cu = { s.cu with err := 0 } := rfl
@[simp] theorem State.succeed_eng (s : State par) : (s.succeed).eng = s.eng := rfl
@[simp] theorem State.succeed_irqPend (s : State par) : (s.succeed).irqPend = s.irqPend ||| irqCmdDone := rfl
@[simp] theorem State.succeed_irqEn (s : State par) : (s.succeed).irqEn = s.irqEn := rfl
@[simp] theorem State.succeed_host (s : State par) : (s.succeed).host = s.host := rfl
@[simp] theorem State.succeed_turns (s : State par) : (s.succeed).turns = s.turns := rfl

@[simp] theorem State.hardReset_cu (s : State par) : (s.hardReset).cu = CmdUnit.reset := rfl
@[simp] theorem State.hardReset_eng (s : State par) : (s.hardReset).eng = Engine.reset := rfl
@[simp] theorem State.hardReset_irqPend (s : State par) : (s.hardReset).irqPend = 0 := rfl
@[simp] theorem State.hardReset_irqEn (s : State par) : (s.hardReset).irqEn = 0 := rfl
@[simp] theorem State.hardReset_host (s : State par) : (s.hardReset).host = s.host := rfl
@[simp] theorem State.hardReset_turns (s : State par) : (s.hardReset).turns = s.turns := rfl

@[simp] theorem State.softReset_cu (s : State par) :
    (s.softReset).cu = { CmdUnit.reset with val := s.cu.val, scratch := s.cu.scratch } := rfl
@[simp] theorem State.softReset_eng (s : State par) : (s.softReset).eng = Engine.reset := rfl
@[simp] theorem State.softReset_irqPend (s : State par) : (s.softReset).irqPend = 0 := rfl
@[simp] theorem State.softReset_irqEn (s : State par) : (s.softReset).irqEn = 0 := rfl
@[simp] theorem State.softReset_host (s : State par) : (s.softReset).host = s.host := rfl
@[simp] theorem State.softReset_turns (s : State par) : (s.softReset).turns = s.turns := rfl

@[simp] theorem State.popOp_cu (s : State par) : (s.popOp).cu = s.cu := rfl
@[simp] theorem State.popOp_eng (s : State par) : (s.popOp).eng = s.eng := rfl
@[simp] theorem State.popOp_irqPend (s : State par) : (s.popOp).irqPend = s.irqPend := rfl
@[simp] theorem State.popOp_irqEn (s : State par) : (s.popOp).irqEn = s.irqEn := rfl
@[simp] theorem State.popOp_host (s : State par) : (s.popOp).host = { s.host with program := s.host.program.tail } := rfl
@[simp] theorem State.popOp_turns (s : State par) : (s.popOp).turns = s.turns := rfl

@[simp] theorem State.logRead_cu (s : State par) (v : Word) : (s.logRead v).cu = s.cu := rfl
@[simp] theorem State.logRead_eng (s : State par) (v : Word) : (s.logRead v).eng = s.eng := rfl
@[simp] theorem State.logRead_irqPend (s : State par) (v : Word) : (s.logRead v).irqPend = s.irqPend := rfl
@[simp] theorem State.logRead_irqEn (s : State par) (v : Word) : (s.logRead v).irqEn = s.irqEn := rfl
@[simp] theorem State.logRead_host (s : State par) (v : Word) :
    (s.logRead v).host = { s.host with reads := s.host.reads ++ [v] } := rfl
@[simp] theorem State.logRead_turns (s : State par) (v : Word) : (s.logRead v).turns = s.turns := rfl

@[simp] theorem State.logItem_cu (s : State par) (x : OutItem) : (s.logItem x).cu = s.cu := rfl
@[simp] theorem State.logItem_eng (s : State par) (x : OutItem) : (s.logItem x).eng = s.eng := rfl
@[simp] theorem State.logItem_irqPend (s : State par) (x : OutItem) : (s.logItem x).irqPend = s.irqPend := rfl
@[simp] theorem State.logItem_irqEn (s : State par) (x : OutItem) : (s.logItem x).irqEn = s.irqEn := rfl
@[simp] theorem State.logItem_host (s : State par) (x : OutItem) :
    (s.logItem x).host = { s.host with taken := s.host.taken ++ [x] } := rfl
@[simp] theorem State.logItem_turns (s : State par) (x : OutItem) : (s.logItem x).turns = s.turns := rfl

@[simp] theorem State.popTurn_cu (s : State par) : (s.popTurn).cu = s.cu := rfl
@[simp] theorem State.popTurn_eng (s : State par) : (s.popTurn).eng = s.eng := rfl
@[simp] theorem State.popTurn_irqPend (s : State par) : (s.popTurn).irqPend = s.irqPend := rfl
@[simp] theorem State.popTurn_irqEn (s : State par) : (s.popTurn).irqEn = s.irqEn := rfl
@[simp] theorem State.popTurn_host (s : State par) : (s.popTurn).host = s.host := rfl
@[simp] theorem State.popTurn_turns (s : State par) : (s.popTurn).turns = s.turns.tail := rfl

@[simp] theorem State.issued_cu (s : State par) (w : Word) :
    (s.issued w).cu = { s.cu with inFlight := some { word := w, executed := false }, srstWaiting := false } := rfl
@[simp] theorem State.issued_eng (s : State par) (w : Word) : (s.issued w).eng = s.eng := rfl
@[simp] theorem State.issued_irqPend (s : State par) (w : Word) : (s.issued w).irqPend = s.irqPend := rfl
@[simp] theorem State.issued_irqEn (s : State par) (w : Word) : (s.issued w).irqEn = s.irqEn := rfl
@[simp] theorem State.issued_host (s : State par) (w : Word) : (s.issued w).host = s.host := rfl
@[simp] theorem State.issued_turns (s : State par) (w : Word) : (s.issued w).turns = Agent.commandUnit :: s.turns := rfl

@[simp] theorem State.markExecuted_cu (s : State par) (w : Word) :
    (s.markExecuted w).cu = { s.cu with inFlight := some { word := w, executed := true } } := rfl
@[simp] theorem State.markExecuted_eng (s : State par) (w : Word) : (s.markExecuted w).eng = s.eng := rfl
@[simp] theorem State.markExecuted_irqPend (s : State par) (w : Word) : (s.markExecuted w).irqPend = s.irqPend := rfl
@[simp] theorem State.markExecuted_irqEn (s : State par) (w : Word) : (s.markExecuted w).irqEn = s.irqEn := rfl
@[simp] theorem State.markExecuted_host (s : State par) (w : Word) : (s.markExecuted w).host = s.host := rfl
@[simp] theorem State.markExecuted_turns (s : State par) (w : Word) : (s.markExecuted w).turns = s.turns := rfl

@[simp] theorem engineMove_cu (s : State par) : (engineMove s).cu = s.cu := rfl
@[simp] theorem engineMove_eng (s : State par) : (engineMove s).eng = s.eng.move.1 := rfl
@[simp] theorem engineMove_irqPend (s : State par) : (engineMove s).irqPend = s.irqPend ||| s.eng.move.2 := rfl
@[simp] theorem engineMove_irqEn (s : State par) : (engineMove s).irqEn = s.irqEn := rfl
@[simp] theorem engineMove_host (s : State par) : (engineMove s).host = s.host := rfl
@[simp] theorem engineMove_turns (s : State par) : (engineMove s).turns = s.turns := rfl

@[simp] theorem Engine.deliver_cfg (e : Engine par) (b : Byte) : (e.deliver b).cfg = e.cfg := rfl
@[simp] theorem Engine.deliver_margin (e : Engine par) (b : Byte) : (e.deliver b).margin = e.margin := rfl
@[simp] theorem Engine.deliver_lowWater (e : Engine par) (b : Byte) : (e.deliver b).lowWater = e.lowWater := rfl
@[simp] theorem Engine.deliver_latch (e : Engine par) (b : Byte) : (e.deliver b).latch = e.latch := rfl
@[simp] theorem Engine.deliver_run (e : Engine par) (b : Byte) : (e.deliver b).run = e.run := rfl
@[simp] theorem Engine.deliver_sync (e : Engine par) (b : Byte) : (e.deliver b).sync = e.sync := rfl
@[simp] theorem Engine.deliver_pauseReq (e : Engine par) (b : Byte) : (e.deliver b).pauseReq = e.pauseReq := rfl
@[simp] theorem Engine.deliver_resumeReq (e : Engine par) (b : Byte) : (e.deliver b).resumeReq = e.resumeReq := rfl
@[simp] theorem Engine.deliver_pos (e : Engine par) (b : Byte) : (e.deliver b).pos = e.pos := rfl
@[simp] theorem Engine.deliver_sess (e : Engine par) (b : Byte) : (e.deliver b).sess = e.sess := rfl
@[simp] theorem Engine.deliver_err (e : Engine par) (b : Byte) : (e.deliver b).err = e.err := rfl
@[simp] theorem Engine.deliver_errOff (e : Engine par) (b : Byte) : (e.deliver b).errOff = e.errOff := rfl
@[simp] theorem Engine.deliver_cnt (e : Engine par) (b : Byte) : (e.deliver b).cnt = e.cnt := rfl
@[simp] theorem Engine.deliver_stream (e : Engine par) (b : Byte) : (e.deliver b).stream = e.stream ++ [b] := rfl
@[simp] theorem Engine.deliver_eos (e : Engine par) (b : Byte) : (e.deliver b).eos = e.eos := rfl
@[simp] theorem Engine.deliver_fifo (e : Engine par) (b : Byte) : (e.deliver b).fifo = e.fifo := rfl
@[simp] theorem Engine.deliver_work (e : Engine par) (b : Byte) : (e.deliver b).work = e.work := rfl
@[simp] theorem Engine.deliver_abortOwed (e : Engine par) (b : Byte) : (e.deliver b).abortOwed = e.abortOwed := rfl

@[simp] theorem Engine.deliverEos_cfg (e : Engine par) : (e.deliverEos).cfg = e.cfg := rfl
@[simp] theorem Engine.deliverEos_margin (e : Engine par) : (e.deliverEos).margin = e.margin := rfl
@[simp] theorem Engine.deliverEos_lowWater (e : Engine par) : (e.deliverEos).lowWater = e.lowWater := rfl
@[simp] theorem Engine.deliverEos_latch (e : Engine par) : (e.deliverEos).latch = e.latch := rfl
@[simp] theorem Engine.deliverEos_run (e : Engine par) : (e.deliverEos).run = e.run := rfl
@[simp] theorem Engine.deliverEos_sync (e : Engine par) : (e.deliverEos).sync = e.sync := rfl
@[simp] theorem Engine.deliverEos_pauseReq (e : Engine par) : (e.deliverEos).pauseReq = e.pauseReq := rfl
@[simp] theorem Engine.deliverEos_resumeReq (e : Engine par) : (e.deliverEos).resumeReq = e.resumeReq := rfl
@[simp] theorem Engine.deliverEos_pos (e : Engine par) : (e.deliverEos).pos = e.pos := rfl
@[simp] theorem Engine.deliverEos_sess (e : Engine par) : (e.deliverEos).sess = e.sess := rfl
@[simp] theorem Engine.deliverEos_err (e : Engine par) : (e.deliverEos).err = e.err := rfl
@[simp] theorem Engine.deliverEos_errOff (e : Engine par) : (e.deliverEos).errOff = e.errOff := rfl
@[simp] theorem Engine.deliverEos_cnt (e : Engine par) : (e.deliverEos).cnt = e.cnt := rfl
@[simp] theorem Engine.deliverEos_stream (e : Engine par) : (e.deliverEos).stream = e.stream := rfl
@[simp] theorem Engine.deliverEos_eos (e : Engine par) : (e.deliverEos).eos = true := rfl
@[simp] theorem Engine.deliverEos_fifo (e : Engine par) : (e.deliverEos).fifo = e.fifo := rfl
@[simp] theorem Engine.deliverEos_work (e : Engine par) : (e.deliverEos).work = e.work := rfl
@[simp] theorem Engine.deliverEos_abortOwed (e : Engine par) : (e.deliverEos).abortOwed = e.abortOwed := rfl

@[simp] theorem Engine.finish_cfg (e : Engine par) : (e.finish).cfg = e.cfg := rfl
@[simp] theorem Engine.finish_margin (e : Engine par) : (e.finish).margin = e.margin := rfl
@[simp] theorem Engine.finish_lowWater (e : Engine par) : (e.finish).lowWater = e.lowWater := rfl
@[simp] theorem Engine.finish_latch (e : Engine par) : (e.finish).latch = e.latch := rfl
@[simp] theorem Engine.finish_run (e : Engine par) : (e.finish).run = RunState.done := rfl
@[simp] theorem Engine.finish_sync (e : Engine par) : (e.finish).sync = e.sync := rfl
@[simp] theorem Engine.finish_pauseReq (e : Engine par) : (e.finish).pauseReq = false := rfl
@[simp] theorem Engine.finish_resumeReq (e : Engine par) : (e.finish).resumeReq = false := rfl
@[simp] theorem Engine.finish_pos (e : Engine par) : (e.finish).pos = e.pos := rfl
@[simp] theorem Engine.finish_sess (e : Engine par) : (e.finish).sess = e.sess := rfl
@[simp] theorem Engine.finish_err (e : Engine par) : (e.finish).err = e.err := rfl
@[simp] theorem Engine.finish_errOff (e : Engine par) : (e.finish).errOff = e.errOff := rfl
@[simp] theorem Engine.finish_cnt (e : Engine par) : (e.finish).cnt = e.cnt := rfl
@[simp] theorem Engine.finish_stream (e : Engine par) : (e.finish).stream = e.stream := rfl
@[simp] theorem Engine.finish_eos (e : Engine par) : (e.finish).eos = e.eos := rfl
@[simp] theorem Engine.finish_fifo (e : Engine par) : (e.finish).fifo = e.fifo := rfl
@[simp] theorem Engine.finish_work (e : Engine par) : (e.finish).work = Work.between := rfl
@[simp] theorem Engine.finish_abortOwed (e : Engine par) : (e.finish).abortOwed = e.abortOwed := rfl

@[simp] theorem Engine.fatal_cfg (e : Engine par) (code : ErrCode) (off : Nat) : (e.fatal code off).cfg = e.cfg := rfl
@[simp] theorem Engine.fatal_margin (e : Engine par) (code : ErrCode) (off : Nat) :
    (e.fatal code off).margin = e.margin := rfl
@[simp] theorem Engine.fatal_lowWater (e : Engine par) (code : ErrCode) (off : Nat) :
    (e.fatal code off).lowWater = e.lowWater := rfl
@[simp] theorem Engine.fatal_latch (e : Engine par) (code : ErrCode) (off : Nat) :
    (e.fatal code off).latch = e.latch := rfl
@[simp] theorem Engine.fatal_run (e : Engine par) (code : ErrCode) (off : Nat) :
    (e.fatal code off).run = RunState.error := rfl
@[simp] theorem Engine.fatal_sync (e : Engine par) (code : ErrCode) (off : Nat) : (e.fatal code off).sync = e.sync := rfl
@[simp] theorem Engine.fatal_pauseReq (e : Engine par) (code : ErrCode) (off : Nat) :
    (e.fatal code off).pauseReq = false := rfl
@[simp] theorem Engine.fatal_resumeReq (e : Engine par) (code : ErrCode) (off : Nat) :
    (e.fatal code off).resumeReq = false := rfl
@[simp] theorem Engine.fatal_pos (e : Engine par) (code : ErrCode) (off : Nat) : (e.fatal code off).pos = e.pos := rfl
@[simp] theorem Engine.fatal_sess (e : Engine par) (code : ErrCode) (off : Nat) : (e.fatal code off).sess = e.sess := rfl
@[simp] theorem Engine.fatal_err (e : Engine par) (code : ErrCode) (off : Nat) :
    (e.fatal code off).err = some code := rfl
@[simp] theorem Engine.fatal_errOff (e : Engine par) (code : ErrCode) (off : Nat) :
    (e.fatal code off).errOff = BitVec.ofNat par.posWidth off := rfl
@[simp] theorem Engine.fatal_cnt (e : Engine par) (code : ErrCode) (off : Nat) : (e.fatal code off).cnt = e.cnt := rfl
@[simp] theorem Engine.fatal_stream (e : Engine par) (code : ErrCode) (off : Nat) :
    (e.fatal code off).stream = e.stream := rfl
@[simp] theorem Engine.fatal_eos (e : Engine par) (code : ErrCode) (off : Nat) : (e.fatal code off).eos = e.eos := rfl
@[simp] theorem Engine.fatal_fifo (e : Engine par) (code : ErrCode) (off : Nat) : (e.fatal code off).fifo = e.fifo := rfl
@[simp] theorem Engine.fatal_work (e : Engine par) (code : ErrCode) (off : Nat) :
    (e.fatal code off).work = Work.between := rfl
@[simp] theorem Engine.fatal_abortOwed (e : Engine par) (code : ErrCode) (off : Nat) :
    (e.fatal code off).abortOwed = e.abortOwed := rfl

@[simp] theorem Engine.settle_cfg (e : Engine par) (sess : Session) (lost resynced : Bool) :
    (e.settle sess lost resynced).cfg = e.cfg := rfl
@[simp] theorem Engine.settle_margin (e : Engine par) (sess : Session) (lost resynced : Bool) :
    (e.settle sess lost resynced).margin = e.margin := rfl
@[simp] theorem Engine.settle_lowWater (e : Engine par) (sess : Session) (lost resynced : Bool) :
    (e.settle sess lost resynced).lowWater = e.lowWater := rfl
@[simp] theorem Engine.settle_latch (e : Engine par) (sess : Session) (lost resynced : Bool) :
    (e.settle sess lost resynced).latch = e.latch := rfl
@[simp] theorem Engine.settle_run (e : Engine par) (sess : Session) (lost resynced : Bool) :
    (e.settle sess lost resynced).run = e.run := rfl
@[simp] theorem Engine.settle_sync (e : Engine par) (sess : Session) (lost resynced : Bool) :
    (e.settle sess lost resynced).sync = if lost then SyncState.lostSync else if resynced then SyncState.inSync else e.sync := rfl
@[simp] theorem Engine.settle_pauseReq (e : Engine par) (sess : Session) (lost resynced : Bool) :
    (e.settle sess lost resynced).pauseReq = e.pauseReq := rfl
@[simp] theorem Engine.settle_resumeReq (e : Engine par) (sess : Session) (lost resynced : Bool) :
    (e.settle sess lost resynced).resumeReq = e.resumeReq := rfl
@[simp] theorem Engine.settle_pos (e : Engine par) (sess : Session) (lost resynced : Bool) :
    (e.settle sess lost resynced).pos = e.pos := rfl
@[simp] theorem Engine.settle_sess (e : Engine par) (sess : Session) (lost resynced : Bool) :
    (e.settle sess lost resynced).sess = sess := rfl
@[simp] theorem Engine.settle_err (e : Engine par) (sess : Session) (lost resynced : Bool) :
    (e.settle sess lost resynced).err = e.err := rfl
@[simp] theorem Engine.settle_errOff (e : Engine par) (sess : Session) (lost resynced : Bool) :
    (e.settle sess lost resynced).errOff = e.errOff := rfl
@[simp] theorem Engine.settle_cnt (e : Engine par) (sess : Session) (lost resynced : Bool) : (e.settle sess lost resynced).cnt = 
      { e.cnt with
        lostSync := if lost then e.cnt.lostSync + 1 else e.cnt.lostSync
        resync := if resynced then e.cnt.resync + 1 else e.cnt.resync } := rfl
@[simp] theorem Engine.settle_stream (e : Engine par) (sess : Session) (lost resynced : Bool) :
    (e.settle sess lost resynced).stream = e.stream := rfl
@[simp] theorem Engine.settle_eos (e : Engine par) (sess : Session) (lost resynced : Bool) :
    (e.settle sess lost resynced).eos = e.eos := rfl
@[simp] theorem Engine.settle_fifo (e : Engine par) (sess : Session) (lost resynced : Bool) :
    (e.settle sess lost resynced).fifo = e.fifo := rfl
@[simp] theorem Engine.settle_work (e : Engine par) (sess : Session) (lost resynced : Bool) :
    (e.settle sess lost resynced).work = e.work := rfl
@[simp] theorem Engine.settle_abortOwed (e : Engine par) (sess : Session) (lost resynced : Bool) :
    (e.settle sess lost resynced).abortOwed = e.abortOwed := rfl

@[simp] theorem Engine.aborted_cfg (e : Engine par) : (e.aborted).cfg = e.cfg := rfl
@[simp] theorem Engine.aborted_margin (e : Engine par) : (e.aborted).margin = e.margin := rfl
@[simp] theorem Engine.aborted_lowWater (e : Engine par) : (e.aborted).lowWater = e.lowWater := rfl
@[simp] theorem Engine.aborted_latch (e : Engine par) : (e.aborted).latch = e.latch := rfl
@[simp] theorem Engine.aborted_run (e : Engine par) : (e.aborted).run = RunState.idle := rfl
@[simp] theorem Engine.aborted_sync (e : Engine par) : (e.aborted).sync = e.sync := rfl
@[simp] theorem Engine.aborted_pauseReq (e : Engine par) : (e.aborted).pauseReq = false := rfl
@[simp] theorem Engine.aborted_resumeReq (e : Engine par) : (e.aborted).resumeReq = false := rfl
@[simp] theorem Engine.aborted_pos (e : Engine par) : (e.aborted).pos = e.pos := rfl
@[simp] theorem Engine.aborted_sess (e : Engine par) : (e.aborted).sess = e.sess := rfl
@[simp] theorem Engine.aborted_err (e : Engine par) : (e.aborted).err = e.err := rfl
@[simp] theorem Engine.aborted_errOff (e : Engine par) : (e.aborted).errOff = e.errOff := rfl
@[simp] theorem Engine.aborted_cnt (e : Engine par) : (e.aborted).cnt = e.cnt := rfl
@[simp] theorem Engine.aborted_stream (e : Engine par) : (e.aborted).stream = e.stream := rfl
@[simp] theorem Engine.aborted_eos (e : Engine par) : (e.aborted).eos = e.eos := rfl
@[simp] theorem Engine.aborted_fifo (e : Engine par) : (e.aborted).fifo = e.fifo := rfl
@[simp] theorem Engine.aborted_work (e : Engine par) : (e.aborted).work = Work.between := rfl
@[simp] theorem Engine.aborted_abortOwed (e : Engine par) :
    (e.aborted).abortOwed = (e.abortOwed || e.work.outputBegun) := rfl

@[simp] theorem Engine.started_cfg (e : Engine par) (poly init : Half) : (e.started poly init).cfg = e.cfg := rfl
@[simp] theorem Engine.started_margin (e : Engine par) (poly init : Half) :
    (e.started poly init).margin = e.margin := rfl
@[simp] theorem Engine.started_lowWater (e : Engine par) (poly init : Half) :
    (e.started poly init).lowWater = e.lowWater := rfl
@[simp] theorem Engine.started_latch (e : Engine par) (poly init : Half) :
    (e.started poly init).latch = { cfg := e.cfg, margin := e.margin, poly := poly, init := init } := rfl
@[simp] theorem Engine.started_run (e : Engine par) (poly init : Half) : (e.started poly init).run = RunState.run := rfl
@[simp] theorem Engine.started_sync (e : Engine par) (poly init : Half) :
    (e.started poly init).sync = SyncState.inSync := rfl
@[simp] theorem Engine.started_pauseReq (e : Engine par) (poly init : Half) :
    (e.started poly init).pauseReq = false := rfl
@[simp] theorem Engine.started_resumeReq (e : Engine par) (poly init : Half) :
    (e.started poly init).resumeReq = false := rfl
@[simp] theorem Engine.started_pos (e : Engine par) (poly init : Half) : (e.started poly init).pos = 0 := rfl
@[simp] theorem Engine.started_sess (e : Engine par) (poly init : Half) :
    (e.started poly init).sess = Session.fresh := rfl
@[simp] theorem Engine.started_err (e : Engine par) (poly init : Half) : (e.started poly init).err = none := rfl
@[simp] theorem Engine.started_errOff (e : Engine par) (poly init : Half) : (e.started poly init).errOff = 0 := rfl
@[simp] theorem Engine.started_cnt (e : Engine par) (poly init : Half) : (e.started poly init).cnt = Counters.zero := rfl
@[simp] theorem Engine.started_stream (e : Engine par) (poly init : Half) : (e.started poly init).stream = [] := rfl
@[simp] theorem Engine.started_eos (e : Engine par) (poly init : Half) : (e.started poly init).eos = false := rfl
@[simp] theorem Engine.started_fifo (e : Engine par) (poly init : Half) : (e.started poly init).fifo = [] := rfl
@[simp] theorem Engine.started_work (e : Engine par) (poly init : Half) :
    (e.started poly init).work = Work.detect 0 := rfl
@[simp] theorem Engine.started_abortOwed (e : Engine par) (poly init : Half) :
    (e.started poly init).abortOwed = false := rfl

@[simp] theorem Engine.consume_cfg (e : Engine par) (a : Accepted) : (e.consume a).cfg = e.cfg := rfl
@[simp] theorem Engine.consume_margin (e : Engine par) (a : Accepted) : (e.consume a).margin = e.margin := rfl
@[simp] theorem Engine.consume_lowWater (e : Engine par) (a : Accepted) : (e.consume a).lowWater = e.lowWater := rfl
@[simp] theorem Engine.consume_latch (e : Engine par) (a : Accepted) : (e.consume a).latch = e.latch := rfl
@[simp] theorem Engine.consume_run (e : Engine par) (a : Accepted) : (e.consume a).run = e.run := rfl
@[simp] theorem Engine.consume_sync (e : Engine par) (a : Accepted) :
    (e.consume a).sync = if a.resynced then SyncState.inSync else e.sync := rfl
@[simp] theorem Engine.consume_pauseReq (e : Engine par) (a : Accepted) : (e.consume a).pauseReq = e.pauseReq := rfl
@[simp] theorem Engine.consume_resumeReq (e : Engine par) (a : Accepted) : (e.consume a).resumeReq = e.resumeReq := rfl
@[simp] theorem Engine.consume_pos (e : Engine par) (a : Accepted) :
    (e.consume a).pos = e.pos + BitVec.ofNat par.posWidth a.cand.len := rfl
@[simp] theorem Engine.consume_sess (e : Engine par) (a : Accepted) : (e.consume a).sess = a.sess.accepted a.cand par := rfl
@[simp] theorem Engine.consume_err (e : Engine par) (a : Accepted) : (e.consume a).err = e.err := rfl
@[simp] theorem Engine.consume_errOff (e : Engine par) (a : Accepted) : (e.consume a).errOff = e.errOff := rfl
@[simp] theorem Engine.consume_cnt (e : Engine par) (a : Accepted) :
    (e.consume a).cnt = { e.cnt with resync := if a.resynced then e.cnt.resync + 1 else e.cnt.resync } := rfl
@[simp] theorem Engine.consume_stream (e : Engine par) (a : Accepted) : (e.consume a).stream = e.stream := rfl
@[simp] theorem Engine.consume_eos (e : Engine par) (a : Accepted) : (e.consume a).eos = e.eos := rfl
@[simp] theorem Engine.consume_fifo (e : Engine par) (a : Accepted) : (e.consume a).fifo = e.fifo := rfl
@[simp] theorem Engine.consume_work (e : Engine par) (a : Accepted) : (e.consume a).work = e.work := rfl
@[simp] theorem Engine.consume_abortOwed (e : Engine par) (a : Accepted) : (e.consume a).abortOwed = e.abortOwed := rfl

/-! ## The host's addresses (20_memory.md R200, R212) -/

/-- An offset in the register space is reached at `MFHC_BASE` plus it. -/
@[simp] theorem registerOffset_base (off : BitVec 12) : registerOffset (par.base + off.toNat) par = some off := by
  have := off.isLt
  simp [registerOffset, this]

/-- An address outside the register space reaches nothing of the MFHC. -/
theorem registerOffset_outside {a : Nat} (h : a < par.base ∨ par.base + 4096 ≤ a) : registerOffset a par = none := by
  simp only [registerOffset]
  rw [if_neg (by omega)]

@[simp] theorem State.hostWrite_base (s : State par) (off : BitVec 12) (v : Word) :
    s.hostWrite (par.base + off.toNat) v = s.writeReg (Reg.ofAddr off par) v := by simp [State.hostWrite]

@[simp] theorem State.hostRead_base (s : State par) (off : BitVec 12) :
    s.hostRead (par.base + off.toNat) = s.logRead (s.readAddr off) := by simp [State.hostRead]

theorem State.hostWrite_outside (s : State par) {a : Nat} (v : Word) (h : a < par.base ∨ par.base + 4096 ≤ a) :
    s.hostWrite a v = s := by simp [State.hostWrite, registerOffset_outside h]

theorem State.hostRead_outside (s : State par) {a : Nat} (h : a < par.base ∨ par.base + 4096 ≤ a) : s.hostRead a = s := by
  simp [State.hostRead, registerOffset_outside h]

/-- What a host write to any address does: nothing, or the write of the register its offset names. -/
theorem State.hostWrite_cases (s : State par) (a : Nat) (v : Word) :
    s.hostWrite a v = s ∨ ∃ off : BitVec 12, a = par.base + off.toNat ∧ s.hostWrite a v = s.writeReg (Reg.ofAddr off par) v := by
  by_cases h : par.base ≤ a ∧ a < par.base + 4096
  · refine .inr ⟨BitVec.ofNat 12 (a - par.base), ?_, ?_⟩
    · rw [BitVec.toNat_ofNat, Nat.mod_eq_of_lt (by omega)]; omega
    · simp [State.hostWrite, registerOffset, h]
  · exact .inl (s.hostWrite_outside v (by omega))

/-- What a host read of any address does: nothing, or the host has read the register its offset names. -/
theorem State.hostRead_cases (s : State par) (a : Nat) :
    s.hostRead a = s ∨ ∃ off : BitVec 12, a = par.base + off.toNat ∧ s.hostRead a = s.logRead (s.readAddr off) := by
  by_cases h : par.base ≤ a ∧ a < par.base + 4096
  · refine .inr ⟨BitVec.ofNat 12 (a - par.base), ?_, ?_⟩
    · rw [BitVec.toNat_ofNat, Nat.mod_eq_of_lt (by omega)]; omega
    · simp [State.hostRead, registerOffset, h]
  · exact .inl (s.hostRead_outside (by omega))

/-! ## The latched configuration (10_state.md R130, R141) -/

theorem LatchedCfg.skip_eq (l : LatchedCfg) : l.skip = l.cfg.getLsbD 0 := rfl

/-! ## Registers of a file (20_memory.md R202) -/

theorem Reg.inFile_of_lt {n i : Nat} (file : Fin n → Reg par) (h : i < n) : Reg.inFile file i = file ⟨i, h⟩ := dif_pos h

theorem Reg.inFile_cases {n : Nat} (file : Fin n → Reg par) (i : Nat) :
    (∃ k : Fin n, k.val = i ∧ Reg.inFile file i = file k) ∨ (n ≤ i ∧ Reg.inFile file i = .unmapped) := by
  by_cases h : i < n
  · exact .inl ⟨⟨i, h⟩, rfl, dif_pos h⟩
  · exact .inr ⟨by omega, dif_neg h⟩

end Sys2Proof.Model
end

