-- ==== Sys2Proof/Laws/Commands.lean ====
section
/-! SUPPORT. What a command can do, said once: every meaning is `finishCommand` of an outcome that touches only the
registers a command may write, or of an error a command may raise. -/

namespace Sys2Proof.Model

open Machine

/-- The errors a command raises (60_exceptions.md R800): codes 1 to 7. -/
def CmdError.OfCommand (e : CmdError) : Prop :=
  e.code = .format ∨ e.code = .length ∨ e.code = .unexpectedValue ∨ e.code = .malformedHeader ∨ e.code = .incomplete
    ∨ e.code = .illegalCommand ∨ e.code = .state

/-- What the effect of a command leaves as it was, before completion: everything but `RESULT`, `SCRATCH_LEN`, SCRATCH,
the format table, `VAL`, the header state and the engine. -/
structure EffectFrame (s t : Machine.State) : Prop where
  cu : t.cu = { s.cu with
    result := t.cu.result, scratchLen := t.cu.scratchLen, fmt := t.cu.fmt, val := t.cu.val, scratch := t.cu.scratch,
    hdr := t.cu.hdr }
  irqPend : t.irqPend = s.irqPend
  irqEn : t.irqEn = s.irqEn
  host : t.host = s.host
  turns : t.turns = s.turns

theorem EffectFrame.refl (s : Machine.State) : EffectFrame s s := ⟨rfl, rfl, rfl, rfl, rfl⟩

/-- How a meaning completes: an effect within the frame, or an error of a command. -/
def Completes (s : Machine.State) (o : Host.Outcome Machine.State Fault Refusal) : Prop :=
  (∃ t, o = .next t.succeed ∧ EffectFrame s t) ∨ (∃ e, o = .next (s.raise e) ∧ e.OfCommand)

theorem completes_ok {s t : Machine.State} (h : EffectFrame s t) : Completes s (finishCommand s (.ok t)) := .inl ⟨t, rfl, h⟩

theorem completes_error {s : Machine.State} {e : CmdError} (h : e.OfCommand) : Completes s (finishCommand s (.error e)) :=
  .inr ⟨e, rfl, h⟩

theorem CmdError.OfCommand.length (a : Byte) : CmdError.OfCommand ⟨.length, a⟩ := by simp [CmdError.OfCommand]
theorem CmdError.OfCommand.state (a : Byte) : CmdError.OfCommand ⟨.state, a⟩ := by simp [CmdError.OfCommand]
theorem CmdError.OfCommand.format (a : Byte) : CmdError.OfCommand ⟨.format, a⟩ := by simp [CmdError.OfCommand]
theorem CmdError.OfCommand.malformed (a : Byte) : CmdError.OfCommand ⟨.malformedHeader, a⟩ := by simp [CmdError.OfCommand]
theorem CmdError.OfCommand.unexpected (a : Byte) : CmdError.OfCommand ⟨.unexpectedValue, a⟩ := by simp [CmdError.OfCommand]
theorem CmdError.OfCommand.incomplete (a : Byte) : CmdError.OfCommand ⟨.incomplete, a⟩ := by simp [CmdError.OfCommand]
theorem CmdError.OfCommand.illegal (a : Byte) : CmdError.OfCommand ⟨.illegalCommand, a⟩ := by simp [CmdError.OfCommand]

/-! ## Operands -/

/-- The held header: STATE(0) when none is held (41_header.md R531 to R534). -/
theorem heldHeader_cases (s : Machine.State) :
    (s.cu.hdr.info = none ∧ heldHeader s = .error ⟨.state, 0⟩) ∨ ∃ d, s.cu.hdr.info = some d ∧ heldHeader s = .ok d := by
  unfold heldHeader
  cases h : s.cu.hdr.info with
  | none => exact .inl ⟨rfl, rfl⟩
  | some d => exact .inr ⟨d, rfl, rfl⟩

/-- A held header is a valid one with its derived values (10_state.md R124). -/
theorem HdrState.info_eq_some {h : Machine.HdrState} {d : Machine.HdrInfo} : h.info = some d ↔ h.valid = true ∧ HdrInfo.ofWord h.word = some d := by
  unfold HdrState.info
  cases h.valid <;> simp

theorem HdrState.info_of_not_valid {h : Machine.HdrState} (hv : h.valid = false) : h.info = none := by simp [HdrState.info, hv]

/-- A header word as an operand (R501). -/
theorem validHeader_cases (h : Word) :
    (∃ r, validate h = some r ∧ validHeader h = .error ⟨.malformedHeader, r.code⟩)
      ∨ (validate h = none ∧ validHeader h = .ok h) := by
  unfold validHeader
  cases hv : validate h with
  | none => exact .inr ⟨rfl, rfl⟩
  | some r => exact .inl ⟨r, rfl, rfl⟩

/-- A field index as an operand (R533). -/
theorem fieldOperand_cases (i : Nat) :
    (HdrField.ofIndex i = none ∧ fieldOperand i = .error ⟨.illegalCommand, BitVec.ofNat 8 i⟩)
      ∨ ∃ f, HdrField.ofIndex i = some f ∧ fieldOperand i = .ok f := by
  unfold fieldOperand
  cases h : HdrField.ofIndex i with
  | none => exact .inl ⟨rfl, rfl⟩
  | some f => exact .inr ⟨f, rfl, rfl⟩

/-- HDR_DECODE's source word, or LENGTH (R530). -/
theorem headerSource_cases (s : Machine.State) (off : Nat) (src : HdrSource) :
    (src = .hdrIn ∧ headerSource s off src = .ok s.cu.hdrIn)
      ∨ (src = .scratch ∧ s.cu.scratchLen.val < off + 4 ∧ headerSource s off src = .error ⟨.length, 0⟩)
      ∨ (src = .scratch ∧ off + 4 ≤ s.cu.scratchLen.val
          ∧ headerSource s off src = .ok (BitVec.ofNat 32 (beNat (s.cu.scratch.readBytes off 4)))) := by
  cases src with
  | hdrIn => exact .inl ⟨rfl, rfl⟩
  | scratch =>
    rcases readRegion_cases s off 4 with ⟨h, e⟩ | ⟨h, e⟩
    · exact .inr (.inl ⟨rfl, h, by simp [headerSource, e]⟩)
    · exact .inr (.inr ⟨rfl, h, by simp [headerSource, e]⟩)

/-- An error of FMT_APPEND is a FORMAT error (40_codec.md R412). -/
theorem compileField_error {w k c : Nat} {e : Bool} {x : Word} {err : CmdError}
    (h : compileField w k e x c = .error err) : err.code = .format := by
  unfold compileField at h
  split at h
  · cases h; rfl
  · split at h
    · cases h; rfl
    · split at h
      · cases h; rfl
      · split at h
        · cases h; rfl
        · split at h
          · cases h; rfl
          · cases h

/-! ## Every command completes -/

/-- Every command completes within its frame or raises (60_exceptions.md R801, R850). -/
theorem exec_completes (i : Instr) (s : Machine.State) : Completes s (exec i s) := by
  cases i with
  | nop => exact completes_ok (.refl s)
  | fmtClear => exact completes_ok ⟨rfl, rfl, rfl, rfl, rfl⟩
  | fmtAppend w k e =>
    simp only [exec, execFmtAppend]
    split
    · rename_i err h
      exact completes_error (.inl (compileField_error h))
    · exact completes_ok ⟨rfl, rfl, rfl, rfl, rfl⟩
  | pack off =>
    simp only [exec, execPack]
    rcases writeRegion_cases s off (packbits s.cu.fmt s.cu.val.toList) with ⟨_, h⟩ | ⟨_, h⟩ <;> rw [h]
    · exact completes_error (CmdError.OfCommand.length 0)
    · exact completes_ok ⟨rfl, rfl, rfl, rfl, rfl⟩
  | unpack off =>
    simp only [exec, execUnpack]
    rcases readRegion_cases s off (byteLen s.cu.fmt) with ⟨_, h⟩ | ⟨_, h⟩ <;> rw [h]
    · exact completes_error (CmdError.OfCommand.length 0)
    · dsimp only
      split
      · exact completes_error (CmdError.OfCommand.unexpected _)
      · exact completes_ok ⟨rfl, rfl, rfl, rfl, rfl⟩
  | hdrDecode off src =>
    simp only [exec, execHdrDecode]
    rcases headerSource_cases s off src with ⟨_, h⟩ | ⟨_, _, h⟩ | ⟨_, _, h⟩ <;> rw [h] <;> dsimp only
    · rcases validHeader_cases s.cu.hdrIn with ⟨r, _, h⟩ | ⟨_, h⟩ <;> rw [h]
      · exact completes_error (CmdError.OfCommand.malformed _)
      · exact completes_ok ⟨rfl, rfl, rfl, rfl, rfl⟩
    · exact completes_error (CmdError.OfCommand.length 0)
    · rcases validHeader_cases (BitVec.ofNat 32 (beNat (s.cu.scratch.readBytes off 4))) with ⟨r, _, h⟩ | ⟨_, h⟩ <;> rw [h]
      · exact completes_error (CmdError.OfCommand.malformed _)
      · exact completes_ok ⟨rfl, rfl, rfl, rfl, rfl⟩
  | hdrUpdate off =>
    simp only [exec, execHdrUpdate]
    rcases heldHeader_cases s with ⟨_, h⟩ | ⟨d, _, h⟩ <;> rw [h]
    · exact completes_error (CmdError.OfCommand.state 0)
    · exact completes_ok ⟨rfl, rfl, rfl, rfl, rfl⟩
  | hdrEncode off inc =>
    simp only [exec, execHdrEncode]
    rcases heldHeader_cases s with ⟨_, h⟩ | ⟨d, _, h⟩ <;> rw [h] <;> dsimp only
    · exact completes_error (CmdError.OfCommand.state 0)
    · split
      · rename_i e he
        refine completes_error ?_
        split at he
        · unfold encodeCrc at he
          split at he <;> split at he <;> cases he <;> exact CmdError.OfCommand.incomplete _
        · cases he
      · rename_i c _
        rcases writeRegion_cases s off (encodedHeader s.cu.hdr d c) with ⟨_, h⟩ | ⟨_, h⟩ <;> rw [h]
        · exact completes_error (CmdError.OfCommand.length 0)
        · exact completes_ok ⟨rfl, rfl, rfl, rfl, rfl⟩
  | hdrSetf i v =>
    simp only [exec, execHdrSetf]
    rcases heldHeader_cases s with ⟨_, h⟩ | ⟨d, _, h⟩ <;> rw [h] <;> dsimp only
    · exact completes_error (CmdError.OfCommand.state 0)
    · rcases fieldOperand_cases i with ⟨_, h⟩ | ⟨f, _, h⟩ <;> rw [h] <;> dsimp only
      · exact completes_error (CmdError.OfCommand.illegal _)
      · rcases validHeader_cases (setHdrField s.cu.hdr.word f v) with ⟨r, _, h⟩ | ⟨_, h⟩ <;> rw [h]
        · exact completes_error (CmdError.OfCommand.malformed _)
        · exact completes_ok ⟨rfl, rfl, rfl, rfl, rfl⟩
  | hdrCrcchk =>
    simp only [exec, execHdrCrcchk]
    rcases heldHeader_cases s with ⟨_, h⟩ | ⟨d, _, h⟩ <;> rw [h]
    · exact completes_error (CmdError.OfCommand.state 0)
    · exact completes_ok ⟨rfl, rfl, rfl, rfl, rfl⟩
  | crc16 off n =>
    simp only [exec, execCrc16]
    rcases readRegion_cases s off n with ⟨_, h⟩ | ⟨_, h⟩ <;> rw [h]
    · exact completes_error (CmdError.OfCommand.length 0)
    · exact completes_ok ⟨rfl, rfl, rfl, rfl, rfl⟩
  | engStart =>
    simp only [exec, execEngStart]
    split
    · exact completes_error (CmdError.OfCommand.state _)
    · exact completes_ok ⟨rfl, rfl, rfl, rfl, rfl⟩
  | engPause =>
    simp only [exec, execEngPause]
    split
    · exact completes_ok ⟨rfl, rfl, rfl, rfl, rfl⟩
    · exact completes_ok (.refl s)
    · exact completes_ok (.refl s)
    all_goals exact completes_error (CmdError.OfCommand.state _)
  | engResume =>
    simp only [exec, execEngResume]
    split
    · exact completes_ok ⟨rfl, rfl, rfl, rfl, rfl⟩
    · exact completes_ok ⟨rfl, rfl, rfl, rfl, rfl⟩
    · exact completes_ok ⟨rfl, rfl, rfl, rfl, rfl⟩
    all_goals exact completes_error (CmdError.OfCommand.state _)
  | engStep =>
    simp only [exec, execEngStep]
    split
    · exact completes_ok ⟨rfl, rfl, rfl, rfl, rfl⟩
    all_goals exact completes_error (CmdError.OfCommand.state _)
  | engAbort =>
    simp only [exec, execEngAbort]
    split
    · exact completes_ok (.refl s)
    · exact completes_ok ⟨rfl, rfl, rfl, rfl, rfl⟩
  | recPop =>
    simp only [exec, execRecPop]
    split
    · exact completes_error (CmdError.OfCommand.state _)
    · exact completes_ok ⟨rfl, rfl, rfl, rfl, rfl⟩

/-- Every command word completes, a reserved one with ILLEGAL_COMMAND (30_encoding.md R303). -/
theorem runCommand_completes (w : Word) (s : Machine.State) : Completes s (runCommand w s) := by
  unfold runCommand
  split
  · exact exec_completes _ s
  · exact completes_error (CmdError.OfCommand.illegal _)

/-- What completion leaves as it was, whether the command raised or not. -/
theorem Completes.frame {s t : Machine.State} (h : Completes s (.next t)) :
    t.cu.inFlight = s.cu.inFlight ∧ t.cu.srstWaiting = s.cu.srstWaiting ∧ t.cu.fmtExpect = s.cu.fmtExpect
      ∧ t.cu.hdrIn = s.cu.hdrIn ∧ t.cu.crcPoly = s.cu.crcPoly ∧ t.cu.crcInit = s.cu.crcInit ∧ t.irqEn = s.irqEn
      ∧ t.host = s.host ∧ t.turns = s.turns := by
  rcases h with ⟨u, hu, hf⟩ | ⟨e, he, _⟩
  · cases hu
    have hc := hf.cu
    refine ⟨?_, ?_, ?_, ?_, ?_, ?_, hf.irqEn, hf.host, hf.turns⟩ <;> (rw [State.succeed_cu, hc])
  · cases he
    exact ⟨rfl, rfl, rfl, rfl, rfl, rfl, rfl, rfl, rfl⟩

/-- Every command word has a next state, in which `CMD_DONE` is set and what no command writes is as it was. -/
theorem runCommand_next (w : Word) (s : Machine.State) : ∃ t, runCommand w s = .next t ∧ Completes s (.next t) := by
  have hc := runCommand_completes w s
  rcases hc with ⟨t, ht, _⟩ | ⟨e, he, _⟩
  · exact ⟨_, ht, ht ▸ runCommand_completes w s⟩
  · exact ⟨_, he, he ▸ runCommand_completes w s⟩

/-- The end of the command in flight: BUSY is cleared, or a waiting soft reset follows (R850, 70_reset_and_hazards.md
R902). -/
theorem State.endCommand_eq (s : Machine.State) :
    s.endCommand = if s.cu.srstWaiting then s.softReset else { s with cu := { s.cu with inFlight := none } } := rfl

/-- The move of the command unit: nothing; the end of a command whose effect is taken; or the command's completion and
its end (R850). -/
theorem commandMove_cases (s : Machine.State) :
    (s.cu.inFlight = none ∧ commandMove s = .next s)
      ∨ ∃ f, s.cu.inFlight = some f
          ∧ ((f.executed = true ∧ commandMove s = .next s.endCommand)
            ∨ (f.executed = false ∧ ∃ t, runCommand f.word s = .next t ∧ Completes s (.next t)
                ∧ commandMove s = .next t.endCommand)) := by
  cases h : s.cu.inFlight with
  | none => exact .inl ⟨rfl, by simp [commandMove, h]⟩
  | some f =>
    refine .inr ⟨f, rfl, ?_⟩
    cases hf : f.executed with
    | true => exact .inl ⟨rfl, by simp [commandMove, h, hf]⟩
    | false =>
      obtain ⟨t, ht, hc⟩ := runCommand_next f.word s
      exact .inr ⟨rfl, t, ht, hc, by simp [commandMove, h, hf, ht]⟩

/-- The effect of the command in flight, taken with BUSY still 1: nothing, or the command's completion (R850). -/
theorem commandEffectMove_cases (s : Machine.State) :
    commandEffectMove s = .next s
      ∨ ∃ f, s.cu.inFlight = some f ∧ f.executed = false ∧ ∃ t, runCommand f.word s = .next t ∧ Completes s (.next t)
          ∧ commandEffectMove s = .next (t.markExecuted f.word) := by
  cases h : s.cu.inFlight with
  | none => exact .inl (by simp [commandEffectMove, h])
  | some f =>
    cases hf : f.executed with
    | true => exact .inl (by simp [commandEffectMove, h, hf])
    | false =>
      obtain ⟨t, ht, hc⟩ := runCommand_next f.word s
      exact .inr ⟨f, rfl, hf, t, ht, hc, by simp [commandEffectMove, h, hf, ht]⟩

end Sys2Proof.Model
end

