-- ==== Sys2Proof/Laws/Detector.lean ====
section
/-! SUPPORT. The detector's lookups: an answer stays when more of the stream arrives, a lookup that does not answer
names a byte that can still arrive and fits the window, and every candidate is well formed. -/

namespace Sys2Proof.Model

open Machine

variable {par : Params}

/-! ## Lookups in sequence -/

theorem Look.bind_eq_ok {α β : Type} {x : Look α} {f : α → Look β} {b : β} :
    (x >>= f) = .ok b ↔ ∃ a, x = .ok a ∧ f a = .ok b := by
  cases x with
  | error n => simp [bind, Except.bind]
  | ok a => simp [bind, Except.bind]

theorem Look.bind_eq_error {α β : Type} {x : Look α} {f : α → Look β} {n : Nat} :
    (x >>= f) = .error n ↔ x = .error n ∨ ∃ a, x = .ok a ∧ f a = .error n := by
  cases x with
  | error n => simp [bind, Except.bind]
  | ok a => simp [bind, Except.bind]

/-- `w` shows a stream that begins with what `v` shows, and no more once `v` has seen its end. -/
structure View.Extends (v w : View par) : Prop where
  pos : w.pos = v.pos
  stream : ∃ more, w.stream = v.stream ++ more
  closed : v.eos = true → w = v

theorem View.Extends.refl (v : View par) : v.Extends v := ⟨rfl, ⟨[], by simp⟩, fun _ => rfl⟩

/-- More bytes, or the end of the stream, have arrived. -/
theorem View.Extends.arrived (v : View par) (h : v.eos = false) (more : List Byte) (eos : Bool) :
    v.Extends { v with stream := v.stream ++ more, eos := eos } :=
  ⟨rfl, ⟨more, rfl⟩, fun he => by simp [h] at he⟩

/-- The lookup `x` under `v` is answered alike by `y` under a longer view; where it has no answer it names the number of
bytes it needs, more than have arrived and no more than the window can hold. -/
structure Sound (v : View par) {α : Type} (x y : Look α) : Prop where
  ok : ∀ a, x = .ok a → y = .ok a
  error : ∀ n, x = .error n → v.eos = false ∧ v.stream.length < n ∧ n ≤ v.pos + par.capacity

theorem Sound.pure {v : View par} {α : Type} (a : α) : Sound v (.ok a) (.ok a) := ⟨fun _ h => h, fun _ h => by cases h⟩

theorem Sound.bind {v : View par} {α β : Type} {x y : Look α} {f g : α → Look β} (h : Sound v x y)
    (hf : ∀ a, Sound v (f a) (g a)) : Sound v (x >>= f) (y >>= g) := by
  constructor
  · intro b hb
    obtain ⟨a, ha, hb⟩ := Look.bind_eq_ok.1 hb
    exact Look.bind_eq_ok.2 ⟨a, h.ok a ha, (hf a).ok b hb⟩
  · intro n hn
    rcases Look.bind_eq_error.1 hn with hn | ⟨a, _, hn⟩
    · exact h.error n hn
    · exact (hf a).error n hn

/-! ## The lookups -/

theorem streamByte_sound {v w : View par} (h : v.Extends w) (q : Nat) : Sound v (streamByte v q) (streamByte w q) := by
  obtain ⟨more, hm⟩ := h.stream
  cases he : v.eos with
  | true =>
    rw [h.closed he]
    refine ⟨fun a ha => ha, fun n hn => ?_⟩
    unfold streamByte at hn
    split at hn
    · cases hn
    · split at hn
      · cases hn
      · cases hn
  | false =>
  unfold streamByte
  rw [h.pos, he, if_neg Bool.false_ne_true]
  by_cases hc : q - v.pos ≥ par.capacity
  · simp only [if_pos hc]
    exact .pure none
  · simp only [if_neg hc]
    by_cases hq : q < v.stream.length
    · rw [hm, List.getElem?_append_left hq, List.getElem?_eq_getElem hq]
      exact .pure _
    · rw [List.getElem?_eq_none (by omega)]
      refine ⟨fun a ha => by simp at ha, fun n hn => ⟨he, ?_⟩⟩
      simp at hn
      omega

theorem haveUpTo_sound {v w : View par} (h : v.Extends w) {x : Nat} (hx : x ≤ v.pos + par.capacity) :
    Sound v (haveUpTo v x) (haveUpTo w x) := by
  obtain ⟨more, hm⟩ := h.stream
  cases he : v.eos with
  | true =>
    rw [h.closed he]
    refine ⟨fun a ha => ha, fun n hn => ?_⟩
    unfold haveUpTo at hn
    split at hn
    · cases hn
    · cases hn
  | false =>
  unfold haveUpTo
  rw [hm, he, if_neg Bool.false_ne_true]
  by_cases hq : x ≤ v.stream.length
  · rw [if_pos hq, if_pos (by rw [List.length_append]; omega)]
    exact .pure true
  · rw [if_neg hq]
    refine ⟨fun a ha => by simp at ha, fun n hn => ⟨he, ?_⟩⟩
    simp at hn
    omega

theorem lit_sound {v w : View par} (h : v.Extends w) (s : List Byte) : ∀ q, Sound v (lit v q s) (lit w q s) := by
  induction s with
  | nil => intro q; exact .pure true
  | cons c cs ih =>
    intro q
    refine (streamByte_sound h q).bind fun r => ?_
    cases r with
    | none => exact .pure false
    | some b =>
      dsimp only
      split
      · exact ih (q + 1)
      · exact .pure false

theorem bytesAt_sound {v w : View par} (h : v.Extends w) (n : Nat) : ∀ q, Sound v (bytesAt v q n) (bytesAt w q n) := by
  induction n with
  | zero => intro q; exact .pure _
  | succ n ih =>
    intro q
    refine (streamByte_sound h q).bind fun r => ?_
    cases r with
    | none => exact .pure none
    | some b =>
      refine (ih (q + 1)).bind fun r => ?_
      cases r <;> exact .pure _

theorem mpegHeaderAt_sound {v w : View par} (h : v.Extends w) (sess : Session) (q : Nat) (strict : Bool) :
    Sound v (mpegHeaderAt v sess q strict) (mpegHeaderAt w sess q strict) := by
  refine (bytesAt_sound h 4 q).bind fun r => ?_
  cases r with
  | none => exact .pure none
  | some bs =>
    dsimp only
    split
    · exact .pure none
    · split <;> exact .pure _

theorem tryMpeg_sound {v w : View par} (h : v.Extends w) (sess : Session) (q : Nat) (strict : Bool) :
    Sound v (tryMpeg v sess q strict) (tryMpeg w sess q strict) := by
  refine (mpegHeaderAt_sound h sess q strict).bind fun r => ?_
  cases r <;> exact .pure _

theorem xingTagAt_sound {v w : View par} (h : v.Extends w) (q len t : Nat) :
    Sound v (xingTagAt v q len t) (xingTagAt w q len t) := by
  unfold xingTagAt
  split
  · exact .pure none
  · refine (lit_sound h _ _).bind fun isXing => ?_
    have rest : ∀ isInfo : Bool, Sound v
        (if (!isXing && !isInfo) = true then (.ok none : Look (Option (BitVec 4 × Bool)))
          else do
            match ← bytesAt v (q + t + 4) 4 with
            | none => .ok none
            | some bs =>
              let f : BitVec 4 := BitVec.ofNat 4 (beNat bs)
              if t + xingSpan f > len then .ok none else .ok (some (f, isInfo)))
        (if (!isXing && !isInfo) = true then (.ok none : Look (Option (BitVec 4 × Bool)))
          else do
            match ← bytesAt w (q + t + 4) 4 with
            | none => .ok none
            | some bs =>
              let f : BitVec 4 := BitVec.ofNat 4 (beNat bs)
              if t + xingSpan f > len then .ok none else .ok (some (f, isInfo))) := by
      intro isInfo
      split
      · exact .pure none
      · refine (bytesAt_sound h 4 _).bind fun r => ?_
        cases r with
        | none => exact .pure none
        | some bs => dsimp only; split <;> exact .pure _
    cases isXing with
    | true => exact (Sound.pure false).bind rest
    | false => exact (lit_sound h _ _).bind rest

theorem firstXingTag_sound {v w : View par} (h : v.Extends w) (q len : Nat) (ts : List Nat) :
    Sound v (firstXingTag v q len ts) (firstXingTag w q len ts) := by
  induction ts with
  | nil => exact .pure none
  | cons t ts ih =>
    refine (xingTagAt_sound h q len t).bind fun r => ?_
    cases r with
    | none => exact ih
    | some p => exact .pure _

theorem tryXing_sound {v w : View par} (h : v.Extends w) (sess : Session) (q : Nat) (strict : Bool) :
    Sound v (tryXing v sess q strict) (tryXing w sess q strict) := by
  unfold tryXing
  split
  · exact .pure _
  · refine (mpegHeaderAt_sound h sess q strict).bind fun r => ?_
    cases r with
    | none => exact .pure _
    | some p =>
      refine (firstXingTag_sound h q _ _).bind fun r => ?_
      cases r <;> exact .pure _

theorem tryRiffFmt_sound {v w : View par} (h : v.Extends w) (q : Nat) : Sound v (tryRiffFmt v q) (tryRiffFmt w q) := by
  refine (lit_sound h _ _).bind fun b => ?_
  cases b with
  | false => exact .pure _
  | true =>
    refine (bytesAt_sound h 6 _).bind fun r => ?_
    cases r with
    | none => exact .pure _
    | some bs => dsimp only; split <;> exact .pure _

theorem tryRiffFact_sound {v w : View par} (h : v.Extends w) (q : Nat) : Sound v (tryRiffFact v q) (tryRiffFact w q) := by
  refine (lit_sound h _ _).bind fun b => ?_
  cases b with
  | false => exact .pure _
  | true =>
    refine (bytesAt_sound h 4 _).bind fun r => ?_
    cases r <;> exact .pure _

theorem tryRiffData_sound {v w : View par} (h : v.Extends w) (q : Nat) : Sound v (tryRiffData v q) (tryRiffData w q) := by
  refine (lit_sound h _ _).bind fun b => ?_
  cases b <;> exact .pure _

theorem tryRiffChunk_sound {v w : View par} (h : v.Extends w) (q : Nat) :
    Sound v (tryRiffChunk v q) (tryRiffChunk w q) := by
  refine (tryRiffFmt_sound h q).bind fun r => ?_
  cases r with
  | hit c => exact .pure _
  | fatal code off => exact .pure _
  | notThis =>
    refine (tryRiffFact_sound h q).bind fun r => ?_
    cases r with
    | hit c => exact .pure _
    | fatal code off => exact .pure _
    | notThis => exact tryRiffData_sound h q

theorem isRiffHeader_sound {v w : View par} (h : v.Extends w) (q : Nat) :
    Sound v (isRiffHeader v q) (isRiffHeader w q) := by
  refine (lit_sound h _ _).bind fun b => ?_
  cases b with
  | false => exact .pure _
  | true =>
    refine (lit_sound h _ _).bind fun b => ?_
    cases b <;> exact .pure _

theorem tryRiff_sound {v w : View par} (h : v.Extends w) (sess : Session) (q : Nat) :
    Sound v (tryRiff v sess q) (tryRiff w sess q) := by
  refine (isRiffHeader_sound h q).bind fun b => ?_
  cases b with
  | true => exact .pure _
  | false =>
    by_cases hr : sess.hasRiff = true
    · simp only [if_neg Bool.false_ne_true, if_pos hr]
      exact (tryRiffChunk_sound h q).bind fun r => .pure _
    · simp only [if_neg Bool.false_ne_true, if_neg hr]
      exact .pure _

theorem tryId3_sound {v w : View par} (h : v.Extends w) (q : Nat) : Sound v (tryId3 v q) (tryId3 w q) := by
  refine (lit_sound h _ _).bind fun b => ?_
  cases b with
  | true => exact .pure _
  | false =>
    refine (lit_sound h _ _).bind fun b => ?_
    cases b with
    | false => exact .pure _
    | true =>
      refine (bytesAt_sound h 7 _).bind fun r => ?_
      cases r <;> exact .pure _

theorem tryApe_sound {v w : View par} (h : v.Extends w) (q : Nat) : Sound v (tryApe v q) (tryApe w q) := by
  refine (lit_sound h _ _).bind fun b => ?_
  cases b with
  | false => exact .pure _
  | true =>
    refine (bytesAt_sound h 8 _).bind fun r => ?_
    cases r with
    | none => exact .pure _
    | some bs =>
      dsimp only
      split
      · exact .pure _
      · split <;> exact .pure _

/-- The detector's answer stays when more arrives, and without one it names a byte that can arrive (43_engine.md R703,
42_detector.md R601). -/
theorem find_sound {v w : View par} (h : v.Extends w) (sess : Session) (q : Nat) (strict : Bool) :
    Sound v (find v sess q strict) (find w sess q strict) := by
  refine (tryXing_sound h sess q strict).bind fun r => ?_
  obtain ⟨s1, c⟩ := r
  cases c with
  | some c => exact .pure _
  | none =>
    refine (tryMpeg_sound h s1 q strict).bind fun r => ?_
    cases r with
    | some c => exact .pure _
    | none =>
      refine (tryRiff_sound h s1 q).bind fun r => ?_
      obtain ⟨s2, r⟩ := r
      cases r with
      | hit c => exact .pure _
      | fatal code off => exact .pure _
      | notThis =>
        refine (tryId3_sound h q).bind fun r => ?_
        cases r with
        | some c => exact .pure _
        | none =>
          refine (tryApe_sound h q).bind fun r => ?_
          cases r <;> exact .pure _

/-! ## Bytes that are decided -/

/-- A decided byte reads as the byte there, or as ABSENT (43_engine.md R703). -/
theorem streamByte_readable {v : View par} {q n k : Nat} (hq : v.pos ≤ q) (hd : v.Decided q n) (hk : k < n) :
    streamByte v (q + k) = .ok (v.readable q)[k]? := by
  have hr : (v.readable q)[k]? = if q + k < v.pos + par.capacity then v.stream[q + k]? else none := by
    simp [View.readable, List.getElem?_drop, List.getElem?_take]
  have hl : (v.readable q).length = min (v.pos + par.capacity) v.stream.length - q := by simp [View.readable]
  unfold streamByte
  by_cases hc : q + k - v.pos ≥ par.capacity
  · rw [if_pos hc, hr, if_neg (by omega)]
  · rw [if_neg hc, hr, if_pos (show q + k < v.pos + par.capacity by omega)]
    cases hs : v.stream[q + k]? with
    | some b => rfl
    | none =>
      have hge := List.getElem?_eq_none_iff.1 hs
      have he : v.eos = true := by
        rcases hd with he | hn | hw
        · exact he
        · omega
        · omega
      simp [he]

/-- A literal over decided bytes: they are its bytes (42_detector.md R601). -/
theorem lit_readable {v : View par} {q n : Nat} (hq : v.pos ≤ q) (hd : v.Decided q n) (s : List Byte) :
    ∀ j, j + s.length ≤ n → lit v (q + j) s = .ok (decide (((v.readable q).drop j).take s.length = s)) := by
  induction s with
  | nil => intro j _; simp [lit]
  | cons c cs ih =>
    intro j hj
    simp only [List.length_cons] at hj
    rw [lit, streamByte_readable hq hd (by omega)]
    cases hw : (v.readable q)[j]? with
    | none =>
      have hl := List.getElem?_eq_none_iff.1 hw
      have : (v.readable q).drop j = [] := List.drop_eq_nil_iff.2 hl
      simp [this, bind, Except.bind]
    | some b =>
      obtain ⟨hl, hb⟩ := List.getElem?_eq_some_iff.1 hw
      have hdrop : (v.readable q).drop j = b :: (v.readable q).drop (j + 1) := by
        rw [List.drop_eq_getElem_cons hl, hb]
      rw [hdrop]
      by_cases hbc : b = c
      · have := ih (j + 1) (by omega)
        simp only [bind, Except.bind, if_pos hbc, List.length_cons, List.take_succ_cons, Nat.add_assoc] at this ⊢
        rw [this]
        simp [hbc]
      · simp [bind, Except.bind, hbc]

/-- Decided bytes in a row: they are there, or one of them is ABSENT (R601). -/
theorem bytesAt_readable {v : View par} {q n : Nat} (hq : v.pos ≤ q) (hd : v.Decided q n) (m : Nat) :
    ∀ j, j + m ≤ n → bytesAt v (q + j) m
      = .ok (if j + m ≤ (v.readable q).length ∨ m = 0 then some (((v.readable q).drop j).take m) else none) := by
  induction m with
  | zero => intro j _; simp [bytesAt]
  | succ m ih =>
    intro j hj
    rw [bytesAt, streamByte_readable hq hd (by omega)]
    cases hw : (v.readable q)[j]? with
    | none =>
      have hl := List.getElem?_eq_none_iff.1 hw
      simp only [bind, Except.bind]
      rw [if_neg (by omega)]
    | some b =>
      obtain ⟨hl, hb⟩ := List.getElem?_eq_some_iff.1 hw
      have hdrop : (v.readable q).drop j = b :: (v.readable q).drop (j + 1) := by
        rw [List.drop_eq_getElem_cons hl, hb]
      have := ih (j + 1) (by omega)
      simp only [bind, Except.bind, Nat.add_assoc] at this ⊢
      rw [this, hdrop]
      by_cases hc : j + (1 + m) ≤ (v.readable q).length
      · rw [if_pos (.inl hc), if_pos (.inl (by omega))]; simp
      · rw [if_neg (by omega)]
        by_cases hm : m = 0
        · omega
        · rw [if_neg (by omega)]

end Sys2Proof.Model
end

