-- ==== Sys2Proof/Laws/Engine.lean ====
section
/-! SUPPORT. The engine: what the end of a step leaves, what a decision can be, and what one move can do, said once. -/

namespace Sys2Proof.Model

open Machine

variable {par : Params}

/-! ## The end of a step -/

/-- The end of a step changes the run state, what was requested of it and the step in progress alone (43_engine.md R710,
R712, R713). -/
theorem Engine.boundary_eq (e : Engine par) :
    e.boundary
      = { e with
          run := e.boundary.run
          pauseReq := e.boundary.pauseReq
          resumeReq := e.boundary.resumeReq
          work := .between } := by
  unfold Engine.boundary
  cases e.run with
  | run => cases e.pauseReq <;> simp
  | step => cases e.resumeReq <;> simp
  | _ => simp

/-- In RUN without a pause request the next step follows; with one the engine pauses; a single step pauses, unless a resume
waited for its end (R712, R713). -/
theorem Engine.boundary_cases (e : Engine par) :
    (e.run = .run ∧ e.pauseReq = false ∧ e.boundary = { e with work := .between })
      ∨ (e.run = .run ∧ e.pauseReq = true ∧ e.boundary = { e with run := .paused, pauseReq := false, work := .between })
      ∨ (e.run = .step ∧ e.resumeReq = false ∧ e.boundary = { e with run := .paused, work := .between })
      ∨ (e.run = .step ∧ e.resumeReq = true ∧ e.boundary = { e with run := .run, resumeReq := false, work := .between })
      ∨ (e.run ≠ .run ∧ e.run ≠ .step ∧ e.boundary = { e with work := .between }) := by
  unfold Engine.boundary
  cases h : e.run with
  | run => cases hp : e.pauseReq <;> simp
  | step => cases hp : e.resumeReq <;> simp
  | _ => simp

/-- A pause is requested in RUN alone, and a resume waits in STEP alone (R712, R713). -/
theorem Engine.RunOk.requests {e : Engine par} (hr : e.RunOk) :
    (e.run ≠ .run → e.pauseReq = false) ∧ (e.run ≠ .step → e.resumeReq = false) :=
  ⟨fun h => Bool.eq_false_iff.2 fun hx => h (hr.2.2.1 hx).1, fun h => Bool.eq_false_iff.2 fun hx => h (hr.2.2.2.1 hx).1⟩

/-- At the end of a step begun in RUN or STEP, a single step for which no resume waits and a requested pause lead to PAUSED,
else the engine is in RUN, and nothing requested is left (R710, R712, R713). -/
theorem Engine.boundary_of_step {e e' : Engine par} (hr : e.RunOk) (h : e.run = .run ∨ e.run = .step) (h1 : e'.run = e.run)
    (h2 : e'.pauseReq = e.pauseReq) (h3 : e'.resumeReq = e.resumeReq) :
    e'.boundary
      = { e' with
          run := if e.run = .step ∧ e.resumeReq = false ∨ e.pauseReq = true then .paused else .run
          pauseReq := false
          resumeReq := false
          work := .between } := by
  rcases h with h | h
  · have hq := hr.requests.2 (by simp [h])
    rw [h] at h1
    rw [hq] at h3
    cases hp : e.pauseReq <;> rw [hp] at h2 <;> simp [Engine.boundary, h1, h2, h3, h, hq]
  · have hq := hr.requests.1 (by simp [h])
    rw [h] at h1
    rw [hq] at h2
    cases hp : e.resumeReq <;> rw [hp] at h3 <;> simp [Engine.boundary, h1, h2, h3, h, hq]

/-- A position moved forward inside a stream shorter than 2^64 bytes does not wrap (00_scope.md R7, log entry 13). -/
theorem pos_advance {p : Pos Config.mfhc} {n d : Nat} (h : p.toNat + n ≤ d) (hd : d < 2 ^ 64) :
    (p + BitVec.ofNat Config.mfhc.posWidth n).toNat = p.toNat + n := by
  have hw : (2 : Nat) ^ Config.mfhc.posWidth = 2 ^ 64 := rfl
  simp only [BitVec.toNat_add, BitVec.toNat_ofNat, hw]
  omega

/-! ## The parameters of this hardware, as numbers -/

@[simp] theorem mfhc_capacity : Config.mfhc.capacity = 8192 := rfl

@[simp] theorem mfhc_minRemain : Config.mfhc.minRemain = 5 := rfl

@[simp] theorem mfhc_recDepth : Config.mfhc.recDepth = 16 := rfl

@[simp] theorem mfhc_scratchSize : Config.mfhc.scratchSize = 256 := rfl

@[simp] theorem mfhc_scratchWords : Config.mfhc.scratchWords = 64 := rfl

@[simp] theorem mfhc_maxFields : Config.mfhc.maxFields = 32 := rfl

@[simp] theorem mfhc_maxWidth : Config.mfhc.maxWidth = 32 := rfl

@[simp] theorem mfhc_posWidth : Config.mfhc.posWidth = 64 := rfl

@[simp] theorem mfhc_cntWidth : Config.mfhc.cntWidth = 32 := rfl

/-- The constraint of R7 on `CAPACITY`, and that a step's `MIN_REMAIN` bytes fit the window. -/
theorem mfhc_constraints : 256 ≤ Config.mfhc.capacity ∧ Config.mfhc.minRemain ≤ Config.mfhc.capacity := by decide

/-! ## The detection part of a step -/

/-- `HAVE` of bytes that have arrived (R704). -/
theorem haveUpTo_arrived {e : Engine par} {n : Nat} (h : n ≤ e.d) : haveUpTo e.view n = .ok true := if_pos h

/-- The move of an engine that runs the detection part of a step (R712, R720). -/
theorem Engine.move_of_detects {e : Engine par} (h : e.Detects) : e.move = e.detectMove := by
  rcases h with ⟨hw, ⟨hr, hp⟩ | hr⟩ | ⟨n, hw, hs⟩
  · simp [Engine.move, hw, hr, hp]
  · simp [Engine.move, hw, hr]
  · simp [Engine.move, hw, hs]

/-- A decision that cannot be made yet names a byte that can still arrive and fits the window (R703, R704). -/
theorem Engine.decision_error {e : Engine par} {n : Nat} (hc : par.minRemain ≤ par.capacity) (h : e.decision = .error n) :
    e.eos = false ∧ e.d < n ∧ n ≤ e.p + par.capacity := by
  have hr := View.Extends.refl e.view
  unfold Engine.decision at h
  rcases Look.bind_eq_error.1 h with h | ⟨b, _, h⟩
  · exact (haveUpTo_sound hr (by simpa [Engine.view] using hc)).error n h
  · cases b with
    | false => cases h
    | true =>
      rcases Look.bind_eq_error.1 h with h | ⟨⟨s1, r⟩, _, h⟩
      · exact (find_sound hr _ _ _).error n h
      · cases r with
        | notThis => cases h
        | fatal code off => cases h
        | hit c =>
          dsimp only at h
          split at h
          · cases h
          · unfold Engine.confirm at h
            split at h
            · cases h
            · rename_i hc
              rcases Look.bind_eq_error.1 h with h | ⟨b, _, h⟩
              · exact (haveUpTo_sound hr (by simp only [Engine.view]; omega)).error n h
              · cases b with
                | false => cases h
                | true =>
                  rcases Look.bind_eq_error.1 h with h | ⟨⟨s2, r⟩, _, h⟩
                  · exact (find_sound hr _ _ _).error n h
                  · cases r <;> cases h

/-- What `HAVE` answers (R704). -/
theorem haveUpTo_eq_ok {v : View par} {x : Nat} {b : Bool} (h : haveUpTo v x = .ok b) :
    (b = true ∧ x ≤ v.stream.length) ∨ (b = false ∧ v.stream.length < x ∧ v.eos = true) := by
  unfold haveUpTo at h
  split at h
  · cases h; exact .inl ⟨rfl, ‹_›⟩
  · split at h
    · cases h; exact .inr ⟨rfl, by omega, ‹_›⟩
    · cases h

/-- What a decision can be (R720, R722, R726, R728). -/
theorem Engine.decision_cases {e : Engine par} {d : Decision} (h : e.decision = .ok d) :
    (e.d < e.p + par.minRemain ∧ e.eos = true
        ∧ d = { verdict := if e.d > e.p ∧ e.latch.skip = false then .fatal .invalidData e.p else .finish
                sess := e.sess, lost := false, resynced := false })
      ∨ (e.p + par.minRemain ≤ e.d
        ∧ ((∃ s1 code off, find e.view e.sess e.p (decide (e.sync = .inSync)) = .ok (s1, .fatal code off)
              ∧ d = { verdict := .fatal code off, sess := s1, lost := false, resynced := false })
          ∨ (∃ s1, d = e.noCandidate s1)
          ∨ (∃ s1 c, e.sync = .inSync ∧ find e.view e.sess e.p true = .ok (s1, .hit c)
              ∧ d = { verdict := .accept c, sess := s1, lost := false, resynced := false })
          ∨ (∃ s1 c, e.sync = .lostSync ∧ find e.view e.sess e.p false = .ok (s1, .hit c)
              ∧ c.len + e.latch.margin.toNat ≤ par.capacity ∧ e.p + c.len + e.latch.margin.toNat ≤ e.d
              ∧ ∃ s2, (∃ code off, find e.view s1 (e.p + c.len) true = .ok (s2, .fatal code off)
                    ∧ d = { verdict := .fatal code off, sess := s2, lost := false, resynced := false })
                  ∨ (∃ c', find e.view s1 (e.p + c.len) true = .ok (s2, .hit c')
                    ∧ d = { verdict := .accept c, sess := s2, lost := false, resynced := true })))) := by
  unfold Engine.decision at h
  obtain ⟨b, hb, h⟩ := Look.bind_eq_ok.1 h
  rcases haveUpTo_eq_ok hb with ⟨rfl, hl⟩ | ⟨rfl, hl, he⟩
  · refine .inr ⟨hl, ?_⟩
    obtain ⟨⟨s1, r⟩, hr, h⟩ := Look.bind_eq_ok.1 h
    cases r with
    | fatal code off => cases h; exact .inl ⟨s1, code, off, hr, rfl⟩
    | notThis => cases h; exact .inr (.inl ⟨s1, rfl⟩)
    | hit c =>
      dsimp only at h
      split at h
      · rename_i hs
        cases h
        exact .inr (.inr (.inl ⟨s1, c, hs, by simpa [hs] using hr, rfl⟩))
      · rename_i hs
        unfold Engine.confirm at h
        split at h
        · cases h; exact .inr (.inl ⟨s1, rfl⟩)
        · rename_i hm
          obtain ⟨b, hb, h⟩ := Look.bind_eq_ok.1 h
          rcases haveUpTo_eq_ok hb with ⟨rfl, hl'⟩ | ⟨rfl, _, _⟩
          · obtain ⟨⟨s2, r⟩, hr2, h⟩ := Look.bind_eq_ok.1 h
            have hr' : find e.view e.sess e.p false = .ok (s1, .hit c) := by simpa [hs] using hr
            cases r with
            | fatal code off =>
              cases h
              exact .inr (.inr (.inr ⟨s1, c, hs, hr', by omega, hl', s2, .inl ⟨code, off, hr2, rfl⟩⟩))
            | notThis => cases h; exact .inr (.inl ⟨s2, rfl⟩)
            | hit c' =>
              cases h
              exact .inr (.inr (.inr ⟨s1, c, hs, hr', by omega, hl', s2, .inr ⟨c', hr2, rfl⟩⟩))
          · cases h; exact .inr (.inl ⟨s1, rfl⟩)
  · cases h
    exact .inl ⟨hl, he, rfl⟩

/-! ## One move -/

/-- What one move of the engine can do. -/
theorem Engine.move_cases (e : Engine par) :
    e.move = (e, 0)
      ∨ (e.work = .between ∧ e.run = .run ∧ e.pauseReq = true
          ∧ e.move = ({ e with run := .paused, pauseReq := false, work := .between }, 0))
      ∨ (e.Detects ∧ ∃ n, e.decision = .error n ∧ e.move = ({ e with work := .detect n }, 0))
      ∨ (e.Detects ∧ ∃ d, e.decision = .ok d ∧ e.move = e.act d)
      ∨ (∃ a, e.work = .push a ∧ e.fifo.length < par.recDepth ∧ e.move = e.commitEmitted a)
      ∨ (∃ a, e.work = .drop a ∧ e.p + a.cand.len ≤ e.d ∧ e.move = e.commitSuppressed a)
      ∨ (∃ a, (e.work = .drop a ∧ e.d < e.p + a.cand.len ∧ e.eos = true ∨ e.work = .closed a) ∧ e.move = e.truncated a) := by
  have detect : e.Detects → (e.Detects ∧ ∃ n, e.decision = .error n ∧ e.move = ({ e with work := .detect n }, 0))
      ∨ (e.Detects ∧ ∃ d, e.decision = .ok d ∧ e.move = e.act d) := by
    intro hd
    have hm := Engine.move_of_detects hd
    unfold Engine.detectMove at hm
    cases h : e.decision with
    | error n => exact .inl ⟨hd, n, rfl, by rw [hm, h]⟩
    | ok d => exact .inr ⟨hd, d, rfl, by rw [hm, h]⟩
  cases hw : e.work with
  | between =>
    by_cases hr : e.run = .run
    · by_cases hp : e.pauseReq = true
      · exact .inr (.inl ⟨rfl, hr, hp, by simp [Engine.move, hw, hr, hp, Engine.boundary]⟩)
      · rcases detect (.inl ⟨hw, .inl ⟨hr, by simpa using hp⟩⟩) with h | h
        · exact .inr (.inr (.inl h))
        · exact .inr (.inr (.inr (.inl h)))
    · by_cases hs : e.run = .step
      · rcases detect (.inl ⟨hw, .inr hs⟩) with h | h
        · exact .inr (.inr (.inl h))
        · exact .inr (.inr (.inr (.inl h)))
      · refine .inl ?_
        unfold Engine.move
        rw [hw]
        cases h : e.run <;> first | rfl | exact absurd h hr | exact absurd h hs
  | detect n =>
    cases hs : e.stallIn with
    | true => exact .inl (by simp [Engine.move, hw, hs])
    | false =>
      rcases detect (.inr ⟨n, hw, hs⟩) with h | h
      · exact .inr (.inr (.inl h))
      · exact .inr (.inr (.inr (.inl h)))
  | emit a sent => exact .inl (by simp [Engine.move, hw])
  | push a =>
    by_cases hf : e.fifo.length < par.recDepth
    · exact .inr (.inr (.inr (.inr (.inl ⟨a, rfl, hf, by simp [Engine.move, hw, hf]⟩))))
    · exact .inl (by simp [Engine.move, hw, hf])
  | drop a =>
    by_cases hl : e.p + a.cand.len ≤ e.d
    · exact .inr (.inr (.inr (.inr (.inr (.inl ⟨a, rfl, hl, by simp [Engine.move, hw, hl]⟩)))))
    · cases he : e.eos with
      | true =>
        exact .inr (.inr (.inr (.inr (.inr (.inr ⟨a, .inl ⟨rfl, by omega, rfl⟩, by simp [Engine.move, hw, hl, he]⟩)))))
      | false => exact .inl (by simp [Engine.move, hw, hl, he])
  | closed a =>
    exact .inr (.inr (.inr (.inr (.inr (.inr ⟨a, .inr rfl, by simp [Engine.move, hw]⟩)))))

/-- A move that does not complete a step changes nothing but the step in progress, and raises nothing (R711). -/
theorem Engine.move_of_incomplete {e : Engine par} (h : e.move.1.work ≠ .between) :
    e.move = ({ e with work := e.move.1.work }, 0) := by
  rcases e.move_cases with hm | ⟨_, _, _, hm⟩ | ⟨_, n, _, hm⟩ | ⟨_, d, _, hm⟩ | ⟨a, _, _, hm⟩ | ⟨a, _, _, hm⟩ | ⟨a, _, hm⟩
  · rw [hm]
  · rw [hm] at h; exact absurd rfl h
  · rw [hm]
  · rw [hm] at h ⊢
    unfold Engine.act at h ⊢
    cases hv : d.verdict <;> simp only [hv] at h ⊢
    · exact absurd rfl h
    · exact absurd rfl h
    · rw [Engine.boundary_eq] at h; exact absurd rfl h
    · split <;> rfl
  · exact absurd (by rw [hm, Engine.commitEmitted, Engine.boundary_eq]) h
  · exact absurd (by rw [hm, Engine.commitSuppressed, Engine.boundary_eq]) h
  · exact absurd (by rw [hm, Engine.truncated]; split <;> rfl) h

/-- What a take does to the engine (R701): nothing but the abort it owed, or the step in progress. -/
theorem Engine.taken_cases (e : Engine par) :
    (e.abortOwed = true ∧ e.taken = { e with abortOwed := false })
      ∨ (e.abortOwed = false
        ∧ (e.taken = e
          ∨ (∃ a sent, e.work = .emit a sent ∧ a.cand.len ≤ sent ∧ e.taken = { e with work := .push a })
          ∨ (∃ a sent, e.work = .emit a sent ∧ sent < a.cand.len ∧ e.p + sent < e.d
              ∧ e.taken = { e with work := .emit a (sent + 1) })
          ∨ (∃ a sent, e.work = .emit a sent ∧ sent < a.cand.len ∧ e.d ≤ e.p + sent ∧ e.eos = true
              ∧ e.taken = { e with work := .closed a }))) := by
  cases ho : e.abortOwed with
  | true => exact .inl ⟨rfl, by simp [Engine.taken, ho]⟩
  | false =>
    refine .inr ⟨rfl, ?_⟩
    cases hw : e.work with
    | emit a sent =>
      by_cases hl : a.cand.len ≤ sent
      · exact .inr (.inl ⟨a, sent, rfl, hl, by simp [Engine.taken, ho, hw, hl]⟩)
      · by_cases hd : e.p + sent < e.d
        · refine .inr (.inr (.inl ⟨a, sent, rfl, by omega, hd, ?_⟩))
          have : e.stream[e.p + sent]? = some (e.stream[e.p + sent]'hd) := List.getElem?_eq_getElem hd
          simp [Engine.taken, ho, hw, hl, this]
        · have hn : e.stream[e.p + sent]? = none := List.getElem?_eq_none (by simp only [Engine.d] at hd; omega)
          cases he : e.eos with
          | true => exact .inr (.inr (.inr ⟨a, sent, rfl, by omega, by omega, rfl, by simp [Engine.taken, ho, hw, hl, hn, he]⟩))
          | false => exact .inl (by simp [Engine.taken, ho, hw, hl, hn, he])
    | _ => exact .inl (by simp [Engine.taken, ho, hw])

/-! ## Where an engine command can act -/

@[simp] theorem Work.underway_between : Work.between.underway = false := rfl
@[simp] theorem Work.underway_detect (need : Nat) : (Work.detect need).underway = decide (need ≠ 0) := rfl
@[simp] theorem Work.underway_emit (a : Accepted) (sent : Nat) : (Work.emit a sent).underway = true := rfl
@[simp] theorem Work.underway_push (a : Accepted) : (Work.push a).underway = true := rfl
@[simp] theorem Work.underway_drop (a : Accepted) : (Work.drop a).underway = true := rfl
@[simp] theorem Work.underway_closed (a : Accepted) : (Work.closed a).underway = true := rfl

/-- A stalled step has looked at the stream (R703, R712). -/
theorem Engine.underway_of_stall {e : Engine par} (h : e.stallIn = true ∨ e.stallOut = true) : e.work.underway = true := by
  cases hw : e.work with
  | between => simp [Engine.stallIn, Engine.stallOut, hw] at h
  | detect n =>
    simp only [Engine.stallIn, Engine.stallOut, hw, Bool.and_eq_true, decide_eq_true_eq] at h
    simp
    rcases h with h | h
    · omega
    · cases h
  | _ => rfl

/-- An engine that delivers a frame offers an item or waits for a byte: it is in a stall (43_engine.md R701, R704). -/
theorem Engine.yields_of_emit {e : Engine par} {a : Accepted} {sent : Nat} (h : e.work = .emit a sent) : e.yields = true := by
  have hy : e.yields = (e.stallIn || e.stallOut) := by simp [Engine.yields, h]
  rw [hy]
  cases ho : e.offer with
  | some x => simp [Engine.stallOut, h, ho]
  | none =>
    have : e.stallIn = true := by
      unfold Engine.offer at ho
      split at ho
      · cases ho
      · rw [h] at ho
        dsimp only at ho
        split at ho
        · cases ho
        · split at ho
          · cases ho
          · rename_i hs hn
            have hl := List.getElem?_eq_none_iff.1 hn
            cases he : e.eos with
            | true => simp [he] at ho
            | false => simp only [Engine.stallIn, h, he, Engine.d]; simp; omega
    simp [this]

/-- The step in progress after a decision (43_engine.md R720, R730): none, or the output or the drop of a frame. -/
theorem Engine.act_work (e : Engine par) (d : Decision) :
    (e.act d).1.work = .between ∨ (∃ a, (e.act d).1.work = .emit a 0) ∨ ∃ a, (e.act d).1.work = .drop a := by
  unfold Engine.act
  cases d.verdict with
  | finish => exact .inl rfl
  | fatal code off => exact .inl rfl
  | discard => dsimp only; exact .inl (by rw [Engine.boundary_eq])
  | accept c =>
    dsimp only
    by_cases hc : e.latch.emits c.kind = true
    · rw [if_pos hc]; exact .inr (.inl ⟨_, rfl⟩)
    · rw [if_neg hc]; exact .inr (.inr ⟨_, rfl⟩)

/-- An engine that neither is between two steps nor stalls moves to where it is, or to a frame to drop, which its next
move finishes or waits for (60_exceptions.md R850). -/
theorem Engine.move_yields (hc : par.minRemain ≤ par.capacity) (e : Engine par) :
    e.yields = true ∨ e.move.1.yields = true ∨ e.move.1.move.1.yields = true := by
  have between : ∀ e' : Engine par, e'.work = .between → e'.yields = true := fun e' h => by simp [Engine.yields, h]
  have drop : ∀ (e' : Engine par) a, e'.work = .drop a → e'.yields = true ∨ e'.move.1.yields = true := by
    intro e' a h
    by_cases hl : e'.p + a.cand.len ≤ e'.d
    · refine .inr (between _ ?_)
      simp only [Engine.move, h, if_pos hl, Engine.commitSuppressed]
      rw [Engine.boundary_eq]
    · cases he : e'.eos with
      | false => exact .inl (by simp [Engine.yields, h, Engine.stallIn, he]; omega)
      | true =>
        refine .inr (between _ ?_)
        simp only [Engine.move, h, if_neg hl, he, if_true, Engine.truncated]
        by_cases hs : e'.latch.skip = true
        · rw [if_pos hs]; rfl
        · rw [if_neg hs]; rfl
  rcases e.move_cases with h | ⟨h, _⟩ | ⟨_, n, hd, h⟩ | ⟨_, d, _, h⟩ | ⟨a, _, _, h⟩ | ⟨a, _, _, h⟩ | ⟨a, _, h⟩
  · -- nothing moves: the engine is between two steps or stalls
    refine .inl ?_
    cases hw : e.work with
    | between => exact between e hw
    | detect n =>
      cases hs : e.stallIn with
      | true => simp [Engine.yields, hs]
      | false =>
        have hm : e.move = e.detectMove := by simp [Engine.move, hw, hs]
        rw [h] at hm
        unfold Engine.detectMove at hm
        cases hd : e.decision with
        | error need =>
          rw [hd] at hm
          have hwk := congrArg (fun r => r.1.work) hm
          dsimp only at hwk
          rw [hw] at hwk
          cases hwk
          obtain ⟨he, hn, _⟩ := Engine.decision_error hc hd
          simp [Engine.stallIn, hw, he] at hs
          omega
        | ok d =>
          rw [hd] at hm
          have hwk := congrArg (fun r => r.1.work) hm
          dsimp only at hwk
          rcases e.act_work d with hb | ⟨a, ha⟩ | ⟨a, ha⟩
          · rw [← hwk, hw] at hb; cases hb
          · rw [← hwk, hw] at ha; cases ha
          · rw [← hwk, hw] at ha; cases ha
    | emit a sent => exact Engine.yields_of_emit hw
    | push a =>
      by_cases hf : e.fifo.length < par.recDepth
      · exfalso
        have := congrArg (fun r => r.1.work) h
        simp only [Engine.move, hw, if_pos hf, Engine.commitEmitted] at this
        rw [Engine.boundary_eq] at this
        cases this
      · simp [Engine.yields, hw, Engine.stallOut]; right; omega
    | drop a =>
      rcases drop e a hw with h' | h'
      · exact h'
      · rw [h] at h'; exact h'
    | closed a =>
      exfalso
      have := congrArg (fun r => r.1.work) h
      simp only [Engine.move, hw, Engine.truncated] at this
      split at this <;> cases this
  · exact .inl (between e h)
  · refine .inr (.inl ?_)
    rw [h]
    obtain ⟨he, hn, _⟩ := Engine.decision_error hc hd
    have hs : ({ e with work := .detect n } : Engine par).stallIn = true := by
      simp only [Engine.stallIn, he, Engine.d]
      exact decide_eq_true hn
    simp [Engine.yields, hs]
  · rcases e.act_work d with hb | ⟨a, ha⟩ | ⟨a, ha⟩
    · exact .inr (.inl (between _ (by rw [h, hb])))
    · exact .inr (.inl (Engine.yields_of_emit (by rw [h, ha])))
    · exact .inr (drop _ a (by rw [h, ha]))
  · exact .inr (.inl (between _ (by rw [h, Engine.commitEmitted, Engine.boundary_eq])))
  · exact .inr (.inl (between _ (by rw [h, Engine.commitSuppressed, Engine.boundary_eq])))
  · exact .inr (.inl (between _ (by rw [h, Engine.truncated]; split <;> rfl)))

/-- After at most two moves an engine command can act (60_exceptions.md R850). -/
theorem State.settled_yields (hc : par.minRemain ≤ par.capacity) (s : State par) : s.settled.eng.yields = true := by
  have once : ∀ t : State par, t.eng.yields = true → t.engineYields = t := fun t h => if_pos h
  have move : ∀ t : State par, t.eng.yields ≠ true → t.engineYields.eng = t.eng.move.1 :=
    fun t h => by rw [State.engineYields, if_neg h]; rfl
  unfold State.settled
  by_cases h0 : s.eng.yields = true
  · rw [once s h0, once s h0, h0]
  · have h1 := move s h0
    by_cases hy : s.engineYields.eng.yields = true
    · rw [once _ hy, hy]
    · rw [move _ hy, h1]
      rcases s.eng.move_yields hc with h | h | h
      · exact absurd h h0
      · rw [h1] at hy; exact absurd h hy
      · exact h

theorem mfhc_settled_yields (s : Machine.State) : s.settled.eng.yields = true := s.settled_yields mfhc_constraints.2

end Sys2Proof.Model
end

