-- ==== Sys2Proof/Laws/Header.lean ====
section
/-! SUPPORT. The header word: what the derived values of a word are made of. -/

namespace Sys2Proof.Model

open Machine

variable {par : Params}

theorem hdrField_lt (h : Word) (f : HdrField) : hdrField h f < 2 ^ f.width := (h.extractLsb' f.lo f.width).isLt

/-- A word has derived values only with the sync pattern, and each value comes from its table (41_header.md R504 to
R511). -/
theorem HdrInfo.ofWord_cases {h : Word} {d : HdrInfo par} (hd : HdrInfo.ofWord h par = some d) :
    hdrField h .sync = 0x7FF
      ∧ par.versionMap.getD (hdrField h .versionCode) none = some d.version
      ∧ par.layerMap.getD (hdrField h .layerCode) none = some d.layer
      ∧ bitrateEntry d.version.cls d.layer (hdrField h .bitrateCode) par = some d.kbps
      ∧ samplingHz d.version (hdrField h .samplingrateCode) par = some d.hz
      ∧ d.prot = decide (hdrField h .crcFlag = 0) ∧ d.padding = decide (hdrField h .padding = 1)
      ∧ d.mono = decide (hdrField h .channelmode = monoCode) := by
  unfold HdrInfo.ofWord at hd
  split at hd
  · cases hd
  · rename_i hs
    cases hv : par.versionMap.getD (hdrField h .versionCode) none with
    | none => rw [hv] at hd; cases hd
    | some v =>
      rw [hv] at hd
      cases hl : par.layerMap.getD (hdrField h .layerCode) none with
      | none => rw [hl] at hd; cases hd
      | some l =>
        rw [hl] at hd
        dsimp only at hd
        cases hb : bitrateEntry v.cls l (hdrField h .bitrateCode) par with
        | none => rw [hb] at hd; cases hd
        | some k =>
          rw [hb] at hd
          cases hz : samplingHz v (hdrField h .samplingrateCode) par with
          | none => rw [hz] at hd; cases hd
          | some z =>
            rw [hz] at hd
            cases hd
            exact ⟨by simpa using hs, rfl, rfl, hb, hz, rfl, rfl, rfl⟩

/-! ## The code tables of this hardware (R506 to R509, R513) -/

theorem mfhc_versionMap : Config.mfhc.versionMap = [some .v25, none, some .v2, some .v1] := rfl

theorem mfhc_layerMap : Config.mfhc.layerMap = [none, some .l3, some .l2, some .l1] := rfl

theorem bitrateColumn_v1l1 :
    bitrateColumn .v1 .l1 = [32, 64, 96, 128, 160, 192, 224, 256, 288, 320, 352, 384, 416, 448] := rfl

theorem bitrateColumn_v1l2 :
    bitrateColumn .v1 .l2 = [32, 48, 56, 64, 80, 96, 112, 128, 160, 192, 224, 256, 320, 384] := rfl

theorem bitrateColumn_v1l3 :
    bitrateColumn .v1 .l3 = [32, 40, 48, 56, 64, 80, 96, 112, 128, 160, 192, 224, 256, 320] := rfl

theorem bitrateColumn_v2l1 :
    bitrateColumn .v2 .l1 = [32, 48, 56, 64, 80, 96, 112, 128, 144, 160, 176, 192, 224, 256] := rfl

theorem bitrateColumn_v2l2 : bitrateColumn .v2 .l2 = [8, 16, 24, 32, 40, 48, 56, 64, 80, 96, 112, 128, 144, 160] := rfl

theorem bitrateColumn_v2l3 : bitrateColumn .v2 .l3 = [8, 16, 24, 32, 40, 48, 56, 64, 80, 96, 112, 128, 144, 160] := rfl

theorem srateColumn_v1 : srateColumn .v1 = [44100, 48000, 32000] := rfl

theorem srateColumn_v2 : srateColumn .v2 = [22050, 24000, 16000] := rfl

theorem mfhc_frameK (vc : VersionClass) (l : Layer) :
    Config.mfhc.frameK.at vc l
      = match vc, l with
        | .v1, .l1 => 12 | .v1, .l2 => 144 | .v1, .l3 => 144 | .v2, .l1 => 240 | .v2, .l2 => 72 | .v2, .l3 => 72 := by
  cases vc <;> cases l <;> rfl

theorem mfhc_l1PadMult : Config.mfhc.l1PadMult = 4 := rfl

/-- Every column has 14 rates (R508). -/
theorem bitrateColumn_length (vc : VersionClass) (l : Layer) : (bitrateColumn vc l).length = 14 := by
  cases vc <;> cases l <;> rfl

/-- Every version class has 3 sampling rates (R509). -/
theorem srateColumn_length (vc : VersionClass) : (srateColumn vc).length = 3 := by cases vc <;> rfl

/-- A bitrate code has an entry exactly from 1 to 14 (R508). -/
theorem bitrateEntry_isSome (vc : VersionClass) (l : Layer) (code : Nat) :
    (bitrateEntry vc l code).isSome = true ↔ 1 ≤ code ∧ code ≤ 14 := by
  cases code with
  | zero => simp [bitrateEntry]
  | succ c => simp [bitrateEntry, bitrateColumn_length]

/-- A sampling-rate code has an entry exactly below 3 (R509). -/
theorem samplingHz_isSome (v : Version) (code : Nat) : (samplingHz v code).isSome = true ↔ code < 3 := by
  unfold samplingHz
  cases h : (srateColumn v.cls)[code]? with
  | none => simpa [srateColumn_length] using h
  | some hz => simpa [srateColumn_length] using (List.getElem?_eq_some_iff.1 h).1

/-- A word has derived values exactly when it is a valid header (R501, R502). -/
theorem HdrInfo.ofWord_isSome (h : Word) : (HdrInfo.ofWord h).isSome = true ↔ validate h = none := by
  unfold HdrInfo.ofWord validate
  by_cases hs : hdrField h .sync ≠ 0x7FF
  · simp [hs]
  · rw [if_neg hs, if_neg hs, mfhc_versionMap, mfhc_layerMap]
    have h1 := hdrField_lt h .versionCode
    have h2 := hdrField_lt h .layerCode
    have h3 := hdrField_lt h .bitrateCode
    have h4 := hdrField_lt h .samplingrateCode
    simp only [HdrField.width] at h1 h2 h3 h4
    have key : ∀ (v : Version) (l : Layer) (f : Nat → Nat → HdrInfo Config.mfhc),
        (match bitrateEntry v.cls l (hdrField h .bitrateCode), samplingHz v (hdrField h .samplingrateCode) with
          | some kbps, some hz => some (f kbps hz)
          | _, _ => none).isSome = true
        ↔ (if hdrField h .bitrateCode = 0 ∨ hdrField h .bitrateCode = 15 then some MalformedReason.bitrate
            else if hdrField h .samplingrateCode = 3 then some .samplingrate else none) = none := by
      intro v l f
      have codes : ((1 ≤ hdrField h .bitrateCode ∧ hdrField h .bitrateCode ≤ 14) ∧ hdrField h .samplingrateCode < 3)
          ↔ (if hdrField h .bitrateCode = 0 ∨ hdrField h .bitrateCode = 15 then some MalformedReason.bitrate
              else if hdrField h .samplingrateCode = 3 then some .samplingrate else none) = none := by
        split
        · simp; omega
        · split <;> simp <;> omega
      rw [← codes, ← bitrateEntry_isSome v.cls l, ← samplingHz_isSome v]
      cases bitrateEntry v.cls l (hdrField h .bitrateCode) <;> cases samplingHz v (hdrField h .samplingrateCode) <;> simp
    generalize hdrField h .versionCode = a at *
    generalize hdrField h .layerCode = b at *
    interval_cases a <;> interval_cases b <;> first | exact key _ _ _ | simp

/-- The side-information length of this hardware is one of its table's (R511). -/
theorem HdrInfo.siLen_mem (d : HdrInfo Config.mfhc) : d.siLen = 9 ∨ d.siLen = 17 ∨ d.siLen = 32 := by
  unfold HdrInfo.siLen
  cases d.version <;> cases d.mono <;> simp [Version.cls, siRow]

/-- The stored CRC takes 0 or 2 bytes (30_encoding.md R312). -/
theorem HdrInfo.crcLen_le (d : HdrInfo par) : d.crcLen ≤ 2 := by
  unfold HdrInfo.crcLen
  cases d.prot <;> simp

/-! ## One field replaced (R533) -/

/-- The bits of a word with one field replaced (R533). -/
theorem getLsbD_setHdrField (h : Word) (f : HdrField) (v k : Nat) (hk : k < 32) :
    (setHdrField h f v).getLsbD k = if f.lo ≤ k ∧ k < f.lo + f.width then v.testBit (k - f.lo) else h.getLsbD k := by
  have hm : (((BitVec.allOnes f.width).setWidth 32 : Word) <<< f.lo).getLsbD k = decide (f.lo ≤ k ∧ k < f.lo + f.width) := by
    rw [BitVec.getLsbD_shiftLeft, BitVec.getLsbD_setWidth, BitVec.getLsbD_allOnes]
    by_cases h1 : f.lo ≤ k
    · have : ¬ k < f.lo := by omega
      by_cases h2 : k - f.lo < f.width
      · have h3 : k < f.lo + f.width := by omega
        have h4 : k - f.lo < 32 := by omega
        simp [hk, this, h1, h2, h3, h4]
      · have h3 : ¬ k < f.lo + f.width := by omega
        simp [h2, h3]
    · have : k < f.lo := by omega
      simp [this, h1]
  have hv : (((BitVec.ofNat f.width v).setWidth 32 : Word) <<< f.lo).getLsbD k = (decide (f.lo ≤ k ∧ k < f.lo + f.width) && v.testBit (k - f.lo)) := by
    rw [BitVec.getLsbD_shiftLeft, BitVec.getLsbD_setWidth, BitVec.getLsbD_ofNat]
    by_cases h1 : f.lo ≤ k
    · have : ¬ k < f.lo := by omega
      by_cases h2 : k - f.lo < f.width
      · have h3 : k < f.lo + f.width := by omega
        have h4 : k - f.lo < 32 := by omega
        simp [hk, this, h1, h2, h3, h4]
      · have h3 : ¬ k < f.lo + f.width := by omega
        simp [h2, h3]
    · have : k < f.lo := by omega
      simp [this, h1]
  unfold setHdrField
  rw [BitVec.getLsbD_or, BitVec.getLsbD_and, BitVec.getLsbD_not, hm, hv]
  by_cases h1 : f.lo ≤ k ∧ k < f.lo + f.width
  · simp [h1]
  · simp [h1, hk]

/-- Two fields share no bit (30_encoding.md R310). -/
theorem HdrField.disjoint (f g : HdrField) (h : g ≠ f) : g.lo + g.width ≤ f.lo ∨ f.lo + f.width ≤ g.lo := by
  revert h
  cases f <;> cases g <;> decide

/-- Replacing a field sets it modulo its width and no other (R533). -/
theorem hdrField_setHdrField (h : Word) (f g : HdrField) (v : Nat) :
    hdrField (setHdrField h f v) g = if g = f then v % 2 ^ f.width else hdrField h g := by
  have hb : g.lo + g.width ≤ 32 := by cases g <;> decide
  have key : (setHdrField h f v).extractLsb' g.lo g.width = if g = f then BitVec.ofNat g.width v else h.extractLsb' g.lo g.width := by
    apply BitVec.eq_of_getLsbD_eq
    intro i hi
    rw [BitVec.getLsbD_extractLsb', getLsbD_setHdrField _ _ _ _ (by omega)]
    by_cases hgf : g = f
    · subst hgf
      rw [if_pos (by omega), if_pos rfl, BitVec.getLsbD_ofNat]
      simp [hi]
    · rw [if_neg hgf, BitVec.getLsbD_extractLsb', if_neg]
      have := HdrField.disjoint f g hgf
      omega
  unfold hdrField
  rw [key]
  split
  · rename_i h; subst h; simp
  · rfl

/-! ## Capture (R531) -/

/-- Capturing the stored CRC leaves the word, its validity and the side information. -/
theorem captureCrc_keeps (m : Memory) (off avail : Nat) (d : HdrInfo par) (h : HdrState par) :
    (captureCrc m off avail d h).word = h.word ∧ (captureCrc m off avail d h).valid = h.valid
      ∧ (captureCrc m off avail d h).si = h.si ∧ (captureCrc m off avail d h).siCap = h.siCap := by
  unfold captureCrc
  split <;> exact ⟨rfl, rfl, rfl, rfl⟩

/-- Capturing the side information leaves the word, its validity and the stored CRC. -/
theorem captureSi_keeps (m : Memory) (off avail : Nat) (d : HdrInfo par) (h : HdrState par) :
    (captureSi m off avail d h).word = h.word ∧ (captureSi m off avail d h).valid = h.valid
      ∧ (captureSi m off avail d h).storedCrc = h.storedCrc ∧ (captureSi m off avail d h).crcCap = h.crcCap := by
  unfold captureSi
  split <;> exact ⟨rfl, rfl, rfl, rfl⟩

/-! ## The side-information file -/

theorem getD_writeSi (bs : List Byte) : ∀ (v : Vector Byte 32) (i j : Nat), i + bs.length ≤ 32 →
    (writeSi v i bs).toList.getD j 0 = if i ≤ j ∧ j < i + bs.length then bs.getD (j - i) 0 else v.toList.getD j 0 := by
  induction bs with
  | nil =>
    intro v i j _
    rw [if_neg (by rw [List.length_nil]; omega)]
    rfl
  | cons b bs ih =>
    intro v i j hi
    simp only [List.length_cons] at hi
    rw [writeSi, ih _ _ _ (by omega)]
    by_cases h1 : i + 1 ≤ j ∧ j < i + 1 + bs.length
    · rw [if_pos h1, if_pos (by simp only [List.length_cons]; omega)]
      rw [show j - i = (j - (i + 1)) + 1 by omega, List.getD_cons_succ]
    · rw [if_neg h1]
      by_cases h2 : j = i
      · subst j
        rw [if_pos (by simp only [List.length_cons]; omega), Nat.sub_self, List.getD_cons_zero]
        simp only [List.getD_eq_getElem?_getD, Vector.getElem?_toList, Vector.getElem?_setIfInBounds]
        rw [if_pos trivial, if_pos (by omega)]
        rfl
      · rw [if_neg (by simp only [List.length_cons]; omega)]
        simp only [List.getD_eq_getElem?_getD, Vector.getElem?_toList, Vector.getElem?_setIfInBounds]
        rw [if_neg (fun h => h2 h.symm)]

end Sys2Proof.Model
end

