-- ==== Sys2Proof/Laws/PerInstr.lean ====
section
/-! SUPPORT. Statements made for every command, one lemma per constructor of `Instr`: the word of a command carries its
opcode of 30_encoding.md R302 in bits [7:0] (R300), whatever its operands are. -/

namespace Sys2Proof.Laws.OpcodeField

/-- Bits [7:0] of a word made of three fields are its `OP` (R300). -/
theorem cmdOp_cmdWord (op ra imm : Nat) : cmdOp (cmdWord op ra imm) = BitVec.ofNat 8 op := by
  apply BitVec.eq_of_toNat_eq
  simp only [cmdOp, cmdWord, BitVec.extractLsb'_toNat, BitVec.toNat_append, BitVec.toNat_ofNat, Nat.shiftRight_zero]
  rw [← Nat.shiftLeft_add_eq_or_of_lt (Nat.mod_lt op (by decide)), Nat.shiftLeft_eq]
  omega

/-- The word of the command carries the command's opcode. -/
def Statement (i : Instr) : Prop := cmdOp (encode i) = BitVec.ofNat 8 i.opcode

theorem nop : Statement .nop := cmdOp_cmdWord _ _ _

theorem fmtClear : Statement .fmtClear := cmdOp_cmdWord _ _ _

theorem fmtAppend (width kind : Nat) (expEn : Bool) : Statement (.fmtAppend width kind expEn) := cmdOp_cmdWord _ _ _

theorem pack (off : Nat) : Statement (.pack off) := cmdOp_cmdWord _ _ _

theorem unpack (off : Nat) : Statement (.unpack off) := cmdOp_cmdWord _ _ _

theorem hdrDecode (off : Nat) (src : HdrSource) : Statement (.hdrDecode off src) := cmdOp_cmdWord _ _ _

theorem hdrUpdate (off : Nat) : Statement (.hdrUpdate off) := cmdOp_cmdWord _ _ _

theorem hdrEncode (off : Nat) (includeCrc : Bool) : Statement (.hdrEncode off includeCrc) := cmdOp_cmdWord _ _ _

theorem hdrSetf (index value : Nat) : Statement (.hdrSetf index value) := cmdOp_cmdWord _ _ _

theorem hdrCrcchk : Statement .hdrCrcchk := cmdOp_cmdWord _ _ _

theorem crc16 (off count : Nat) : Statement (.crc16 off count) := cmdOp_cmdWord _ _ _

theorem engStart : Statement .engStart := cmdOp_cmdWord _ _ _

theorem engPause : Statement .engPause := cmdOp_cmdWord _ _ _

theorem engResume : Statement .engResume := cmdOp_cmdWord _ _ _

theorem engStep : Statement .engStep := cmdOp_cmdWord _ _ _

theorem engAbort : Statement .engAbort := cmdOp_cmdWord _ _ _

theorem recPop : Statement .recPop := cmdOp_cmdWord _ _ _

end Sys2Proof.Laws.OpcodeField
end

