-- ==== Sys2Proof/Tests/Slice0.lean ====
section
/-! SUPPORT. Tests of the model and witnesses for the statements. The expected results of the tests are those of
spec/95_test_vectors.md and of the examples of the rules; a witness shows a concrete state and operands that meet the
hypotheses of a statement, at a boundary of each of its clauses. -/

namespace Sys2Proof.Tests

open Sys2Proof Sys2Proof.Machine
open Sys2Proof.Model hiding State CmdUnit HdrState HdrInfo Engine Counters Record Reg View

/-! ## Small states -/

/-- The state after a command. -/
def after (i : Instr) (s : State) : State :=
  match exec i s with
  | .next t => t
  | .fault _ => s
  | .refused _ => s

/-- The state after one step. -/
def stepped (s : State) : State :=
  match step s with
  | .next t => t
  | .fault _ => s
  | .refused _ => s

/-- SCRATCH holds `bs` from byte 0, all of them valid. -/
def withScratch (bs : List Byte) (s : State) : State := s.storeScratch 0 bs

/-- The valid bytes of SCRATCH are the first `n`. -/
def withLen (n : Nat) (s : State) : State := { s with cu := { s.cu with scratchLen := clampLen n } }

/-- The format table. -/
def withFmt (f : List FmtEntry) (s : State) : State := { s with cu := { s.cu with fmt := f } }

/-- `FMT_EXPECT`. -/
def withExpect (w : Word) (s : State) : State := { s with cu := { s.cu with fmtExpect := w } }

/-- `VAL[0]`, `VAL[1]`, ... -/
def withVals (v : List Nat) (s : State) : State := { s with cu := { s.cu with val := writeVals s.cu.val 0 v } }

/-- A header word is held and nothing is captured. -/
def withHeader (w : Word) (s : State) : State := { s with cu := { s.cu with hdr := HdrState.decoded w } }

/-- A command is in flight, its effect still to come. -/
def busyWith (w : Word) (s : State) : State :=
  { s with cu := { s.cu with inFlight := some { word := w, executed := false } } }

/-- A soft reset waits. -/
def awaitingReset (s : State) : State := { s with cu := { s.cu with srstWaiting := true } }

/-- The run state. -/
def withRun (r : RunState) (s : State) : State := { s with eng := { s.eng with run := r } }

/-- The step in progress. -/
def withWork (w : Work) (s : State) : State := { s with eng := { s.eng with work := w } }

/-- An engine in RUN that has begun a step at position 0 of `bytes`. -/
def running (sess : Session) (bytes : List Byte) (eos : Bool) : Engine :=
  { Engine.reset with run := .run, sess := sess, stream := bytes, eos := eos, work := .detect 0 }

/-- The same engine between two steps. -/
def betweenSteps (sess : Session) (bytes : List Byte) (eos : Bool) : Engine :=
  { running sess bytes eos with work := .between }

/-- An engine that has lost synchronisation and looks at position 0 of `bytes`. -/
def lost (sess : Session) (bytes : List Byte) (eos : Bool) : Engine :=
  { running sess bytes eos with sync := .lostSync }

/-- The session inside a RIFF container. -/
def inRiff : Session := { Session.fresh with hasRiff := true }

/-- Side information `00 01 ... 1F`. -/
def siRamp : List Byte := (List.range 32).map (BitVec.ofNat 8)

/-- The first 38 bytes of the protected frame of vector HV-7. -/
def frameHv7 : List Byte := [0xFF, 0xFA, 0x90, 0x00, 0x65, 0xE8] ++ siRamp

/-- The header of HV-7 with its CRC and side information captured. -/
def capturedHv7 : State :=
  { State.reset with
    cu :=
      { State.reset.cu with
        hdr :=
          { word := 0xFFFA9000
            valid := true
            storedCrc := 0x65E8
            crcCap := true
            si := writeSi (Vector.replicate 32 0) 0 siRamp
            siCap := true } } }

/-- The header of HV-8.6, its CRC and its nine bytes of side information captured. -/
def capturedHv8 : State :=
  { State.reset with
    cu :=
      { State.reset.cu with
        hdr :=
          { word := 0xFFF2E4C0
            valid := true
            storedCrc := 0x46B6
            crcCap := true
            si := writeSi (Vector.replicate 32 0) 0 (List.replicate 9 0xA5)
            siCap := true } } }

/-- Frame `H` of the engine vectors: 48 bytes. -/
def frameH : List Byte := [0xFF, 0xF3, 0x24, 0x00] ++ List.replicate 44 0

/-- Frame `HX3` of the engine vectors: `H` with a Xing tag at 21 and flags 3. -/
def frameHx3 : List Byte :=
  [0xFF, 0xF3, 0x24, 0x00] ++ List.replicate 17 0 ++ [0x58, 0x69, 0x6E, 0x67, 0, 0, 0, 3] ++ List.replicate 19 0

/-- A protected frame of 48 bytes with an Info tag at 25, two bytes after its header, and flags 3. -/
def frameHx3Protected : List Byte :=
  [0xFF, 0xF2, 0x24, 0x00] ++ List.replicate 21 0 ++ [0x49, 0x6E, 0x66, 0x6F, 0, 0, 0, 3] ++ List.replicate 15 0

/-- A RIFF `data` chunk header. -/
def chunkData : List Byte := [0x64, 0x61, 0x74, 0x61, 0, 0, 0, 0]

/-- An accepted RIFF `data` chunk. -/
def dataFrame : Accepted := { cand := .plain .riffData 8, sess := inRiff, resynced := false }

/-- An accepted `fact` chunk longer than the window. -/
def longFrame : Accepted := { cand := .plain .riffFact 8200, sess := inRiff, resynced := false }

/-- An accepted frame `H`. -/
def mpegFrame : Accepted :=
  { cand := { kind := .mpeg, len := 48, hdr := 0xFFF32400, xtag := 0, xflags := 0, xinfo := false }
    sess := Session.fresh
    resynced := false }

/-- Every command completes in `after`. -/
theorem exec_after (i : Instr) (s : State) : exec i s = .next (after i s) := by
  obtain ⟨t, h, _⟩ | ⟨e, h, _⟩ := exec_completes i s <;> simp only [after, h]

/-! ## WellFormed refuses ill-formed commands, one for each check -/

theorem test_wf_width : Instr.wf (.fmtAppend 64 0 false) = false := by decide
theorem test_wf_kind : Instr.wf (.fmtAppend 1 4 false) = false := by decide
theorem test_wf_pack : Instr.wf (.pack 256) = false := by decide
theorem test_wf_unpack : Instr.wf (.unpack 256) = false := by decide
theorem test_wf_hdrDecode : Instr.wf (.hdrDecode 256 .scratch) = false := by decide
theorem test_wf_hdrUpdate : Instr.wf (.hdrUpdate 256) = false := by decide
theorem test_wf_hdrEncode : Instr.wf (.hdrEncode 256 true) = false := by decide
theorem test_wf_hdrSetf_index : Instr.wf (.hdrSetf 256 0) = false := by decide
theorem test_wf_hdrSetf_value : Instr.wf (.hdrSetf 0 65536) = false := by decide
theorem test_wf_crc16_offset : Instr.wf (.crc16 256 0) = false := by decide
theorem test_wf_crc16_count : Instr.wf (.crc16 0 65536) = false := by decide
theorem test_wf_accepts : (Instr.fmtAppend 63 3 true).wf && (Instr.hdrSetf 255 65535).wf = true := by decide

/-! ## Decoding: the words of the opcode table's examples (30_encoding.md R302, 95_test_vectors.md) -/

theorem test_decode_nop : decode 0x00000000 = .ok .nop := by decide
theorem test_decode_fmtClear : decode 0x00000001 = .ok .fmtClear := by decide
theorem test_decode_fmtAppend_int : decode 0x010B0002 = .ok (.fmtAppend 11 0 true) := by decide
theorem test_decode_fmtAppend_bool : decode 0x00410002 = .ok (.fmtAppend 1 1 false) := by decide
theorem test_decode_pack : decode 0x0000FD03 = .ok (.pack 253) := by decide
theorem test_decode_unpack : decode 0x00000004 = .ok (.unpack 0) := by decide
theorem test_decode_hdrDecode_scratch : decode 0x00000010 = .ok (.hdrDecode 0 .scratch) := by decide
theorem test_decode_hdrDecode_hdrIn : decode 0x00010010 = .ok (.hdrDecode 0 .hdrIn) := by decide
theorem test_decode_hdrUpdate : decode 0x00000011 = .ok (.hdrUpdate 0) := by decide
theorem test_decode_hdrEncode : decode 0x00010812 = .ok (.hdrEncode 8 true) := by decide
theorem test_decode_hdrSetf : decode 0x07FF0013 = .ok (.hdrSetf 0 0x7FF) := by decide
theorem test_decode_hdrCrcchk : decode 0x00000014 = .ok .hdrCrcchk := by decide
theorem test_decode_crc16 : decode 0x00090015 = .ok (.crc16 0 9) := by decide
theorem test_decode_engStart : decode 0x00000020 = .ok .engStart := by decide
theorem test_decode_engPause : decode 0x00000021 = .ok .engPause := by decide
theorem test_decode_engResume : decode 0x00000022 = .ok .engResume := by decide
theorem test_decode_engStep : decode 0x00000023 = .ok .engStep := by decide
theorem test_decode_engAbort : decode 0x00000024 = .ok .engAbort := by decide
theorem test_decode_recPop : decode 0x00000025 = .ok .recPop := by decide
theorem test_decode_reserved : decode 0xFFFF0505 = .error (.illegalOp 0x05) := by decide

/-! ## Commands, one step each -/

/-- RX-1. -/
theorem test_nop : (after .nop State.reset).irqPend = 1 := by decide
/-- RX-2. -/
theorem test_fmtClear : (after .fmtClear (withFmt headerFormat State.reset)).readReg .fmtInfo = 0 := by decide
/-- RX-3. -/
theorem test_fmtAppend :
    (after (.fmtAppend 11 0 true) (withExpect 0x7FF State.reset)).readReg .fmtInfo = 0x02000B01 := by decide
/-- BV-1, step 15. -/
theorem test_fmtAppend_last :
    (after (.fmtAppend 2 0 false) (withFmt (headerFormat.take 12) State.reset)).readReg .fmtInfo = 0x0400200D := by decide
/-- RX-4. -/
theorem test_pack :
    (after (.pack 0) (withVals [0x7FF, 3, 1, 1, 9] (withFmt headerFormat State.reset))).readReg (.scratch ⟨0, by decide⟩)
      = 0x0090FBFF := by decide
/-- BV-2.3: Integers are masked, Booleans coerced. -/
theorem test_pack_masks :
    (after (.pack 8) (withVals [0xFFFF, 0xF, 0xF, 2, 0x1F, 7, 5, 1, 7, 7, 1, 1, 7] (withFmt headerFormat State.reset))).readReg
        (.scratch ⟨2, by decide⟩)
      = 0xFFFFFFFF := by decide
/-- RX-5. -/
theorem test_unpack :
    (after (.unpack 0) (withScratch [0xFF, 0xFB, 0x90, 0x00] (withFmt headerFormat State.reset))).readReg (.val 4) = 9 := by
  decide
/-- BV-2.4. -/
theorem test_unpack_unexpected :
    (after (.unpack 0) (withScratch [0x7F, 0xFB, 0x90, 0x00] (withFmt headerFormat State.reset))).cu.err = 3 := by decide
/-- RX-6. -/
theorem test_hdrDecode :
    (after (.hdrDecode 0 .scratch) (withScratch [0xFF, 0xFB, 0x90, 0x00] State.reset)).readReg .hdrDerived = 0x01A1240D := by
  decide
/-- HV-2.3. -/
theorem test_hdrDecode_malformed :
    (after (.hdrDecode 0 .scratch) (withScratch [0xFF, 0xF9, 0x90, 0x00] State.reset)).cu.err = 0x304 := by decide
/-- HV-5.2. -/
theorem test_hdrUpdate_crc :
    (after (.hdrUpdate 0) (withLen 6 (withScratch frameHv7 (withHeader 0xFFFA9000 State.reset)))).readReg .hdrCrc
      = 0x000065E8 := by decide
/-- HV-5.3. -/
theorem test_hdrUpdate_all :
    (after (.hdrUpdate 0) (withScratch frameHv7 (withHeader 0xFFFA9000 State.reset))).cu.result = 7 := by decide +kernel
/-- HV-8.6, CV-10: the CRC of the header goes out most significant byte first. -/
theorem test_hdrEncode :
    (after (.hdrEncode 64 true) capturedHv8).readReg (.scratch ⟨17, by decide⟩) = 0xA5A5B646 := by decide +kernel
/-- HV-6.2. -/
theorem test_hdrEncode_incomplete :
    (after (.hdrEncode 8 false) (withHeader 0xFFFA9000 State.reset)).cu.err = 0x105 := by decide
/-- HV-4.1. -/
theorem test_hdrSetf :
    (after (.hdrSetf 6 1) (withHeader 0xFFFB9000 State.reset)).readReg .hdrRaw = 0xFFFB9200 := by decide
/-- HV-4.3. -/
theorem test_hdrSetf_index : (after (.hdrSetf 13 0) (withHeader 0xFFFB9000 State.reset)).cu.err = 0xD06 := by decide
/-- HV-8.6. -/
theorem test_hdrCrcchk : (after .hdrCrcchk capturedHv8).cu.result = 0x101 := by decide +kernel
/-- HV-8.2. -/
theorem test_hdrCrcchk_incomplete : (after .hdrCrcchk (withHeader 0xFFFA9000 State.reset)).cu.result = 3 := by decide
/-- CV-1. -/
theorem test_crc16 :
    (after (.crc16 0 9) (withScratch [0x31, 0x32, 0x33, 0x34, 0x35, 0x36, 0x37, 0x38, 0x39] State.reset)).cu.result = 0xAEE7 := by
  decide +kernel
/-- CV-5. -/
theorem test_crc16_empty : (after (.crc16 0 0) State.reset).cu.result = 0xFFFF := by decide
/-- RX-13: RUN and waiting for input. -/
theorem test_engStart :
    (engineMove (after .engStart State.reset)).readReg .engStatus = 0x41 := by decide
/-- XV: ENG_START in RUN. -/
theorem test_engStart_active : (after .engStart (withRun .run State.reset)).cu.err = 0x107 := by decide
theorem test_engPause : (after .engPause (after .engStart State.reset)).readReg .engStatus = 0x21 := by decide
theorem test_engPause_idle : (after .engPause State.reset).cu.err = 7 := by decide
theorem test_engResume : (after .engResume (withRun .paused State.reset)).readReg .engStatus = 1 := by decide
/-- ENG_RESUME in a stalled single step: ENG_STATUS reads STEP with STALL_IN (R712). -/
theorem test_engResume_stalled_step :
    (after .engResume (withWork (.detect 5) (withRun .step State.reset))).readReg .engStatus = 0x43 := by decide
theorem test_engResume_error : (after .engResume (withRun .error State.reset)).cu.err = 0x507 := by decide
theorem test_engStep : (after .engStep (withRun .paused State.reset)).readReg .engStatus = 3 := by decide
theorem test_engStep_done : (after .engStep (withRun .done State.reset)).cu.err = 0x407 := by decide
theorem test_engAbort : (after .engAbort (withRun .run State.reset)).readReg .engStatus = 0 := by decide
theorem test_engAbort_emitting :
    (after .engAbort (withWork (.emit dataFrame 3) (withRun .run State.reset))).eng.offer = some .frameAbort := by decide
/-- RX-15. -/
theorem test_recPop :
    (after .recPop { State.reset with eng := { Engine.reset with fifo := [Engine.reset.record dataFrame.cand] } }).readReg .recKind
      = 0 := by decide
theorem test_recPop_empty : (after .recPop State.reset).cu.err = 7 := by decide
/-- A word placed in flight is run by the next step. -/
theorem test_step_runs_word : (stepped (State.reset.withFetchWord 32 0x00000505)).cu.err = 0x506 := by decide

/-! ## The detector (DV) -/

/-- DV-1. -/
theorem test_find_mpeg :
    find ({ stream := [0xFF, 0xFB, 0x90, 0x00], eos := true, pos := 0 } : View) Session.fresh 0 true
      = .ok ({ Session.fresh with hasXing := some false },
          .hit { kind := .mpeg, len := 417, hdr := 0xFFFB9000, xtag := 0, xflags := 0, xinfo := false }) := by decide
/-- DV-7. -/
theorem test_find_id3v2 :
    find ({ stream := [0x49, 0x44, 0x33, 4, 0, 0, 0x80, 0x80, 0x82, 0x81], eos := true, pos := 0 } : View) Session.fresh 0 true
      = .ok (Session.fresh, .hit (.plain .id3v2 267)) := by decide
/-- DV-10. -/
theorem test_find_apev2 :
    find ({ stream := [0x41, 0x50, 0x45, 0x54, 0x41, 0x47, 0x45, 0x58, 0xD0, 7, 0, 0, 0x20, 0, 0, 0], eos := true, pos := 0 } : View)
        Session.fresh 0 true
      = .ok (Session.fresh, .hit (.plain .apev2 64)) := by decide
/-- DV-16. -/
theorem test_find_pcm :
    find ({ stream := [0x66, 0x6D, 0x74, 0x20, 0x1E, 0, 0, 0, 1, 0], eos := true, pos := 0 } : View) inRiff 0 true
      = .ok (inRiff, .fatal .unsupportedFormat 0) := by decide
/-- DV-24b: a Xing tag at 21 with flags 3. -/
theorem test_find_xing :
    find ({ stream := frameHx3, eos := true, pos := 0 } : View) Session.fresh 0 true
      = .ok ({ Session.fresh with hasXing := some true },
          .hit { kind := .xing, len := 48, hdr := 0xFFF32400, xtag := 21, xflags := 3, xinfo := false }) := by decide

/-! ## Witnesses of the statements' hypotheses

A conjunct is one clause of the statement, met at a boundary of its range. -/

/-- ResetLeavesResetValues: a register the first clause speaks of. -/
theorem witness_ResetLeavesResetValues :
    Reg.status ∉ [(Reg.id : Reg), .version, .crcPoly, .crcInit, .engCfg, .engMargin, .engLowwater, .engCapacity]
      ∧ (∀ i, (Reg.status : Reg) ≠ .val i) ∧ ∀ k, (Reg.status : Reg) ≠ .scratch k := by
  exact ⟨by decide, by decide, by decide⟩

/-- SoftResetWaitsAndKeepsVal: not BUSY; BUSY before and after the effect of the command in flight. -/
theorem witness_SoftResetWaitsAndKeepsVal :
    ((0xFFFFFFFE : Word).getLsbD 0 = false ∧ (1 : Word).getLsbD 0 = true)
      ∧ State.reset.busy = false ∧ (busyWith 0 State.reset).busy = true
      ∧ ((awaitingReset (busyWith 0 State.reset)).cu.inFlight = some { word := 0, executed := false }
        ∧ (awaitingReset (State.reset.markExecuted 0)).cu.inFlight = some { word := 0, executed := true }
        ∧ (awaitingReset (State.reset.markExecuted 0)).cu.srstWaiting = true)
      ∧ runCommand 0 (awaitingReset (busyWith 0 State.reset))
          = .next (after .nop (awaitingReset (busyWith 0 State.reset))) := by
  exact ⟨by decide, by decide, by decide, by decide, rfl⟩

/-- RegisterMapFollowsTable: the ends of each range, and for every base an address on each side of the register space; the
space itself begins and ends at the base plus 0 and 4095. -/
theorem witness_RegisterMapFollowsTable :
    (UnlistedAddress 0x06C ∧ UnlistedAddress 0x078 ∧ UnlistedAddress 0x07F ∧ UnlistedAddress 0x0E8 ∧ UnlistedAddress 0x0FF
      ∧ UnlistedAddress 0x280 ∧ UnlistedAddress 0x3FF ∧ UnlistedAddress 0x500 ∧ UnlistedAddress 0xFFF)
      ∧ (ReadOnlyAddress 0x000 ∧ ReadOnlyAddress 0x00C ∧ ReadOnlyAddress 0x02C ∧ ReadOnlyAddress 0x063 ∧ ReadOnlyAddress 0x08C
        ∧ ReadOnlyAddress 0x0E7 ∧ ReadOnlyAddress 0x180 ∧ ReadOnlyAddress 0x27F)
      ∧ 0 < { Config.mfhc with base := 1 }.base ∧ Config.mfhc.base + 4096 ≤ Config.mfhc.base + 4096
      ∧ registerOffset (Config.mfhc.base + (0 : BitVec 12).toNat) = some 0
      ∧ registerOffset (Config.mfhc.base + (0xFFF : BitVec 12).toNat) = some 0xFFF := by
  refine ⟨?_, ?_, Nat.one_pos, Nat.le_refl _, registerOffset_base 0, registerOffset_base 0xFFF⟩ <;>
    simp [UnlistedAddress, ReadOnlyAddress]

/-- BusyWritesAreDroppedWithOverrun: before the effect, after it, and not BUSY; a command of the command unit, and a
reserved word, whose effect may come first. -/
theorem witness_BusyWritesAreDroppedWithOverrun :
    (busyWith 0 State.reset).cu.inFlight = some { word := 0, executed := false }
      ∧ (State.reset.markExecuted 0).cu.inFlight = some { word := 0, executed := true }
      ∧ (Reg.val 31 : Reg).isOperand ∧ (Reg.cmd : Reg).isOperand
      ∧ runCommand 0 (busyWith 0 State.reset) = .next (after .nop (busyWith 0 State.reset))
      ∧ (busyWith 0 State.reset).cu.srstWaiting = false
      ∧ (decode 0x00090015 = .ok (.crc16 0 9) ∧ (Instr.crc16 0 9).opcode < 0x20 ∧ decode 5 = .error (.illegalOp 5))
      ∧ (State.reset.readReg .status).getLsbD 0 = false
      ∧ (({ State.reset with irqPend := 0x80 } : State).writeReg .irqPend 0x7F).irqPend.getLsbD 7 = true :=
  ⟨rfl, rfl, trivial, trivial, rfl, rfl, by decide, by decide, by decide⟩

/-- HostWritesReadBack: not BUSY, and BUSY, where the engine's configuration and the interrupt registers are written. -/
theorem witness_HostWritesReadBack :
    State.reset.busy = false ∧ (busyWith 0 State.reset).busy = true
      ∧ ((busyWith 0 State.reset).writeReg .engMargin 0x10007).readReg .engMargin = 7 := by decide

theorem witness_ScratchWordsAreLittleEndian :
    State.reset.busy = false ∧ Memory.wf State.reset.cu.scratch = true
      ∧ Memory.wf (withScratch frameHv7 State.reset).cu.scratch = true := by decide

/-- The registers of StatusRegistersShowState in one state: each word is that of its own register (R115, R116, R143). -/
theorem test_plain_registers_read :
    let s : State :=
      { State.reset with
        cu := { State.reset.cu with err := 0x0204, result := 0x12345678 }
        irqPend := 0xA5 }
    s.readAddr 0x014 = 0x0204 ∧ s.readAddr 0x018 = 0x12345678 ∧ s.readAddr 0x070 = 0xA5 ∧ s.readAddr 0x074 = 0
      ∧ s.readAddr 0x000 = 0x4D464843 ∧ s.readAddr 0x004 = 0x00010000 := by decide

/-- StatusRegistersShowState: an empty FIFO, a full one, with and without a fatal error, and a line that is 1; a frame in
output whose fifth byte is offered, whose fifth byte has not arrived, whose end is, and which the end of the stream cuts; an
input stall of it, of a detection and of a dropped frame, and none between steps and while a record waits. -/
theorem witness_StatusRegistersShowState :
    (({ running inRiff (chunkData.take 7) false with work := .emit dataFrame 0 } : Engine).stallIn = true
      ∧ ({ running inRiff chunkData false with work := .emit dataFrame 0 } : Engine).stallIn = false
      ∧ ({ running inRiff (chunkData.take 7) true with work := .emit dataFrame 0 } : Engine).stallIn = false
      ∧ ({ running inRiff (chunkData.take 7) false with work := .drop dataFrame } : Engine).stallIn = true
      ∧ ({ running inRiff (chunkData.take 7) false with work := .detect 8 } : Engine).stallIn = true
      ∧ (running inRiff (chunkData.take 7) false).stallIn = false
      ∧ (betweenSteps inRiff (chunkData.take 7) false).stallIn = false
      ∧ ({ running inRiff (chunkData.take 7) false with work := .push dataFrame } : Engine).stallIn = false) ∧
    ({ running inRiff (chunkData.take 5) false with work := .emit dataFrame 4 } : Engine).stallOut = true
      ∧ ({ running inRiff (chunkData.take 5) false with work := .emit dataFrame 5 } : Engine).stallOut = false
      ∧ ({ running inRiff chunkData false with work := .emit dataFrame 8 } : Engine).stallOut = true
      ∧ ({ running inRiff (chunkData.take 5) true with work := .emit dataFrame 5 } : Engine).stallOut = true
      ∧ ({ running inRiff (chunkData.take 5) false with work := .emit dataFrame 5 } : Engine).abortOwed = false
      ∧ State.reset.eng.fifo = [] ∧ State.reset.eng.err = none
      ∧ (List.replicate 16 (State.reset.eng.record dataFrame.cand)).length ≤ 16
      ∧ ({ State.reset with irqPend := 0x80, irqEn := 0x80 } : State).irqLine = true
      ∧ ({ Engine.reset with err := some .invalidData } : Engine).err = some .invalidData := by decide

theorem headerFormat_ok : FmtOk headerFormat := by
  unfold FmtOk FmtEntry.Ok
  decide

theorem witness_FormatRegistersShowTable :
    FmtOk (withFmt headerFormat State.reset).cu.fmt
      ∧ (∃ e, (withFmt headerFormat State.reset).cu.fmt[(12 : Fin 32).val]? = some e)
      ∧ (withFmt headerFormat State.reset).cu.fmt.length ≤ (13 : Fin 32).val :=
  ⟨headerFormat_ok, ⟨_, rfl⟩, by decide⟩

theorem witness_HeaderRegistersShowHeader :
    State.reset.cu.hdr.valid = false ∧ capturedHv7.cu.hdr.valid = true
      ∧ (∃ d, HdrInfo.ofWord capturedHv7.cu.hdr.word = some d ∧ d.prot = true)
      ∧ (∃ d, HdrInfo.ofWord (0xFFFBE0C0 : Word) = some d ∧ d.prot = false ∧ d.mono = true) :=
  ⟨rfl, rfl, ⟨_, rfl, by decide⟩, ⟨_, rfl, by decide, by decide⟩⟩

theorem witness_DecodeOfEncodeIsIdentity :
    (Instr.fmtAppend 63 3 true).wf = true ∧ (Instr.hdrSetf 255 65535).wf = true ∧ (Instr.crc16 0 0).wf = true := by decide

theorem witness_OpcodeMapReadsOperandFields : 0x25 < 2 ^ 8 ∧ 255 < 2 ^ 8 ∧ 65535 < 2 ^ 16 := by decide

theorem witness_ReservedOpcodesAreIllegalCommands :
    ∀ op ∈ [0x05, 0x0F, 0x16, 0x1F, 0x26, 0xFF],
      (0x05 ≤ op ∧ op ≤ 0x0F) ∨ (0x16 ≤ op ∧ op ≤ 0x1F) ∨ (0x26 ≤ op ∧ op ≤ 0xFF) := by decide

/-- StepRunsDecodedCommand: a turn for the whole command and one for its effect alone; a soft reset that waits; ENG_PAUSE
while the engine stalls, and while it is in the middle of a step, where the engine goes on first; a turn of the engine; a
turn of the host with no operation to perform and with one. -/
theorem witness_StepRunsDecodedCommand :
    (State.reset.withFetchWord 32 0x00090015).cu.inFlight = some { word := 0x00090015, executed := false }
      ∧ decode 0x00090015 = .ok (.crc16 0 9) ∧ Instr.wf (.crc16 0 9) = true
      ∧ (State.reset.withFetchWord 32 0x00090015).agent = .commandUnit
      ∧ (awaitingReset (busyWith 0x00090015 State.reset)).agent = .commandUnit
      ∧ (awaitingReset (busyWith 0x00090015 State.reset)).cu.srstWaiting = true
      ∧ ({ busyWith 0x00090015 State.reset with turns := [.commandEffect] } : State).agent = .commandEffect
      ∧ decode 0x00000021 = .ok .engPause
      ∧ ({ busyWith 0x21 State.reset with eng := { running inRiff [] false with work := .detect 5 }
                                          turns := [.commandEffect] } : State).agent = .commandUnit
      ∧ ({ busyWith 0x21 State.reset with eng := { running inRiff chunkData false with work := .drop dataFrame }
                                          turns := [.commandUnit] } : State).agent = .engine
      ∧ ({ State.reset with turns := [.engine] } : State).agent = .engine
      ∧ ({ State.reset with turns := [.host, .engine] } : State).agent = .host ∧ State.reset.host.program = []
      ∧ ({ State.reset.host with program := [.inEos, .take] } : HostSide).program = .inEos :: [.take] := by decide

theorem witness_CommandUnitAndEngineAreDisjoint :
    exec (.crc16 0 0) State.reset = .next (after (.crc16 0 0) State.reset) ∧ (Instr.crc16 0 0).opcode < 0x20
      ∧ exec .engStart State.reset = .next (after .engStart State.reset) ∧ 0x20 ≤ Instr.engStart.opcode :=
  ⟨rfl, by decide, rfl, by decide⟩

/-- PendingBitsStayUntilCleared: a bit that stays, and the write that clears it. -/
theorem witness_PendingBitsStayUntilCleared :
    step { State.reset with irqPend := 0x80 } = .next (stepped { State.reset with irqPend := 0x80 })
      ∧ (0x80 : BitVec 8).getLsbD 7 = true
      ∧ Reg.ofAddr (0x070 : BitVec 12) = (.irqPend : Reg) ∧ (0x80 : Word).getLsbD 7 = true := ⟨rfl, by decide, rfl, by decide⟩

theorem witness_NopAndFmtClearComplete :
    exec .fmtClear (withFmt headerFormat State.reset) = .next (after .fmtClear (withFmt headerFormat State.reset)) := rfl

/-- FmtAppendChecksThenAppends: the six clauses in order. -/
theorem witness_FmtAppendChecksThenAppends :
    (2 < 4 ∧ 2 ≤ 2 ∧ 2 ≤ 3)
      ∧ (1 < 2 ∧ (32 < 33 ∧ 33 < 64) ∧ 32 < 63)
      ∧ (1 < 2 ∧ 2 ≤ 32 ∧ 32 ≤ 32)
      ∧ (2 ^ 1 ≤ (withExpect 2 State.reset).cu.fmtExpect.toNat
        ∧ 2 ^ 31 ≤ (withExpect 0x80000000 State.reset).cu.fmtExpect.toNat)
      ∧ (withFmt (List.replicate 32 ⟨32, .integer, false, 0⟩) State.reset).cu.fmt.length = 32
      ∧ ((withExpect 0xFFFFFFFF (withFmt (List.replicate 31 ⟨32, .integer, false, 0⟩) State.reset)).cu.fmt.length < 32
        ∧ (withExpect 0xFFFFFFFF State.reset).cu.fmtExpect.toNat < 2 ^ 32) := by decide

/-- PackStoresFieldBitsInOrder: one byte too far, the last byte of SCRATCH, an empty format; an Integer's last bit, a
Boolean's bit; the first and the last pad bit. -/
theorem witness_PackStoresFieldBitsInOrder :
    256 < 253 + byteLen (withFmt headerFormat State.reset).cu.fmt
      ∧ 252 + byteLen (withFmt headerFormat State.reset).cu.fmt ≤ 256 ∧ byteLen State.reset.cu.fmt = 0
      ∧ FmtOk (withFmt headerFormat State.reset).cu.fmt ∧ Memory.wf State.reset.cu.scratch = true
      ∧ (∃ e, headerFormat[(0 : Fin 32).val]? = some e ∧ e.kind = .integer ∧ 10 < e.width.toNat)
      ∧ (∃ e, headerFormat[(3 : Fin 32).val]? = some e ∧ e.kind = .boolean ∧ 0 < e.width.toNat)
      ∧ totalBits [⟨3, .integer, false, 0⟩, ⟨1, .boolean, false, 0⟩, ⟨5, .integer, false, 0⟩] ≤ 9
      ∧ 15 < 8 * byteLen [⟨3, .integer, false, 0⟩, ⟨1, .boolean, false, 0⟩, ⟨5, .integer, false, 0⟩] :=
  ⟨by decide, by decide, by decide, headerFormat_ok, by decide, ⟨_, rfl, by decide, by decide⟩,
    ⟨_, rfl, by decide, by decide⟩, by decide, by decide⟩

/-- UnpackReadsFieldBitsInOrder: too few valid bytes; a first field that differs; no expected constant. -/
theorem witness_UnpackReadsFieldBitsInOrder :
    FmtOk headerFormat
      ∧ (withScratch [0xFF, 0xFB, 0x90] State.reset).cu.scratchLen.val < 0 + byteLen headerFormat
      ∧ (0 + byteLen headerFormat ≤ (withScratch [0x7F, 0xFB, 0x90, 0x00] State.reset).cu.scratchLen.val
        ∧ ∃ e, headerFormat[0]? = some e ∧ e.expEn = true
            ∧ bitsValue ((withScratch [0x7F, 0xFB, 0x90, 0x00] State.reset).bytesFrom 0) (fieldStart headerFormat 0)
                e.width.toNat ≠ e.exp.toNat)
      ∧ (252 + byteLen headerFormat ≤ (withLen 256 State.reset).cu.scratchLen.val
        ∧ ∀ (i : Nat) (e : FmtEntry), [(⟨3, .integer, false, 0⟩ : FmtEntry)][i]? = some e → e.expEn = false) := by
  refine ⟨headerFormat_ok, by decide, ⟨by decide, _, rfl, by decide, by decide⟩, by decide, ?_⟩
  intro i e h
  have hm := List.mem_of_getElem? h
  simp only [List.mem_singleton] at hm
  rw [hm]

theorem witness_UnpackbitsInvertsPackbits :
    FmtOk headerFormat ∧ (List.replicate 13 (0xFFFFFFFF : Word)).length = headerFormat.length :=
  ⟨headerFormat_ok, by decide⟩

/-- PackThenUnpackRestoresValues: a format of 13 bits at the last offset it fits, and an empty format at `SCRATCH_LEN`. -/
theorem witness_PackThenUnpackRestoresValues :
    (State.reset.cu.fmt = [] ∧ FmtOk State.reset.cu.fmt ∧ (withLen 6 State.reset).cu.scratchLen.val = 6)
      ∧ headerFormat.take 2 ≠ []
      ∧ FmtOk (withVals [0xFFFF] (withFmt (headerFormat.take 2) State.reset)).cu.fmt
      ∧ Memory.wf State.reset.cu.scratch = true ∧ 254 + byteLen (headerFormat.take 2) ≤ 256
      ∧ ∀ (i : Fin 32) (e : FmtEntry), (headerFormat.take 2)[i.val]? = some e → e.expEn = true →
          (match e.kind with
           | .integer => (withVals [0xFFFF] State.reset).cu.val[i.val].toNat % 2 ^ e.width.toNat
           | .boolean => if (withVals [0xFFFF] State.reset).cu.val[i.val] = 0 then 0 else 1) = e.exp.toNat := by
  refine ⟨⟨rfl, ⟨by decide, fun _ h => absurd h (List.not_mem_nil)⟩, by decide⟩, by decide, ?_, by decide, by decide, ?_⟩
  · unfold FmtOk FmtEntry.Ok
    decide
  · have all : ∀ i : Fin 32, ∀ e ∈ (headerFormat.take 2)[i.val]?, e.expEn = true →
        (match e.kind with
         | .integer => (withVals [0xFFFF] State.reset).cu.val[i.val].toNat % 2 ^ e.width.toNat
         | .boolean => if (withVals [0xFFFF] State.reset).cu.val[i.val] = 0 then 0 else 1) = e.exp.toNat := by decide
    exact fun i e h => all i e h

/-- HeaderFieldsAreUnpackedAndValidated: a word for each check, the vectors HV-2.1 to HV-2.6 and HV-1.1. -/
theorem witness_HeaderFieldsAreUnpackedAndValidated :
    0x7FFB9000 / 2 ^ 21 ≠ 0x7FF ∧ 0xFFEB9000 / 2 ^ 19 % 4 = 1 ∧ 0xFFF99000 / 2 ^ 17 % 4 = 0
      ∧ 0xFFFB0000 / 2 ^ 12 % 16 = 0 ∧ 0xFFFBF000 / 2 ^ 12 % 16 = 15 ∧ 0xFFFB9C00 / 2 ^ 10 % 4 = 3
      ∧ (0xFFFB9000 / 2 ^ 21 = 0x7FF ∧ 0xFFFB9000 / 2 ^ 19 % 4 ≠ 1 ∧ 0xFFFB9000 / 2 ^ 17 % 4 ≠ 0
        ∧ 0xFFFB9000 / 2 ^ 12 % 16 = 9 ∧ 0xFFFB9000 / 2 ^ 10 % 4 ≠ 3) := by decide

/-- ValidHeadersHaveBoundedLengths: the longest and the shortest frame (HV-1.12, HV-1.13). -/
theorem witness_ValidHeadersHaveBoundedLengths :
    (∃ d, HdrInfo.ofWord 0xFFE7EA00 = some d ∧ d.flen = 30736) ∧ ∃ d, HdrInfo.ofWord 0xFFF31400 = some d ∧ d.flen = 24 :=
  ⟨⟨_, rfl, by decide⟩, ⟨_, rfl, by decide⟩⟩

theorem witness_HdrDecodeHoldsValidWord :
    (withLen 255 State.reset).cu.scratchLen.val < 252 + 4 ∧ 252 + 4 ≤ (withLen 256 State.reset).cu.scratchLen.val := by decide

/-- HdrUpdateCapturesWhatIsAvailable: no header; 5 and 6 valid bytes; 37 and 38. -/
theorem witness_HdrUpdateCapturesWhatIsAvailable :
    State.reset.cu.hdr.valid = false ∧ (withHeader 0xFFFA9000 State.reset).cu.hdr.valid = true
      ∧ ∃ d, HdrInfo.ofWord (withHeader 0xFFFA9000 State.reset).cu.hdr.word = some d ∧ d.prot = true
        ∧ (withHeader 0xFFFA9000 State.reset).cu.hdr.crcCap = false
        ∧ (6 ≤ (withLen 6 State.reset).cu.scratchLen.val - 0 ∧ ¬ 6 ≤ (withLen 5 State.reset).cu.scratchLen.val - 0)
        ∧ (4 + (if d.prot then 2 else 0) + d.siLen ≤ (withLen 38 State.reset).cu.scratchLen.val - 0
          ∧ ¬ 4 + (if d.prot then 2 else 0) + d.siLen ≤ (withLen 37 State.reset).cu.scratchLen.val - 0) :=
  ⟨rfl, rfl, _, rfl, by decide, rfl, by decide, by decide⟩

/-- CapturedBytesAreSticky: HDR_ENCODE with a new CRC, and a HDR_SETF that changes neither protection nor length. -/
theorem witness_CapturedBytesAreSticky :
    exec (.hdrEncode 0 true) capturedHv7 = .next (after (.hdrEncode 0 true) capturedHv7)
      ∧ exec (.hdrSetf 6 1) capturedHv7 = .next (after (.hdrSetf 6 1) capturedHv7)
      ∧ (∃ d d', HdrInfo.ofWord capturedHv7.cu.hdr.word = some d
          ∧ HdrInfo.ofWord (after (.hdrSetf 6 1) capturedHv7).cu.hdr.word = some d' ∧ d'.prot = d.prot ∧ d'.siLen = d.siLen)
      ∧ capturedHv7.cu.hdr.valid = true ∧ validate capturedHv7.cu.hdr.word = none ∧ capturedHv7.cu.hdr.crcCap = true
      ∧ capturedHv7.cu.hdr.siCap = true :=
  ⟨exec_after _ _, exec_after _ _, ⟨_, _, rfl, rfl, by decide, by decide⟩, rfl, by decide, rfl, rfl⟩

/-- HdrEncodeWritesHeaderBytes: no header; a missing CRC source; one byte too far; the last byte of SCRATCH. -/
theorem witness_HdrEncodeWritesHeaderBytes :
    State.reset.cu.hdr.valid = false ∧ Memory.wf State.reset.cu.scratch = true
      ∧ (∃ d, HdrInfo.ofWord (withHeader 0xFFFA9000 State.reset).cu.hdr.word = some d ∧ d.prot = true
        ∧ (withHeader 0xFFFA9000 State.reset).cu.hdr.crcCap = false)
      ∧ ∃ d, HdrInfo.ofWord capturedHv7.cu.hdr.word = some d ∧ d.prot = true ∧ capturedHv7.cu.hdr.siCap = true
        ∧ 256 < 219 + (4 + 2 + d.siLen) ∧ 218 + (4 + 2 + d.siLen) ≤ 256 :=
  ⟨rfl, rfl, ⟨_, rfl, by decide, rfl⟩, _, rfl, by decide, rfl, by decide, by decide⟩

/-- HdrSetfReplacesOneField: an index too high; a new word that fails and one that is valid. -/
theorem witness_HdrSetfReplacesOneField :
    State.reset.cu.hdr.valid = false ∧ (∃ d, HdrInfo.ofWord (withHeader 0xFFFB9000 State.reset).cu.hdr.word = some d)
      ∧ (12 < 13 ∧ 255 < 256) ∧ (HdrField.ofIndex 12 = some .emphasis ∧ HdrField.emphasis.width = 2)
      ∧ (HdrField.ofIndex 0 = some .sync ∧ HdrField.sync.width = 11)
      ∧ validate (setHdrField 0xFFFB9000 .bitrateCode 15) = some .bitrate
      ∧ validate (setHdrField 0xFFFB9000 .padding 1) = none :=
  ⟨rfl, ⟨_, rfl⟩, by decide, by decide, by decide, by decide, by decide⟩

theorem witness_CrcCommandsReturnTheirResult :
    State.reset.cu.hdr.valid = false ∧ (∃ d, HdrInfo.ofWord capturedHv7.cu.hdr.word = some d)
      ∧ (withLen 255 State.reset).cu.scratchLen.val < 255 + 1 ∧ 255 + 1 ≤ (withLen 256 State.reset).cu.scratchLen.val :=
  ⟨rfl, ⟨_, rfl⟩, by decide, by decide⟩

/-- The header state of HV-8.6 meets its invariant. -/
theorem capturedHv8_ok : capturedHv8.cu.hdr.Ok := by
  have hv : validate capturedHv8.cu.hdr.word = none := by decide
  have hp : hdrField capturedHv8.cu.hdr.word .crcFlag = 0 := by decide
  refine ⟨fun _ => hv, fun h => absurd h (by decide), fun h => absurd h (by decide), fun h => absurd h (by decide),
    fun _ => hp, ?_⟩
  intro d hd j hj
  have h9 : 9 ≤ j := by
    have e : HdrInfo.ofWord capturedHv8.cu.hdr.word = some ⟨.v2, .l3, true, 160, 24000, false, true⟩ := by decide
    rw [e] at hd
    cases hd
    exact hj
  by_cases h32 : j < 32
  · have : ∀ k : Fin 32, 9 ≤ k.val → capturedHv8.cu.hdr.si.toList.getD k.val 0 = 0 := by decide
    exact this ⟨j, h32⟩ h9
  · simp [List.getD_eq_getElem?_getD, List.getElem?_eq_none (show capturedHv8.cu.hdr.si.toList.length ≤ j by simp; omega)]

theorem witness_DecodeOfEncodedHeaderGivesItBack :
    Memory.wf capturedHv8.cu.scratch = true ∧ capturedHv8.cu.hdr.Ok ∧ capturedHv8.cu.hdr.valid = true
      ∧ capturedHv8.cu.hdr.siCap = true
      ∧ exec (.hdrEncode 241 true) capturedHv8 = .next (after (.hdrEncode 241 true) capturedHv8)
      ∧ (after (.hdrEncode 241 true) capturedHv8).cu.err = 0 :=
  ⟨rfl, capturedHv8_ok, rfl, rfl, exec_after _ _, by decide +kernel⟩

theorem witness_CrcDetectsSideInfoBitFlip :
    capturedHv8.cu.hdr.valid = true
      ∧ (∃ d, HdrInfo.ofWord capturedHv8.cu.hdr.word = some d ∧ d.prot = true ∧ 8 < d.siLen)
      ∧ capturedHv8.cu.crcPoly.getLsbD 0 = true
      ∧ exec .hdrCrcchk capturedHv8 = .next (after .hdrCrcchk capturedHv8)
      ∧ (after .hdrCrcchk capturedHv8).cu.result = 0x101 :=
  ⟨rfl, ⟨_, rfl, by decide, by decide⟩, by decide, exec_after _ _, by decide +kernel⟩

theorem witness_EngStartBeginsFreshSession : ∀ r : RunState, (withRun r State.reset).eng.run = r := fun _ => rfl

/-- PauseResumeAndStepSetRunState: a state in each run state, with a step in progress and without; a single step that has not
looked at the stream, that stalls on input, and that stalls on output. -/
theorem witness_PauseResumeAndStepSetRunState :
    (∀ r : RunState, (withRun r State.reset).eng.run = r)
      ∧ (withWork (.detect 0) (withRun .run State.reset)).eng.work ≠ .between
      ∧ (withRun .run State.reset).eng.work = .between
      ∧ (withWork (.detect 0) (withRun .step State.reset)).eng.work = .detect 0
      ∧ ((withWork (.detect 5) (withRun .step State.reset)).eng.work ≠ .between
        ∧ (withWork (.detect 5) (withRun .step State.reset)).eng.work ≠ .detect 0
        ∧ (withWork (.detect 5) (withRun .step State.reset)).eng.stallIn = true)
      ∧ ({ running inRiff chunkData false with run := .step, work := .emit dataFrame 8 } : Engine).stallOut = true :=
  ⟨fun _ => rfl, by decide, rfl, rfl, by decide, by decide⟩

/-- EngAbortCutsSession: in IDLE and out of it; a frame in output, one whose record alone is to be pushed, no step in
progress, and a frame that the end of the stream cut and whose FRAME_ABORT was taken. -/
theorem witness_EngAbortCutsSession :
    (withRun .idle State.reset).eng.run = .idle ∧ (withRun .done State.reset).eng.run ≠ .idle
      ∧ (∃ a sent, (withWork (.emit dataFrame 8) (withRun .step State.reset)).eng.work = .emit a sent)
      ∧ (∃ a, (withWork (.push dataFrame) (withRun .run State.reset)).eng.work = .push a)
      ∧ (withRun .run State.reset).eng.abortOwed = false ∧ (withRun .run State.reset).eng.work = .between
      ∧ (withWork (.closed dataFrame) (withRun .run State.reset)).eng.abortOwed = false
      ∧ (∃ a, (withWork (.closed dataFrame) (withRun .run State.reset)).eng.work = .closed a) :=
  ⟨rfl, by decide, ⟨_, _, rfl⟩, ⟨_, rfl⟩, rfl, rfl, rfl, ⟨_, rfl⟩⟩

theorem witness_RecPopRemovesHead :
    State.reset.eng.fifo = []
      ∧ ∃ r rest, ({ Engine.reset with fifo := [Engine.reset.record dataFrame.cand] } : Engine).fifo = r :: rest :=
  ⟨rfl, _, _, rfl⟩

/-- InputPortAcceptsInSession: the window full but for one byte, full, and no active session; between steps, and a step
that looks at the stream. -/
theorem witness_InputPortAcceptsInSession :
    (({ Engine.reset with run := .run, stream := List.replicate 8191 0 } : Engine).windowLen < 8192
        ∧ 8192 ≤ ({ Engine.reset with run := .run, stream := List.replicate 8192 0 } : Engine).windowLen)
      ∧ ({ Engine.reset with run := .paused } : Engine).eos = false ∧ State.reset.eng.run = .idle
      ∧ State.reset.eng.work = .between ∧ (running Session.fresh [] false).work = .detect 0 := by
  refine ⟨⟨?_, ?_⟩, rfl, rfl, rfl, rfl⟩ <;> simp only [Engine.windowLen, Engine.d, List.length_replicate] <;> decide

/-- An engine in RUN whose step waits for 5 bytes meets the invariant. -/
theorem stalled_ok : ({ running Session.fresh [] false with work := .detect 5 } : Engine).Ok := by
  refine ⟨by decide, ?_, fun _ => ⟨by decide, ?_, fun _ => by decide⟩⟩
  · simp [Engine.RunOk, running, Engine.reset]
  · simp [Engine.WorkOk]

/-- An engine that waits for the rest of a frame longer than the window, whose first bytes it holds. -/
def longStalled (bytes : List Byte) : Engine := { running inRiff bytes false with work := .emit longFrame 0 }

theorem longStalled_ok (bytes : List Byte) (h : bytes.length = 8192) :
    (longStalled bytes).Ok ∧ (longStalled bytes).d < 2 ^ 64 ∧ (longStalled bytes).stallIn = true
      ∧ (longStalled bytes).acceptsByte = false := by
  have hd : (longStalled bytes).d = 8192 := h
  have hp : (longStalled bytes).p = 0 := rfl
  have hb : (longStalled bytes).windowBase = 0 := rfl
  have hc : longFrame.cand.Ok :=
    ⟨by decide, fun h => absurd h (by decide), fun _ => rfl, fun h => absurd h (by decide), fun _ => ⟨rfl, rfl, rfl⟩⟩
  have hm : (longStalled bytes).latch.emits longFrame.cand.kind = true := by
    change Engine.reset.latch.emits .riffFact = true
    decide
  refine ⟨⟨Nat.zero_le _, ?_, fun _ => ⟨by omega, ⟨hc, hm, by decide, by omega⟩, fun _ => ?_⟩⟩, by omega, ?_, ?_⟩
  · simp [Engine.RunOk, longStalled, running, Engine.reset]
  · rw [hd, hb]
  · have hs : (longStalled bytes).stallIn = decide ((longStalled bytes).p + 8200 > (longStalled bytes).d) := rfl
    rw [hs, hd, hp]
    decide
  · have hw : (longStalled bytes).windowLen = 8192 := by rw [Engine.windowLen, hd, hb]; rfl
    simp [Engine.acceptsByte, hw]

/-- InputStallLeavesRoom: a step that waits with room in the window; a frame longer than the window that waits with the
window full. -/
theorem witness_InputStallLeavesRoom :
    (({ running Session.fresh [] false with work := .detect 5 } : Engine).Ok
      ∧ ({ running Session.fresh [] false with work := .detect 5 } : Engine).d < 2 ^ 64
      ∧ ({ running Session.fresh [] false with work := .detect 5 } : Engine).stallIn = true)
    ∧ (longStalled (List.replicate 8192 0)).Ok ∧ (longStalled (List.replicate 8192 0)).d < 2 ^ 64
      ∧ (longStalled (List.replicate 8192 0)).stallIn = true :=
  have h := longStalled_ok _ (List.length_replicate (n := 8192) (a := (0 : Byte)))
  ⟨⟨stalled_ok, by decide, by decide⟩, h.1, h.2.1, h.2.2.1⟩

/-- RunStateFollowsTable: the same engine in a state that ENG_ABORT is about to cut; a paused engine, and a step that goes on
waiting; a single step in progress that ENG_RESUME finds, before it has looked at the stream and after. -/
theorem witness_RunStateFollowsTable :
    ({ State.reset with eng := { running Session.fresh [] false with work := .detect 5 } } : State).eng.Ok
      ∧ step (State.withFetchWord { State.reset with eng := { running Session.fresh [] false with work := .detect 5 } } 32 0x24)
          = .next (stepped (State.withFetchWord
              { State.reset with eng := { running Session.fresh [] false with work := .detect 5 } } 32 0x24))
      ∧ (({ Engine.reset with run := .paused } : Engine).work = .between ∧ RunState.paused ≠ .run ∧ RunState.paused ≠ .step)
      ∧ (running Session.fresh [] false).move.1.work ≠ .between
      ∧ ∀ w ∈ [Work.detect 0, .detect 5],
          (withWork w (withRun .step State.reset)).eng.RunOk ∧ (withWork w (withRun .step State.reset)).eng.work ≠ .between
            ∧ exec .engResume (withWork w (withRun .step State.reset))
                = .next (after .engResume (withWork w (withRun .step State.reset))) := by
  refine ⟨stalled_ok, rfl, by decide, by decide, ?_⟩
  simp only [List.mem_cons, List.not_mem_nil, or_false]
  rintro w (rfl | rfl) <;>
    exact ⟨by simp [Engine.RunOk, withWork, withRun, State.reset, State.resetOf, Engine.reset], by decide, rfl⟩

/-- LatchedConfigurationHoldsForSession: the host writes `ENG_MARGIN` in an active session. -/
theorem witness_LatchedConfigurationHoldsForSession :
    let s := { withRun .paused State.reset with
      host := { HostSide.empty with program := [.wr (Config.mfhc.base + (0x084 : BitVec 12).toNat) 7] } }
    step s = .next (stepped s) ∧ s.eng.run.active = true ∧ (stepped s).eng.run.active = true := by
  refine ⟨rfl, rfl, ?_⟩
  change (State.popOp (State.hostWrite _ _ _)).eng.run.active = true
  rw [State.popOp_eng, State.hostWrite_base]
  rfl

/-- MpegTrialMatchesValidHeaders: three bytes; an invalid and a valid header; a strict trial that refuses (DV-3) and one that does not. -/
theorem witness_MpegTrialMatchesValidHeaders :
    ({ stream := [0xFF, 0xF3, 0x24], eos := true, pos := 0 } : View).stream.length < 0 + 4
      ∧ validate ((0xFF : Byte) ++ (0xFB : Byte) ++ (0x00 : Byte) ++ (0x00 : Byte)) ≠ none
      ∧ (({ stream := frameH, eos := false, pos := 0 } : View).stream[0]? = some 0xFF ∧ 0 + 3 < 0 + 8192)
      ∧ ∃ d, HdrInfo.ofWord ((0xFF : Byte) ++ (0xF3 : Byte) ++ (0x24 : Byte) ++ (0x00 : Byte)) = some d
          ∧ (∃ x, ({ Session.fresh with expVersion := some .v1, expLayer := some .l3 } : Session).expVersion = some x
            ∧ x ≠ d.version)
          ∧ ∀ x, Session.fresh.expVersion = some x → x = d.version :=
  ⟨by decide, by decide, ⟨by decide, by decide⟩, _, rfl, ⟨_, rfl, by decide⟩, fun _ h => nomatch h⟩

/-- XingTrialRefinesMpegTrial: the negative cache, no header, a header without a tag, a tag right after the header, and a
tag two bytes after a protected header; 48 bytes are decided. -/
theorem witness_XingTrialRefinesMpegTrial :
    tryXing ({ stream := frameHx3, eos := false, pos := 0 } : View) { Session.fresh with hasXing := some false } 0 true
        = .ok ({ Session.fresh with hasXing := some false }, none)
      ∧ (tryXing ({ stream := chunkData, eos := false, pos := 0 } : View) Session.fresh 0 true = .ok (Session.fresh, none)
        ∧ tryMpeg ({ stream := chunkData, eos := false, pos := 0 } : View) Session.fresh 0 true = .ok none)
      ∧ tryXing ({ stream := frameH, eos := false, pos := 0 } : View) Session.fresh 0 true
          = .ok ({ Session.fresh with hasXing := some false }, none)
      ∧ (tryXing ({ stream := frameHx3, eos := false, pos := 0 } : View) Session.fresh 0 true
          = .ok ({ Session.fresh with hasXing := some true },
              some { kind := .xing, len := 48, hdr := 0xFFF32400, xtag := 21, xflags := 3, xinfo := false })
        ∧ tryMpeg ({ stream := frameHx3, eos := false, pos := 0 } : View) Session.fresh 0 true = .ok (some mpegFrame.cand))
      ∧ (tryMpeg ({ stream := frameHx3Protected, eos := false, pos := 0 } : View) Session.fresh 0 true
            = .ok (some { mpegFrame.cand with hdr := 0xFFF22400 })
        ∧ tryXing ({ stream := frameHx3Protected, eos := false, pos := 0 } : View) Session.fresh 0 true
          = .ok ({ Session.fresh with hasXing := some true },
              some { kind := .xing, len := 48, hdr := 0xFFF22400, xtag := 25, xflags := 3, xinfo := true })
        ∧ HdrInfo.ofWord 0xFFF22400 = some ⟨.v2, .l3, true, 16, 24000, false, false⟩
        ∧ 48 ≤ (({ stream := frameHx3Protected, eos := false, pos := 0 } : View).readable 0).length) := by
  decide

/-- RiffAndTagTrialsReadTheirLengths: the bytes of each clause, at position 0 and at the end of the window. -/
theorem witness_RiffAndTagTrialsReadTheirLengths :
    (0 ≤ 0 ∧ 0 + 16 ≤ 0 + 8192 ∧ 8176 + 16 ≤ 0 + 8192)
      ∧ (([0x52, 0x49, 0x46, 0x46, 1, 2, 3, 4, 0x57, 0x41, 0x56, 0x45] : List Byte).drop 0).take 12
          = [0x52, 0x49, 0x46, 0x46, 1, 2, 3, 4, 0x57, 0x41, 0x56, 0x45]
      ∧ (((0 : Byte) :: [0x66, 0x6D, 0x74, 0x20, 0x1E, 0, 0, 0, 0x55, 0]).drop 1).take 10
          = [0x66, 0x6D, 0x74, 0x20, 0x1E, 0, 0, 0, 0x55, 0]
      ∧ (0x55 : Byte).toNat + 2 ^ 8 * (0 : Byte).toNat = 0x55 ∧ (0x01 : Byte).toNat + 2 ^ 8 * (0 : Byte).toNat ≠ 0x55
      ∧ inRiff.hasRiff = true ∧ Session.fresh.hasRiff = false ∧ ((chunkData.drop 0).take 4 = [0x64, 0x61, 0x74, 0x61])
      ∧ ((0xD0 : Byte).toNat + 2 ^ 8 * (0x07 : Byte).toNat = 2000 ∧ (0xE8 : Byte).toNat + 2 ^ 8 * (0x03 : Byte).toNat = 1000)
      ∧ ({ stream := [0x49, 0x44], eos := true, pos := 0 } : View).stream.length < 0 + 3 := by decide

/-- RiffAndTagTrialsReadTheirLengths, no frame: `RIFF` past position 0; a chunk outside a container; one byte too few of
`fmt `, `fact`, ID3 and APE at the end of the stream; one byte short of each length at the end of the window. -/
theorem witness_RiffAndTagTrialsRefuse :
    (({ stream := 0 :: [0x52, 0x49, 0x46, 0x46, 0, 0, 0, 0, 0x57, 0x41, 0x56, 0x45], eos := false, pos := 0 } : View).readable 1).length
        = 12
      ∧ tryRiff ({ stream := [0x66, 0x61, 0x63, 0x74, 0, 0, 0, 0, 0, 0, 0, 0], eos := false, pos := 0 } : View) Session.fresh 0
          = .ok (Session.fresh, .notThis)
      ∧ (({ stream := [0x66, 0x6D, 0x74, 0x20, 0, 0, 0, 0, 0x55], eos := true, pos := 0 } : View).readable 0).length < 10
      ∧ (({ stream := [0x66, 0x61, 0x63, 0x74, 0, 0, 0], eos := true, pos := 0 } : View).readable 0).length < 8
      ∧ tryId3 ({ stream := [0x49, 0x44, 0x33, 4, 0, 0, 0, 0, 0], eos := true, pos := 0 } : View) 0 = .ok none
      ∧ tryApe ({ stream := [0x41, 0x50, 0x45, 0x54, 0x41, 0x47, 0x45, 0x58, 0xD0, 7, 0, 0, 0, 0, 0], eos := true, pos := 0 } : View) 0
          = .ok none
      ∧ (∃ v : View, v.eos = false ∧ v.Decided (8192 - 15) 16 ∧ (v.readable (8192 - 15)).length < 16) := by
  have full : ∀ bytes : List Byte, bytes.length = 8192 →
      ∃ v : View, v.eos = false ∧ v.Decided (8192 - 15) 16 ∧ (v.readable (8192 - 15)).length < 16 := fun bytes h =>
    ⟨{ stream := bytes, eos := false, pos := 0 }, rfl, .inr (.inr (by simp [h])),
      by simp [View.readable, h]⟩
  exact ⟨by decide, by decide, by decide, by decide, by decide, by decide,
    full _ (List.length_replicate (n := 8192) (a := (0 : Byte)))⟩

/-- FindTriesVariantsInOrder: each trial as the first that waits, and as the first that finds a frame. -/
theorem witness_FindTriesVariantsInOrder :
    let look := fun (bytes : List Byte) => ({ stream := bytes, eos := false, pos := 0 } : View)
    let noXing := { Session.fresh with hasXing := some false }
    let tag : List Byte := [0x49, 0x44, 0x33, 4]
    let ape : List Byte := [0x41, 0x50, 0x45, 0x54, 0x41, 0x47, 0x45, 0x58]
    tryXing (look []) Session.fresh 0 true = .error 1
      ∧ (tryXing (look frameHx3) Session.fresh 0 true).toOption.bind (fun r => r.2.map Candidate.kind) = some .xing
      ∧ (tryXing (look []) noXing 0 true = .ok (noXing, none) ∧ tryMpeg (look []) noXing 0 true = .error 1)
      ∧ tryMpeg (look frameH) noXing 0 true = .ok (some mpegFrame.cand)
      ∧ (tryMpeg (look [0x52, 0x49, 0x46, 0x46]) noXing 0 true = .ok none
        ∧ tryRiff (look [0x52, 0x49, 0x46, 0x46]) noXing 0 = .error 9)
      ∧ tryRiff (look chunkData) inRiff 0 = .ok (inRiff, .hit dataFrame.cand)
      ∧ (tryMpeg (look tag) noXing 0 true = .ok none ∧ tryRiff (look tag) noXing 0 = .ok (noXing, .notThis)
        ∧ tryId3 (look tag) 0 = .error 5)
      ∧ tryId3 (look [0x54, 0x41, 0x47, 0]) 0 = .ok (some (.plain .id3v1 128))
      ∧ (tryId3 (look ape) 0 = .ok none ∧ tryApe (look ape) 0 = .error 9)
      ∧ tryApe (look (ape ++ [0xD0, 7, 0, 0, 0, 0, 0, 0])) 0 = .ok (some (.plain .apev2 32))
      ∧ tryApe (look [0, 0, 0, 0]) 0 = .ok none := by decide

/-- DetectorIsBoundedAndSound: a candidate; two streams that differ in byte 48 alone. -/
theorem witness_DetectorIsBoundedAndSound :
    find ({ stream := chunkData, eos := false, pos := 0 } : View) inRiff 0 true = .ok (inRiff, .hit dataFrame.cand)
      ∧ ∀ k, k < 48 →
        streamByte ({ stream := frameHx3, eos := false, pos := 0 } : View) (0 + k)
          = streamByte ({ stream := frameHx3 ++ [1], eos := false, pos := 0 } : View) (0 + k) := by decide

/-- An engine that waits at position 0 in RUN and one between two steps run the detection part of a step at their next
move. -/
theorem running_detects (sess : Session) (bytes : List Byte) (eos : Bool) :
    (running sess bytes eos).Detects ∧ (betweenSteps sess bytes eos).Detects := by
  refine ⟨.inr ⟨0, rfl, ?_⟩, .inl ⟨rfl, .inl ⟨rfl, rfl⟩⟩⟩
  cases eos <;> simp [Engine.stallIn, running]

/-- DecisionIgnoresLaterDelivery: a decision; a step with 4 bytes, which waits for the fifth; one with the 5 bytes of R720
whose detector waits for the size of a `fact` chunk; what arrives later falls short of the byte, reaches it, or ends. -/
theorem witness_DecisionIgnoresLaterDelivery :
    ((running inRiff chunkData false).eos = false
      ∧ ∃ d, (running inRiff chunkData false).decision = .ok d ∧ d.verdict = .accept dataFrame.cand)
    ∧ ((running inRiff (chunkData.take 4) false).Detects ∧ (running inRiff (chunkData.take 4) false).decision = .error 5
      ∧ (running inRiff (chunkData.take 4) false).d < 0 + 5 ∧ (running inRiff (chunkData.take 4) false).p = 0)
    ∧ ((betweenSteps inRiff [0x66, 0x61, 0x63, 0x74, 0] false).Detects
      ∧ (betweenSteps inRiff [0x66, 0x61, 0x63, 0x74, 0] false).decision = .error 6
      ∧ 0 + 5 ≤ (betweenSteps inRiff [0x66, 0x61, 0x63, 0x74, 0] false).d
      ∧ find (betweenSteps inRiff [0x66, 0x61, 0x63, 0x74, 0] false).view inRiff 0 true = .error 6)
    ∧ (5 + ([] : List Byte).length < 6 ∧ 6 ≤ 5 + ([0] : List Byte).length) :=
  ⟨⟨rfl, _, rfl, by decide⟩, ⟨(running_detects ..).1, by decide, by decide, rfl⟩,
    ⟨(running_detects ..).2, by decide, by decide, by decide⟩, by decide⟩

theorem running_runOk (sess : Session) (bytes : List Byte) (eos : Bool) :
    (running sess bytes eos).RunOk ∧ (betweenSteps sess bytes eos).RunOk
      ∧ ({ running sess bytes eos with run := .step } : Engine).RunOk
      ∧ ({ running sess bytes eos with pauseReq := true } : Engine).RunOk
      ∧ ({ running sess bytes eos with run := .step, resumeReq := true, work := .detect 5 } : Engine).RunOk := by
  simp [Engine.RunOk, running, betweenSteps, Engine.reset, Work.underway]

theorem lost_detects (sess : Session) (bytes : List Byte) (eos : Bool) :
    (lost sess bytes eos).Detects ∧ (lost sess bytes eos).RunOk := by
  refine ⟨.inr ⟨0, rfl, ?_⟩, ?_⟩
  · cases eos <;> simp [Engine.stallIn, running, lost]
  · simp [Engine.RunOk, running, lost, Engine.reset]

/-- EndOfStreamEndsSession: nothing left, 4 bytes left; a frame cut at its last byte. -/
theorem witness_EndOfStreamEndsSession :
    (running inRiff [] true).Detects ∧ (running inRiff [] true).p = (running inRiff [] true).d
      ∧ (betweenSteps inRiff [] true).Detects
      ∧ ((running inRiff [1, 2, 3, 4] true).Detects
        ∧ (running inRiff [1, 2, 3, 4] true).p < (running inRiff [1, 2, 3, 4] true).d
        ∧ (running inRiff [1, 2, 3, 4] true).d < (running inRiff [1, 2, 3, 4] true).p + 5)
      ∧ ((running inRiff (chunkData.take 7) true).d < (running inRiff (chunkData.take 7) true).p + dataFrame.cand.len
        ∧ (running inRiff (chunkData.take 7) true).p + 7 = (running inRiff (chunkData.take 7) true).d) :=
  ⟨(running_detects ..).1, rfl, (running_detects ..).2, ⟨(running_detects ..).1, by decide, by decide⟩, by decide, rfl⟩

/-- GarbageByteIsDiscarded: a step that waited, and one that begins; in RUN, in RUN with a pause requested, in STEP, in STEP
with a resume that waits. -/
theorem witness_GarbageByteIsDiscarded :
    ((running Session.fresh [0, 0, 0, 0, 0] false).Detects ∧ (betweenSteps Session.fresh [0, 0, 0, 0, 0] false).Detects)
      ∧ ((running Session.fresh [0, 0, 0, 0, 0] false).RunOk
        ∧ (betweenSteps Session.fresh [0, 0, 0, 0, 0] false).RunOk
        ∧ ({ running Session.fresh [0, 0, 0, 0, 0] false with run := .step } : Engine).RunOk
        ∧ ({ running Session.fresh [0, 0, 0, 0, 0] false with pauseReq := true } : Engine).RunOk
        ∧ ({ running Session.fresh [0, 0, 0, 0, 0] false with run := .step, resumeReq := true, work := .detect 5 } : Engine).RunOk)
      ∧ ({ running Session.fresh [0, 0, 0, 0, 0] false with run := .step, resumeReq := true, work := .detect 5 } : Engine).Detects
      ∧ (running Session.fresh [0, 0, 0, 0, 0] false).p + 5 ≤ (running Session.fresh [0, 0, 0, 0, 0] false).d
      ∧ find (running Session.fresh [0, 0, 0, 0, 0] false).view Session.fresh 0 true = .ok (Session.fresh, .notThis)
      ∧ (running Session.fresh [0, 0, 0, 0, 0] false).latch.cfg.getLsbD 0 = true
      ∧ ({ State.reset.eng.latch with cfg := 0xE } : LatchedCfg).cfg.getLsbD 0 = false :=
  ⟨running_detects .., running_runOk .., .inr ⟨5, rfl, by decide⟩, by decide, by decide, rfl, rfl⟩

theorem witness_FatalEndsAndInSyncCandidateIsAccepted :
    find (running inRiff [0x66, 0x6D, 0x74, 0x20, 0x1E, 0, 0, 0, 1, 0] false).view inRiff 0 true
        = .ok (inRiff, .fatal .unsupportedFormat 0)
      ∧ ((running inRiff chunkData false).Detects ∧ (betweenSteps inRiff chunkData false).Detects
        ∧ (running inRiff chunkData false).sync = .inSync
        ∧ find (running inRiff chunkData false).view inRiff 0 true = .ok (inRiff, .hit dataFrame.cand)) :=
  ⟨by decide, (running_detects ..).1, (running_detects ..).2, rfl, by decide⟩

/-- LostSyncNeedsConfirmation: a `data` chunk with a margin of 12 that another one follows, that garbage follows, that a
PCM `fmt ` chunk follows; one whose look-ahead is a byte short, with and without the end of the stream; a margin past the
window. -/
theorem witness_LostSyncNeedsConfirmation :
    let hit := chunkData ++ chunkData ++ [0, 0, 0, 0]
    let garbage := chunkData ++ List.replicate 12 0
    let pcm : List Byte := chunkData ++ [0x66, 0x6D, 0x74, 0x20, 0x1E, 0, 0, 0, 1, 0, 0, 0]
    ((lost inRiff hit false).Detects ∧ (lost inRiff hit false).RunOk)
      ∧ (lost inRiff hit false).decision
          = .ok { verdict := .accept dataFrame.cand, sess := inRiff, lost := false, resynced := true }
      ∧ find (lost inRiff hit false).view inRiff 0 false = .ok (inRiff, .hit dataFrame.cand)
      ∧ (8 + (lost inRiff hit false).latch.margin.toNat ≤ 8192 ∧ (lost inRiff hit false).p + (8 + 12) ≤ (lost inRiff hit false).d)
      ∧ find (lost inRiff hit false).view inRiff 8 true = .ok (inRiff, .hit dataFrame.cand)
      ∧ find (lost inRiff garbage false).view inRiff 8 true = .ok (inRiff, .notThis)
      ∧ find (lost inRiff pcm false).view inRiff 8 true = .ok (inRiff, .fatal .unsupportedFormat 8)
      ∧ ((lost inRiff (hit.take 19) true).d < (lost inRiff (hit.take 19) true).p + (8 + 12)
        ∧ (lost inRiff (hit.take 19) true).eos = true ∧ (lost inRiff (hit.take 19) false).eos = false)
      ∧ 8192 < 8 + ({ State.reset.eng.latch with margin := 8185 } : LatchedCfg).margin.toNat := by
  refine ⟨lost_detects .., ?_⟩
  decide

/-- EmittedFrameIsDeliveredInOrder: the whole frame of 8 bytes; 5 of its bytes with none and with all of them taken; an owed
FRAME_ABORT; a take with an item, and with none, in a session and outside one. -/
theorem witness_EmittedFrameIsDeliveredInOrder :
    let whole : Engine := { running inRiff chunkData false with work := .emit dataFrame 0 }
    let part : Nat → Engine := fun sent => { running inRiff (chunkData.take 5) false with work := .emit dataFrame sent }
    (whole.work = .emit dataFrame 0 ∧ whole.abortOwed = false ∧ whole.p + dataFrame.cand.len ≤ whole.d)
      ∧ ((part 0).work = .emit dataFrame 0 ∧ (part 0).abortOwed = false ∧ 0 + 5 ≤ dataFrame.cand.len
        ∧ (part 0).p + 0 + 5 ≤ (part 0).d)
      ∧ (5 < dataFrame.cand.len ∧ (part 5).d = (part 5).p + 5 ∧ (part 5).eos = false)
      ∧ ({ State.reset.eng with abortOwed := true } : Engine).abortOwed = true
      ∧ whole.offer = some (.frameByte 0x64) ∧ (part 5).offer = none ∧ (part 5).run = .run
      ∧ State.reset.eng.offer = none ∧ State.reset.eng.run = .idle := by decide

/-- RecordIsPushedWhenFifoHasRoom: a full FIFO, one with a free entry, an MPEG frame with its header; in RUN, with a pause
requested, in STEP, in STEP with a resume that waits. -/
theorem witness_RecordIsPushedWhenFifoHasRoom :
    (16 ≤ (List.replicate 16 (State.reset.eng.record dataFrame.cand)).length
        ∧ (List.replicate 15 (State.reset.eng.record dataFrame.cand)).length < 16)
      ∧ dataFrame.cand.kind.isMpeg = false ∧ mpegFrame.cand.kind.isMpeg = true
      ∧ (∃ d, HdrInfo.ofWord mpegFrame.cand.hdr = some d)
      ∧ ∀ w ∈ [Work.push dataFrame, .drop dataFrame],
          ({ running inRiff chunkData false with work := w } : Engine).RunOk
            ∧ ({ running inRiff chunkData false with work := w, pauseReq := true } : Engine).RunOk
            ∧ ({ running inRiff chunkData false with work := w, run := .step } : Engine).RunOk
            ∧ ({ running inRiff chunkData false with work := w, run := .step, resumeReq := true } : Engine).RunOk := by
  refine ⟨⟨by decide, by decide⟩, rfl, rfl, ⟨_, rfl⟩, ?_⟩
  simp [Engine.RunOk, running, Engine.reset, Work.underway]

/-- The candidate of the test detector `test_find_xing` is well formed. -/
theorem xing_ok : Candidate.Ok { kind := .xing, len := 48, hdr := 0xFFF32400, xtag := 21, xflags := 3, xinfo := false } := by
  refine ⟨by decide, fun _ => ⟨_, rfl, by decide⟩, fun h => ?_, fun _ => by decide, fun h => absurd rfl h⟩
  cases h

theorem witness_RecordHoldsFrameFields :
    Candidate.Ok { kind := .xing, len := 48, hdr := 0xFFF32400, xtag := 21, xflags := 3, xinfo := false }
      ∧ (running Session.fresh frameHx3 false).p + 48 ≤ (running Session.fresh frameHx3 false).d :=
  ⟨xing_ok, by decide⟩

/-- SuppressedFrameIsDropped: the frame's last byte is missing, and is there. -/
theorem witness_SuppressedFrameIsDropped :
    ((running inRiff (chunkData.take 7) false).d < (running inRiff (chunkData.take 7) false).p + dataFrame.cand.len)
      ∧ (running inRiff chunkData false).p + dataFrame.cand.len ≤ (running inRiff chunkData false).d := by decide

/-- EveryStepMakesProgress: a step that discards a byte, in RUN with a pause requested, in STEP, in STEP with a resume that
waits, and one that begins and completes in one move. -/
theorem witness_EveryStepMakesProgress :
    let pausing := { running Session.fresh [0, 0, 0, 0, 0] false with pauseReq := true }
    let single := { running Session.fresh [0, 0, 0, 0, 0] false with run := .step }
    let resumed := { running Session.fresh [0, 0, 0, 0, 0] false with run := .step, resumeReq := true, work := .detect 5 }
    let next := betweenSteps Session.fresh [0, 0, 0, 0, 0] false
    (pausing.Ok ∧ pausing.d < 2 ^ 64 ∧ pausing.work ≠ .between ∧ pausing.move.1.work = .between ∧ pausing.run = .run
        ∧ pausing.pauseReq = true)
      ∧ (single.Ok ∧ single.work ≠ .between ∧ single.move.1.work = .between)
      ∧ (resumed.Ok ∧ resumed.work ≠ .between ∧ resumed.move.1.work = .between ∧ resumed.run = .step
        ∧ resumed.resumeReq = true ∧ resumed.move.1.run = .run)
      ∧ (next.Ok ∧ next.Detects ∧ next.move.1.work = .between) := by
  have ok : ∀ e : Engine, e.RunOk → e.fifo = [] → e.pos = 0 → ((∃ n, e.work = .detect n ∧ n ≤ 5) ∨ e.work = .between) →
      e.stream = [0, 0, 0, 0, 0] → e.Ok := by
    intro e hr hf hp hw hs
    refine ⟨by simp [hf], hr, fun _ => ⟨by simp [Engine.p, hp], ?_, fun _ => ?_⟩⟩ <;>
      rcases hw with ⟨n, hw, hn⟩ | hw <;> simp [Engine.WorkOk, Engine.windowBase, Engine.p, Engine.d, hw, hp, hs]
    omega
  have hr := running_runOk Session.fresh [0, 0, 0, 0, 0] false
  exact ⟨⟨ok _ hr.2.2.2.1 rfl rfl (.inl ⟨0, rfl, by decide⟩) rfl, by decide, by decide, by decide, rfl, rfl⟩,
    ⟨ok _ hr.2.2.1 rfl rfl (.inl ⟨0, rfl, by decide⟩) rfl, by decide, by decide⟩,
    ⟨ok _ hr.2.2.2.2 rfl rfl (.inl ⟨5, rfl, by decide⟩) rfl, by decide, by decide, rfl, rfl, by decide⟩,
    ok _ hr.2.1 rfl rfl (.inr rfl) rfl, (running_detects ..).2, by decide⟩

/-- StepKeepsInvariant: the engine that waits for 5 bytes, cut by ENG_ABORT. -/
theorem witness_StepKeepsInvariant :
    let s := State.withFetchWord { State.reset with eng := { running Session.fresh [] false with work := .detect 5 } } 32 0x24
    s.Inv ∧ step s = .next (stepped s) := by
  refine ⟨⟨⟨?_, by decide, ?_, by decide⟩, stalled_ok⟩, rfl⟩
  · exact ⟨by decide, fun e h => nomatch h⟩
  · refine ⟨fun h => absurd h (by decide), fun _ => rfl, fun _ => rfl, fun _ => rfl, fun h => absurd h (by decide), ?_⟩
    intro d hd
    have none : HdrInfo.ofWord 0 = none := by decide
    change HdrInfo.ofWord 0 = some d at hd
    rw [none] at hd
    cases hd

end Sys2Proof.Tests
end

/-! PROOFS. The family 00_scope.md: one step of the machine is the move of one agent (O14). -/

namespace Sys2Proof.Proofs.Scope

open Sys2Proof.Machine
open Sys2Proof.Model hiding State CmdUnit HdrState HdrInfo Engine Counters Record Reg View

/-! ### The moves of the command unit, for a command whose effect is still to come -/

theorem runCommand_of_decode {w : Word} {i : Instr} (hd : decode w = .ok i) (s : State) : runCommand w s = exec i s := by
  simp only [runCommand, hd]

theorem commandMove_of_runCommand {s t : State} {w : Word} (hf : s.cu.inFlight = some { word := w, executed := false })
    (ht : runCommand w s = .next t) : commandMove s = .next t.endCommand := by
  simp [commandMove, hf, ht]

theorem commandEffectMove_of_runCommand {s t : State} {w : Word}
    (hf : s.cu.inFlight = some { word := w, executed := false }) (ht : runCommand w s = .next t) :
    commandEffectMove s = .next (t.markExecuted w) := by
  simp [commandEffectMove, hf, ht]

theorem endCommand_of_not_waiting {s : State} (h : s.cu.srstWaiting = false) :
    s.endCommand = { s with cu := { s.cu with inFlight := none } } := by
  simp [State.endCommand_eq, h]

theorem endCommand_of_waiting {s : State} (h : s.cu.srstWaiting = true) : s.endCommand = s.softReset := by
  simp [State.endCommand_eq, h]

/-! ### When the command unit moves with an engine command (60_exceptions.md R850) -/

theorem underway_eq_false_iff (k : Work) : k.underway = false ↔ k = .between ∨ k = .detect 0 := by
  cases k <;> simp

theorem yields_iff (e : Engine) :
    e.yields = true ↔ e.work = .between ∨ e.work = .detect 0 ∨ e.stallIn = true ∨ e.stallOut = true := by
  simp [Model.Engine.yields, underway_eq_false_iff, or_assoc]

theorem engineCommand_of_decode {s : State} {w : Word} {i : Instr}
    (hf : s.cu.inFlight = some { word := w, executed := false }) (hd : decode w = .ok i) (hi : 0x20 ≤ i.opcode) :
    s.engineCommand = true := by
  simp [Model.State.engineCommand, hf, hd, Instr.onEngine, hi]

/-- The command unit moves only when it can act, whichever turn brings it there. -/
theorem commandReady_of_agent {s : State} (h : s.agent = .commandUnit) : s.commandReady = true := by
  unfold Model.State.agent at h
  split at h
  · -- a turn for the whole command
    by_contra hr
    simp [hr] at h
  · -- a turn for the effect alone, which an engine command takes as a whole
    split at h
    · split at h
      · next hy => simp [Model.State.commandReady, hy]
      · cases h
    · cases h
  · cases h
  · cases h
  · -- the default order
    unfold Model.State.defaultAgent at h
    split at h
    · next hr => exact (Bool.and_eq_true_iff.1 hr).2
    · split at h <;> cases h

theorem yields_of_agent {s : State} (hc : s.engineCommand = true) (h : s.agent = .commandUnit) : s.eng.yields = true := by
  simpa [Model.State.commandReady, hc] using commandReady_of_agent h

theorem agent_ne_commandEffect {s : State} (hc : s.engineCommand = true) : s.agent ≠ .commandEffect := by
  unfold Model.State.agent
  split
  · split <;> nofun
  · -- a turn for the effect alone
    rw [if_pos hc]
    split <;> nofun
  · nofun
  · nofun
  · unfold Model.State.defaultAgent
    split
    · nofun
    · split <;> nofun

/-! ### The word that `withFetchWord` puts in flight -/

theorem agent_issued {s : State} {w : Word} (h : (s.issued w).commandReady = true) : (s.issued w).agent = .commandUnit := by
  simp [Model.State.agent, h]

/-- The word is issued in a state where the command unit can act: an engine command once the engine has settled. -/
theorem withFetchWord_eq_issued (s : State) (w : Word) :
    ∃ u : State, s.withFetchWord 32 w.toNat = u.issued w ∧ (u.issued w).commandReady = true := by
  have hw : BitVec.ofNat 32 (w.toNat % 2 ^ 32) = w := by
    rw [Nat.mod_eq_of_lt w.isLt, BitVec.ofNat_toNat, BitVec.setWidth_eq]
  simp only [State.withFetchWord, hw]
  by_cases hc : (s.issued w).engineCommand = true
  · exact ⟨s.settled, if_pos hc, by simp [Model.State.commandReady, mfhc_settled_yields s]⟩
  · exact ⟨s, if_neg hc, by simp [Model.State.commandReady, hc]⟩

/-! ### One step -/

theorem step_of_agent {s : State} {a : Agent} (h : s.agent = a) : step s = agentMove s.popTurn a := by
  rw [step, h]

/-- With a command in flight whose effect is still to come, the step of the command unit is `exec` of that command in the
state without the turn: with the end of BUSY, or with BUSY still 1. -/
theorem step_of_command {s : State} {w : Word} {i : Instr} (hf : s.cu.inFlight = some { word := w, executed := false })
    (hd : decode w = .ok i) :
    ∃ t : State, exec i s.popTurn = .next t
      ∧ (s.agent = .commandUnit → s.cu.srstWaiting = false → step s = .next { t with cu := { t.cu with inFlight := none } })
      ∧ (s.agent = .commandUnit → s.cu.srstWaiting = true → step s = .next t.softReset)
      ∧ (s.agent = .commandEffect → step s = .next (t.markExecuted w)) := by
  have hf' : s.popTurn.cu.inFlight = some { word := w, executed := false } := hf
  obtain ⟨t, ht, hcompletes⟩ := runCommand_next w s.popTurn
  have hwait : t.cu.srstWaiting = s.cu.srstWaiting := hcompletes.frame.2.1
  refine ⟨t, runCommand_of_decode hd s.popTurn ▸ ht, fun ha hs => ?_, fun ha hs => ?_, fun ha => ?_⟩
  · rw [step_of_agent ha, agentMove, commandMove_of_runCommand hf' ht, endCommand_of_not_waiting (hwait.trans hs)]
  · rw [step_of_agent ha, agentMove, commandMove_of_runCommand hf' ht, endCommand_of_waiting (hwait.trans hs)]
  · rw [step_of_agent ha, agentMove, commandEffectMove_of_runCommand hf' ht]

theorem hostMove_of_empty {s : State} (h : s.host.program = []) : hostMove s = s := by
  simp only [hostMove, h]

theorem hostMove_of_cons {s : State} {op : HostOp} {rest : List HostOp} (h : s.host.program = op :: rest) :
    hostMove s = hostDo s op := by
  simp only [hostMove, h]

/-- Settles O14: a step is `agentMove` of the agent whose turn it is, and each clause reads that move off its equation. -/
theorem stepRunsDecodedCommand : Obligations.StepRunsDecodedCommand := by
  unfold Obligations.StepRunsDecodedCommand
  refine ⟨fun s w i hf hd _ => ⟨fun _ => step_of_command hf hd, fun hi => ?engineFamily⟩, fun s => ?agents, fun s w => ?fetch⟩
  case engineFamily =>
    have hc := engineCommand_of_decode hf hd hi
    exact ⟨agent_ne_commandEffect hc, fun ha => (yields_iff s.eng).1 (yields_of_agent hc ha)⟩
  case agents =>
    refine ⟨step_of_agent, step_of_agent, step_of_agent, fun ha => ⟨fun hp => ?_, fun op rest hp => ?_⟩, fun rest => ?_⟩
    · rw [step_of_agent ha, agentMove, hostMove_of_empty (s := s.popTurn) hp]; rfl
    · rw [step_of_agent ha, agentMove, hostMove_of_cons (s := s.popTurn) hp]; rfl
    · exact ⟨fun ht => by simp [Model.State.agent, ht], fun ht => by simp [Model.State.agent, ht]⟩
  case fetch =>
    obtain ⟨u, hu, hready⟩ := withFetchWord_eq_issued s w
    rw [hu]
    exact ⟨rfl, agent_issued hready⟩

end Sys2Proof.Proofs.Scope

/-! PROOFS. What the rules say of a valid header and of the detector's candidates: the bounds of the derived values, and
every candidate is well formed. -/

namespace Sys2Proof.Proofs.Candidates

open Sys2Proof.Machine
open Sys2Proof.Model hiding State CmdUnit HdrState HdrInfo Engine Counters Record Reg View

/-! ### Bounds of the derived values (41_header.md R508, R509, R513) -/

theorem bitrateEntry_mem {vc : VersionClass} {l : Layer} {code k : Nat} (h : bitrateEntry vc l code = some k) :
    k ∈ bitrateColumn vc l := by
  cases code with
  | zero => cases h
  | succ c => exact List.mem_of_getElem? h

/-- Every rate of every table entry, and its product with the frame constant that R513 multiplies it by. -/
theorem bitrateColumn_bounds (vc : VersionClass) (l : Layer) :
    ∀ k ∈ bitrateColumn vc l, k ≤ 448 ∧ 384 ≤ Config.mfhc.frameK.at vc l * k ∧ Config.mfhc.frameK.at vc l * k ≤ 61440 := by
  cases vc <;> cases l <;> decide

theorem srateColumn_bounds (vc : VersionClass) : ∀ z ∈ srateColumn vc, 16000 ≤ z ∧ z ≤ 48000 := by
  cases vc <;> decide

theorem samplingHz_bounds {v : Version} {code z : Nat} (h : samplingHz v code = some z) : 8000 ≤ z ∧ z ≤ 48000 := by
  unfold samplingHz at h
  split at h
  · cases h
  · next y hy =>
    obtain ⟨hlo, hhi⟩ := srateColumn_bounds _ y (List.mem_of_getElem? hy)
    cases h
    cases v <;> dsimp only <;> omega

/-- The rates of a valid header, and the quotient of R513. -/
theorem ofWord_bounds {h : Word} {d : HdrInfo} (hd : HdrInfo.ofWord h = some d) :
    d.kbps ≤ 448 ∧ d.hz ≤ 48000 ∧ 8 ≤ Config.mfhc.frameK.at d.version.cls d.layer * d.kbps * 1000 / d.hz
      ∧ Config.mfhc.frameK.at d.version.cls d.layer * d.kbps * 1000 / d.hz ≤ 7680 := by
  obtain ⟨-, -, -, hkbps, hhz, -, -, -⟩ := HdrInfo.ofWord_cases hd
  obtain ⟨hk, hlo, hhi⟩ := bitrateColumn_bounds _ _ _ (bitrateEntry_mem hkbps)
  obtain ⟨hzlo, hzhi⟩ := samplingHz_bounds hhz
  refine ⟨hk, hzhi, (Nat.le_div_iff_mul_le (by omega)).2 (by omega), Nat.div_le_of_le_mul ?_⟩
  calc Config.mfhc.frameK.at d.version.cls d.layer * d.kbps * 1000
      ≤ 8000 * 7680 := by omega
    _ ≤ d.hz * 7680 := Nat.mul_le_mul_right _ hzlo

/-- The frame length of a valid header (R513). -/
theorem flen_bounds {h : Word} {d : HdrInfo} (hd : HdrInfo.ofWord h = some d) : 8 ≤ d.flen ∧ d.flen < 2 ^ 16 := by
  obtain ⟨-, -, hlo, hhi⟩ := ofWord_bounds hd
  have hp : d.padding.toNat ≤ 1 := d.padding.toNat_le
  simp only [HdrInfo.flen]
  generalize Config.mfhc.frameK.at d.version.cls d.layer * d.kbps * 1000 / d.hz = x at *
  cases d.layer <;> dsimp only <;> omega

/-- The header length (R512). -/
theorem hlen_le (d : HdrInfo) : d.hlen ≤ 38 := by
  have hc := d.crcLen_le
  have hs := d.siLen_mem
  unfold HdrInfo.hlen
  omega

/-! ### Candidates (42_detector.md R600, R610, R611, R650) -/

theorem plain_ok {kind : FrameKind} {len : Nat} (hk : kind.isMpeg = false) (hl : 8 ≤ len) : (Candidate.plain kind len).Ok := by
  refine ⟨hl, fun h => ?_, fun _ => rfl, fun h => ?_, fun _ => ⟨rfl, rfl, rfl⟩⟩
  · exact absurd (hk.symm.trans h) Bool.false_ne_true
  · change kind = .xing at h
    subst h
    cases hk

theorem mpegHeaderAt_valid {v : View} {sess : Session} {q : Nat} {strict : Bool} {h : Word} {d : HdrInfo}
    (hr : mpegHeaderAt v sess q strict = .ok (some (h, d))) : HdrInfo.ofWord h = some d := by
  obtain ⟨r, -, hr⟩ := Look.bind_eq_ok.1 hr
  split at hr
  · cases hr
  · split at hr
    · cases hr
    · next d' hd =>
      split at hr
      · cases hr
      · cases hr; exact hd

theorem tryMpeg_ok {v : View} {sess : Session} {q : Nat} {strict : Bool} {c : Candidate}
    (hr : tryMpeg v sess q strict = .ok (some c)) : c.Ok := by
  obtain ⟨r, hh, hr⟩ := Look.bind_eq_ok.1 hr
  split at hr
  · cases hr
  · next h d =>
    cases hr
    have hd := mpegHeaderAt_valid hh
    exact ⟨(flen_bounds hd).1, fun _ => ⟨d, hd, rfl⟩, nofun, nofun, fun _ => ⟨rfl, rfl, rfl⟩⟩

/-- A tag and its fields lie in the frame (R611). -/
theorem xingTagAt_span {v : View} {q len t : Nat} {f : BitVec 4} {isInfo : Bool}
    (hr : xingTagAt v q len t = .ok (some (f, isInfo))) : t + xingSpan f ≤ len := by
  unfold xingTagAt at hr
  split at hr
  · cases hr
  · obtain ⟨isXing, -, hr⟩ := Look.bind_eq_ok.1 hr
    dsimp only at hr
    -- the flags word is read and bounded alike after "Xing" and after "Info"
    split at hr
    all_goals
      obtain ⟨isInfo', -, hr⟩ := Look.bind_eq_ok.1 hr
      split at hr
      · cases hr
      · obtain ⟨r, -, hr⟩ := Look.bind_eq_ok.1 hr
        split at hr
        · cases hr
        · split at hr
          · cases hr
          · cases hr; omega

theorem firstXingTag_span {v : View} {q len t : Nat} {f : BitVec 4} {isInfo : Bool} {ts : List Nat}
    (hr : firstXingTag v q len ts = .ok (some (t, f, isInfo))) : t ∈ ts ∧ t + xingSpan f ≤ len := by
  induction ts with
  | nil => cases hr
  | cons t' ts ih =>
    obtain ⟨r, htag, hr⟩ := Look.bind_eq_ok.1 hr
    split at hr
    · cases hr; exact ⟨List.mem_cons_self, xingTagAt_span htag⟩
    · obtain ⟨hmem, hspan⟩ := ih hr
      exact ⟨List.mem_cons_of_mem _ hmem, hspan⟩

theorem xingPositions_le {d : HdrInfo} {t : Nat} (h : t ∈ xingPositions d) : t ≤ 40 := by
  have hl := hlen_le d
  unfold xingPositions at h
  split at h <;> simp only [List.mem_cons, List.not_mem_nil, or_false] at h <;> omega

theorem tryXing_ok {v : View} {sess sess' : Session} {q : Nat} {strict : Bool} {c : Candidate}
    (hr : tryXing v sess q strict = .ok (sess', some c)) : c.Ok := by
  unfold tryXing at hr
  split at hr
  · cases hr
  · obtain ⟨r, hh, hr⟩ := Look.bind_eq_ok.1 hr
    split at hr
    · cases hr
    · next h d =>
      obtain ⟨r, ht, hr⟩ := Look.bind_eq_ok.1 hr
      split at hr
      · cases hr
        have hd := mpegHeaderAt_valid hh
        obtain ⟨hmem, hspan⟩ := firstXingTag_span ht
        exact ⟨(flen_bounds hd).1, fun _ => ⟨d, hd, rfl⟩, nofun, fun _ => ⟨xingPositions_le hmem, hspan⟩, fun h => absurd rfl h⟩
      · cases hr

theorem tryRiffFmt_ok {v : View} {q : Nat} {c : Candidate} (hr : tryRiffFmt v q = .ok (.hit c)) : c.Ok := by
  obtain ⟨b, -, hr⟩ := Look.bind_eq_ok.1 hr
  split at hr
  · obtain ⟨r, -, hr⟩ := Look.bind_eq_ok.1 hr
    split at hr
    · cases hr
    · split at hr
      · cases hr
      · cases hr; exact plain_ok rfl (by omega)
  · cases hr

theorem tryRiffFact_ok {v : View} {q : Nat} {c : Candidate} (hr : tryRiffFact v q = .ok (.hit c)) : c.Ok := by
  obtain ⟨b, -, hr⟩ := Look.bind_eq_ok.1 hr
  split at hr
  · obtain ⟨r, -, hr⟩ := Look.bind_eq_ok.1 hr
    split at hr
    · cases hr
    · cases hr; exact plain_ok rfl (by omega)
  · cases hr

theorem tryRiffData_ok {v : View} {q : Nat} {c : Candidate} (hr : tryRiffData v q = .ok (.hit c)) : c.Ok := by
  obtain ⟨b, -, hr⟩ := Look.bind_eq_ok.1 hr
  split at hr
  · cases hr; exact plain_ok rfl le_rfl
  · cases hr

theorem tryRiffChunk_ok {v : View} {q : Nat} {c : Candidate} (hr : tryRiffChunk v q = .ok (.hit c)) : c.Ok := by
  obtain ⟨r, hfmt, hr⟩ := Look.bind_eq_ok.1 hr
  split at hr
  · cases hr; exact tryRiffFmt_ok hfmt
  · cases hr
  · obtain ⟨r, hfact, hr⟩ := Look.bind_eq_ok.1 hr
    split at hr
    · cases hr; exact tryRiffFact_ok hfact
    · cases hr
    · exact tryRiffData_ok hr

theorem tryRiff_ok {v : View} {sess sess' : Session} {q : Nat} {c : Candidate}
    (hr : tryRiff v sess q = .ok (sess', .hit c)) : c.Ok := by
  obtain ⟨b, -, hr⟩ := Look.bind_eq_ok.1 hr
  split at hr
  · cases hr; exact plain_ok rfl (by omega)
  · split at hr
    · obtain ⟨r, hchunk, hr⟩ := Look.bind_eq_ok.1 hr
      cases hr; exact tryRiffChunk_ok hchunk
    · cases hr

theorem tryId3_ok {v : View} {q : Nat} {c : Candidate} (hr : tryId3 v q = .ok (some c)) : c.Ok := by
  obtain ⟨b, -, hr⟩ := Look.bind_eq_ok.1 hr
  split at hr
  · cases hr; exact plain_ok rfl (by omega)
  · obtain ⟨b, -, hr⟩ := Look.bind_eq_ok.1 hr
    split at hr
    · obtain ⟨r, -, hr⟩ := Look.bind_eq_ok.1 hr
      split at hr
      · cases hr
      · cases hr; exact plain_ok rfl (by omega)
    · cases hr

theorem tryApe_ok {v : View} {q : Nat} {c : Candidate} (hr : tryApe v q = .ok (some c)) : c.Ok := by
  obtain ⟨b, -, hr⟩ := Look.bind_eq_ok.1 hr
  split at hr
  · obtain ⟨r, -, hr⟩ := Look.bind_eq_ok.1 hr
    split at hr
    · cases hr
    · split at hr
      · cases hr; exact plain_ok rfl (by omega)
      · split at hr
        · cases hr; exact plain_ok rfl (by omega)
        · cases hr
  · cases hr

/-- Every candidate is well formed (R600 to R650): the first trial that answers with one made it. -/
theorem find_ok {v : View} {sess sess' : Session} {q : Nat} {strict : Bool} {c : Candidate}
    (hr : find v sess q strict = .ok (sess', .hit c)) : c.Ok := by
  obtain ⟨r, hxing, hr⟩ := Look.bind_eq_ok.1 hr
  split at hr
  · cases hr; exact tryXing_ok hxing
  · obtain ⟨r, hmpeg, hr⟩ := Look.bind_eq_ok.1 hr
    split at hr
    · cases hr; exact tryMpeg_ok hmpeg
    · obtain ⟨r, hriff, hr⟩ := Look.bind_eq_ok.1 hr
      split at hr
      · cases hr; exact tryRiff_ok hriff
      · cases hr
      · obtain ⟨r, hid3, hr⟩ := Look.bind_eq_ok.1 hr
        split at hr
        · cases hr; exact tryId3_ok hid3
        · obtain ⟨r, hape, hr⟩ := Look.bind_eq_ok.1 hr
          split at hr
          · cases hr; exact tryApe_ok hape
          · cases hr

end Sys2Proof.Proofs.Candidates

/-! PROOFS. What a command does, said once: its effect on the command unit or on the engine, or an error that leaves
both. The invariant and the session's latched configuration are read off it. -/

namespace Sys2Proof.Proofs.Commands

open Sys2Proof.Machine
open Sys2Proof.Model hiding State CmdUnit HdrState HdrInfo Engine Counters Record Reg View

/-- What a command of the engine family leaves of the engine when it does not raise (43_engine.md R740 to R745), with
the CRC parameters that ENG_START latches. -/
inductive EngineEffect (poly init : Half) (e : Engine) : Engine → Prop where
  | start (hr : e.run.active = false) : EngineEffect poly init e (e.started poly init)
  | requestPause (hr : e.run = .run) (hw : e.work ≠ .between) : EngineEffect poly init e { e with pauseReq := true }
  | pauseNow (hr : e.run = .run) (hw : e.work = .between) :
      EngineEffect poly init e { e with run := .paused, pauseReq := false, work := .between }
  | resume (hr : e.run = .paused) : EngineEffect poly init e { e with run := .run }
  | resumeAtEnd (hr : e.run = .step) (hw : e.work.underway = true) : EngineEffect poly init e { e with resumeReq := true }
  | resumeUnlooked (hr : e.run = .step) (hw : e.work.underway = false) : EngineEffect poly init e { e with run := .run }
  | dropPause (hr : e.run = .run) : EngineEffect poly init e { e with pauseReq := false }
  | singleStep (hr : e.run = .paused) : EngineEffect poly init e { e with run := .step, work := .detect 0 }
  | abort : EngineEffect poly init e e.aborted
  | popRecord (r : Record) (rest : List Record) (hf : e.fifo = r :: rest) : EngineEffect poly init e { e with fifo := rest }

/-- The state a command's pseudocode reaches when it does not raise, before its completion (30_encoding.md R302). -/
inductive CommandEffect (s : State) : State → Prop where
  | keep : CommandEffect s s
  | setResult (w : Word) : CommandEffect s (s.setResult w)
  | clearFormat : CommandEffect s (s.setFmt [])
  | appendField (e : FmtEntry) (he : e.Ok) (hn : s.cu.fmt.length < 32) : CommandEffect s (s.setFmt (s.cu.fmt ++ [e]))
  | pack (off : Nat) (bs : List Byte) (w : Word) (hb : off + bs.length ≤ 256) :
      CommandEffect s ((s.storeScratch off bs).setResult w)
  | unpack (v : Vector Word 32) (w : Word) : CommandEffect s ((s.setVal v).setResult w)
  | decodeHeader (w : Word) (hw : validate w = none) : CommandEffect s (s.setHdr (.decoded w))
  | capture (off avail : Nat) (d : HdrInfo) (w : Word) (hd : s.cu.hdr.info = some d) :
      CommandEffect s
        ((s.setHdr (captureSi s.cu.scratch off avail d (captureCrc s.cu.scratch off avail d s.cu.hdr))).setResult w)
  | encodeHeader (off : Nat) (bs : List Byte) (d : HdrInfo) (h : HdrState) (w : Word) (hd : s.cu.hdr.info = some d)
      (hb : off + bs.length ≤ 256)
      (hh : h = s.cu.hdr ∨ d.prot = true ∧ ∃ c, h = { s.cu.hdr with storedCrc := c, crcCap := true }) :
      CommandEffect s (((s.storeScratch off bs).setHdr h).setResult w)
  | replaceField (d : HdrInfo) (w : Word) (hd : s.cu.hdr.info = some d) (hw : validate w = none) :
      CommandEffect s (s.setHdr (s.cu.hdr.withWord d w))
  | onEngine (e : Engine) (he : EngineEffect s.cu.crcPoly s.cu.crcInit s.eng e) : CommandEffect s (s.setEng e)

/-- An outcome is the completion of an effect, or an error raised. -/
def TakesEffect (s : State) (o : Host.Outcome State Fault Refusal) : Prop :=
  (∃ u, CommandEffect s u ∧ o = .next u.succeed) ∨ ∃ e, o = .next (s.raise e)

theorem effects_ok {s u : State} (h : CommandEffect s u) : TakesEffect s (finishCommand s (.ok u)) := .inl ⟨u, h, rfl⟩

theorem effects_error {s : State} {e : CmdError} : TakesEffect s (finishCommand s (.error e)) := .inr ⟨e, rfl⟩

/-- The entry that FMT_APPEND compiles is valid, and there is room for it (40_codec.md R412). -/
theorem compileField_ok {width kind count : Nat} {expEn : Bool} {expect : Word} {e : FmtEntry}
    (h : compileField width kind expEn expect count = .ok e) : e.Ok ∧ count < 32 := by
  unfold compileField at h
  split at h
  · cases h
  · next k _ =>
    split at h
    · cases h
    next hwidth =>
    split at h
    · cases h
    next hbool =>
    split at h
    · cases h
    next hexp =>
    split at h
    · cases h
    next hcount =>
    cases h
    dsimp only at hwidth hcount
    have hw : (BitVec.ofNat 6 width).toNat = width := by rw [BitVec.toNat_ofNat]; omega
    refine ⟨?_, by omega⟩
    simp only [FmtEntry.Ok, hw]
    refine ⟨by omega, by omega, fun hk => ?_, fun he => ?_, fun he => ?_⟩
    · by_contra hne; exact hbool ⟨hk, hne⟩
    · rw [if_pos he]; by_contra hge; exact hexp ⟨he, by omega⟩
    · rw [he]; rfl

/-- Every command takes an effect or raises: one case for each way its pseudocode ends. -/
theorem exec_effects (i : Instr) (s : State) : TakesEffect s (exec i s) := by
  cases i with
  | nop => exact effects_ok .keep
  | fmtClear => exact effects_ok .clearFormat
  | fmtAppend width kind expEn =>
    simp only [exec, execFmtAppend]
    split
    · exact effects_error
    · next e he =>
      obtain ⟨hok, hn⟩ := compileField_ok he
      exact effects_ok (.appendField e hok hn)
  | pack off =>
    simp only [exec, execPack]
    rcases writeRegion_cases s off (packbits s.cu.fmt s.cu.val.toList) with ⟨_, h⟩ | ⟨hb, h⟩ <;> rw [h]
    · exact effects_error
    · exact effects_ok (.pack off _ _ hb)
  | unpack off =>
    simp only [exec, execUnpack]
    split
    · exact effects_error
    · split
      · exact effects_error
      · exact effects_ok (.unpack _ _)
  | hdrDecode off src =>
    simp only [exec, execHdrDecode]
    split
    · exact effects_error
    · next w _ =>
      rcases validHeader_cases w with ⟨r, _, h⟩ | ⟨hw, h⟩ <;> rw [h]
      · exact effects_error
      · exact effects_ok (.decodeHeader w hw)
  | hdrUpdate off =>
    simp only [exec, execHdrUpdate]
    rcases heldHeader_cases s with ⟨_, h⟩ | ⟨d, hd, h⟩ <;> rw [h]
    · exact effects_error
    · exact effects_ok (.capture off _ d _ hd)
  | hdrEncode off includeCrc =>
    simp only [exec, execHdrEncode]
    rcases heldHeader_cases s with ⟨_, h⟩ | ⟨d, hd, h⟩ <;> rw [h] <;> dsimp only
    · exact effects_error
    · split
      · exact effects_error
      · next c _ =>
        rcases writeRegion_cases s off (encodedHeader s.cu.hdr d c) with ⟨_, h⟩ | ⟨hb, h⟩ <;> rw [h]
        · exact effects_error
        · refine effects_ok (.encodeHeader off _ d _ _ hd hb ?_)
          split
          · next hp => exact .inr ⟨(Bool.and_eq_true_iff.1 hp).1, c, rfl⟩
          · exact .inl rfl
  | hdrSetf index value =>
    simp only [exec, execHdrSetf]
    rcases heldHeader_cases s with ⟨_, h⟩ | ⟨d, hd, h⟩ <;> rw [h] <;> dsimp only
    · exact effects_error
    · split
      · exact effects_error
      · next f _ =>
        rcases validHeader_cases (setHdrField s.cu.hdr.word f value) with ⟨r, _, h⟩ | ⟨hw, h⟩ <;> rw [h]
        · exact effects_error
        · exact effects_ok (.replaceField d _ hd hw)
  | hdrCrcchk =>
    simp only [exec, execHdrCrcchk]
    split
    · exact effects_error
    · exact effects_ok (.setResult _)
  | crc16 off count =>
    simp only [exec, execCrc16]
    split
    · exact effects_error
    · exact effects_ok (.setResult _)
  | engStart =>
    simp only [exec, execEngStart]
    split
    · exact effects_error
    · next hr => exact effects_ok (.onEngine _ (.start (Bool.eq_false_iff.2 hr)))
  | engPause =>
    simp only [exec, execEngPause]
    split
    · next hr =>
      by_cases hw : s.eng.work = .between
      · have hb : ({ s.eng with pauseReq := true } : Engine).boundary
            = { s.eng with run := .paused, pauseReq := false, work := .between } := by simp [Engine.boundary, hr]
        rw [if_pos hw, hb]
        exact effects_ok (.onEngine _ (.pauseNow hr hw))
      · rw [if_neg hw]
        exact effects_ok (.onEngine _ (.requestPause hr hw))
    · exact effects_ok .keep
    · exact effects_ok .keep
    all_goals exact effects_error
  | engResume =>
    simp only [exec, execEngResume]
    split
    · next hr => exact effects_ok (.onEngine _ (.resume hr))
    · next hr =>
      by_cases hw : s.eng.work.underway = true
      · rw [if_pos hw]
        exact effects_ok (.onEngine _ (.resumeAtEnd hr hw))
      · rw [if_neg hw]
        exact effects_ok (.onEngine _ (.resumeUnlooked hr (Bool.eq_false_iff.2 hw)))
    · next hr => exact effects_ok (.onEngine _ (.dropPause hr))
    all_goals exact effects_error
  | engStep =>
    simp only [exec, execEngStep]
    split
    · next hr => exact effects_ok (.onEngine _ (.singleStep hr))
    all_goals exact effects_error
  | engAbort =>
    simp only [exec, execEngAbort]
    split
    · exact effects_ok .keep
    · exact effects_ok (.onEngine _ .abort)
  | recPop =>
    simp only [exec, execRecPop]
    split
    · exact effects_error
    · next r rest hf => exact effects_ok (.onEngine _ (.popRecord r rest hf))

/-- Every command word takes an effect or raises, a reserved one with ILLEGAL_COMMAND (30_encoding.md R303). -/
theorem runCommand_effects (w : Word) (s : State) : TakesEffect s (runCommand w s) := by
  unfold runCommand
  split
  · exact exec_effects _ s
  · exact effects_error

/-- A property of the state that completion and errors do not touch holds after a command when it holds after its
effect. -/
theorem runCommand_keeps {P : State → Prop} {w : Word} {s t : State} (ht : runCommand w s = .next t) (hs : P s)
    (effect : ∀ u, CommandEffect s u → P u) (succeed : ∀ u : State, P u → P u.succeed)
    (raise : ∀ e, P s → P (s.raise e)) : P t := by
  rcases runCommand_effects w s with ⟨u, hu, ho⟩ | ⟨e, ho⟩
  · cases ho.symm.trans ht; exact succeed u (effect u hu)
  · cases ho.symm.trans ht; exact raise e hs

end Sys2Proof.Proofs.Commands

/-! PROOFS. What a step does to the engine, said once: the engine's own move, a command's effect, a host operation at its
ports or its registers, or a reset. -/

namespace Sys2Proof.Proofs.EngineChanges

open Sys2Proof.Machine Sys2Proof.Proofs.Commands
open Sys2Proof.Model hiding State CmdUnit HdrState HdrInfo Engine Counters Record Reg View

/-- The engine with other contents of `ENG_CFG`, `ENG_MARGIN` and `ENG_LOWWATER`. -/
def configured (e : Engine) (cfg : BitVec 4) (margin lowWater : Half) : Engine :=
  { e with cfg := cfg, margin := margin, lowWater := lowWater }

@[simp] theorem configured_latch (e : Engine) (cfg : BitVec 4) (margin lowWater : Half) :
    (configured e cfg margin lowWater).latch = e.latch := rfl
@[simp] theorem configured_run (e : Engine) (cfg : BitVec 4) (margin lowWater : Half) :
    (configured e cfg margin lowWater).run = e.run := rfl
@[simp] theorem configured_pauseReq (e : Engine) (cfg : BitVec 4) (margin lowWater : Half) :
    (configured e cfg margin lowWater).pauseReq = e.pauseReq := rfl
@[simp] theorem configured_resumeReq (e : Engine) (cfg : BitVec 4) (margin lowWater : Half) :
    (configured e cfg margin lowWater).resumeReq = e.resumeReq := rfl
@[simp] theorem configured_eos (e : Engine) (cfg : BitVec 4) (margin lowWater : Half) :
    (configured e cfg margin lowWater).eos = e.eos := rfl
@[simp] theorem configured_fifo (e : Engine) (cfg : BitVec 4) (margin lowWater : Half) :
    (configured e cfg margin lowWater).fifo = e.fifo := rfl
@[simp] theorem configured_work (e : Engine) (cfg : BitVec 4) (margin lowWater : Half) :
    (configured e cfg margin lowWater).work = e.work := rfl
@[simp] theorem configured_d (e : Engine) (cfg : BitVec 4) (margin lowWater : Half) :
    (configured e cfg margin lowWater).d = e.d := rfl
@[simp] theorem configured_p (e : Engine) (cfg : BitVec 4) (margin lowWater : Half) :
    (configured e cfg margin lowWater).p = e.p := rfl
@[simp] theorem configured_stallIn (e : Engine) (cfg : BitVec 4) (margin lowWater : Half) :
    (configured e cfg margin lowWater).stallIn = e.stallIn := rfl
@[simp] theorem configured_decision (e : Engine) (cfg : BitVec 4) (margin lowWater : Half) :
    (configured e cfg margin lowWater).decision = e.decision := rfl

/-- What one step of the machine can do to the engine (00_scope.md R3). -/
inductive EngineChange (e : Engine) : Engine → Prop where
  | keep : EngineChange e e
  | move : EngineChange e e.move.1
  | command (poly init : Half) (e' : Engine) (h : EngineEffect poly init e e') : EngineChange e e'
  | configure (cfg : BitVec 4) (margin lowWater : Half) : EngineChange e (configured e cfg margin lowWater)
  | deliver (b : Byte) (h : e.acceptsByte = true) : EngineChange e (e.deliver b)
  | deliverEos (h : e.acceptsEos = true) : EngineChange e e.deliverEos
  | take : EngineChange e e.taken
  | reset : EngineChange e Engine.reset

theorem engineChange_of_eq {e e' : Engine} (h : e' = e) : EngineChange e e' := h ▸ .keep

theorem engineChange_commandEffect {s u : State} (h : CommandEffect s u) : EngineChange s.eng u.eng := by
  cases h with
  | onEngine e he => exact .command _ _ e he
  | _ => exact .keep

theorem engineChange_runCommand {s t : State} {w : Word} (h : runCommand w s = .next t) : EngineChange s.eng t.eng :=
  runCommand_keeps (P := fun u => EngineChange s.eng u.eng) h .keep (fun _ => engineChange_commandEffect) (fun _ hu => hu)
    (fun _ hs => hs)

theorem engineChange_endCommand {e : Engine} {t : State} (h : EngineChange e t.eng) : EngineChange e t.endCommand.eng := by
  rw [State.endCommand_eq]
  split
  · exact .reset
  · exact h

theorem engineChange_commandMove {s t : State} (h : commandMove s = .next t) : EngineChange s.eng t.eng := by
  rcases commandMove_cases s with ⟨-, hm⟩ | ⟨f, -, ⟨-, hm⟩ | ⟨-, u, hu, -, hm⟩⟩ <;> cases hm.symm.trans h
  · exact .keep
  · exact engineChange_endCommand .keep
  · exact engineChange_endCommand (engineChange_runCommand hu)

theorem engineChange_commandEffectMove {s t : State} (h : commandEffectMove s = .next t) : EngineChange s.eng t.eng := by
  rcases commandEffectMove_cases s with hm | ⟨f, -, -, u, hu, -, hm⟩ <;> cases hm.symm.trans h
  · exact .keep
  · exact engineChange_runCommand (t := u) hu

theorem unlessBusy_eng {s t : State} (h : t.eng = s.eng) : (s.unlessBusy t).eng = s.eng := by
  unfold State.unlessBusy
  split
  · rfl
  · exact h

/-- A register write reaches the engine at its three configuration registers, and through the soft reset (20_memory.md
R207, 70_reset_and_hazards.md R902). -/
theorem engineChange_writeReg (s : State) (r : Reg) (v : Word) : EngineChange s.eng (s.writeReg r v).eng := by
  cases r with
  | ctrl =>
    simp only [State.writeReg]
    split
    · split
      · exact .keep
      · exact .reset
    · exact .keep
  | engCfg => exact .configure (v.setWidth 4) s.eng.margin s.eng.lowWater
  | engMargin => exact .configure s.eng.cfg (v.setWidth 16) s.eng.lowWater
  | engLowwater => exact .configure s.eng.cfg s.eng.margin (v.setWidth 16)
  | cmd => exact engineChange_of_eq (unlessBusy_eng rfl)
  | scratch k => exact engineChange_of_eq (unlessBusy_eng rfl)
  | scratchLen => exact engineChange_of_eq (unlessBusy_eng rfl)
  | fmtExpect => exact engineChange_of_eq (unlessBusy_eng rfl)
  | hdrIn => exact engineChange_of_eq (unlessBusy_eng rfl)
  | crcPoly => exact engineChange_of_eq (unlessBusy_eng rfl)
  | crcInit => exact engineChange_of_eq (unlessBusy_eng rfl)
  | val i => exact engineChange_of_eq (unlessBusy_eng rfl)
  | _ => exact .keep

theorem engineChange_hostDo (s : State) (op : HostOp) : EngineChange s.eng (hostDo s op).eng := by
  cases op with
  | wr a v =>
    rcases s.hostWrite_cases a v with h | ⟨off, -, h⟩ <;> simp only [hostDo, h]
    · exact .keep
    · exact engineChange_writeReg s _ v
  | rd a => rcases s.hostRead_cases a with h | ⟨off, -, h⟩ <;> simp only [hostDo, h] <;> exact .keep
  | inByte b =>
    simp only [hostDo]
    split
    · next h => exact .deliver b h
    · split <;> exact .keep
  | inEos =>
    simp only [hostDo]
    split
    · next h => exact .deliverEos h
    · split <;> exact .keep
  | take =>
    simp only [hostDo]
    split
    · exact .take
    · split <;> exact .keep
  | wait => simp only [hostDo]; split <;> exact .keep
  | hwReset => exact .reset

theorem engineChange_hostMove (s : State) : EngineChange s.eng (hostMove s).eng := by
  unfold hostMove
  split
  · exact .keep
  · exact engineChange_hostDo s _

/-- What a step does to the engine, whichever agent moves. -/
theorem engineChange_step {s t : State} (h : step s = .next t) : EngineChange s.eng t.eng := by
  rw [step] at h
  cases ha : s.agent <;> rw [ha] at h
  case host => cases h; exact engineChange_hostMove s.popTurn
  case commandUnit => exact engineChange_commandMove (s := s.popTurn) h
  case commandEffect => exact engineChange_commandEffectMove (s := s.popTurn) h
  case engine => cases h; exact .move

end Sys2Proof.Proofs.EngineChanges

/-! PROOFS. The invariant of Sys2Proof/Safety.lean: every operation of the three agents keeps the command unit's part and
the engine's part of it (O60). -/

namespace Sys2Proof.Proofs.Invariant

open Sys2Proof.Machine Sys2Proof.Proofs.Candidates Sys2Proof.Proofs.Commands Sys2Proof.Proofs.EngineChanges
open Sys2Proof.Model hiding State CmdUnit HdrState HdrInfo Engine Counters Record Reg View

/-! ### The format table and the header state (10_state.md R119, R120, R124) -/

theorem fmtOk_nil : FmtOk [] := ⟨Nat.zero_le _, nofun⟩

theorem fmtOk_append {f : List FmtEntry} {e : FmtEntry} (hf : FmtOk f) (he : e.Ok) (hn : f.length < 32) : FmtOk (f ++ [e]) := by
  refine ⟨by rw [List.length_append, List.length_singleton]; exact hn, fun x hx => ?_⟩
  rcases List.mem_append.1 hx with hx | hx
  · exact hf.2 x hx
  · rw [List.mem_singleton.1 hx]; exact he

theorem hdrOk_reset : HdrState.Ok (HdrState.reset : HdrState) := by
  have hnone : HdrInfo.ofWord (0 : Word) = none := by decide
  refine ⟨nofun, fun _ => rfl, fun _ => rfl, fun _ => rfl, nofun, fun d hd => ?_⟩
  cases hnone.symm.trans hd

/-- Without captured side information every byte of it is 0. -/
theorem getD_zeroSi (j : Nat) : (Vector.replicate 32 (0 : Byte)).toList.getD j 0 = 0 := by
  rw [List.getD_eq_getElem?_getD, Vector.toList_replicate, List.getElem?_replicate]
  split <;> rfl

theorem hdrOk_decoded {w : Word} (hw : validate w = none) : HdrState.Ok (HdrState.decoded w : HdrState) :=
  ⟨fun _ => hw, nofun, fun _ => rfl, fun _ => rfl, nofun, fun _ _ j _ => getD_zeroSi j⟩

/-- A protected header has its CRC flag clear (41_header.md R504). -/
theorem crcFlag_of_prot {w : Word} {d : HdrInfo} (hd : HdrInfo.ofWord w = some d) : d.prot = true ↔ hdrField w .crcFlag = 0 := by
  obtain ⟨-, -, -, -, -, hp, -, -⟩ := HdrInfo.ofWord_cases hd
  rw [hp, decide_eq_true_eq]

/-- A stored CRC taken or computed for a protected header keeps the header state (R531, R532). -/
theorem hdrOk_storeCrc {h : HdrState} {d : HdrInfo} (hh : h.Ok) (hd : h.info = some d) (hp : d.prot = true) (c : Half) :
    HdrState.Ok ({ h with storedCrc := c, crcCap := true } : HdrState) := by
  obtain ⟨hval, -, -, hsi, -, hlen⟩ := hh
  obtain ⟨hv, hw⟩ := HdrState.info_eq_some.1 hd
  exact ⟨hval, fun hn => absurd (hv.symm.trans hn) nofun, nofun, hsi, fun _ => (crcFlag_of_prot hw).1 hp, hlen⟩

theorem hdrOk_captureCrc {h : HdrState} {d : HdrInfo} (hh : h.Ok) (hd : h.info = some d) (m : Memory) (off avail : Nat) :
    HdrState.Ok (captureCrc m off avail d h) := by
  unfold captureCrc
  split
  · next hc => exact hdrOk_storeCrc hh hd hc.1 _
  · exact hh

theorem info_captureCrc {h : HdrState} {d : HdrInfo} (m : Memory) (off avail : Nat) :
    (captureCrc m off avail d h).info = h.info := by
  obtain ⟨hw, hv, -, -⟩ := captureCrc_keeps m off avail d h
  simp only [HdrState.info, hw, hv]

/-- Captured side information fills its length and no byte past it (R531). -/
theorem hdrOk_captureSi {h : HdrState} {d : HdrInfo} (hh : h.Ok) (hd : h.info = some d) (m : Memory) (off avail : Nat) :
    HdrState.Ok (captureSi m off avail d h) := by
  have ⟨hval, _, hcrc, hsi, hprot, _⟩ := hh
  obtain ⟨hv, hw⟩ := HdrState.info_eq_some.1 hd
  unfold captureSi
  split
  · next hc =>
    refine ⟨hval, fun hn => absurd (hv.symm.trans hn) nofun, hcrc, nofun, hprot, fun d' hd' j hj => ?_⟩
    cases hw.symm.trans hd'
    have hl := d.siLen_mem
    dsimp only
    rw [getD_writeSi _ _ _ _ (by rw [Memory.length_readBytes]; omega), if_neg (by rw [Memory.length_readBytes]; omega),
      hsi hc.1, getD_zeroSi]
  · exact hh

/-- A replaced field keeps what was captured only when protection and side-information length stay (R533). -/
theorem hdrOk_withWord {h : HdrState} {d : HdrInfo} {w : Word} (hh : h.Ok) (hd : h.info = some d) (hw : validate w = none) :
    HdrState.Ok (h.withWord d w) := by
  obtain ⟨-, -, hcrc, hsi, hprot, hlen⟩ := hh
  obtain ⟨hv, hword⟩ := HdrState.info_eq_some.1 hd
  unfold HdrState.withWord
  split
  · next d' hd' =>
    split
    · exact hdrOk_decoded hw
    · next hsame =>
      obtain ⟨hp, hl⟩ : d'.prot = d.prot ∧ d'.siLen = d.siLen := by simpa using hsame
      refine ⟨fun _ => hw, fun hn => absurd (hv.symm.trans hn) nofun, hcrc, hsi, fun hc => ?_, fun d'' hd'' j hj => ?_⟩
      · rw [← crcFlag_of_prot hd', hp, crcFlag_of_prot hword]
        exact hprot hc
      · cases hd'.symm.trans hd''
        exact hlen d hword j (hl ▸ hj)
  · exact hdrOk_decoded hw

/-! ### The command unit -/

/-- The command unit after a reset that keeps a memory in canonical form (70_reset_and_hazards.md R900, R902). -/
theorem cuOk_reset {m : Memory} (hm : m.wf = true) (v : Vector Word 32) :
    CmdUnit.Ok ({ CmdUnit.reset with val := v, scratch := m } : CmdUnit) :=
  ⟨fmtOk_nil, hm, hdrOk_reset, nofun⟩

theorem cuOk_commandEffect {s u : State} (hs : s.cu.Ok) (h : CommandEffect s u) : u.cu.Ok := by
  have ⟨hfmt, hmem, hhdr, hwait⟩ := hs
  cases h with
  | keep => exact hs
  | setResult w => exact hs
  | clearFormat => exact ⟨fmtOk_nil, hmem, hhdr, hwait⟩
  | appendField e he hn => exact ⟨fmtOk_append hfmt he hn, hmem, hhdr, hwait⟩
  | pack off bs w hb => exact ⟨hfmt, State.storeScratch_wf hb hmem, hhdr, hwait⟩
  | unpack v w => exact hs
  | decodeHeader w hw => exact ⟨hfmt, hmem, hdrOk_decoded hw, hwait⟩
  | capture off avail d w hd =>
    exact ⟨hfmt, hmem, hdrOk_captureSi (hdrOk_captureCrc hhdr hd _ _ _) ((info_captureCrc _ _ _).trans hd) _ _ _, hwait⟩
  | encodeHeader off bs d h w hd hb hh =>
    refine ⟨hfmt, State.storeScratch_wf hb hmem, ?_, hwait⟩
    rcases hh with rfl | ⟨hp, c, rfl⟩
    · exact hhdr
    · exact hdrOk_storeCrc hhdr hd hp c
  | replaceField d w hd hw => exact ⟨hfmt, hmem, hdrOk_withWord hhdr hd hw, hwait⟩
  | onEngine e he => exact hs

/-! ### The engine: run state, step in progress and requests (43_engine.md R710 to R713, R744, R810) -/

/-- What holds of an engine with a step in progress, or one that begins: whatever the step then does to the stream, the
session and the counters. -/
structure Stepping (e : Engine) : Prop where
  run : e.run = .run ∨ e.run = .step
  pause : e.pauseReq = true → e.run = .run
  resume : e.resumeReq = true → e.run = .step
  abort : e.abortOwed = false
  err : e.err = none

theorem stepping_of_running {e : Engine} (hr : e.RunOk) (h : e.run = .run ∨ e.run = .step) : Stepping e := by
  obtain ⟨-, -, hpause, hresume, habort, -, herr⟩ := hr
  refine ⟨h, fun hp => (hpause hp).1, fun hq => (hresume hq).1, Bool.eq_false_iff.2 fun ha => ?_, herr (.inl ?_)⟩
  · rw [habort ha] at h; simp at h
  · rcases h with h | h <;> rw [h] <;> rfl

theorem stepping_of_work {e : Engine} (hr : e.RunOk) (hw : e.work ≠ .between) : Stepping e :=
  stepping_of_running hr (hr.1 hw)

theorem stepping_of_detects {e : Engine} (hr : e.RunOk) (h : e.Detects) : Stepping e := by
  rcases h with ⟨-, ⟨hrun, -⟩ | hrun⟩ | ⟨n, hw, -⟩
  · exact stepping_of_running hr (.inl hrun)
  · exact stepping_of_running hr (.inr hrun)
  · exact stepping_of_work hr (by rw [hw]; nofun)

/-- The step goes on with `w` in progress, which has looked at the stream. -/
theorem runOk_withWork {e : Engine} (he : Stepping e) {w : Work} (hw : w.underway = true) : ({ e with work := w } : Engine).RunOk := by
  have hne : w ≠ .between := by rintro rfl; cases hw
  refine ⟨fun _ => he.run, fun _ => hne, fun hp => ⟨he.pause hp, hne⟩, fun hq => ⟨he.resume hq, hw⟩,
    fun ha => absurd (he.abort.symm.trans ha) nofun, fun hx => ?_, fun _ => he.err⟩
  change e.run = .error at hx
  rcases he.run with h | h <;> cases h.symm.trans hx

theorem resumeReq_of_run {e : Engine} (he : Stepping e) (hr : e.run = .run) : e.resumeReq = false :=
  Bool.eq_false_iff.2 fun h => by cases hr.symm.trans (he.resume h)

theorem pauseReq_of_step {e : Engine} (he : Stepping e) (hr : e.run = .step) : e.pauseReq = false :=
  Bool.eq_false_iff.2 fun h => by cases hr.symm.trans (he.pause h)

/-- The end of the step leads to RUN or PAUSED with nothing requested. -/
theorem runOk_boundary {e : Engine} (he : Stepping e) : e.boundary.RunOk := by
  have habort : e.abortOwed = false := he.abort
  have herr : e.err = none := he.err
  rcases e.boundary_cases with ⟨hr, hp, hb⟩ | ⟨hr, hp, hb⟩ | ⟨hr, hq, hb⟩ | ⟨hr, hq, hb⟩ | ⟨hr, hs, hb⟩
  · rw [hb]; simp [Engine.RunOk, hr, hp, resumeReq_of_run he hr, habort, herr]
  · rw [hb]; simp [Engine.RunOk, resumeReq_of_run he hr, habort, herr]
  · rw [hb]; simp [Engine.RunOk, pauseReq_of_step he hr, hq, habort, herr]
  · rw [hb]; simp [Engine.RunOk, pauseReq_of_step he hr, habort, herr]
  · exact absurd he.run (by simp [hr, hs])

theorem runOk_finish {e : Engine} (he : Stepping e) : e.finish.RunOk := by
  simp [Engine.RunOk, he.abort, he.err]

theorem runOk_fatal {e : Engine} (he : Stepping e) (code : ErrCode) (off : Nat) : (e.fatal code off).RunOk := by
  simp [Engine.RunOk, RunState.active, he.abort]

/-! ### The engine: stream and window (43_engine.md R700, R702, R734) -/

/-- Between two steps the window begins at `P`. -/
theorem streamOk_between {e : Engine} (hw : e.work = .between)
    (h : e.d < 2 ^ 64 → e.p ≤ e.d ∧ (e.run.active = true → e.d - e.p ≤ 8192)) : e.StreamOk := by
  intro hd
  obtain ⟨hp, hwin⟩ := h hd
  refine ⟨hp, by simp only [Engine.WorkOk, hw], fun ha => ?_⟩
  simpa only [Engine.windowBase, hw] using hwin ha

theorem streamOk_boundary {e : Engine} (h : e.d < 2 ^ 64 → e.p ≤ e.d ∧ e.d - e.p ≤ 8192) : e.boundary.StreamOk := by
  have hp : e.boundary.p = e.p := by rw [Engine.boundary_eq]; rfl
  have hd : e.boundary.d = e.d := by rw [Engine.boundary_eq]; rfl
  refine streamOk_between (by rw [Engine.boundary_eq]) ?_
  rw [hp, hd]
  exact fun hlt => ⟨(h hlt).1, fun _ => (h hlt).2⟩

/-- The window of a frame that is to be consumed does not begin past the frame's end. -/
theorem windowBase_le {e : Engine} {a : Accepted} (h : e.work = .push a ∨ e.work = .drop a) :
    e.windowBase ≤ e.p + a.cand.len := by
  rcases h with h | h <;> simp only [Engine.windowBase, h] <;> split <;> omega

theorem active_of_stepping {e : Engine} (he : Stepping e) : e.run.active = true := by
  rcases he.run with h | h <;> rw [h] <;> rfl

/-- Before a step has accepted a frame the window begins at `P`. -/
theorem windowBase_of_detects {e : Engine} (h : e.Detects) : e.windowBase = e.p := by
  rcases h with ⟨hw, -⟩ | ⟨n, hw, -⟩ <;> simp only [Engine.windowBase, hw]

/-! ### One move of the engine -/

/-- A frame at `P` that has arrived is consumed: `P` moves to its end, and the window then begins there. -/
theorem consume_bounds {e : Engine} {a : Accepted} (he : e.Ok) (hw : e.work = .push a ∨ e.work = .drop a)
    (hl : e.d < 2 ^ 64 → e.p + a.cand.len ≤ e.d) :
    e.d < 2 ^ 64 → (e.consume a).p ≤ e.d ∧ e.d - (e.consume a).p ≤ 8192 := by
  obtain ⟨-, hrun, hstream⟩ := he
  intro hd
  have hstep := stepping_of_work hrun (by rcases hw with hw | hw <;> rw [hw] <;> nofun)
  obtain ⟨-, -, hwin⟩ := hstream hd
  have hwin : e.d - e.windowBase ≤ 8192 := hwin (active_of_stepping hstep)
  have hp : (e.consume a).p = e.p + a.cand.len := pos_advance (hl hd) hd
  have hb := windowBase_le hw
  have := hl hd
  omega

theorem engOk_commitEmitted {e : Engine} {a : Accepted} (he : e.Ok) (hw : e.work = .push a) (hf : e.fifo.length < 16) :
    (e.commitEmitted a).1.Ok := by
  have ⟨_, hrun, hstream⟩ := he
  have hstep := stepping_of_work hrun (by rw [hw]; nofun)
  have hl : e.d < 2 ^ 64 → e.p + a.cand.len ≤ e.d := fun hd => by
    obtain ⟨-, hwork, -⟩ := hstream hd
    simp only [Engine.WorkOk, hw] at hwork
    exact hwork.2.2
  refine ⟨?_, runOk_boundary ⟨hstep.run, hstep.pause, hstep.resume, hstep.abort, hstep.err⟩,
    streamOk_boundary (consume_bounds he (.inl hw) hl)⟩
  simp only [Engine.commitEmitted]
  rw [Engine.boundary_eq]
  simpa using hf

theorem engOk_commitSuppressed {e : Engine} {a : Accepted} (he : e.Ok) (hw : e.work = .drop a) (hl : e.p + a.cand.len ≤ e.d) :
    (e.commitSuppressed a).1.Ok := by
  have ⟨hfifo, hrun, _⟩ := he
  have hstep := stepping_of_work hrun (by rw [hw]; nofun)
  refine ⟨?_, runOk_boundary ⟨hstep.run, hstep.pause, hstep.resume, hstep.abort, hstep.err⟩,
    streamOk_boundary (consume_bounds he (.inr hw) fun _ => hl)⟩
  simp only [Engine.commitSuppressed]
  rw [Engine.boundary_eq]
  exact hfifo

/-- The session ends: the window is no more needed. -/
theorem streamOk_ended {e e' : Engine} (he : e.StreamOk) (hw : e'.work = .between) (hr : e'.run.active = false)
    (hd : e'.d = e.d) (hp : e'.p = e.p) : e'.StreamOk :=
  streamOk_between hw fun h => ⟨by rw [hd] at h ⊢; rw [hp]; exact (he h).1, fun ha => absurd (hr.symm.trans ha) nofun⟩

/-- What a step settles leaves what a step in progress needs. -/
theorem stepping_settle {e : Engine} (he : Stepping e) (sess : Session) (lost resynced : Bool) :
    Stepping (e.settle sess lost resynced) := ⟨he.run, he.pause, he.resume, he.abort, he.err⟩

theorem engOk_finish {e : Engine} (he : e.Ok) (hs : Stepping e) (sess : Session) (lost resynced : Bool) :
    (e.settle sess lost resynced).finish.Ok :=
  ⟨he.1, runOk_finish (stepping_settle hs _ _ _), streamOk_ended he.2.2 rfl rfl rfl rfl⟩

theorem engOk_fatal {e : Engine} (he : e.Ok) (hs : Stepping e) (sess : Session) (lost resynced : Bool) (code : ErrCode) (off : Nat) :
    ((e.settle sess lost resynced).fatal code off).Ok :=
  ⟨he.1, runOk_fatal (stepping_settle hs _ _ _) _ _, streamOk_ended he.2.2 rfl rfl rfl rfl⟩

theorem engOk_truncated {e : Engine} {a : Accepted} (he : e.Ok) (hs : Stepping e) : (e.truncated a).1.Ok := by
  simp only [Engine.truncated]
  split
  · exact engOk_finish he hs _ _ _
  · exact engOk_fatal he hs _ _ _ _ _

/-- A decision that discards a byte or accepts a candidate was made with `MIN_REMAIN` bytes there, and what it accepts is
well formed (R720). -/
theorem decision_facts {e : Engine} {d : Decision} (h : e.decision = .ok d) :
    (d.verdict = .discard → e.p + 5 ≤ e.d) ∧ ∀ c, d.verdict = .accept c → c.Ok := by
  rcases Engine.decision_cases h with ⟨-, -, rfl⟩ | ⟨hl, ⟨s1, code, off, -, rfl⟩ | ⟨s1, rfl⟩ | ⟨s1, c, -, hf, rfl⟩
    | ⟨s1, c, -, hf, -, -, s2, ⟨code, off, -, rfl⟩ | ⟨c', -, rfl⟩⟩⟩
  · dsimp only
    split <;> exact ⟨nofun, nofun⟩
  · exact ⟨nofun, nofun⟩
  · refine ⟨fun _ => hl, fun c hc => ?_⟩
    simp only [Engine.noCandidate] at hc
    split at hc <;> cases hc
  · refine ⟨nofun, fun c' hc => ?_⟩
    cases hc; exact find_ok hf
  · exact ⟨nofun, nofun⟩
  · refine ⟨nofun, fun c'' hc => ?_⟩
    cases hc; exact find_ok hf

/-- The window of an engine that detects. -/
theorem window_of_detects {e : Engine} (he : e.Ok) (hdet : e.Detects) (hd : e.d < 2 ^ 64) : e.p ≤ e.d ∧ e.d - e.p ≤ 8192 := by
  obtain ⟨hp, -, hwin⟩ := he.2.2 hd
  rw [windowBase_of_detects hdet] at hwin
  exact ⟨hp, hwin (active_of_stepping (stepping_of_detects he.2.1 hdet))⟩

theorem engOk_act {e : Engine} {d : Decision} (he : e.Ok) (hdet : e.Detects) (hdec : e.decision = .ok d) : (e.act d).1.Ok := by
  have hstep := stepping_of_detects he.2.1 hdet
  obtain ⟨hdiscard, haccept⟩ := decision_facts hdec
  unfold Engine.act
  split
  · exact engOk_finish he hstep _ _ _
  · exact engOk_fatal he hstep _ _ _ _ _
  · next hv =>
    have hl := hdiscard hv
    refine ⟨?_, runOk_boundary ⟨hstep.run, hstep.pause, hstep.resume, hstep.abort, hstep.err⟩, streamOk_boundary fun hd => ?_⟩
    · dsimp only
      rw [Engine.boundary_eq]
      exact he.1
    · obtain ⟨-, hwin⟩ := window_of_detects he hdet hd
      have hp : (e.pos + 1).toNat = e.p + 1 := pos_advance (n := 1) (by change e.p + 1 ≤ e.d; omega) hd
      change (e.pos + 1).toNat ≤ e.d ∧ e.d - (e.pos + 1).toNat ≤ 8192
      omega
  · next c hv =>
    have hc := haccept c hv
    dsimp only
    split
    · next hemit =>
      refine ⟨he.1, runOk_withWork hstep rfl, fun hd => ?_⟩
      obtain ⟨hp, hwin⟩ := window_of_detects he hdet hd
      refine ⟨hp, ⟨hc, hemit, Nat.zero_le _, hp⟩, fun _ => ?_⟩
      change e.d - (if c.len > 8192 then e.p + 0 else e.p) ≤ 8192
      split <;> omega
    · next hdrop =>
      refine ⟨he.1, runOk_withWork hstep rfl, fun hd => ?_⟩
      obtain ⟨hp, hwin⟩ := window_of_detects he hdet hd
      refine ⟨hp, ⟨hc, Bool.eq_false_iff.2 hdrop⟩, fun _ => ?_⟩
      change e.d - (if c.len > 8192 then min (e.p + c.len) e.d else e.p) ≤ 8192
      split <;> omega

/-- A detection that waits names a byte of the window that can still arrive (R703). -/
theorem engOk_wait {e : Engine} {n : Nat} (he : e.Ok) (hdet : e.Detects) (hdec : e.decision = .error n) :
    ({ e with work := .detect n } : Engine).Ok := by
  obtain ⟨-, hlt, hle⟩ := Engine.decision_error mfhc_constraints.2 hdec
  refine ⟨he.1, runOk_withWork (stepping_of_detects he.2.1 hdet) (decide_eq_true (by omega)), fun hd => ?_⟩
  obtain ⟨hp, hwin⟩ := window_of_detects he hdet hd
  exact ⟨hp, hle, fun _ => hwin⟩

/-- A pause taken between two steps (R713). -/
theorem engOk_pause {e : Engine} (he : e.Ok) (hr : e.run = .run) (hw : e.work = .between) :
    ({ e with run := .paused, pauseReq := false, work := .between } : Engine).Ok := by
  obtain ⟨hfifo, hrun, hstream⟩ := he
  have hstep := stepping_of_running hrun (.inl hr)
  have hq : e.resumeReq = false := hrun.requests.2 (by rw [hr]; nofun)
  refine ⟨hfifo, by simp [Engine.RunOk, hq, hstep.abort, hstep.err], streamOk_between rfl fun hd => ?_⟩
  obtain ⟨hp, -, hwin⟩ := hstream hd
  simp only [Engine.windowBase, hw] at hwin
  exact ⟨hp, fun _ => hwin (active_of_stepping hstep)⟩

theorem engOk_move {e : Engine} (he : e.Ok) : e.move.1.Ok := by
  rcases e.move_cases with hm | ⟨hw, hr, -, hm⟩ | ⟨hdet, n, hdec, hm⟩ | ⟨hdet, d, hdec, hm⟩ | ⟨a, hw, hf, hm⟩ | ⟨a, hw, hl, hm⟩
    | ⟨a, hw, hm⟩ <;> rw [hm]
  · exact he
  · exact engOk_pause he hr hw
  · exact engOk_wait he hdet hdec
  · exact engOk_act he hdet hdec
  · exact engOk_commitEmitted he hw hf
  · exact engOk_commitSuppressed he hw hl
  · refine engOk_truncated he (stepping_of_work he.2.1 ?_)
    rcases hw with ⟨hw, -, -⟩ | hw <;> rw [hw] <;> nofun

/-! ### The commands on the engine -/

theorem engOk_reset : (Engine.reset : Engine).Ok :=
  ⟨Nat.zero_le _, by simp [Engine.RunOk, Engine.reset, RunState.active],
    streamOk_between rfl fun _ => ⟨le_rfl, nofun⟩⟩

theorem engOk_started (e : Engine) (poly init : Half) : (e.started poly init).Ok :=
  ⟨Nat.zero_le _, by simp [Engine.RunOk], fun _ => ⟨le_rfl, Nat.zero_le _, fun _ => Nat.zero_le _⟩⟩

/-- In PAUSED there is no step in progress and nothing is requested (R712, R713). -/
theorem paused_facts {e : Engine} (hr : e.RunOk) (hp : e.run = .paused) :
    e.work = .between ∧ e.pauseReq = false ∧ e.resumeReq = false ∧ e.abortOwed = false ∧ e.err = none := by
  have hreq := hr.requests
  obtain ⟨hw, -, -, -, habort, -, herr⟩ := hr
  refine ⟨by_contra fun h => ?_, hreq.1 (by simp [hp]), hreq.2 (by simp [hp]), Bool.eq_false_iff.2 fun h => ?_, herr (.inl ?_)⟩
  · simpa [hp] using hw h
  · cases hp.symm.trans (habort h)
  · rw [hp]; rfl

theorem engOk_engineEffect {e e' : Engine} {poly init : Half} (he : e.Ok) (h : EngineEffect poly init e e') : e'.Ok := by
  have ⟨hfifo, hrun, hstream⟩ := he
  cases h with
  | start hr => exact engOk_started e poly init
  | requestPause hr hw =>
    obtain ⟨h1, h2, -, h4, h5, h6, h7⟩ := hrun
    exact ⟨hfifo, ⟨h1, h2, fun _ => ⟨hr, hw⟩, h4, h5, h6, h7⟩, hstream⟩
  | pauseNow hr hw => exact engOk_pause he hr hw
  | resume hr =>
    obtain ⟨hw, hp, hq, ha, herr⟩ := paused_facts hrun hr
    refine ⟨hfifo, by simp [Engine.RunOk, hp, hq, ha, herr], fun hd => ?_⟩
    obtain ⟨hpd, hwork, hwin⟩ := hstream hd
    exact ⟨hpd, hwork, fun _ => hwin (by rw [hr]; rfl)⟩
  | resumeAtEnd hr hw =>
    obtain ⟨h1, h2, h3, -, h5, h6, h7⟩ := hrun
    exact ⟨hfifo, ⟨h1, h2, h3, fun _ => ⟨hr, hw⟩, h5, h6, h7⟩, hstream⟩
  | resumeUnlooked hr hw =>
    have hstep := stepping_of_running hrun (.inr hr)
    have hp : e.pauseReq = false := hrun.requests.1 (by rw [hr]; nofun)
    have ⟨_, _, _, hresume, _⟩ := hrun
    have hq : e.resumeReq = false := Bool.eq_false_iff.2 fun h => by cases hw.symm.trans (hresume h).2
    refine ⟨hfifo, by simp [Engine.RunOk, hp, hq, hstep.abort, hstep.err], fun hd => ?_⟩
    obtain ⟨hpd, hwork, hwin⟩ := hstream hd
    exact ⟨hpd, hwork, fun _ => hwin (active_of_stepping hstep)⟩
  | dropPause hr =>
    obtain ⟨h1, h2, -, h4, h5, h6, h7⟩ := hrun
    exact ⟨hfifo, ⟨h1, h2, nofun, h4, h5, h6, h7⟩, hstream⟩
  | singleStep hr =>
    obtain ⟨hw, hp, hq, ha, herr⟩ := paused_facts hrun hr
    refine ⟨hfifo, by simp [Engine.RunOk, hp, hq, ha, herr], fun hd => ?_⟩
    obtain ⟨hpd, -, hwin⟩ := hstream hd
    simp only [Engine.windowBase, hw] at hwin
    exact ⟨hpd, Nat.zero_le _, fun _ => hwin (by rw [hr]; rfl)⟩
  | abort =>
    refine ⟨hfifo, by simp [Engine.RunOk, RunState.active], streamOk_ended hstream rfl rfl rfl rfl⟩
  | popRecord r rest hf =>
    refine ⟨?_, hrun, hstream⟩
    rw [hf, List.length_cons] at hfifo
    exact Nat.le_of_succ_le hfifo

/-! ### The host's ports on the engine (R700, R701) -/

/-- A byte that the port accepts fits the window. -/
theorem engOk_deliver {e : Engine} (he : e.Ok) (h : e.acceptsByte = true) (b : Byte) : (e.deliver b).Ok := by
  obtain ⟨hfifo, hrun, hstream⟩ := he
  obtain ⟨⟨hactive, heos⟩, hroom⟩ : (e.run.active = true ∧ e.eos = false) ∧ e.windowLen < 8192 := by
    simpa [Engine.acceptsByte] using h
  have hroom' : e.d - e.windowBase < 8192 := by
    simp only [Engine.windowLen] at hroom
    omega
  have hd' : (e.deliver b).d = e.d + 1 := by simp [Engine.d]
  have hp' : (e.deliver b).p = e.p := rfl
  have hbase : e.windowBase ≤ (e.deliver b).windowBase := by
    simp only [Engine.windowBase, Engine.deliver_work, hp', hd']
    cases e.work with
    | drop a => dsimp only; split <;> omega
    | closed a => dsimp only; split <;> omega
    | _ => exact le_rfl
  refine ⟨hfifo, hrun, fun hd => ?_⟩
  rw [hd'] at hd ⊢
  obtain ⟨hpd, hwork, -⟩ := hstream (by omega)
  refine ⟨by rw [hp']; omega, ?_, fun _ => by rw [mfhc_capacity]; omega⟩
  unfold Engine.WorkOk at hwork ⊢
  rw [Engine.deliver_work, hd', hp']
  cases hw : e.work <;> rw [hw] at hwork <;> dsimp only at hwork ⊢
  case detect n => exact hwork
  case emit a sent => exact ⟨hwork.1, hwork.2.1, hwork.2.2.1, by omega⟩
  case push a => exact ⟨hwork.1, hwork.2.1, by omega⟩
  case drop a => exact hwork
  case closed a => exact absurd (heos.symm.trans hwork.2.2.1) nofun

theorem engOk_deliverEos {e : Engine} (he : e.Ok) : e.deliverEos.Ok := by
  obtain ⟨hfifo, hrun, hstream⟩ := he
  refine ⟨hfifo, hrun, fun hd => ?_⟩
  obtain ⟨hpd, hwork, hwin⟩ := hstream hd
  refine ⟨hpd, ?_, hwin⟩
  unfold Engine.WorkOk at hwork ⊢
  rw [Engine.deliverEos_work]
  cases hw : e.work <;> rw [hw] at hwork
  case closed a => exact ⟨hwork.1, hwork.2.1, rfl, hwork.2.2.2⟩
  all_goals exact hwork

/-- The output of a frame goes on: to its next byte, to its record, or to its cut (R730, R731). -/
theorem engOk_taken {e : Engine} (he : e.Ok) : e.taken.Ok := by
  have ⟨hfifo, hrun, hstream⟩ := he
  rcases e.taken_cases with ⟨ha, ht⟩ | ⟨-, ht | ⟨a, sent, hw, hl, ht⟩ | ⟨a, sent, hw, hl, hd, ht⟩ | ⟨a, sent, hw, hl, hd, heos, ht⟩⟩
      <;> rw [ht]
  · obtain ⟨h1, h2, h3, h4, -, h6, h7⟩ := hrun
    exact ⟨hfifo, ⟨h1, h2, h3, h4, nofun, h6, h7⟩, hstream⟩
  · exact he
  all_goals
    have hstep := stepping_of_work hrun (by rw [hw]; nofun)
    refine ⟨hfifo, runOk_withWork hstep rfl, fun hlt => ?_⟩
    obtain ⟨hpd, hwork, hwin⟩ := hstream hlt
    have hwin := hwin (active_of_stepping hstep)
    simp only [Engine.WorkOk, hw] at hwork
    simp only [Engine.windowBase, hw] at hwin
    obtain ⟨hc, hemit, hsent, harrived⟩ := hwork
    refine ⟨hpd, ?_, fun _ => ?_⟩
  · exact ⟨hc, hemit, by change e.p + a.cand.len ≤ e.d; omega⟩
  · change e.d - (if a.cand.len > 8192 then e.p + a.cand.len else e.p) ≤ 8192
    split at hwin <;> split <;> omega
  · exact ⟨hc, hemit, hl, by change e.p + (sent + 1) ≤ e.d; omega⟩
  · change e.d - (if a.cand.len > 8192 then e.p + (sent + 1) else e.p) ≤ 8192
    split at hwin <;> split <;> omega
  · exact ⟨hc, hemit, heos, by change e.d < e.p + a.cand.len; omega⟩
  · change e.d - (if a.cand.len > 8192 then min (e.p + a.cand.len) e.d else e.p) ≤ 8192
    split at hwin <;> split <;> omega

/-! ### The command unit under the moves of the agents -/

theorem cuOk_runCommand {s t : State} {w : Word} (hs : s.cu.Ok) (ht : runCommand w s = .next t) : t.cu.Ok :=
  runCommand_keeps (P := fun u => u.cu.Ok) ht hs (fun _ => cuOk_commandEffect hs) (fun _ hu => hu) (fun _ h => h)

theorem cuOk_softReset {s : State} (hs : s.cu.Ok) : s.softReset.cu.Ok := by
  obtain ⟨-, hmem, -, -⟩ := hs
  exact cuOk_reset hmem _

theorem cuOk_endCommand {s : State} (hs : s.cu.Ok) : s.endCommand.cu.Ok := by
  rw [State.endCommand_eq]
  split
  · exact cuOk_softReset hs
  · next hw =>
    obtain ⟨hfmt, hmem, hhdr, -⟩ := hs
    exact ⟨hfmt, hmem, hhdr, fun h => absurd h hw⟩

theorem cuOk_markExecuted {s : State} (hs : s.cu.Ok) (w : Word) : (s.markExecuted w).cu.Ok := by
  obtain ⟨hfmt, hmem, hhdr, -⟩ := hs
  exact ⟨hfmt, hmem, hhdr, fun _ => rfl⟩

theorem cuOk_commandMove {s t : State} (hs : s.cu.Ok) (h : commandMove s = .next t) : t.cu.Ok := by
  rcases commandMove_cases s with ⟨-, hm⟩ | ⟨f, -, ⟨-, hm⟩ | ⟨-, u, hu, -, hm⟩⟩ <;> cases hm.symm.trans h
  · exact hs
  · exact cuOk_endCommand hs
  · exact cuOk_endCommand (cuOk_runCommand hs hu)

theorem cuOk_commandEffectMove {s t : State} (hs : s.cu.Ok) (h : commandEffectMove s = .next t) : t.cu.Ok := by
  rcases commandEffectMove_cases s with hm | ⟨f, -, -, u, hu, -, hm⟩ <;> cases hm.symm.trans h
  · exact hs
  · exact cuOk_markExecuted (cuOk_runCommand hs hu) _

theorem cuOk_unlessBusy {s t : State} (hs : s.cu.Ok) (ht : t.cu.Ok) : (s.unlessBusy t).cu.Ok := by
  unfold State.unlessBusy
  split
  · exact hs
  · exact ht

/-- A write to a register (20_memory.md R202, R205 to R207): only `CTRL`, `CMD` and SCRATCH reach what the invariant
speaks of. -/
theorem cuOk_writeReg {s : State} (hs : s.cu.Ok) (r : Reg) (v : Word) : (s.writeReg r v).cu.Ok := by
  have ⟨hfmt, hmem, hhdr, hwait⟩ := hs
  cases r with
  | ctrl =>
    simp only [State.writeReg]
    split
    · split
      · next hb => exact ⟨hfmt, hmem, hhdr, fun _ => hb⟩
      · exact cuOk_softReset hs
    · exact hs
  | cmd => exact cuOk_unlessBusy hs ⟨hfmt, hmem, hhdr, fun _ => rfl⟩
  | scratch k => exact cuOk_unlessBusy hs ⟨hfmt, Memory.wf_writeWord k v hmem, hhdr, hwait⟩
  | scratchLen => exact cuOk_unlessBusy hs hs
  | fmtExpect => exact cuOk_unlessBusy hs hs
  | hdrIn => exact cuOk_unlessBusy hs hs
  | crcPoly => exact cuOk_unlessBusy hs hs
  | crcInit => exact cuOk_unlessBusy hs hs
  | val i => exact cuOk_unlessBusy hs hs
  | _ => exact hs

/-- Of the host's operations only a register write and the reset input reach the command unit. -/
theorem cuOk_hostDo {s : State} (hs : s.cu.Ok) (op : HostOp) : (hostDo s op).cu.Ok := by
  cases op with
  | wr a v =>
    rcases s.hostWrite_cases a v with h | ⟨off, -, h⟩ <;> simp only [hostDo, h]
    · exact hs
    · exact cuOk_writeReg hs _ v
  | rd a => rcases s.hostRead_cases a with h | ⟨off, -, h⟩ <;> simp only [hostDo, h] <;> exact hs
  | inByte b =>
    simp only [hostDo]
    split
    · exact hs
    · split <;> exact hs
  | inEos =>
    simp only [hostDo]
    split
    · exact hs
    · split <;> exact hs
  | take =>
    simp only [hostDo]
    split
    · exact hs
    · split <;> exact hs
  | wait => simp only [hostDo]; split <;> exact hs
  | hwReset => exact cuOk_reset Memory.wf_nil _

theorem cuOk_hostMove {s : State} (hs : s.cu.Ok) : (hostMove s).cu.Ok := by
  unfold hostMove
  split
  · exact hs
  · exact cuOk_hostDo hs _

theorem cuOk_step {s t : State} (hs : s.cu.Ok) (h : step s = .next t) : t.cu.Ok := by
  rw [step] at h
  cases ha : s.agent <;> rw [ha] at h
  case host => cases h; exact cuOk_hostMove (s := s.popTurn) hs
  case commandUnit => exact cuOk_commandMove (s := s.popTurn) hs h
  case commandEffect => exact cuOk_commandEffectMove (s := s.popTurn) hs h
  case engine => cases h; exact hs

/-! ### The step -/

theorem engOk_engineChange {e e' : Engine} (he : e.Ok) (h : EngineChange e e') : e'.Ok := by
  cases h with
  | keep => exact he
  | move => exact engOk_move he
  | command poly init e' h => exact engOk_engineEffect he h
  | configure cfg margin lowWater => exact he
  | deliver b h => exact engOk_deliver he h b
  | deliverEos h => exact engOk_deliverEos he
  | take => exact engOk_taken he
  | reset => exact engOk_reset

/-- Settles O60: whichever agent moves, what it does to the command unit and to the engine keeps their parts. -/
theorem stepKeepsInvariant : Obligations.StepKeepsInvariant := by
  unfold Obligations.StepKeepsInvariant
  intro s t hs h
  exact ⟨cuOk_step hs.1 h, engOk_engineChange hs.2 (engineChange_step h)⟩

end Sys2Proof.Proofs.Invariant

/-! PROOFS. Words of the register space: the fields of a word that is packed from a number, the lanes of a word made of
four bytes, and the two words of a position. -/

namespace Sys2Proof.Proofs.Words

open Sys2Proof.Machine
open Sys2Proof.Model hiding State CmdUnit HdrState HdrInfo Engine Counters Record Reg View

/-! ### Fields of a packed word -/

theorem toNat_field {n lo w : Nat} (h : lo + w ≤ 32) : ((BitVec.ofNat 32 n).extractLsb' lo w).toNat = n / 2 ^ lo % 2 ^ w := by
  rw [BitVec.extractLsb'_toNat, BitVec.toNat_ofNat, Nat.shiftRight_eq_div_pow]
  obtain ⟨k, hk⟩ := Nat.exists_eq_add_of_le h
  rw [hk, Nat.add_assoc, Nat.pow_add, Nat.mod_mul_right_div_self, Nat.pow_add, Nat.mod_mul_right_mod]

theorem bit_eq {n i : Nat} {b : Bool} (hi : i < 32) (h : n / 2 ^ i % 2 = b.toNat) : (BitVec.ofNat 32 n).getLsbD i = b := by
  rw [BitVec.getLsbD_ofNat, decide_eq_true hi, Bool.true_and, Nat.testBit_eq_decide_div_mod_eq, h]
  cases b <;> rfl

/-- The bits of a field that holds 0. -/
theorem bit_of_zero_field {n lo w i : Nat} (h : n / 2 ^ lo % 2 ^ w = 0) (hlo : lo ≤ i) (hi : i < lo + w) :
    (BitVec.ofNat 32 n).getLsbD i = false := by
  have hbit : n.testBit i = (n / 2 ^ lo % 2 ^ w).testBit (i - lo) := by
    rw [Nat.testBit_mod_two_pow, decide_eq_true (by omega), Bool.true_and, Nat.testBit_div_two_pow, Nat.sub_add_cancel hlo]
  rw [BitVec.getLsbD_ofNat, hbit, h, Nat.zero_testBit, Bool.and_false]

/-- The bits from `lo` on of a number below `2 ^ lo`. -/
theorem bit_of_lt {n lo i : Nat} (h : n < 2 ^ lo) (hlo : lo ≤ i) : (BitVec.ofNat 32 n).getLsbD i = false := by
  rw [BitVec.getLsbD_ofNat, Nat.testBit_lt_two_pow (h.trans_le (Nat.pow_le_pow_right (by decide) hlo)), Bool.and_false]

/-! ### Little-endian lanes (20_memory.md R210) -/

theorem lane_laneWord (f : Nat → Byte) {j : Nat} (hj : j < 4) :
    (laneWord (f 0) (f 1) (f 2) (f 3)).extractLsb' (8 * j) 8 = f j := by
  unfold laneWord
  interval_cases j
  · exact BitVec.extractLsb'_append_eq_right
  · rw [BitVec.extractLsb'_append_eq_of_le (by decide)]
    exact BitVec.extractLsb'_append_eq_right
  · rw [BitVec.extractLsb'_append_eq_of_le (by decide), BitVec.extractLsb'_append_eq_of_le (by decide)]
    exact BitVec.extractLsb'_append_eq_right
  · rw [BitVec.extractLsb'_append_eq_of_le (by decide), BitVec.extractLsb'_append_eq_of_le (by decide)]
    exact BitVec.extractLsb'_append_eq_left

theorem laneWord_lanes (v : Word) :
    laneWord (v.extractLsb' (8 * 0) 8) (v.extractLsb' (8 * 1) 8) (v.extractLsb' (8 * 2) 8) (v.extractLsb' (8 * 3) 8) = v := by
  unfold laneWord
  rw [BitVec.extractLsb'_append_extractLsb'_eq_extractLsb' (by decide), BitVec.extractLsb'_append_extractLsb'_eq_extractLsb' (by decide),
    BitVec.extractLsb'_append_extractLsb'_eq_extractLsb' (by decide)]
  exact BitVec.extractLsb'_eq_self

theorem getElem_wordLanes (v : Word) {j : Nat} (hj : j < (wordLanes v).length) : (wordLanes v)[j] = v.extractLsb' (8 * j) 8 := by
  rw [wordLanes_length] at hj
  interval_cases j <;> rfl

/-! ### Positions (10_state.md R133, R135) -/

theorem posHi_append_posLo (p : Pos Config.mfhc) : posHi p ++ posLo p = p := by
  unfold posHi posLo
  rw [BitVec.extractLsb'_append_extractLsb'_eq_extractLsb' (by decide)]
  exact BitVec.extractLsb'_eq_self

end Sys2Proof.Proofs.Words

/-! PROOFS. The host's writes: what a write leaves when the command unit is not BUSY, SCRATCH words and the soft reset (O6,
O2, O5). -/

namespace Sys2Proof.Proofs.HostWrites

open Sys2Proof.Machine Sys2Proof.Proofs.Scope Sys2Proof.Proofs.Words
open Sys2Proof.Model hiding State CmdUnit HdrState HdrInfo Engine Counters Record Reg View

theorem unlessBusy_of_not_busy {s : State} (h : s.busy = false) (t : State) : s.unlessBusy t = t := by
  simp [State.unlessBusy, h]

/-! ### SCRATCH words (10_state.md R123, 20_memory.md R210) -/

theorem writeReg_scratch {s : State} (h : s.busy = false) (k : Fin 64) (v : Word) :
    s.writeReg (.scratch k) v
      = { s with cu := { s.cu with scratch := s.cu.scratch.writeBytes (4 * k.val) (wordLanes v) } } :=
  unlessBusy_of_not_busy h _

/-- The lane `j` of the word read is byte `4k + j`. -/
theorem lane_scratchWord (m : Memory) (k : Nat) {j : Nat} (hj : j < 4) :
    (scratchWord m k).extractLsb' (8 * j) 8 = m.read (4 * k + j) := lane_laneWord (fun j => m.read (4 * k + j)) hj

theorem scratchWord_congr {m m' : Memory} {k : Nat} (h : ∀ j < 4, m'.read (4 * k + j) = m.read (4 * k + j)) :
    scratchWord m' k = scratchWord m k := by
  simp only [scratchWord, h 1 (by decide), h 2 (by decide), h 3 (by decide)]
  rw [show m'.read (4 * k) = m.read (4 * k) from h 0 (by decide)]

/-- A memory whose bytes `4k` to `4k + 3` are the lanes of a word reads as the word. -/
theorem scratchWord_of_lanes {m : Memory} {k : Nat} {v : Word} (h : ∀ j < 4, m.read (4 * k + j) = v.extractLsb' (8 * j) 8) :
    scratchWord m k = v := by
  simp only [scratchWord, h 1 (by decide), h 2 (by decide), h 3 (by decide)]
  rw [show m.read (4 * k) = v.extractLsb' (8 * 0) 8 from h 0 (by decide), laneWord_lanes]

/-- Settles O6: the four lanes are written from byte `4k` up, and every clause is a read of the memory written. -/
theorem scratchWordsAreLittleEndian : Obligations.ScratchWordsAreLittleEndian := by
  unfold Obligations.ScratchWordsAreLittleEndian
  intro s k v hbusy hwf
  rw [writeReg_scratch hbusy k v]
  have hfit : 4 * k.val + (wordLanes v).length ≤ 256 := by rw [wordLanes_length]; omega
  have inside : ∀ j, j < 4 → (s.cu.scratch.writeBytes (4 * k.val) (wordLanes v)).read (4 * k.val + j) = v.extractLsb' (8 * j) 8 :=
    fun j hj => (Memory.read_writeBytes_inside (par := Config.mfhc) _ _ _ j hwf hfit hj).trans (getElem_wordLanes v hj)
  have outside : ∀ a, a < 4 * k.val ∨ 4 * k.val + 4 ≤ a →
      (s.cu.scratch.writeBytes (4 * k.val) (wordLanes v)).read a = s.cu.scratch.read a :=
    fun a ha => Memory.read_writeBytes_outside _ _ _ _ ha
  refine ⟨inside, outside, scratchWord_of_lanes inside, fun k' hk => ?_, rfl, Memory.wf_writeWord (par := Config.mfhc) k v hwf⟩
  refine scratchWord_congr fun j hj => outside _ ?_
  have : k'.val ≠ k.val := fun h => hk (Fin.ext h)
  omega

/-! ### Soft reset (70_reset_and_hazards.md R902) -/

/-- The move of the command unit that completes a command a soft reset waits for. -/
theorem commandMove_of_waiting {s : State} {f : InFlight} (hf : s.cu.inFlight = some f) (hw : s.cu.srstWaiting = true) :
    ∃ t, (if f.executed then t = s else runCommand f.word s = .next t) ∧ commandMove s = .next t.softReset := by
  rcases commandMove_cases s with ⟨hn, -⟩ | ⟨f', hf', h⟩
  · cases hf.symm.trans hn
  · cases hf.symm.trans hf'
    rcases h with ⟨he, hm⟩ | ⟨he, t, ht, hc, hm⟩
    · exact ⟨s, by rw [if_pos he], by rw [hm, endCommand_of_waiting hw]⟩
    · exact ⟨t, by rw [he]; exact ht, by rw [hm, endCommand_of_waiting (hc.frame.2.1.trans hw)]⟩

/-- Settles O2: `softReset` at once when not BUSY, else at the end of the command in flight. -/
theorem softResetWaitsAndKeepsVal : Obligations.SoftResetWaitsAndKeepsVal := by
  unfold Obligations.SoftResetWaitsAndKeepsVal
  intro s v
  refine ⟨fun hv => ?_, fun hv hb => ?_, fun hv hb => ?_, fun f => commandMove_of_waiting, rfl⟩
  · simp only [State.writeReg, hv, Bool.false_eq_true, if_false]
  · simp only [State.writeReg, hv, hb, if_true, Bool.false_eq_true, if_false, State.softReset]
  · simp only [State.writeReg, hv, hb, if_true]

/-! ### Read-write registers (10_state.md R114, R117, R118, R122, R125, R128, R130, R131, R143) -/

theorem readReg_scratchLen (s : State) : (s.readReg .scratchLen).toNat = s.cu.scratchLen.val :=
  (BitVec.toNat_ofNat _ _).trans (Nat.mod_eq_of_lt (by have := s.cu.scratchLen.isLt; dsimp only at this; omega))

/-- A register narrower than the bus reads as it is, with the bits above its width 0 (20_memory.md R204). -/
theorem toNat_setWidth_word {w : Nat} (h : w ≤ 32) (x : BitVec w) : (x.setWidth 32).toNat = x.toNat := by
  rw [BitVec.toNat_setWidth]
  exact Nat.mod_eq_of_lt (x.isLt.trans_le (Nat.pow_le_pow_right (by decide) h))

/-- A word written to a register of `w` bits loses the bits above them. -/
theorem toNat_readBack {w : Nat} (h : w ≤ 32) (v : Word) : ((v.setWidth w).setWidth 32).toNat = v.toNat % 2 ^ w := by
  rw [toNat_setWidth_word h, BitVec.toNat_setWidth]

/-- Writing 1 clears (R143). -/
theorem getLsbD_writeOneToClear (p : BitVec 8) (v : Word) (i : Nat) :
    (p &&& ~~~(v.setWidth 8)).getLsbD i = (p.getLsbD i && !v.getLsbD i) := by
  rw [BitVec.getLsbD_and, BitVec.getLsbD_not, BitVec.getLsbD_setWidth]
  by_cases hi : i < 8
  · simp [hi]
  · simp [hi, BitVec.getLsbD_of_ge p i (by omega)]

/-- Settles O5: each write is its record update, and what is read back is the value cut to the register's width. -/
theorem hostWritesReadBack : Obligations.HostWritesReadBack := by
  unfold Obligations.HostWritesReadBack
  intro s v
  refine ⟨fun hb => ?_, ⟨_, rfl, BitVec.toNat_setWidth _ _⟩, toNat_readBack (by decide) v, ⟨_, rfl, BitVec.toNat_setWidth _ _⟩,
    toNat_readBack (by decide) v, ⟨_, rfl, BitVec.toNat_setWidth _ _⟩, toNat_readBack (by decide) v,
    ⟨_, rfl, BitVec.toNat_setWidth _ _⟩, toNat_readBack (by decide) v, ⟨_, rfl, getLsbD_writeOneToClear _ v⟩⟩
  have write : ∀ t, s.unlessBusy t = t := unlessBusy_of_not_busy hb
  refine ⟨write _, ⟨clampLen v.toNat, write _, rfl, ?_⟩, write _, ?_, write _, ?_, fun i => ⟨?_, fun j hj => ?_, ?_⟩,
    ⟨_, write _, BitVec.toNat_setWidth _ _⟩, ?_, ⟨_, write _, BitVec.toNat_setWidth _ _⟩, ?_⟩
  all_goals simp only [State.writeReg, write]
  · exact readReg_scratchLen _
  · rfl
  · rfl
  · exact Vector.getElem_set_self _
  · exact Vector.getElem_set_ne i.isLt j.isLt (fun h => hj (Fin.ext h.symm))
  · exact toNat_readBack (by decide) v
  · exact toNat_readBack (by decide) v

end Sys2Proof.Proofs.HostWrites

/-! PROOFS. The configuration that a session latches: no step inside the session changes it, and the engine's move reads no
other (O43). -/

namespace Sys2Proof.Proofs.Latch

open Sys2Proof.Machine Sys2Proof.Proofs.Commands Sys2Proof.Proofs.EngineChanges
open Sys2Proof.Model hiding State CmdUnit HdrState HdrInfo Engine Counters Record Reg View

/-! ### The latched configuration (10_state.md R141) -/

theorem latch_boundary (e : Engine) : e.boundary.latch = e.latch := by rw [Engine.boundary_eq]

theorem latch_act (e : Engine) (d : Decision) : (e.act d).1.latch = e.latch := by
  unfold Engine.act
  split
  · rfl
  · rfl
  · exact latch_boundary _
  · dsimp only; split <;> rfl

theorem latch_truncated (e : Engine) (a : Accepted) : (e.truncated a).1.latch = e.latch := by
  simp only [Engine.truncated]
  split <;> rfl

theorem latch_move (e : Engine) : e.move.1.latch = e.latch := by
  rcases e.move_cases with hm | ⟨-, -, -, hm⟩ | ⟨-, n, -, hm⟩ | ⟨-, d, -, hm⟩ | ⟨a, -, -, hm⟩ | ⟨a, -, -, hm⟩ | ⟨a, -, hm⟩
      <;> rw [hm]
  · exact latch_act e d
  · exact latch_boundary _
  · exact latch_boundary _
  · exact latch_truncated e a

theorem latch_taken (e : Engine) : e.taken.latch = e.latch := by
  rcases e.taken_cases with ⟨-, ht⟩ | ⟨-, ht | ⟨a, sent, -, -, ht⟩ | ⟨a, sent, -, -, -, ht⟩ | ⟨a, sent, -, -, -, -, ht⟩⟩
      <;> rw [ht]

/-- Only ENG_START latches a configuration, and it raises STATE in a session (43_engine.md R740); a reset ends the session. -/
theorem latch_engineChange {e e' : Engine} (h : EngineChange e e') (ha : e.run.active = true) (ha' : e'.run.active = true) :
    e'.latch = e.latch := by
  cases h with
  | move => exact latch_move e
  | command poly init e' h =>
    cases h with
    | start hr => exact absurd (hr.symm.trans ha) nofun
    | _ => rfl
  | take => exact latch_taken e
  | reset => cases ha'
  | _ => rfl

/-! ### The registers a session does not read (43_engine.md R706, 70_reset_and_hazards.md R923) -/

theorem boundary_configured {e e' : Engine} {cfg : BitVec 4} {margin lowWater : Half}
    (h : e' = configured e cfg margin lowWater) : e'.boundary = configured e.boundary cfg margin lowWater := by
  subst h
  unfold Engine.boundary
  rw [configured_run, configured_pauseReq, configured_resumeReq]
  cases e.run with
  | run => cases e.pauseReq <;> rfl
  | step => cases e.resumeReq <;> rfl
  | _ => rfl

/-- What a move leaves and raises, with other contents of the three registers. -/
def configuredMove (m : Engine × BitVec 8) (cfg : BitVec 4) (margin lowWater : Half) : Engine × BitVec 8 :=
  (configured m.1 cfg margin lowWater, m.2)

theorem act_configured (e : Engine) (d : Decision) (cfg : BitVec 4) (margin lowWater : Half) :
    (configured e cfg margin lowWater).act d = configuredMove (e.act d) cfg margin lowWater := by
  unfold Engine.act
  cases d.verdict with
  | finish => rfl
  | fatal code off => rfl
  | discard => exact congrArg (·, _) (boundary_configured rfl)
  | accept c =>
    dsimp only
    rw [configured_latch]
    cases e.latch.emits c.kind <;> rfl

theorem detectMove_configured (e : Engine) (cfg : BitVec 4) (margin lowWater : Half) :
    (configured e cfg margin lowWater).detectMove = configuredMove e.detectMove cfg margin lowWater := by
  unfold Engine.detectMove
  rw [configured_decision]
  cases e.decision with
  | ok d => exact act_configured e d cfg margin lowWater
  | error n => rfl

theorem truncated_configured (e : Engine) (a : Accepted) (cfg : BitVec 4) (margin lowWater : Half) :
    (configured e cfg margin lowWater).truncated a = configuredMove (e.truncated a) cfg margin lowWater := by
  unfold Engine.truncated
  dsimp only
  rw [configured_latch]
  cases e.latch.skip <;> rfl

theorem move_configured (e : Engine) (cfg : BitVec 4) (margin lowWater : Half) :
    (configured e cfg margin lowWater).move = configuredMove e.move cfg margin lowWater := by
  have detect := detectMove_configured e cfg margin lowWater
  unfold Engine.move
  rw [configured_work, configured_run, configured_pauseReq, configured_stallIn, configured_fifo, configured_eos, configured_d,
    configured_p]
  cases e.work with
  | between =>
    cases e.run with
    | run =>
      cases e.pauseReq with
      | true => exact congrArg (·, _) (boundary_configured rfl)
      | false => exact detect
    | step => exact detect
    | _ => rfl
  | detect n =>
    cases e.stallIn with
    | true => rfl
    | false => exact detect
  | emit a sent => rfl
  | push a =>
    dsimp only
    split
    · exact congrArg (·, _) (boundary_configured rfl)
    · rfl
  | drop a =>
    dsimp only
    split
    · exact congrArg (·, _) (boundary_configured rfl)
    · cases e.eos with
      | true => exact truncated_configured e a cfg margin lowWater
      | false => rfl
  | closed a => exact truncated_configured e a cfg margin lowWater

/-- Settles O43: what a step does to the engine keeps the latched configuration in a session, and the engine's move commutes
with a change of the three registers. -/
theorem latchedConfigurationHoldsForSession : Obligations.LatchedConfigurationHoldsForSession := by
  unfold Obligations.LatchedConfigurationHoldsForSession
  exact ⟨fun s t h => latch_engineChange (engineChange_step h), move_configured⟩

end Sys2Proof.Proofs.Latch

/-! PROOFS. The registers of the format table and of the header state (O8, O9). -/

namespace Sys2Proof.Proofs.CodecRegisters

open Sys2Proof.Machine Sys2Proof.Proofs.Candidates Sys2Proof.Proofs.Words
open Sys2Proof.Model hiding State CmdUnit HdrState HdrInfo Engine Counters Record Reg View

/-! ### The format table (10_state.md R119, R121) -/

/-- 32 fields of at most 32 bits. -/
theorem totalBits_le {f : List FmtEntry} (hf : FmtOk f) : totalBits f ≤ 1024 := by
  obtain ⟨hlen, hok⟩ := hf
  have hwidth : ∀ n ∈ f.map (fun e => e.width.toNat), n ≤ 32 := fun n hn => by
    obtain ⟨e, he, rfl⟩ := List.mem_map.1 hn
    exact (hok e he).2.1
  have hsum := List.sum_le_card_nsmul _ 32 hwidth
  rw [List.length_map, smul_eq_mul] at hsum
  unfold totalBits
  dsimp only at hlen
  omega

theorem fmtDesc_of_getElem? {f : List FmtEntry} {i : Nat} {e : FmtEntry} (h : f[i]? = some e) :
    fmtDesc f i = BitVec.ofNat 32 (e.width.toNat + 2 ^ 6 * e.kind.code + 2 ^ 8 * e.expEn.toNat) := by
  simp only [fmtDesc, h]

/-- A valid entry without an expected constant holds 0 for it, as the register reads (R120, R121). -/
theorem fmtExp_of_getElem? {f : List FmtEntry} {i : Nat} {e : FmtEntry} (h : f[i]? = some e) (he : e.Ok) :
    fmtExp f i = e.exp := by
  obtain ⟨-, -, -, -, hexp⟩ := he
  simp only [fmtExp, h]
  split
  · rfl
  · next hn => exact (hexp (Bool.eq_false_iff.2 hn)).symm

theorem toNat_fmtDesc {f : List FmtEntry} {i : Nat} {e : FmtEntry} (h : f[i]? = some e) :
    (fmtDesc f i).toNat = e.width.toNat + (match e.kind with | .integer => 0 | .boolean => 2 ^ 6) + 2 ^ 8 * e.expEn.toNat := by
  have hw := e.width.isLt
  have he := e.expEn.toNat_le
  rw [fmtDesc_of_getElem? h, BitVec.toNat_ofNat]
  cases e.kind <;> simp only [FieldKind.code] <;> omega

/-- At `COUNT` and above both registers read 0. -/
theorem fmtDesc_fmtExp_above {f : List FmtEntry} {i : Nat} (h : f.length ≤ i) : fmtDesc f i = 0 ∧ fmtExp f i = 0 := by
  simp only [fmtDesc, fmtExp, List.getElem?_eq_none h, and_self]

/-- Settles O8: `COUNT`, `TOTAL_BITS` and `BYTE_LEN` of a valid table fit their fields of `FMT_INFO`. -/
theorem formatRegistersShowTable : Obligations.FormatRegistersShowTable := by
  unfold Obligations.FormatRegistersShowTable
  intro s hf
  have hcount : s.cu.fmt.length ≤ 32 := hf.1
  have htotal : totalBits s.cu.fmt ≤ 1024 := totalBits_le hf
  have hlen : byteLen s.cu.fmt = (totalBits s.cu.fmt + 7) / 8 := rfl
  simp only [State.readReg, fmtInfo]
  refine ⟨?_, ?_, ?_, fun b hb => ?_, fun i e he => ?_, fun i hi => fmtDesc_fmtExp_above hi⟩
  · rw [toNat_field (by decide)]; omega
  · rw [toNat_field (by decide)]
    change _ = totalBits s.cu.fmt
    omega
  · rw [toNat_field (by decide)]
    change _ = byteLen s.cu.fmt
    omega
  · -- the two gaps between the fields
    rcases Nat.lt_or_ge b 8 with h | h
    · exact bit_of_zero_field (lo := 6) (w := 2) (by omega) (by omega) (by omega)
    · exact bit_of_zero_field (lo := 19) (w := 5) (by omega) (by omega) (by omega)
  · exact ⟨toNat_fmtDesc he, fmtExp_of_getElem? he (hf.2 e (List.mem_of_getElem? he))⟩

/-! ### The header state (10_state.md R126, R127) -/

theorem stateBits_bits (h : HdrState) :
    h.stateBits.getLsbD 0 = h.valid ∧ h.stateBits.getLsbD 1 = h.crcCap ∧ h.stateBits.getLsbD 2 = h.siCap
      ∧ ∀ i, 3 ≤ i → h.stateBits.getLsbD i = false := by
  have h0 := h.valid.toNat_le
  have h1 := h.crcCap.toNat_le
  have h2 := h.siCap.toNat_le
  unfold HdrState.stateBits
  exact ⟨bit_eq (by decide) (by omega), bit_eq (by decide) (by omega), bit_eq (by decide) (by omega),
    fun i hi => bit_of_lt (lo := 3) (by omega) hi⟩

/-- Without a valid header the derived registers read 0. -/
theorem derived_of_none {h : HdrState} (hn : h.info = none) (poly init : Half) :
    h.derivedWord = 0 ∧ h.bitrateWord = 0 ∧ h.srateWord = 0 ∧ h.crcWord poly init = 0 ∧ ∀ k, h.siWord k = 0 := by
  have hsi : ∀ j, h.siByte j = 0 := fun j => by simp only [HdrState.siByte, hn]
  refine ⟨by simp only [HdrState.derivedWord, hn], by simp only [HdrState.bitrateWord, hn],
    by simp only [HdrState.srateWord, hn], by simp only [HdrState.crcWord, hn], fun k => ?_⟩
  simp only [HdrState.siWord, hsi]
  rfl

theorem derivedWord_fields {h : HdrState} {d : HdrInfo} (hd : h.info = some d) :
    (h.derivedWord.extractLsb' 0 2).toNat = d.version.code ∧ (h.derivedWord.extractLsb' 2 2).toNat = d.layer.number
      ∧ h.derivedWord.getLsbD 4 = d.prot ∧ h.derivedWord.getLsbD 5 = d.mono
      ∧ h.derivedWord.getLsbD 6 = false ∧ h.derivedWord.getLsbD 7 = false
      ∧ (h.derivedWord.extractLsb' 8 8).toNat = d.hlen ∧ (h.derivedWord.extractLsb' 16 16).toNat = d.flen := by
  have hv : d.version.code ≤ 3 := by cases d.version <;> decide
  have hl : d.layer.number ≤ 3 := by cases d.layer <;> decide
  have hp := d.prot.toNat_le
  have hm := d.mono.toNat_le
  have hhlen := hlen_le d
  obtain ⟨-, hflen⟩ := flen_bounds (HdrState.info_eq_some.1 hd).2
  simp only [HdrState.derivedWord, hd]
  refine ⟨?_, ?_, bit_eq (by decide) (by omega), bit_eq (by decide) (by omega), bit_eq (by decide) ?_, bit_eq (by decide) ?_, ?_, ?_⟩
  · rw [toNat_field (by decide)]; omega
  · rw [toNat_field (by decide)]; omega
  · rw [Bool.toNat_false]; omega
  · rw [Bool.toNat_false]; omega
  · rw [toNat_field (by decide)]; omega
  · rw [toNat_field (by decide)]; omega

theorem rateWords {h : HdrState} {d : HdrInfo} (hd : h.info = some d) :
    h.bitrateWord.toNat = d.kbps ∧ h.srateWord.toNat = d.hz := by
  obtain ⟨hk, hz, -, -⟩ := ofWord_bounds (HdrState.info_eq_some.1 hd).2
  simp only [HdrState.bitrateWord, HdrState.srateWord, hd, BitVec.toNat_ofNat]
  omega

theorem crcWord_halves {h : HdrState} {d : HdrInfo} (hd : h.info = some d) (poly init : Half) :
    (h.crcWord poly init).extractLsb' 0 16 = (if h.crcCap then h.storedCrc else 0)
      ∧ (h.crcWord poly init).extractLsb' 16 16 = (if h.siCap && d.prot then hdrCrc poly init h.word (h.siBytes d) else 0) := by
  simp only [HdrState.crcWord, hd]
  exact ⟨BitVec.extractLsb'_append_eq_right, BitVec.extractLsb'_append_eq_left⟩

theorem lane_siWord {h : HdrState} {d : HdrInfo} (hd : h.info = some d) (k : Nat) {j : Nat} (hj : j < 4) :
    (h.siWord k).extractLsb' (8 * j) 8
      = if h.siCap && decide (4 * k + j < d.siLen) then h.si.toList.getD (4 * k + j) 0 else 0 := by
  rw [List.getD_eq_getElem?_getD, Vector.getElem?_toList]
  refine (lane_laneWord (fun j => h.siByte (4 * k + j)) hj).trans ?_
  simp only [HdrState.siByte, hd]

/-- Settles O9: the derived registers show `HdrState.info`, which is `none` without a valid header. -/
theorem headerRegistersShowHeader : Obligations.HeaderRegistersShowHeader := by
  unfold Obligations.HeaderRegistersShowHeader
  intro s
  refine ⟨⟨rfl, stateBits_bits s.cu.hdr⟩, fun hv => ?_, fun hv d hword => ?_⟩
  · obtain ⟨h1, h2, h3, h4, h5⟩ := derived_of_none (HdrState.info_of_not_valid hv) s.cu.crcPoly s.cu.crcInit
    exact ⟨h1, h2, h3, h4, fun k => h5 k.val⟩
  · have hd : s.cu.hdr.info = some d := HdrState.info_eq_some.2 ⟨hv, hword⟩
    obtain ⟨hversion, hlayer, hprot, hmono, h6, h7, hhlen, hflen⟩ := derivedWord_fields hd
    obtain ⟨hkbps, hhz⟩ := rateWords hd
    obtain ⟨hstored, hcomputed⟩ := crcWord_halves hd s.cu.crcPoly s.cu.crcInit
    refine ⟨hversion.trans ?_, hlayer.trans ?_, hprot, hmono, h6, h7, hhlen, hflen, hkbps, hhz, hstored, hcomputed,
      fun k j hj => lane_siWord hd k.val hj⟩
    · cases d.version <;> rfl
    · cases d.layer <;> rfl

end Sys2Proof.Proofs.CodecRegisters

/-! PROOFS. The status, session, error, counter and record registers, the stall bits and the request lines (O7). -/

namespace Sys2Proof.Proofs.StatusRegisters

open Sys2Proof.Machine Sys2Proof.Proofs.Words Sys2Proof.Proofs.HostWrites
open Sys2Proof.Model hiding State CmdUnit HdrState HdrInfo Engine Counters Record Reg View

/-! ### STATUS (10_state.md R113) -/

theorem statusWord_eq (s : State) :
    s.statusWord
      = BitVec.ofNat 32
          (s.busy.toNat + 2 * (decide (1 ≤ s.eng.fifo.length)).toNat + 4 * (decide (16 ≤ s.eng.fifo.length)).toNat
            + 2 ^ 8 * (s.eng.fifo.length % 2 ^ 5) + 2 ^ 16 * s.eng.eos.toNat) := rfl

theorem statusWord_bits {s : State} (hf : s.eng.fifo.length ≤ 16) :
    s.statusWord.getLsbD 0 = s.cu.inFlight.isSome
      ∧ s.statusWord.getLsbD 1 = decide (1 ≤ s.eng.fifo.length)
      ∧ s.statusWord.getLsbD 2 = decide (s.eng.fifo.length = 16)
      ∧ (s.statusWord.extractLsb' 8 5).toNat = s.eng.fifo.length
      ∧ s.statusWord.getLsbD 16 = s.eng.eos
      ∧ ∀ i, 3 ≤ i ∧ i < 8 ∨ 13 ≤ i ∧ i < 16 ∨ 17 ≤ i → s.statusWord.getLsbD i = false := by
  have hfull : decide (s.eng.fifo.length = 16) = decide (16 ≤ s.eng.fifo.length) := decide_eq_decide.2 (by omega)
  have hbusy := s.busy.toNat_le
  have havail := (decide (1 ≤ s.eng.fifo.length)).toNat_le
  have hfull' := (decide (16 ≤ s.eng.fifo.length)).toNat_le
  have heos := s.eng.eos.toNat_le
  rw [hfull, statusWord_eq]
  refine ⟨bit_eq (b := s.busy) (by decide) (by omega), bit_eq (by decide) (by omega), bit_eq (by decide) (by omega), ?_,
    bit_eq (by decide) (by omega), fun i hi => ?_⟩
  · rw [toNat_field (by decide)]; omega
  · rcases hi with hi | hi | hi
    · exact bit_of_zero_field (lo := 3) (w := 5) (by omega) (by omega) (by omega)
    · exact bit_of_zero_field (lo := 13) (w := 3) (by omega) (by omega) (by omega)
    · exact bit_of_lt (lo := 17) (by omega) hi

/-! ### ENG_STATUS (R132) and the stall bits (log entry 17) -/

theorem engStatus_bits (e : Engine) :
    (e.statusWord.extractLsb' 0 3).toNat = e.run.code
      ∧ e.statusWord.getLsbD 4 = decide (e.sync = .lostSync) ∧ e.statusWord.getLsbD 5 = e.pauseReq
      ∧ e.statusWord.getLsbD 6 = e.stallIn ∧ e.statusWord.getLsbD 7 = e.stallOut
      ∧ ∀ i, i = 3 ∨ 8 ≤ i → e.statusWord.getLsbD i = false := by
  have hrun : e.run.code ≤ 5 := by cases e.run <;> decide
  have hsync := (decide (e.sync = .lostSync)).toNat_le
  have hpause := e.pauseReq.toNat_le
  have hin := e.stallIn.toNat_le
  have hout := e.stallOut.toNat_le
  unfold Engine.statusWord
  refine ⟨?_, bit_eq (by decide) (by omega), bit_eq (by decide) (by omega), bit_eq (by decide) (by omega),
    bit_eq (by decide) (by omega), fun i hi => ?_⟩
  · rw [toNat_field (by decide)]; omega
  · rcases hi with rfl | hi
    · exact bit_eq (by decide) (by rw [Bool.toNat_false]; omega)
    · exact bit_of_lt (lo := 8) (by omega) hi

/-- The engine waits for bytes that a detection needs, or that an accepted frame has up to its end (43_engine.md R703,
R704, R730). -/
theorem stallIn_iff (e : Engine) :
    e.stallIn = true ↔ e.eos = false
      ∧ ((∃ n, e.work = .detect n ∧ e.d < n)
        ∨ ∃ a, ((∃ sent, e.work = .emit a sent) ∨ e.work = .drop a) ∧ e.d < e.p + a.cand.len) := by
  unfold Engine.stallIn
  cases e.work <;> simp

/-- Outside the output of a frame only a record that waits for a full FIFO stalls the output (R701, R731). -/
theorem stallOut_iff_of_not_emit {e : Engine} (hf : e.fifo.length ≤ 16) (hw : ∀ a sent, e.work ≠ .emit a sent) :
    e.stallOut = true ↔ (∃ a, e.work = .push a) ∧ e.fifo.length = 16 := by
  unfold Engine.stallOut
  cases h : e.work with
  | emit a sent => exact absurd h (hw a sent)
  | push a => simp; omega
  | _ => simp

theorem stallOut_iff_of_emit {e : Engine} {a : Accepted} {sent : Nat} (hw : e.work = .emit a sent) :
    e.stallOut = true ↔ ∃ x, e.offer = some x := by
  simp only [Engine.stallOut, hw, Option.isSome_iff_exists]

/-- The item that is offered while a frame is in output (R701, R730, R731). -/
theorem offer_iff_of_emit {e : Engine} {a : Accepted} {sent : Nat} (hw : e.work = .emit a sent) (ho : e.abortOwed = false) :
    (∃ x, e.offer = some x) ↔ a.cand.len ≤ sent ∨ e.p + sent < e.d ∨ e.eos = true := by
  simp only [Engine.offer, hw, ho, Bool.false_eq_true, if_false]
  by_cases hl : a.cand.len ≤ sent
  · simp [hl]
  · by_cases hd : e.p + sent < e.d
    · have hb : e.stream[e.p + sent]? = some (e.stream[e.p + sent]'hd) := List.getElem?_eq_getElem hd
      simp [hl, hd, hb]
    · have hb : e.stream[e.p + sent]? = none := List.getElem?_eq_none (Nat.le_of_not_lt hd)
      cases he : e.eos <;> simp [hl, hd, hb]

/-- The engine waits for the host while a frame is in output. -/
theorem move_of_emit {e : Engine} {a : Accepted} {sent : Nat} (hw : e.work = .emit a sent) : e.move = (e, 0) := by
  simp only [Engine.move, hw]

/-! ### ENG_SESS (R134) -/

theorem sessionWord_eq (sess : Session) :
    sess.word
      = BitVec.ofNat 32
          (sess.hasRiff.toNat + 2 * xingCode sess.hasXing + 2 ^ 4 * (sess.expVersion.map Version.code).getD 0
            + 2 ^ 6 * (sess.expLayer.map Layer.number).getD 0) := by
  unfold Session.word
  cases sess.expVersion <;> cases sess.expLayer <;> rfl

theorem sessionWord_bits (sess : Session) :
    sess.word.getLsbD 0 = sess.hasRiff ∧ (sess.word.extractLsb' 1 2).toNat = xingCode sess.hasXing
      ∧ (sess.word.extractLsb' 4 2).toNat = (sess.expVersion.map Version.code).getD 0
      ∧ (sess.word.extractLsb' 6 2).toNat = (sess.expLayer.map Layer.number).getD 0
      ∧ ∀ i, i = 3 ∨ 8 ≤ i → sess.word.getLsbD i = false := by
  have hriff := sess.hasRiff.toNat_le
  have hxing : xingCode sess.hasXing ≤ 2 := by rcases sess.hasXing with _ | _ | _ <;> decide
  have hversion : (sess.expVersion.map Version.code).getD 0 ≤ 3 := by rcases sess.expVersion with _ | _ | _ | _ <;> decide
  have hlayer : (sess.expLayer.map Layer.number).getD 0 ≤ 3 := by rcases sess.expLayer with _ | _ | _ | _ <;> decide
  rw [sessionWord_eq]
  refine ⟨bit_eq (by decide) (by omega), ?_, ?_, ?_, fun i hi => ?_⟩
  · rw [toNat_field (by decide)]; omega
  · rw [toNat_field (by decide)]; omega
  · rw [toNat_field (by decide)]; omega
  · rcases hi with rfl | hi
    · exact bit_eq (by decide) (by rw [Bool.toNat_false]; omega)
    · exact bit_of_lt (lo := 8) (by omega) hi

/-! ### Errors, the interrupt line and the input request (R135, R706, 60_exceptions.md R800, R821) -/

theorem toNat_errWord {e : Engine} {c : ErrCode} (h : e.err = some c) : e.errWord.toNat = c.code.toNat := by
  simp only [Engine.errWord, h]
  exact toNat_setWidth_word (by decide) _

/-- The line is up exactly while an enabled bit is pending. -/
theorem irqLine_iff (s : State) : s.irqLine = true ↔ ∃ i, i < 8 ∧ s.irqPend.getLsbD i = true ∧ s.irqEn.getLsbD i = true := by
  have hzero : s.irqPend &&& s.irqEn = 0 ↔ ∀ i, i < 8 → (s.irqPend.getLsbD i && s.irqEn.getLsbD i) = false := by
    rw [BitVec.eq_of_getLsbD_eq_iff]
    simp only [BitVec.getLsbD_and, BitVec.ofNat_eq_ofNat, BitVec.getLsbD_zero]
  rw [State.irqLine, decide_eq_true_iff, ne_eq, hzero]
  simp

theorem active_iff (r : RunState) : r.active = true ↔ r = .run ∨ r = .paused ∨ r = .step := by
  cases r <;> simp [RunState.active]

theorem inReq_iff (e : Engine) :
    e.inReq = true ↔ (e.run = .run ∨ e.run = .paused ∨ e.run = .step) ∧ e.eos = false
      ∧ (e.windowLen < e.lowWater.toNat ∨ e.stallIn = true) := by
  simp only [Engine.inReq, Bool.and_eq_true, Bool.or_eq_true, Bool.not_eq_true', decide_eq_true_eq, active_iff, and_assoc]

/-! ### The record window (R142) -/

theorem toNat_kindWord (k : FrameKind) : (BitVec.ofNat 32 k.code).toNat = k.code := by cases k <;> rfl

theorem infoWord_fields (r : Record) :
    (r.infoWord.extractLsb' 0 2).toNat = r.crcStatus.code.toNat ∧ r.infoWord.extractLsb' 4 4 = r.xflags
      ∧ r.infoWord.getLsbD 8 = r.xinfo ∧ r.infoWord.extractLsb' 16 8 = r.xtagOff := by
  have hstatus := r.crcStatus.code.isLt
  have hflags := r.xflags.isLt
  have hinfo := r.xinfo.toNat_le
  have htag := r.xtagOff.isLt
  unfold Record.infoWord
  refine ⟨?_, BitVec.eq_of_toNat_eq ?_, bit_eq (by decide) (by omega), BitVec.eq_of_toNat_eq ?_⟩
  · rw [toNat_field (by decide)]; omega
  · rw [toNat_field (by decide)]; omega
  · rw [toNat_field (by decide)]; omega

theorem headWord_cons {e : Engine} {r : Record} {rest : List Record} (h : e.fifo = r :: rest) (f : Record → Word) :
    e.headWord f = f r := by simp only [Engine.headWord, h]

theorem headWord_nil {e : Engine} (h : e.fifo = []) (f : Record → Word) : e.headWord f = 0 := by
  simp only [Engine.headWord, h]

/-! ### The statement's parts -/

/-- What the host reads of the registers that hold a part of the state as it is, or cut to their width. -/
theorem plain_registers (s : State) :
    s.readReg .id = 0x4D464843 ∧ s.readReg .version = 0x00010000 ∧ s.readReg .ctrl = 0
      ∧ s.readReg .err = s.cu.err ∧ s.readReg .result = s.cu.result
      ∧ (s.readReg .irqPend).toNat = s.irqPend.toNat ∧ (s.readReg .irqEn).toNat = s.irqEn.toNat
      ∧ (s.readReg .scratchLen).toNat = s.cu.scratchLen.val ∧ s.readReg .fmtExpect = s.cu.fmtExpect
      ∧ s.readReg .hdrIn = s.cu.hdrIn ∧ (s.readReg .crcPoly).toNat = s.cu.crcPoly.toNat
      ∧ (s.readReg .crcInit).toNat = s.cu.crcInit.toNat ∧ (s.readReg .engCfg).toNat = s.eng.cfg.toNat
      ∧ (s.readReg .engMargin).toNat = s.eng.margin.toNat ∧ (s.readReg .engLowwater).toNat = s.eng.lowWater.toNat
      ∧ (∀ i : Fin 32, s.readReg (.val i) = s.cu.val[i.val])
      ∧ ∀ (k : Fin 64) (j : Nat), j < 4 →
          (s.readReg (.scratch k)).extractLsb' (8 * j) 8 = s.cu.scratch.read (4 * k.val + j) := by
  have narrow : ∀ {w : Nat} (x : BitVec w), w ≤ 32 → (x.setWidth 32).toNat = x.toNat := fun x h => toNat_setWidth_word h x
  exact ⟨rfl, rfl, rfl, rfl, rfl, narrow _ (by decide), narrow _ (by decide), readReg_scratchLen s, rfl, rfl,
    narrow _ (by decide), narrow _ (by decide), narrow _ (by decide), narrow _ (by decide), narrow _ (by decide), fun _ => rfl,
    fun k j hj => lane_scratchWord s.cu.scratch k.val hj⟩

/-- Settles O7: each register's bits and fields, and what the stall bits and the request lines stand for. -/
theorem statusRegistersShowState : Obligations.StatusRegistersShowState := by
  unfold Obligations.StatusRegistersShowState
  intro s hf
  obtain ⟨hrun, hsync, hpause, hin, hout, hrest⟩ := engStatus_bits s.eng
  obtain ⟨hriff, hxing, hversion, hlayer, hsess⟩ := sessionWord_bits s.eng.sess
  refine ⟨plain_registers s, statusWord_bits hf, ?engStatus, ?engSess, ?words, irqLine_iff s, ?inReq, ?records⟩
  case engStatus =>
    refine ⟨hrun.trans ?_, hsync, hpause, hin, hout, hrest, ?_, fun hw => ?_, fun a sent hw => ⟨move_of_emit hw, ?_, fun ho => ?_⟩⟩
    · cases s.eng.run <;> rfl
    · rw [← stallIn_iff, ← hin]; rfl
    · rw [← stallOut_iff_of_not_emit hf hw, ← hout]; rfl
    · rw [← stallOut_iff_of_emit hw, ← hout]; rfl
    · rw [← offer_iff_of_emit hw ho, ← stallOut_iff_of_emit hw, ← hout]; rfl
  case engSess =>
    refine ⟨hriff, hxing.trans ?_, hversion.trans ?_, hlayer.trans ?_, hsess⟩
    · rcases s.eng.sess.hasXing with _ | _ | _ <;> rfl
    · rcases s.eng.sess.expVersion with _ | _ | _ | _ <;> rfl
    · rcases s.eng.sess.expLayer with _ | _ | _ | _ <;> rfl
  case words =>
    refine ⟨posHi_append_posLo _, posHi_append_posLo _, fun hn => ?_, fun c hc => (toNat_errWord hc).trans ?_,
      BitVec.setWidth_eq _, BitVec.setWidth_eq _, BitVec.setWidth_eq _, BitVec.setWidth_eq _, BitVec.setWidth_eq _⟩
    · simp only [State.readReg, Engine.errWord, hn]
    · cases c <;> rfl
  case inReq =>
    have hlow : (s.readReg .engLowwater).toNat = s.eng.lowWater.toNat := toNat_setWidth_word (by decide) _
    rw [hlow]
    exact inReq_iff s.eng
  case records =>
    refine ⟨rfl, fun hempty => ?_, fun r rest hhead => ?_⟩
    · simp only [List.forall_mem_cons, State.readReg, headWord_nil hempty]
      simp
    · obtain ⟨hstatus, hflags, hinfo, htag⟩ := infoWord_fields r
      simp only [State.readReg, headWord_cons hhead, true_and, and_true]
      refine ⟨(toNat_kindWord r.kind).trans ?_, posHi_append_posLo _, posHi_append_posLo _, hstatus.trans ?_, hflags, hinfo, htag⟩
      · cases r.kind <;> rfl
      · cases r.crcStatus <;> rfl

end Sys2Proof.Proofs.StatusRegisters

/-! PROOFS. The register map and the host's accesses to it (O3), and what a host sees and loses while BUSY (O4). -/

namespace Sys2Proof.Proofs.RegisterMap

open Sys2Proof.Machine Sys2Proof.Proofs.Scope Sys2Proof.Proofs.Words Sys2Proof.Proofs.HostWrites
  Sys2Proof.Proofs.StatusRegisters
open Sys2Proof.Model hiding State CmdUnit HdrState HdrInfo Engine Counters Record Reg View

/-! ### The register an address reaches, by its word index `a / 4` (20_memory.md R202, R203) -/

/-- Address bits [1:0] are ignored. -/
theorem ofAddr_congr {a b : BitVec 12} (h : a.toNat / 4 = b.toNat / 4) : (Reg.ofAddr a : Reg) = Reg.ofAddr b := by
  simp only [Reg.ofAddr, h]

theorem inFile_val {n : Nat} (file : Fin n → Reg) (i : Fin n) : Reg.inFile file i.val = file i :=
  Reg.inFile_of_lt file i.isLt

theorem ofAddr_low {a : BitVec 12} (h : a.toNat / 4 < 0x40) : (Reg.ofAddr a : Reg) = Reg.ofLow (4 * (a.toNat / 4)) := by
  rw [Nat.mul_comm 4]
  exact if_pos (by omega)

theorem ofAddr_val {a : BitVec 12} {i : Fin 32} (h : a.toNat / 4 = 0x40 + i.val) : Reg.ofAddr a = .val i := by
  have hi : (a.toNat / 4 * 4 - 0x100) / 4 = i.val := by omega
  simp only [Reg.ofAddr, hi]
  rw [if_neg (by omega), if_pos (by omega)]
  exact inFile_val .val i

theorem ofAddr_fmtDesc {a : BitVec 12} {i : Fin 32} (h : a.toNat / 4 = 0x60 + i.val) : Reg.ofAddr a = .fmtDesc i := by
  have hi : (a.toNat / 4 * 4 - 0x180) / 4 = i.val := by omega
  simp only [Reg.ofAddr, hi]
  rw [if_neg (by omega), if_neg (by omega), if_pos (by omega)]
  exact inFile_val .fmtDesc i

theorem ofAddr_fmtExp {a : BitVec 12} {i : Fin 32} (h : a.toNat / 4 = 0x80 + i.val) : Reg.ofAddr a = .fmtExp i := by
  have hi : (a.toNat / 4 * 4 - 0x200) / 4 = i.val := by omega
  simp only [Reg.ofAddr, hi]
  rw [if_neg (by omega), if_neg (by omega), if_neg (by omega), if_pos (by omega)]
  exact inFile_val .fmtExp i

theorem ofAddr_scratch {a : BitVec 12} {k : Fin 64} (h : a.toNat / 4 = 0x100 + k.val) : Reg.ofAddr a = .scratch k := by
  have hk : (a.toNat / 4 * 4 - 0x400) / 4 = k.val := by omega
  simp only [Reg.ofAddr, hk]
  rw [if_neg (by omega), if_neg (by omega), if_neg (by omega), if_neg (by omega), if_neg (by omega), if_pos (by omega)]
  exact inFile_val .scratch k

/-- Between the expected values and SCRATCH, and above SCRATCH, no address is listed. -/
theorem ofAddr_gap {a : BitVec 12} (h : 0xA0 ≤ a.toNat / 4 ∧ a.toNat / 4 < 0x100 ∨ 0x140 ≤ a.toNat / 4) :
    (Reg.ofAddr a : Reg) = .unmapped := by
  simp only [Reg.ofAddr]
  rw [if_neg (by omega), if_neg (by omega), if_neg (by omega), if_neg (by omega)]
  rcases h with h | h
  · rw [if_pos (by omega)]
  · rw [if_neg (by omega), if_neg (by omega)]

/-- The addresses below 0x100 that the map does not list. -/
theorem ofLow_unlisted {n : Nat} (h : n = 0x1B ∨ n = 0x1E ∨ n = 0x1F ∨ 0x3A ≤ n ∧ n < 0x40) :
    (Model.Reg.ofLow (4 * n) : Reg) = .unmapped := by
  rcases h with rfl | rfl | rfl | ⟨hlo, hhi⟩
  · rfl
  · rfl
  · rfl
  · interval_cases n <;> rfl

theorem ofAddr_of_unlisted {a : BitVec 12} (h : UnlistedAddress a) : (Reg.ofAddr a : Reg) = .unmapped := by
  unfold UnlistedAddress at h
  by_cases hlow : a.toNat / 4 < 0x40
  · rw [ofAddr_low hlow]
    exact ofLow_unlisted (by omega)
  · exact ofAddr_gap (by omega)

/-! ### Registers that ignore a write (R206) -/

/-- The read-only addresses below 0x100. -/
theorem writeReg_ofLow_readOnly {n : Nat} (h : n = 0 ∨ n = 1 ∨ n = 3 ∨ n = 5 ∨ n = 6 ∨ n = 9 ∨ (0x0B ≤ n ∧ n ≤ 0x18)
    ∨ (0x23 ≤ n ∧ n ≤ 0x39)) (s : State) (v : Word) : s.writeReg (Model.Reg.ofLow (4 * n)) v = s := by
  rcases h with rfl | rfl | rfl | rfl | rfl | rfl | ⟨hlo, hhi⟩ | ⟨hlo, hhi⟩
  · rfl
  · rfl
  · rfl
  · rfl
  · rfl
  · rfl
  · interval_cases n <;> rfl
  · interval_cases n <;> rfl

theorem writeReg_of_readOnly {a : BitVec 12} (h : ReadOnlyAddress a) (s : State) (v : Word) :
    s.writeReg (Reg.ofAddr a) v = s := by
  unfold ReadOnlyAddress at h
  by_cases hlow : a.toNat / 4 < 0x40
  · rw [ofAddr_low hlow]
    exact writeReg_ofLow_readOnly (by omega) s v
  · by_cases hdesc : a.toNat / 4 < 0x80
    · rw [ofAddr_fmtDesc (i := ⟨a.toNat / 4 - 0x60, by omega⟩) (by dsimp only; omega)]; rfl
    · rw [ofAddr_fmtExp (i := ⟨a.toNat / 4 - 0x80, by omega⟩) (by dsimp only; omega)]; rfl

/-! ### What a register write does, said once (R202, R207) -/

/-- An operand register's write changes the command unit unless BUSY. Every other write changes the command unit, the engine
and `IRQ_EN` at most, resets the block, or clears bits of `IRQ_PEND`. -/
theorem writeReg_cases {par : Params} (s : Model.State par) (r : Model.Reg par) (v : Word) :
    (r.isOperand ∧ ∃ cu, s.writeReg r v = s.unlessBusy { s with cu := cu })
      ∨ (¬ r.isOperand
        ∧ ((∃ cu eng irqEn, s.writeReg r v = { s with cu := cu, eng := eng, irqEn := irqEn })
          ∨ s.writeReg r v = s.softReset
          ∨ s.writeReg r v = { s with irqPend := s.irqPend &&& ~~~(v.setWidth 8) })) := by
  cases r with
  | cmd => exact .inl ⟨trivial, _, rfl⟩
  | val i => exact .inl ⟨trivial, _, rfl⟩
  | scratch k => exact .inl ⟨trivial, _, rfl⟩
  | scratchLen => exact .inl ⟨trivial, _, rfl⟩
  | fmtExpect => exact .inl ⟨trivial, _, rfl⟩
  | hdrIn => exact .inl ⟨trivial, _, rfl⟩
  | crcPoly => exact .inl ⟨trivial, _, rfl⟩
  | crcInit => exact .inl ⟨trivial, _, rfl⟩
  | irqPend => exact .inr ⟨not_false, .inr (.inr rfl)⟩
  | ctrl =>
    refine .inr ⟨not_false, ?_⟩
    simp only [State.writeReg]
    split
    · split
      · exact .inl ⟨_, _, _, rfl⟩
      · exact .inr (.inl rfl)
    · exact .inl ⟨_, _, _, rfl⟩
  | _ => exact .inr ⟨not_false, .inl ⟨_, _, _, rfl⟩⟩

/-! ### The host's accesses, for any parameters (R200, R212) -/

section
variable {par : Params} (s : Model.State par)

/-- A write to a register of the block changes nothing of the host's side. -/
theorem writeReg_host (r : Model.Reg par) (v : Word) : (s.writeReg r v).host = s.host := by
  rcases writeReg_cases s r v with ⟨-, cu, h⟩ | ⟨-, ⟨cu, eng, irqEn, h⟩ | h | h⟩ <;> rw [h]
  · unfold State.unlessBusy
    split <;> rfl
  · rfl

theorem hostDo_rd_base (off : BitVec 12) :
    hostDo s (.rd (par.base + off.toNat))
      = { s with
          host :=
            { s.host with
              program := s.host.program.tail
              reads := s.host.reads ++ [s.readReg (Reg.ofAddr off par)] } } := by
  rw [hostDo, State.hostRead_base]
  rfl

theorem hostDo_wr_base (off : BitVec 12) (v : Word) :
    hostDo s (.wr (par.base + off.toNat) v)
      = { s.writeReg (Reg.ofAddr off par) v with host := { s.host with program := s.host.program.tail } } := by
  rw [hostDo, State.hostWrite_base, State.popOp, writeReg_host]

theorem hostDo_outside {a : Nat} (ha : a < par.base ∨ par.base + 4096 ≤ a) {op : HostOp} {v : Word}
    (hop : op = .rd a ∨ op = .wr a v) : hostDo s op = s.popOp := by
  rcases hop with rfl | rfl
  · rw [hostDo, State.hostRead_outside s ha]
  · rw [hostDo, State.hostWrite_outside s v ha]

end

/-- Settles O3: each clause of the map is the region its word index lies in, and a host access at the base plus an offset is
the access of the register there. -/
theorem registerMapFollowsTable : Obligations.RegisterMapFollowsTable := by
  unfold Obligations.RegisterMapFollowsTable
  refine ⟨by decide, by decide, by decide, fun i => ⟨ofAddr_val ?_, ofAddr_fmtDesc ?_, ofAddr_fmtExp ?_⟩,
    fun k => ofAddr_scratch ?_, fun s a v => ⟨ofAddr_congr ?_, fun h => ?unlisted, fun h => writeReg_of_readOnly h s v, ?cmd⟩,
    fun par s off v => ⟨hostDo_rd_base s off, hostDo_wr_base s off v, fun a ha op hop => ?outside⟩⟩
  case unlisted =>
    rw [State.readAddr, ofAddr_of_unlisted h]
    exact ⟨rfl, rfl⟩
  case cmd =>
    rintro rfl
    rfl
  case outside =>
    rw [hostDo_outside s ha hop]
    exact ⟨rfl, rfl, rfl, rfl⟩
  -- the word index of each address
  all_goals rw [BitVec.toNat_ofNat]; omega

/-! ### BUSY (R207, R214) -/

/-- `STATUS.BUSY` is bit 0 of the word, whatever the FIFO holds (10_state.md R113). -/
theorem status_busy (s : State) : (s.readReg .status).getLsbD 0 = s.busy := by
  rw [State.readReg, statusWord_eq]
  exact bit_eq (by decide) (by have := s.busy.toNat_le; omega)

theorem busy_of_inFlight {s : State} {f : InFlight} (hf : s.cu.inFlight = some f) : s.busy = true := by
  simp [State.busy, hf]

theorem unlessBusy_of_busy {s : State} (h : s.busy = true) (t : State) : s.unlessBusy t = s.setIrq irqOverrun := if_pos h

/-- While BUSY a write to `CMD` or an operand register is dropped and sets OVERRUN. -/
theorem writeReg_of_busy {s : State} (hb : s.busy = true) {r : Reg} (hr : r.isOperand) (v : Word) :
    s.writeReg r v = s.setIrq irqOverrun := by
  rcases writeReg_cases s r v with ⟨-, cu, h⟩ | ⟨hn, -⟩
  · rw [h, unlessBusy_of_busy hb]
  · exact absurd hr hn

/-- When not BUSY no register write sets OVERRUN. -/
theorem overrun_of_writeReg {s : State} (hb : s.busy = false) (r : Reg) (v : Word)
    (hv : (s.writeReg r v).irqPend.getLsbD 7 = true) : s.irqPend.getLsbD 7 = true := by
  rcases writeReg_cases s r v with ⟨-, cu, h⟩ | ⟨-, ⟨cu, eng, irqEn, h⟩ | h | h⟩ <;> rw [h] at hv
  · rwa [unlessBusy_of_not_busy hb] at hv
  · exact hv
  · exact absurd hv (by rw [State.softReset_irqPend]; decide)
  · rw [getLsbD_writeOneToClear, Bool.and_eq_true] at hv
    exact hv.1

/-! ### The effect of the command in flight and the end of BUSY (60_exceptions.md R850, log entry 6) -/

theorem commandMove_of_executed {s : State} {f : InFlight} (hf : s.cu.inFlight = some f) (he : f.executed = true) :
    commandMove s = .next s.endCommand := by
  simp [commandMove, hf, he]

/-- The end of a command does not depend on whether its effect was marked before. -/
theorem endCommand_markExecuted (t : State) (w : Word) : (t.markExecuted w).endCommand = t.endCommand := rfl

/-- Settles O4: `unlessBusy` drops an operand's write, and the moves of the command unit agree whether its effect comes
first or with the end of BUSY. -/
theorem busyWritesAreDroppedWithOverrun : Obligations.BusyWritesAreDroppedWithOverrun := by
  unfold Obligations.BusyWritesAreDroppedWithOverrun
  refine fun s => ⟨hostDo_rd_base s, fun h => overrun_of_writeReg (status_busy s ▸ h), fun f hf => ?_⟩
  have hbusy := busy_of_inFlight hf
  refine ⟨fun r v hr => writeReg_of_busy hbusy hr v, (status_busy s).trans hbusy, fun he => ?before, fun he hs => ?after⟩
  case before =>
    have hf' : s.cu.inFlight = some { word := f.word, executed := false } := by rw [hf, ← he]
    obtain ⟨t, ht, hcompletes⟩ := runCommand_next f.word s
    have hmove := commandMove_of_runCommand hf' ht
    refine ⟨t, ht, fun hs => ?_, fun _ => ⟨t.markExecuted f.word, commandEffectMove_of_runCommand hf' ht, ?_, ?_⟩⟩
    · rw [hmove, endCommand_of_not_waiting (hcompletes.frame.2.1.trans hs)]
    · rfl
    · rw [hmove, commandMove_of_executed (s := t.markExecuted f.word) rfl rfl, endCommand_markExecuted]
  case after => rw [commandMove_of_executed hf he, endCommand_of_not_waiting hs]

end Sys2Proof.Proofs.RegisterMap

/-! PROOFS. The family 30_encoding.md: the fields of a command word, the opcode map and the reserved opcodes (O10, O11, O12). -/

namespace Sys2Proof.Proofs.Encoding

open Sys2Proof.Machine Sys2Proof.Proofs.Words
open Sys2Proof.Model hiding State CmdUnit HdrState HdrInfo Engine Counters Record Reg View

/-! ### Parts of a word as numbers -/

theorem toNat_extractLsb'_eq {w : Nat} (v : BitVec w) (lo len : Nat) :
    (v.extractLsb' lo len).toNat = v.toNat / 2 ^ lo % 2 ^ len := by
  rw [BitVec.extractLsb'_toNat, Nat.shiftRight_eq_div_pow]

theorem getLsbD_eq_decide {w : Nat} (v : BitVec w) (i : Nat) : v.getLsbD i = decide (v.toNat / 2 ^ i % 2 = 1) :=
  Nat.testBit_eq_decide_div_mod_eq

theorem toNat_append_eq_add {m n : Nat} (x : BitVec m) (y : BitVec n) : (x ++ y).toNat = x.toNat * 2 ^ n + y.toNat := by
  rw [BitVec.toNat_append, ← Nat.shiftLeft_add_eq_or_of_lt y.isLt, Nat.shiftLeft_eq]

/-! ### The fields of a command word (R300, R301) -/

theorem toNat_cmdOp {op ra imm : Nat} (ho : op < 2 ^ 8) : (cmdOp (BitVec.ofNat 32 (op + 2 ^ 8 * ra + 2 ^ 16 * imm))).toNat = op :=
  (toNat_field (by decide)).trans (by omega)

theorem cmdRa_ofNat {op ra imm : Nat} (ho : op < 2 ^ 8) (hr : ra < 2 ^ 8) :
    cmdRa (BitVec.ofNat 32 (op + 2 ^ 8 * ra + 2 ^ 16 * imm)) = ra :=
  (toNat_field (by decide)).trans (by omega)

theorem toNat_cmdImm {op ra imm : Nat} (ho : op < 2 ^ 8) (hr : ra < 2 ^ 8) (hi : imm < 2 ^ 16) :
    (cmdImm (BitVec.ofNat 32 (op + 2 ^ 8 * ra + 2 ^ 16 * imm))).toNat = imm :=
  (toNat_field (by decide)).trans (by omega)

/-- The three fields of a word, put side by side, are its value. -/
theorem cmdWord_eq_ofNat {op ra : Nat} (ho : op < 2 ^ 8) (hr : ra < 2 ^ 8) (imm : Nat) :
    cmdWord op ra imm = BitVec.ofNat 32 (op + 2 ^ 8 * ra + 2 ^ 16 * imm) := by
  apply BitVec.eq_of_toNat_eq
  simp only [cmdWord, toNat_append_eq_add, BitVec.toNat_ofNat]
  omega

/-! ### The opcode map (R302) -/

/-- Settles O11: `OP` selects the row of `decode`, and its operands are the fields of the word. -/
theorem opcodeMapReadsOperandFields : Obligations.OpcodeMapReadsOperandFields := by
  unfold Obligations.OpcodeMapReadsOperandFields
  intro op ra imm ho hr hi w
  have hop : (cmdOp w).toNat = op := toNat_cmdOp ho
  have hra : cmdRa w = ra := cmdRa_ofNat ho hr
  have himm : (cmdImm w).toNat = imm := toNat_cmdImm ho hr hi
  and_intros
  all_goals
    intro hrow
    simp only [decode, hop, hrow, hra, himm, toNat_extractLsb'_eq, getLsbD_eq_decide, pow_zero, Nat.div_one, decide_eq_true_eq]

/-! ### The fields of a well-formed command (R300 to R302) -/

theorem opcode_lt (i : Instr) : i.opcode < 2 ^ 8 := by
  unfold Instr.opcode
  split <;> decide

theorem ra_lt {i : Instr} (h : i.wf = true) : i.ra < 2 ^ 8 := by
  cases i
  all_goals
    simp only [Instr.wf, fitsRa, Bool.and_eq_true, decide_eq_true_eq] at h
    simp only [Instr.ra]
    omega

theorem imm_lt {i : Instr} (h : i.wf = true) : i.imm < 2 ^ 16 := by
  cases i with
  | fmtAppend width kind expEn =>
    simp only [Instr.wf, Bool.and_eq_true, decide_eq_true_eq] at h
    have hbit := expEn.toNat_le
    simp only [Instr.imm]
    omega
  | hdrDecode off src => cases src <;> simp [Instr.imm]
  | hdrEncode off includeCrc => cases includeCrc <;> simp [Instr.imm]
  | hdrSetf index value => exact of_decide_eq_true (Bool.and_eq_true_iff.1 h).2
  | crc16 off count => exact of_decide_eq_true (Bool.and_eq_true_iff.1 h).2
  | _ => exact Nat.two_pow_pos 16

/-- The sub-fields of the IMM of FMT_APPEND are its operands (R412). -/
theorem fmtAppend_subfields {width kind : Nat} {expEn : Bool} (h : (Instr.fmtAppend width kind expEn).wf = true) :
    (Instr.fmtAppend width kind expEn).imm % 2 ^ 6 = width
      ∧ (Instr.fmtAppend width kind expEn).imm / 2 ^ 6 % 2 ^ 2 = kind
      ∧ decide ((Instr.fmtAppend width kind expEn).imm / 2 ^ 8 % 2 = 1) = expEn := by
  simp only [Instr.wf, Bool.and_eq_true, decide_eq_true_eq] at h
  have hbit := expEn.toNat_le
  have hexp : (Instr.fmtAppend width kind expEn).imm / 2 ^ 8 % 2 = expEn.toNat := by simp only [Instr.imm]; omega
  refine ⟨by simp only [Instr.imm]; omega, by simp only [Instr.imm]; omega, ?_⟩
  rw [hexp]
  cases expEn <;> rfl

/-- Settles O10: the word of a command is made of its three fields, and the opcode map reads each operand back. -/
theorem decodeOfEncodeIsIdentity : Obligations.DecodeOfEncodeIsIdentity := by
  unfold Obligations.DecodeOfEncodeIsIdentity
  intro i hwf
  rw [encode, cmdWord_eq_ofNat (opcode_lt i) (ra_lt hwf)]
  obtain ⟨nop, fmtClear, fmtAppend, pack, unpack, hdrDecode, hdrUpdate, hdrEncode, hdrSetf, hdrCrcchk, crc16, engStart, engPause,
    engResume, engStep, engAbort, recPop⟩ := opcodeMapReadsOperandFields i.opcode i.ra i.imm (opcode_lt i) (ra_lt hwf) (imm_lt hwf)
  cases i with
  | nop => exact nop rfl
  | fmtClear => exact fmtClear rfl
  | fmtAppend width kind expEn =>
    obtain ⟨hwidth, hkind, hexp⟩ := fmtAppend_subfields hwf
    rw [fmtAppend rfl, hwidth, hkind, hexp]
  | pack off => exact pack rfl
  | unpack off => exact unpack rfl
  | hdrDecode off src => cases src <;> exact hdrDecode rfl
  | hdrUpdate off => exact hdrUpdate rfl
  | hdrEncode off includeCrc => cases includeCrc <;> exact hdrEncode rfl
  | hdrSetf index value => exact hdrSetf rfl
  | hdrCrcchk => exact hdrCrcchk rfl
  | crc16 off count => exact crc16 rfl
  | engStart => exact engStart rfl
  | engPause => exact engPause rfl
  | engResume => exact engResume rfl
  | engStep => exact engStep rfl
  | engAbort => exact engAbort rfl
  | recPop => exact recPop rfl

/-! ### Reserved opcodes (R303) -/

theorem decode_of_reserved {w : Word} (h : (0x05 ≤ (cmdOp w).toNat ∧ (cmdOp w).toNat ≤ 0x0F)
    ∨ (0x16 ≤ (cmdOp w).toNat ∧ (cmdOp w).toNat ≤ 0x1F) ∨ 0x26 ≤ (cmdOp w).toNat) :
    decode w = .error (.illegalOp (cmdOp w)) := by
  unfold decode
  split
  case h_18 => rfl
  -- the 17 opcodes of the map are not reserved
  all_goals omega

theorem runCommand_of_illegalOp {w : Word} {op : Byte} (h : decode w = .error (.illegalOp op)) (s : State) :
    runCommand w s = .next (s.raise ⟨.illegalCommand, op⟩) := by
  rw [runCommand, h]
  rfl

/-- `ERR` reports the code and the argument as one number (60_exceptions.md R801). -/
theorem errorWord_eq_ofNat (e : CmdError) : e.word = BitVec.ofNat 32 (e.code.code.toNat + 2 ^ 8 * e.arg.toNat) := by
  apply BitVec.eq_of_toNat_eq
  simp only [CmdError.word, toNat_append_eq_add, BitVec.toNat_ofNat]
  have hcode := e.code.code.isLt
  have harg := e.arg.isLt
  omega

theorem raise_eq_withError (s : State) (e : CmdError) : s.raise e = s.withError e.code.code.toNat e.arg.toNat := by
  unfold State.withError
  rw [← errorWord_eq_ofNat]
  rfl

/-- Settles O12: a reserved `OP` decodes to no command, and the error it raises has `OP` as its argument. -/
theorem reservedOpcodesAreIllegalCommands : Obligations.ReservedOpcodesAreIllegalCommands := by
  unfold Obligations.ReservedOpcodesAreIllegalCommands
  intro op ra imm s _ _ hres
  have hop : (cmdOp (BitVec.ofNat 32 (op + 2 ^ 8 * ra + 2 ^ 16 * imm))).toNat = op := toNat_cmdOp (by omega)
  have hdecode := decode_of_reserved (w := BitVec.ofNat 32 (op + 2 ^ 8 * ra + 2 ^ 16 * imm)) (by omega)
  rw [runCommand_of_illegalOp hdecode, raise_eq_withError, hop]
  rfl

end Sys2Proof.Proofs.Encoding

/-! PROOFS. The header word: its fields as numbers, `unpackbits` field by field, and the order of the checks (O25). -/

namespace Sys2Proof.Proofs.HeaderFields

open Sys2Proof.Machine Sys2Proof.Proofs.Encoding
open Sys2Proof.Model hiding State CmdUnit HdrState HdrInfo Engine Counters Record Reg View

/-! ### The fields as numbers (30_encoding.md R310, 41_header.md R500) -/

theorem hdrField_eq_div_mod (h : Word) (f : HdrField) : hdrField h f = h.toNat / 2 ^ f.lo % 2 ^ f.width :=
  toNat_extractLsb'_eq h f.lo f.width

/-- The sync field is the top of the word. -/
theorem hdrField_sync (h : Word) : hdrField h .sync = h.toNat / 2 ^ 21 := by
  rw [hdrField_eq_div_mod]
  exact Nat.mod_eq_of_lt (Nat.div_lt_of_lt_mul h.isLt)

/-! ### `unpackbits` field by field (40_codec.md R402) -/

/-- The loop takes the bits of the format off the low end of the accumulator. -/
theorem unpackAcc_rest (f : List FmtEntry) (acc : Nat) : (unpackAcc f acc).2 = acc / 2 ^ totalBits f := by
  induction f with
  | nil => exact (Nat.div_one acc).symm
  | cons e f ih =>
    simp only [unpackAcc, ih, totalBits, List.map_cons, List.sum_cons]
    rw [Nat.div_div_eq_div_mul, ← Nat.pow_add, Nat.add_comm]

/-- A field stands above the bits of the fields after it. -/
theorem unpackAcc_cons (e : FmtEntry) (f : List FmtEntry) (acc : Nat) :
    (unpackAcc (e :: f) acc).1 = acc / 2 ^ totalBits f % 2 ^ e.width.toNat :: (unpackAcc f acc).1 := by
  simp only [unpackAcc, unpackAcc_rest]

theorem beNat_headerBytes (h : Word) : beNat (headerBytes h) = h.toNat := by
  simp only [headerBytes, beNat, List.foldl_cons, List.foldl_nil, toNat_extractLsb'_eq]
  have := h.isLt
  omega

theorem unpackbits_headerFormat (h : Word) : unpackbits headerFormat (headerBytes h) = (unpackAcc headerFormat h.toNat).1 := by
  have hpad : padBits headerFormat = 0 := by decide
  have htake : (headerBytes h).take (byteLen headerFormat) = headerBytes h := rfl
  rw [unpackbits, htake, hpad, beNat_headerBytes, pow_zero, Nat.div_one]

/-! ### The checks (R501) -/

/-- Settles O25: each field is a quotient and a remainder of the word, in `hdrField` as in `unpackbits`, and the checks are
the branches of `validate`. -/
theorem headerFieldsAreUnpackedAndValidated : Obligations.HeaderFieldsAreUnpackedAndValidated := by
  unfold Obligations.HeaderFieldsAreUnpackedAndValidated
  refine fun h => ⟨?ranges, ?unpacked, ?checks⟩
  case ranges =>
    rw [List.map_cons, hdrField_sync]
    simp only [List.map_cons, List.map_nil, hdrField_eq_div_mod, HdrField.lo, HdrField.width, pow_zero, Nat.div_one]
    rfl
  case unpacked =>
    refine (unpackbits_headerFormat h).trans ?_
    simp only [headerFormat, unpackAcc_cons, List.map_cons, List.map_nil, hdrField_eq_div_mod]
    rfl
  case checks =>
    unfold validate
    rw [hdrField_sync]
    simp only [hdrField_eq_div_mod, HdrField.lo, HdrField.width, Nat.reducePow]
    refine ⟨fun hsync => if_pos hsync, fun hsync => ?_⟩
    rw [if_neg (not_not.2 hsync)]
    refine ⟨fun hversion => if_pos hversion, fun hversion => ?_⟩
    rw [if_neg hversion]
    refine ⟨fun hlayer => if_pos hlayer, fun hlayer => ?_⟩
    rw [if_neg hlayer]
    refine ⟨fun hbitrate => if_pos hbitrate, fun hfree hbad => ?_⟩
    rw [if_neg (not_or.2 ⟨hfree, hbad⟩)]
    exact ⟨fun hrate => if_pos hrate, fun hrate => if_neg hrate⟩

end Sys2Proof.Proofs.HeaderFields

/-! PROOFS. Bit fields: byte strings as numbers, the bits of a format's fields, and `unpackbits` as the inverse of `packbits`
(O23). -/

namespace Sys2Proof.Proofs.BitFields

open Sys2Proof.Machine Sys2Proof.Proofs.HeaderFields
open Sys2Proof.Model hiding State CmdUnit HdrState HdrInfo Engine Counters Record Reg View

/-! ### Byte strings as numbers (00_scope.md R8, R9) -/

theorem foldl_bytes_eq (acc : Nat) (l : List Byte) :
    l.foldl (fun acc b => acc * 256 + b.toNat) acc = acc * 2 ^ (8 * l.length) + beNat l := by
  induction l generalizing acc with
  | nil => simp [beNat]
  | cons b l ih =>
    rw [beNat, List.foldl_cons, List.foldl_cons, ih, ih (0 * 256 + b.toNat), List.length_cons]
    ring

theorem beNat_cons (b : Byte) (l : List Byte) : beNat (b :: l) = 2 ^ (8 * l.length) * b.toNat + beNat l := by
  rw [beNat, List.foldl_cons, foldl_bytes_eq, Nat.zero_mul, Nat.zero_add, Nat.mul_comm]

theorem beNat_lt (l : List Byte) : beNat l < 2 ^ (8 * l.length) := by
  induction l with
  | nil => exact Nat.one_pos
  | cons b l ih =>
    rw [beNat_cons, List.length_cons, Nat.mul_succ, Nat.pow_add]
    calc 2 ^ (8 * l.length) * b.toNat + beNat l < 2 ^ (8 * l.length) * (b.toNat + 1) := by rw [Nat.mul_succ]; omega
      _ ≤ 2 ^ (8 * l.length) * 2 ^ 8 := Nat.mul_le_mul_left _ b.isLt

theorem beNat_beBytes (n x : Nat) : beNat (beBytes n x) = x % 2 ^ (8 * n) := by
  induction n with
  | zero => exact (Nat.mod_one x).symm
  | succ n ih =>
    rw [beBytes, beNat_cons, ih, beBytes_length, BitVec.toNat_ofNat, Nat.mul_succ, Nat.pow_add, Nat.mod_mul, Nat.pow_mul,
      Nat.add_comm]

/-- The bytes from position 0 on are those of a string. -/
def StartsWith (bs : Nat → Byte) (l : List Byte) : Prop := ∀ j (h : j < l.length), bs j = l[j]

theorem startsWith_readBytes (s : State) (off n : Nat) : StartsWith (s.bytesFrom off) (s.cu.scratch.readBytes off n) :=
  fun j h => (Memory.getElem_readBytes s.cu.scratch off n j h).symm

theorem startsWith_storeScratch {s : State} {off : Nat} {l : List Byte} (hm : Memory.wf s.cu.scratch = true)
    (h : off + l.length ≤ 256) : StartsWith ((s.storeScratch off l).bytesFrom off) l :=
  fun j hj => Memory.read_writeBytes_inside l s.cu.scratch off j hm h hj

/-- Bit position 0 is the most significant bit of the string's number. -/
theorem bitAt_eq_testBit {bs : Nat → Byte} {l : List Byte} (h : StartsWith bs l) {k : Nat} (hk : k < 8 * l.length) :
    bitAt bs k = (beNat l).testBit (8 * l.length - 1 - k) := by
  induction l generalizing bs k with
  | nil => exact absurd hk (Nat.not_lt_zero k)
  | cons b l ih =>
    rw [List.length_cons] at hk ⊢
    rw [beNat_cons, Nat.testBit_two_pow_mul_add _ (beNat_lt l)]
    rcases Nat.lt_or_ge k 8 with hfirst | hrest
    · have h0 : bs 0 = b := h 0 (Nat.succ_pos _)
      rw [if_neg (by omega), bitAt, Nat.div_eq_of_lt hfirst, Nat.mod_eq_of_lt hfirst, h0, ← BitVec.testBit_toNat]
      congr 1
      omega
    · have htail : StartsWith (fun j => bs (j + 1)) l := fun j hj => h (j + 1) (Nat.succ_lt_succ hj)
      have hshift : bitAt bs k = bitAt (fun j => bs (j + 1)) (k - 8) := by
        simp only [bitAt]
        rw [show (k - 8) / 8 + 1 = k / 8 by omega, show (k - 8) % 8 = k % 8 by omega]
      rw [if_pos (by omega), hshift, ih htail (by omega)]
      congr 1
      omega

/-- A run of bits is a quotient and a remainder of the string's number. -/
theorem bitsValue_eq_div_mod {bs : Nat → Byte} {l : List Byte} (h : StartsWith bs l) {start w : Nat}
    (hw : start + w ≤ 8 * l.length) : bitsValue bs start w = beNat l / 2 ^ (8 * l.length - (start + w)) % 2 ^ w := by
  induction w with
  | zero => exact (Nat.mod_one _).symm
  | succ w ih =>
    have hbit : (bitAt bs (start + w)).toNat = beNat l / 2 ^ (8 * l.length - (start + (w + 1))) % 2 := by
      rw [bitAt_eq_testBit h (by omega), Nat.toNat_testBit]
      congr 3
      omega
    rw [bitsValue, ih (by omega), hbit, Nat.pow_succ', Nat.mod_mul, Nat.div_div_eq_div_mul, ← Nat.pow_succ,
      show 8 * l.length - (start + w) = (8 * l.length - (start + (w + 1))).succ by omega, Nat.add_comm]

theorem bitsValue_lt (bs : Nat → Byte) (start w : Nat) : bitsValue bs start w < 2 ^ w := by
  induction w with
  | zero => exact Nat.one_pos
  | succ w ih =>
    have hbit := (bitAt bs (start + w)).toNat_le
    rw [bitsValue, Nat.pow_succ]
    omega

/-- A run of bits read back bit by bit, most significant first. -/
theorem bitAt_eq_testBit_bitsValue (bs : Nat → Byte) (start : Nat) {w b : Nat} (hb : b < w) :
    bitAt bs (start + b) = (bitsValue bs start w).testBit (w - 1 - b) := by
  induction w with
  | zero => exact absurd hb (Nat.not_lt_zero b)
  | succ w ih =>
    have hbit := (bitAt bs (start + w)).toNat_le
    rcases Nat.lt_succ_iff_lt_or_eq.1 hb with hlt | rfl
    · rw [show w + 1 - 1 - b = (w - 1 - b) + 1 by omega, Nat.testBit_succ, bitsValue,
        show (2 * bitsValue bs start w + (bitAt bs (start + w)).toNat) / 2 = bitsValue bs start w by omega]
      exact ih hlt
    · rw [show b + 1 - 1 - b = 0 by omega, Nat.testBit_zero, bitsValue, Nat.mul_add_mod]
      cases bitAt bs (start + b) <;> rfl

/-! ### Formats (40_codec.md R400, R401) -/

theorem totalBits_cons (e : FmtEntry) (f : List FmtEntry) : totalBits (e :: f) = e.width.toNat + totalBits f := rfl

theorem fieldStart_zero (f : List FmtEntry) : fieldStart f 0 = 0 := rfl

theorem fieldStart_succ (e : FmtEntry) (f : List FmtEntry) (i : Nat) :
    fieldStart (e :: f) (i + 1) = e.width.toNat + fieldStart f i := rfl

/-- A field ends within the format. -/
theorem fieldStart_add_width_le {f : List FmtEntry} {i : Nat} {e : FmtEntry} (h : f[i]? = some e) :
    fieldStart f i + e.width.toNat ≤ totalBits f := by
  induction f generalizing i with
  | nil => cases h
  | cons e' f ih =>
    cases i with
    | zero =>
      cases h
      rw [fieldStart_zero, totalBits_cons, Nat.zero_add]
      exact Nat.le_add_right _ _
    | succ i =>
      have := ih h
      rw [fieldStart_succ, totalBits_cons]
      omega

theorem totalBits_le_byteLen (f : List FmtEntry) : totalBits f ≤ 8 * byteLen f := by
  unfold byteLen
  omega

theorem padBits_add_totalBits (f : List FmtEntry) : padBits f + totalBits f = 8 * byteLen f :=
  Nat.sub_add_cancel (totalBits_le_byteLen f)

/-- Only the empty format takes no byte: every field has a bit. -/
theorem byteLen_pos {f : List FmtEntry} (hf : FmtOk f) (hne : f ≠ []) : 0 < byteLen f := by
  obtain ⟨e, f, rfl⟩ := List.exists_cons_of_ne_nil hne
  have hwidth := (hf.2 e List.mem_cons_self).1
  rw [byteLen, totalBits_cons]
  omega

@[simp] theorem length_packbits (f : List FmtEntry) (v : List Word) : (packbits f v).length = byteLen f :=
  beBytes_length _ _

/-! ### `unpackbits` field by field (R401, R402) -/

theorem unpackAcc_eq_mapIdx (f : List FmtEntry) (acc : Nat) :
    (unpackAcc f acc).1
      = f.mapIdx (fun i e => acc / 2 ^ (totalBits f - (fieldStart f i + e.width.toNat)) % 2 ^ e.width.toNat) := by
  induction f with
  | nil => rfl
  | cons e f ih =>
    rw [unpackAcc_cons, ih, List.mapIdx_cons]
    simp only [fieldStart_succ, totalBits_cons, Nat.add_assoc, Nat.add_sub_add_left]
    rw [fieldStart_zero, Nat.zero_add, Nat.add_sub_cancel_left]

/-- `unpackbits` gives each field the value of its bits. -/
theorem unpackbits_eq_mapIdx {bs : Nat → Byte} {f : List FmtEntry} {l : List Byte} (h : StartsWith bs l)
    (hl : l.length = byteLen f) :
    unpackbits f l = f.mapIdx (fun i e => bitsValue bs (fieldStart f i) e.width.toNat) := by
  rw [unpackbits, List.take_of_length_le hl.le, unpackAcc_eq_mapIdx]
  refine List.ext_getElem (by simp) fun i hi _ => ?_
  rw [List.length_mapIdx] at hi
  have hend := fieldStart_add_width_le (List.getElem?_eq_getElem hi)
  have hpad := padBits_add_totalBits f
  rw [List.getElem_mapIdx, List.getElem_mapIdx, bitsValue_eq_div_mod h (by omega), Nat.div_div_eq_div_mul, ← Nat.pow_add]
  congr 3
  omega

/-! ### `packbits` and its inverse (R402) -/

/-- A packed value as the statements write it. -/
theorem packValue_eq (e : FmtEntry) (x : Word) :
    packValue e x = match e.kind with
      | .integer => x.toNat % 2 ^ e.width.toNat
      | .boolean => if x = 0 then 0 else 1 := by
  unfold packValue
  cases e.kind
  · rfl
  · exact ite_not _ _ _

theorem packValue_lt {e : FmtEntry} (he : e.Ok) (x : Word) : packValue e x < 2 ^ e.width.toNat := by
  obtain ⟨hpos, -⟩ := he
  rw [packValue_eq]
  split
  · exact Nat.mod_lt _ (Nat.two_pow_pos _)
  · split
    · exact Nat.two_pow_pos _
    · exact Nat.one_lt_two_pow (by omega)

/-- The fields take the low bits of the accumulator; what it held before stands above them. -/
theorem packAcc_div {f : List FmtEntry} {v : List Word} (hf : ∀ e ∈ f, e.Ok) (hv : f.length ≤ v.length) (acc : Nat) :
    packAcc acc (f.zip v) / 2 ^ totalBits f = acc := by
  induction f generalizing v acc with
  | nil => exact Nat.div_one acc
  | cons e f ih =>
    obtain ⟨x, v, rfl⟩ := List.exists_cons_of_length_pos (l := v) (by rw [List.length_cons] at hv; omega)
    rw [List.zip_cons_cons, packAcc, totalBits_cons, Nat.add_comm e.width.toNat, Nat.pow_add, ← Nat.div_div_eq_div_mul,
      ih (fun e' he' => hf e' (List.mem_cons_of_mem e he')) (Nat.le_of_succ_le_succ hv), Nat.mul_comm acc,
      Nat.mul_add_div (Nat.two_pow_pos _), Nat.div_eq_of_lt (packValue_lt (hf e List.mem_cons_self) x), Nat.add_zero]

theorem unpackAcc_packAcc {f : List FmtEntry} {v : List Word} (hf : ∀ e ∈ f, e.Ok) (hv : f.length ≤ v.length) (acc : Nat) :
    (unpackAcc f (packAcc acc (f.zip v))).1 = List.zipWith packValue f v := by
  induction f generalizing v acc with
  | nil => rfl
  | cons e f ih =>
    obtain ⟨x, v, rfl⟩ := List.exists_cons_of_length_pos (l := v) (by rw [List.length_cons] at hv; omega)
    have hf' : ∀ e' ∈ f, e'.Ok := fun e' he' => hf e' (List.mem_cons_of_mem e he')
    have hv' : f.length ≤ v.length := Nat.le_of_succ_le_succ hv
    rw [List.zip_cons_cons, packAcc, unpackAcc_cons, packAcc_div hf' hv', ih hf' hv', List.zipWith_cons_cons,
      Nat.mul_add_mod', Nat.mod_eq_of_lt (packValue_lt (hf e List.mem_cons_self) x)]

/-- The number of the packed bytes: the fields, then the pad bits, which are 0. -/
theorem beNat_packbits {f : List FmtEntry} {v : List Word} (hf : FmtOk f) (hv : f.length ≤ v.length) :
    beNat (packbits f v) = packAcc 0 (f.zip v) * 2 ^ padBits f := by
  have hacc : packAcc 0 (f.zip v) < 2 ^ totalBits f := Nat.lt_of_div_eq_zero (Nat.two_pow_pos _) (packAcc_div hf.2 hv 0)
  rw [packbits, beNat_beBytes, ← padBits_add_totalBits, Nat.add_comm, Nat.pow_add]
  exact Nat.mod_eq_of_lt (Nat.mul_lt_mul_of_pos_right hacc (Nat.two_pow_pos _))

theorem unpackbits_packbits {f : List FmtEntry} {v : List Word} (hf : FmtOk f) (hv : f.length ≤ v.length) :
    unpackbits f (packbits f v) = List.zipWith packValue f v := by
  rw [unpackbits, List.take_of_length_le (length_packbits f v).le, beNat_packbits hf hv,
    Nat.mul_div_cancel _ (Nat.two_pow_pos _), unpackAcc_packAcc hf.2 hv]

/-- Settles O23: `unpackbits` divides the pad bits away, and its loop undoes that of `packbits` field by field. -/
theorem unpackbitsInvertsPackbits : Obligations.UnpackbitsInvertsPackbits := by
  unfold Obligations.UnpackbitsInvertsPackbits
  intro f v hf hv
  rw [unpackbits_packbits hf hv.ge]
  exact congrArg (List.zipWith · f v) (funext₂ packValue_eq)

/-! ### The bits that `packbits` writes (R401, R402, R413) -/

section

variable {bs : Nat → Byte} {f : List FmtEntry} {v : List Word}

theorem bitsValue_of_packbits (h : StartsWith bs (packbits f v)) (hf : FmtOk f) (hv : f.length ≤ v.length) {i : Nat}
    {e : FmtEntry} {x : Word} (he : f[i]? = some e) (hx : v[i]? = some x) :
    bitsValue bs (fieldStart f i) e.width.toNat = packValue e x := by
  have heq := congrArg (·[i]?) ((unpackbits_eq_mapIdx h (length_packbits f v)).symm.trans (unpackbits_packbits hf hv))
  simpa [List.getElem?_zipWith, he, hx] using heq

/-- A bit of a packed value: an Integer's own bit, the one bit of a Boolean. -/
theorem testBit_packValue {e : FmtEntry} (he : e.Ok) (x : Word) {b : Nat} (hb : b < e.width.toNat) :
    (packValue e x).testBit (e.width.toNat - 1 - b)
      = match e.kind with
        | .integer => x.getLsbD (e.width.toNat - 1 - b)
        | .boolean => decide (x ≠ 0) := by
  obtain ⟨-, -, hbool, -⟩ := he
  rw [packValue_eq]
  cases hk : e.kind with
  | integer =>
    dsimp only
    rw [Nat.testBit_mod_two_pow, decide_eq_true (by omega), Bool.true_and, BitVec.testBit_toNat]
  | boolean =>
    dsimp only
    rw [show e.width.toNat - 1 - b = 0 by rw [hbool hk]; omega]
    split
    · next hx => rw [decide_eq_false (not_not.2 hx)]; rfl
    · next hx => rw [decide_eq_true hx]; rfl

theorem bitAt_pad (h : StartsWith bs (packbits f v)) (hf : FmtOk f) (hv : f.length ≤ v.length) {k : Nat}
    (hlo : totalBits f ≤ k) (hhi : k < 8 * byteLen f) : bitAt bs k = false := by
  have hpad := padBits_add_totalBits f
  rw [bitAt_eq_testBit h (by rwa [length_packbits]), beNat_packbits hf hv, length_packbits, Nat.mul_comm,
    Nat.testBit_two_pow_mul, decide_eq_false (by omega), Bool.false_and]

end

end Sys2Proof.Proofs.BitFields

/-! PROOFS. The family 40_codec.md: the commands NOP, FMT_CLEAR, FMT_APPEND, PACK and UNPACK (O13, O19 to O22, O24). -/

namespace Sys2Proof.Proofs.Codec

open Sys2Proof.Machine Sys2Proof.Proofs.Encoding Sys2Proof.Proofs.BitFields
open Sys2Proof.Model hiding State CmdUnit HdrState HdrInfo Engine Counters Record Reg View

/-! ### NOP, FMT_CLEAR and the example words (R410, R411) -/

/-- Settles O13: the decoder evaluates on each word. -/
theorem wordsOfTheExamplesDecode : Obligations.WordsOfTheExamplesDecode := by
  unfold Obligations.WordsOfTheExamplesDecode
  decide

theorem exec_nop (s : State) : exec .nop s = .next s.succeed := rfl

theorem exec_fmtClear (s : State) : exec .fmtClear s = .next (s.setFmt []).succeed := rfl

/-- `FMT_INFO` of an empty table (10_state.md R119). -/
theorem readReg_fmtInfo_of_nil {s : State} (h : s.cu.fmt = []) : s.readReg .fmtInfo = 0 := by
  rw [State.readReg, h]
  rfl

/-- Settles O19: both complete, from the state itself and from the state with no entry. -/
theorem nopAndFmtClearComplete : Obligations.NopAndFmtClearComplete := by
  unfold Obligations.NopAndFmtClearComplete
  refine fun s => ⟨exec_nop s, exec_fmtClear s, fun t ht => ?_⟩
  cases (exec_fmtClear s).symm.trans ht
  exact readReg_fmtInfo_of_nil rfl

/-! ### FMT_APPEND (R412) -/

theorem exec_fmtAppend_of_error {w k : Nat} {e : Bool} {s : State} {a : Byte}
    (h : compileField w k e s.cu.fmtExpect s.cu.fmt.length = .error ⟨.format, a⟩) :
    exec (.fmtAppend w k e) s = .next (s.withError 1 a.toNat) := by
  simp only [exec, execFmtAppend, h, finishCommand, raise_eq_withError]
  rfl

theorem exec_fmtAppend_of_ok {w k : Nat} {e : Bool} {s : State} {x : FmtEntry}
    (h : compileField w k e s.cu.fmtExpect s.cu.fmt.length = .ok x) :
    exec (.fmtAppend w k e) s = .next (s.setFmt (s.cu.fmt ++ [x])).succeed := by
  simp only [exec, execFmtAppend, h, finishCommand]

/-- Codes 2 and 3 name no kind. -/
theorem ofCode_of_ge {k : Nat} (h : 2 ≤ k) : FieldKind.ofCode k = none := by
  obtain ⟨k, rfl⟩ := Nat.exists_eq_add_of_le' h
  rfl

theorem ofCode_of_lt {k : Nat} (h : k < 2) : FieldKind.ofCode k = some (if k = 1 then .boolean else .integer) := by
  interval_cases k <;> rfl

theorem compileField_of_unknownKind {w k count : Nat} {e : Bool} {x : Word} (h : 2 ≤ k) :
    compileField w k e x count = .error ⟨.format, 1⟩ := by
  rw [compileField, ofCode_of_ge h]

/-- The checks that follow the kind's, in order. -/
theorem compileField_of_knownKind {w k count : Nat} {e : Bool} {x : Word} (h : k < 2) :
    compileField w k e x count
      = if w = 0 ∨ 32 < w then .error ⟨.format, 2⟩
        else if k = 1 ∧ w ≠ 1 then .error ⟨.format, 3⟩
        else if e = true ∧ 2 ^ w ≤ x.toNat then .error ⟨.format, 4⟩
        else if 32 ≤ count then .error ⟨.format, 5⟩
        else .ok
          { width := BitVec.ofNat 6 w
            kind := if k = 1 then .boolean else .integer
            expEn := e
            exp := if e then x else 0 } := by
  have hkind : ((if k = 1 then FieldKind.boolean else .integer) = .boolean) ↔ k = 1 := by split <;> simp [*]
  rw [compileField, ofCode_of_lt h]
  simp only [hkind]

/-- Settles O20: the branches of `compileField`, which are taken in the order of the clauses. -/
theorem fmtAppendChecksThenAppends : Obligations.FmtAppendChecksThenAppends := by
  unfold Obligations.FmtAppendChecksThenAppends
  intro w k e s _ _ _
  refine ⟨fun hkind => ?kind, fun hkind hwidth => ?width, fun hkind hlo hhi => ?boolean,
    fun hkind hlo hhi hbool he hexp => ?expect, fun hkind hlo hhi hbool hexp hfull => ?full,
    fun hkind hlo hhi hbool hexp hroom => ?append⟩
  case kind => exact exec_fmtAppend_of_error (a := 1) (compileField_of_unknownKind hkind)
  case width => exact exec_fmtAppend_of_error (a := 2) ((compileField_of_knownKind hkind).trans (if_pos hwidth))
  case boolean =>
    refine exec_fmtAppend_of_error (a := 3) ?_
    rw [compileField_of_knownKind (by omega), if_neg (by omega), if_pos ⟨hkind, by omega⟩]
  case expect =>
    refine exec_fmtAppend_of_error (a := 4) ?_
    rw [compileField_of_knownKind hkind, if_neg (by omega), if_neg (by tauto), if_pos ⟨he, hexp⟩]
  case full =>
    refine exec_fmtAppend_of_error (a := 5) ?_
    rw [compileField_of_knownKind hkind, if_neg (by omega), if_neg (by tauto), if_neg (fun h => (hexp h.1).not_ge h.2),
      if_pos hfull.ge]
  case append =>
    refine exec_fmtAppend_of_ok ?_
    rw [compileField_of_knownKind hkind, if_neg (by omega), if_neg (by tauto), if_neg (fun h => (hexp h.1).not_ge h.2),
      if_neg hroom.not_ge]

/-! ### PACK (R413) -/

/-- The state PACK leaves when the bytes fit. -/
def packed (off : Nat) (s : State) : State :=
  ((s.storeScratch off (packbits s.cu.fmt s.cu.val.toList)).setResult (BitVec.ofNat 32 (byteLen s.cu.fmt))).succeed

theorem exec_pack_of_not_fits {off : Nat} {s : State} (h : 256 < off + byteLen s.cu.fmt) :
    exec (.pack off) s = .next (s.withError 2 0) := by
  rcases writeRegion_cases s off (packbits s.cu.fmt s.cu.val.toList) with ⟨_, hw⟩ | ⟨hfits, _⟩
  · simp only [exec, execPack, hw, finishCommand, raise_eq_withError]
    rfl
  · rw [length_packbits] at hfits
    exact absurd hfits (Nat.not_le.2 h)

theorem exec_pack_of_fits {off : Nat} {s : State} (h : off + byteLen s.cu.fmt ≤ 256) :
    exec (.pack off) s = .next (packed off s) := by
  rcases writeRegion_cases s off (packbits s.cu.fmt s.cu.val.toList) with ⟨hpast, _⟩ | ⟨_, hw⟩
  · rw [length_packbits] at hpast
    exact absurd h (Nat.not_le.2 hpast)
  · simp only [exec, execPack, hw, finishCommand]
    rfl

theorem scratchLen_packed {off : Nat} {s : State} (h : off + byteLen s.cu.fmt ≤ 256) :
    (packed off s).cu.scratchLen.val
      = if byteLen s.cu.fmt = 0 then s.cu.scratchLen.val else max s.cu.scratchLen.val (off + byteLen s.cu.fmt) := by
  have hlen := length_packbits s.cu.fmt s.cu.val.toList
  rw [← hlen] at h ⊢
  exact State.storeScratch_len h

theorem startsWith_packed {off : Nat} {s : State} (hm : Memory.wf s.cu.scratch = true) (h : off + byteLen s.cu.fmt ≤ 256) :
    StartsWith ((packed off s).bytesFrom off) (packbits s.cu.fmt s.cu.val.toList) :=
  startsWith_storeScratch hm (by rwa [length_packbits])

/-- There is a `VAL` register for each field of a valid format. -/
theorem length_fmt_le_val {s : State} (hf : FmtOk s.cu.fmt) : s.cu.fmt.length ≤ s.cu.val.toList.length := by
  rw [Vector.length_toList]
  exact hf.1

theorem getElem?_val (s : State) (i : Fin 32) : s.cu.val.toList[i.val]? = some s.cu.val[i.val] := by
  rw [Vector.getElem?_toList, Vector.getElem?_eq_getElem]

/-- The bits of a field after PACK hold its packed value. -/
theorem bitsValue_packed {off : Nat} {s : State} (hf : FmtOk s.cu.fmt) (hm : Memory.wf s.cu.scratch = true)
    (h : off + byteLen s.cu.fmt ≤ 256) {i : Fin 32} {e : FmtEntry} (he : s.cu.fmt[i.val]? = some e) :
    bitsValue ((packed off s).bytesFrom off) (fieldStart s.cu.fmt i.val) e.width.toNat = packValue e s.cu.val[i.val] :=
  bitsValue_of_packbits (startsWith_packed hm h) hf (length_fmt_le_val hf) he (getElem?_val s i)

/-- Settles O21: the stored bytes are those of `packbits`, whose bits are the packed values and the pad bits. -/
theorem packStoresFieldBitsInOrder : Obligations.PackStoresFieldBitsInOrder := by
  unfold Obligations.PackStoresFieldBitsInOrder
  intro off s _
  refine ⟨exec_pack_of_not_fits, fun hfits => ⟨packed off s, exec_pack_of_fits hfits, rfl, scratchLen_packed hfits, ?outside,
    fun hf hm => ⟨?fields, ?pad⟩⟩⟩
  case outside =>
    intro a ha
    exact Memory.read_writeBytes_outside _ _ _ _ (by rwa [length_packbits])
  case fields =>
    intro i e b he hb
    rw [bitAt_eq_testBit_bitsValue _ _ hb, bitsValue_packed hf hm hfits he]
    exact testBit_packValue (hf.2 e (List.mem_of_getElem? he)) _ hb
  case pad =>
    intro k hlo hhi
    exact bitAt_pad (startsWith_packed hm hfits) hf (length_fmt_le_val hf) hlo hhi

/-! ### UNPACK (R414) -/

/-- The test of `firstUnexpected` on a field whose value meets its expected constant, or that has none. -/
theorem not_unexpected {e : FmtEntry} {x : Nat} (h : e.expEn = true → x = e.exp.toNat) :
    (e.expEn && decide (x ≠ e.exp.toNat)) = false := by
  cases hexp : e.expEn with
  | false => rfl
  | true => exact decide_eq_false (not_not.2 (h hexp))

/-- The first field that has an expected constant and another value is the one reported. -/
theorem firstUnexpected_eq_some {f : List FmtEntry} {g : Nat → FmtEntry → Nat} {i : Nat} {e : FmtEntry} (he : f[i]? = some e)
    (hexp : e.expEn = true) (hne : g i e ≠ e.exp.toNat)
    (hbefore : ∀ j e', j < i → f[j]? = some e' → e'.expEn = true → g j e' = e'.exp.toNat) (start : Nat) :
    firstUnexpected start f (f.mapIdx g) = some (start + i) := by
  induction f generalizing g i start with
  | nil => cases he
  | cons e0 f ih =>
    rw [List.mapIdx_cons, firstUnexpected]
    cases i with
    | zero =>
      cases he
      rw [hexp, decide_eq_true hne]
      rfl
    | succ i =>
      rw [not_unexpected (hbefore 0 e0 (Nat.succ_pos i) rfl), if_neg Bool.false_ne_true,
        ih (g := fun j => g (j + 1)) he hne (fun j e' hj => hbefore (j + 1) e' (Nat.succ_lt_succ hj))]
      congr 1
      omega

theorem firstUnexpected_eq_none {f : List FmtEntry} {g : Nat → FmtEntry → Nat}
    (h : ∀ i e, f[i]? = some e → e.expEn = true → g i e = e.exp.toNat) (start : Nat) :
    firstUnexpected start f (f.mapIdx g) = none := by
  induction f generalizing g start with
  | nil => rfl
  | cons e f ih =>
    rw [List.mapIdx_cons, firstUnexpected, not_unexpected (h 0 e rfl), if_neg Bool.false_ne_true]
    exact ih (g := fun j => g (j + 1)) (fun j => h (j + 1)) (start + 1)

/-- Each `VAL` register after the writes: its value of the list, or what it held. -/
theorem getElem_writeVals (xs : List Nat) (v : Vector Word 32) (start : Nat) (i : Fin 32) :
    (writeVals (par := Config.mfhc) v start xs)[i.val]
      = if start ≤ i.val then (xs[i.val - start]?.map (BitVec.ofNat 32)).getD v[i.val] else v[i.val] := by
  induction xs generalizing v start with
  | nil => simp [writeVals]
  | cons x xs ih =>
    rw [writeVals, ih, Vector.getElem_setIfInBounds i.isLt]
    rcases Nat.lt_trichotomy i.val start with hlt | heq | hgt
    · rw [if_neg (by omega), if_neg (by omega), if_neg (by omega)]
    · subst heq
      rw [if_neg (by omega), if_pos rfl, if_pos le_rfl, Nat.sub_self]
      rfl
    · rw [if_pos (by omega), if_neg (by omega), if_pos (by omega), show i.val - start = (i.val - (start + 1)) + 1 by omega,
        List.getElem?_cons_succ]

/-- The value that UNPACK gives field `i` of the format from an offset on. -/
def fieldValue (s : State) (off i : Nat) (e : FmtEntry) : Nat :=
  bitsValue (s.bytesFrom off) (fieldStart s.cu.fmt i) e.width.toNat

/-- The state UNPACK leaves when every expected constant is met. -/
def unpacked (off : Nat) (s : State) : State :=
  ((s.setVal (writeVals s.cu.val 0 (s.cu.fmt.mapIdx (fieldValue s off)))).setResult
    (BitVec.ofNat 32 (byteLen s.cu.fmt))).succeed

theorem unpackbits_readBytes (s : State) (off : Nat) :
    unpackbits s.cu.fmt (s.cu.scratch.readBytes off (byteLen s.cu.fmt)) = s.cu.fmt.mapIdx (fieldValue s off) :=
  unpackbits_eq_mapIdx (startsWith_readBytes s off _) (Memory.length_readBytes _ _ _)

theorem exec_unpack_of_short {off : Nat} {s : State} (h : s.cu.scratchLen.val < off + byteLen s.cu.fmt) :
    exec (.unpack off) s = .next (s.withError 2 0) := by
  rcases readRegion_cases s off (byteLen s.cu.fmt) with ⟨_, hr⟩ | ⟨hfits, _⟩
  · simp only [exec, execUnpack, hr, finishCommand, raise_eq_withError]
    rfl
  · exact absurd hfits (Nat.not_le.2 h)

/-- Within the valid bytes UNPACK compares the values of the fields, then writes them. -/
theorem exec_unpack_of_fits {off : Nat} {s : State} (h : off + byteLen s.cu.fmt ≤ s.cu.scratchLen.val) :
    exec (.unpack off) s
      = .next (((firstUnexpected 0 s.cu.fmt (s.cu.fmt.mapIdx (fieldValue s off))).map
          (fun i => s.raise ⟨.unexpectedValue, BitVec.ofNat 8 i⟩)).getD (unpacked off s)) := by
  rcases readRegion_cases s off (byteLen s.cu.fmt) with ⟨hpast, _⟩ | ⟨_, hr⟩
  · exact absurd h (Nat.not_le.2 hpast)
  · simp only [exec, execUnpack, hr, unpackbits_readBytes]
    cases firstUnexpected 0 s.cu.fmt (s.cu.fmt.mapIdx (fieldValue s off)) <;> rfl

/-- A `VAL` register below `COUNT` holds its field's value, which fits a word. -/
theorem toNat_val_unpacked {off : Nat} {s : State} (hf : FmtOk s.cu.fmt) {i : Fin 32} {e : FmtEntry}
    (he : s.cu.fmt[i.val]? = some e) : (unpacked off s).cu.val[i.val].toNat = fieldValue s off i.val e := by
  have hwidth : e.width.toNat ≤ 32 := (hf.2 e (List.mem_of_getElem? he)).2.1
  have hlt : fieldValue s off i.val e < 2 ^ 32 :=
    (bitsValue_lt _ _ _).trans_le (Nat.pow_le_pow_right (by decide) hwidth)
  have hval := getElem_writeVals (s.cu.fmt.mapIdx (fieldValue s off)) s.cu.val 0 i
  rw [if_pos (Nat.zero_le _), Nat.sub_zero, List.getElem?_mapIdx, he] at hval
  refine (congrArg BitVec.toNat hval).trans ?_
  exact (BitVec.toNat_ofNat _ _).trans (Nat.mod_eq_of_lt hlt)

theorem val_unpacked_above {off : Nat} {s : State} {i : Fin 32} (hi : s.cu.fmt.length ≤ i.val) :
    (unpacked off s).cu.val[i.val] = s.cu.val[i.val] := by
  refine (getElem_writeVals (s.cu.fmt.mapIdx (fieldValue s off)) s.cu.val 0 i).trans ?_
  rw [if_pos (Nat.zero_le _), Nat.sub_zero, List.getElem?_mapIdx, List.getElem?_eq_none hi]
  rfl

/-- Settles O22: the values of the fields are the values of their bits, compared in index order and then written. -/
theorem unpackReadsFieldBitsInOrder : Obligations.UnpackReadsFieldBitsInOrder := by
  unfold Obligations.UnpackReadsFieldBitsInOrder
  intro off s _ hf v bad
  have hgood : ∀ i, ¬ bad i → ∀ e, s.cu.fmt[i]? = some e → e.expEn = true → fieldValue s off i e = e.exp.toNat :=
    fun i hi e he hexp => by_contra fun hne => hi ⟨e, he, hexp, hne⟩
  refine ⟨exec_unpack_of_short, fun hfits i hbad hbefore => ?unexpected, fun hfits hall => ?written⟩
  case unexpected =>
    obtain ⟨e, he, hexp, hne⟩ := hbad
    have hi : i < 32 := (List.getElem?_eq_some_iff.1 he).1.trans_le hf.1
    have hfirst := firstUnexpected_eq_some (g := fieldValue s off) he hexp hne (fun j e' hj => hgood j (hbefore j hj) e') 0
    rw [exec_unpack_of_fits hfits, hfirst, Nat.zero_add, Option.map_some, Option.getD_some, raise_eq_withError,
      BitVec.toNat_ofNat, Nat.mod_eq_of_lt (by omega)]
    rfl
  case written =>
    have hnone := firstUnexpected_eq_none (g := fieldValue s off) (fun i e => hgood i (hall i) e) 0
    refine ⟨unpacked off s, ?_, rfl, fun i => ⟨fun e => toNat_val_unpacked hf, val_unpacked_above⟩⟩
    rw [exec_unpack_of_fits hfits, hnone]
    rfl

/-! ### PACK and then UNPACK (R402, R413, R414) -/

/-- What PACK stores is within the valid bytes afterwards; nothing is stored for an empty format. -/
theorem packed_fits {off : Nat} {s : State} (hf : FmtOk s.cu.fmt) (hfits : off + byteLen s.cu.fmt ≤ 256)
    (h : s.cu.fmt ≠ [] ∨ off ≤ s.cu.scratchLen.val) :
    off + byteLen (packed off s).cu.fmt ≤ (packed off s).cu.scratchLen.val := by
  rw [scratchLen_packed hfits]
  change off + byteLen s.cu.fmt ≤ _
  split
  · next hzero =>
    rcases h with hne | hoff
    · exact absurd hzero (byteLen_pos hf hne).ne'
    · omega
  · exact Nat.le_max_right _ _

/-- Settles O24: the bits that PACK stores for a field have its packed value, which UNPACK compares and writes. -/
theorem packThenUnpackRestoresValues : Obligations.PackThenUnpackRestoresValues := by
  unfold Obligations.PackThenUnpackRestoresValues
  intro off s hoff hf hm hfits hoffset hexpected
  have hvalue : ∀ (i : Fin 32) (e : FmtEntry), s.cu.fmt[i.val]? = some e →
      fieldValue (packed off s) off i.val e = packValue e s.cu.val[i.val] := fun i e => bitsValue_packed hf hm hfits
  have hmet : ∀ i e, s.cu.fmt[i]? = some e → e.expEn = true → fieldValue (packed off s) off i e = e.exp.toNat := by
    intro i e he hexp
    have hi : i < 32 := (List.getElem?_eq_some_iff.1 he).1.trans_le hf.1
    exact (hvalue ⟨i, hi⟩ e he).trans ((packValue_eq e _).trans (hexpected ⟨i, hi⟩ e he hexp))
  obtain ⟨-, -, hunpack⟩ := unpackReadsFieldBitsInOrder off (packed off s) hoff hf
  obtain ⟨u, hu, hframe, hvals⟩ := hunpack (packed_fits hf hfits hoffset)
    (fun i ⟨e, he, hexp, hne⟩ => hne (hmet i e he hexp))
  refine ⟨packed off s, u, exec_pack_of_fits hfits, hu, congrArg (·.cu.err) hframe, fun i => ⟨fun e he => ?_, (hvals i).2⟩⟩
  exact ((hvals i).1 e he).trans ((hvalue i e he).trans (packValue_eq e _))

end Sys2Proof.Proofs.Codec

/-! PROOFS. The derived values of a header word: the codes, tables and lengths of R504 to R513 (O26). -/

namespace Sys2Proof.Proofs.DerivedValues

open Sys2Proof.Machine Sys2Proof.Proofs.HeaderFields Sys2Proof.Proofs.Candidates Sys2Proof.Proofs.Invariant
open Sys2Proof.Model hiding State CmdUnit HdrState HdrInfo Engine Counters Record Reg View

/-! ### The code maps (41_header.md R506, R507) -/

theorem versionCode_of_map {code : Nat} {v : Version} (hlt : code < 4) :
    Config.mfhc.versionMap.getD code none = some v → code = (match v with | .v1 => 3 | .v2 => 2 | .v25 => 0) := by
  intro h
  interval_cases code <;> cases h <;> rfl

theorem layerCode_of_map {code : Nat} {l : Layer} (hlt : code < 4) :
    Config.mfhc.layerMap.getD code none = some l → code = (match l with | .l1 => 3 | .l2 => 2 | .l3 => 1) := by
  intro h
  interval_cases code <;> cases h <;> rfl

/-! ### The rate tables (R508, R509) -/

theorem bitrateColumn_of_entry {vc : VersionClass} {l : Layer} {code k : Nat} (h : bitrateEntry vc l code = some k) :
    (bitrateColumn vc l)[code - 1]? = some k := by
  cases code with
  | zero => cases h
  | succ code => exact h

/-- The rate of the class, of which version 2.5 takes half. -/
theorem samplingHz_eq_some {v : Version} {code z : Nat} (h : samplingHz v code = some z) :
    ∃ y, (srateColumn v.cls)[code]? = some y ∧ z = if v = .v25 then y / 2 else y := by
  unfold samplingHz at h
  split at h
  · cases h
  · next y hy =>
    cases h
    refine ⟨y, hy, ?_⟩
    cases v <;> rfl

theorem rates_of_samplingHz {v : Version} {code z : Nat} (h : samplingHz v code = some z) :
    (match v with
      | .v1 => [44100, 48000, 32000] | .v2 => [22050, 24000, 16000] | .v25 => [11025, 12000, 8000])[code]? = some z := by
  obtain ⟨y, hy, rfl⟩ := samplingHz_eq_some h
  have hcode : code < 3 := (samplingHz_isSome v code).1 (h ▸ rfl)
  cases v <;> interval_cases code <;> cases hy <;> rfl

/-! ### The lengths (R511 to R513) -/

theorem crcLen_eq_ite (d : HdrInfo) : d.crcLen = if d.prot then 2 else 0 := by
  unfold HdrInfo.crcLen
  cases d.prot <;> rfl

theorem siLen_eq (d : HdrInfo) :
    d.siLen = (match d.version, d.mono with
      | .v1, false => 32 | .v1, true => 17 | .v2, false => 17 | .v2, true => 9 | .v25, false => 17 | .v25, true => 9) := by
  unfold HdrInfo.siLen
  cases d.version <;> cases d.mono <;> rfl

theorem siLen_le (d : HdrInfo) : d.siLen ≤ 32 := by
  have hmem := d.siLen_mem
  omega

theorem hlen_eq (d : HdrInfo) : d.hlen = 4 + (if d.prot then 2 else 0) + d.siLen := by
  rw [HdrInfo.hlen, crcLen_eq_ite]

theorem hlen_mem (d : HdrInfo) : d.hlen ∈ [13, 15, 21, 23, 36, 38] := by
  have hsi := d.siLen_mem
  simp only [hlen_eq, List.mem_cons, List.not_mem_nil, or_false]
  split <;> omega

/-- The quotient of the frame-length formula (R513). -/
def frameQuotient (d : HdrInfo) : Nat := Config.mfhc.frameK.at d.version.cls d.layer * d.kbps * 1000 / d.hz

theorem flen_eq (d : HdrInfo) :
    d.flen = if d.layer = .l1 then (frameQuotient d + d.padding.toNat * 4) * 4 else frameQuotient d + d.padding.toNat := by
  simp only [HdrInfo.flen, frameQuotient]
  cases d.layer <;> rfl

theorem frameK_eq (d : HdrInfo) :
    Config.mfhc.frameK.at d.version.cls d.layer
      = (match d.version, d.layer with | .v1, .l1 => 12 | .v1, _ => 144 | _, .l1 => 240 | _, _ => 72) := by
  cases d.version <;> cases d.layer <;> rfl

/-- Outside layer I the smallest rate over the largest sampling rate of a class still gives 24 bytes. -/
theorem table_products (vc : VersionClass) (l : Layer) (hl : l ≠ .l1) :
    ∀ k ∈ bitrateColumn vc l, ∀ z ∈ srateColumn vc, 24 * z ≤ Config.mfhc.frameK.at vc l * k * 1000 := by
  revert hl
  cases vc <;> cases l <;> decide

theorem hz_le_column {h : Word} {d : HdrInfo} (hd : HdrInfo.ofWord h = some d) :
    ∃ y ∈ srateColumn d.version.cls, d.hz ≤ y := by
  obtain ⟨-, -, -, -, hhz, -, -, -⟩ := HdrInfo.ofWord_cases hd
  obtain ⟨y, hy, hz⟩ := samplingHz_eq_some hhz
  refine ⟨y, List.mem_of_getElem? hy, ?_⟩
  rw [hz]
  split <;> omega

theorem le_frameQuotient_of_not_l1 {h : Word} {d : HdrInfo} (hd : HdrInfo.ofWord h = some d) (hl : d.layer ≠ .l1) :
    24 ≤ frameQuotient d := by
  obtain ⟨-, -, -, hkbps, hhz, -, -, -⟩ := HdrInfo.ofWord_cases hd
  obtain ⟨y, hy, hle⟩ := hz_le_column hd
  obtain ⟨hpos, -⟩ := samplingHz_bounds hhz
  have hproduct := table_products _ _ hl _ (bitrateEntry_mem hkbps) y hy
  exact (Nat.le_div_iff_mul_le (by omega)).2 (by omega)

theorem flen_between {h : Word} {d : HdrInfo} (hd : HdrInfo.ofWord h = some d) : 24 ≤ d.flen ∧ d.flen ≤ 30736 := by
  have hpad := d.padding.toNat_le
  obtain ⟨-, -, hlo, hhi⟩ := ofWord_bounds hd
  change 8 ≤ frameQuotient d at hlo
  change frameQuotient d ≤ 7680 at hhi
  rw [flen_eq]
  split
  · omega
  · next hl =>
    have := le_frameQuotient_of_not_l1 hd hl
    omega

/-- A flag of one bit as a number (R504). -/
theorem padding_toNat {h : Word} {d : HdrInfo} (hd : HdrInfo.ofWord h = some d) : d.padding.toNat = h.toNat / 2 ^ 9 % 2 := by
  obtain ⟨-, -, -, -, -, -, hpad, -⟩ := HdrInfo.ofWord_cases hd
  have hbit : hdrField h .padding = h.toNat / 2 ^ 9 % 2 := hdrField_eq_div_mod h .padding
  rw [hpad, hbit]
  rcases Nat.mod_two_eq_zero_or_one (h.toNat / 2 ^ 9) with h0 | h1
  · rw [h0]; rfl
  · rw [h1]; rfl

/-- Settles O26: each value is read from its table at the code of its field, and the bounds are those of the tables. -/
theorem validHeadersHaveBoundedLengths : Obligations.ValidHeadersHaveBoundedLengths := by
  unfold Obligations.ValidHeadersHaveBoundedLengths
  refine fun h => ⟨HdrInfo.ofWord_isSome h, fun d hd => ?_⟩
  obtain ⟨-, hversion, hlayer, hkbps, hhz, -, -, hmono⟩ := HdrInfo.ofWord_cases hd
  refine ⟨?prot, ?mono, siLen_eq d, hlen_eq d, hlen_mem d, ?version, ?layer, ⟨?bitrate, ?rate⟩, ?flen, flen_between hd⟩
  case prot =>
    rw [crcFlag_of_prot hd, hdrField_eq_div_mod]
    rfl
  case mono =>
    rw [hmono, decide_eq_true_eq, hdrField_eq_div_mod]
    rfl
  case version =>
    rw [hdrField_eq_div_mod] at hversion
    exact versionCode_of_map (Nat.mod_lt _ (by decide)) hversion
  case layer =>
    rw [hdrField_eq_div_mod] at hlayer
    exact layerCode_of_map (Nat.mod_lt _ (by decide)) hlayer
  case bitrate =>
    have hentry := bitrateColumn_of_entry hkbps
    rw [hdrField_eq_div_mod] at hentry
    refine Eq.trans ?_ hentry
    cases d.version <;> cases d.layer <;> rfl
  case rate =>
    have hrate := rates_of_samplingHz hhz
    rw [hdrField_eq_div_mod] at hrate
    exact hrate
  case flen =>
    have hflen := flen_eq d
    rw [padding_toNat hd, frameQuotient, frameK_eq] at hflen
    exact hflen

end Sys2Proof.Proofs.DerivedValues

/-! PROOFS. CRC-16: the bit-serial form, and a flipped bit of the message changes the register for good (O27). -/

namespace Sys2Proof.Proofs.Crc

open Sys2Proof.Machine
open Sys2Proof.Model hiding State CmdUnit HdrState HdrInfo Engine Counters Record Reg View

/-! ### The bit-serial form (41_header.md R520) -/

theorem shiftLeft_one_eq_ofNat (c : Half) : c <<< 1 = BitVec.ofNat 16 (c.toNat * 2) := by
  apply BitVec.eq_of_toNat_eq
  rw [BitVec.toNat_shiftLeft, Nat.shiftLeft_eq, BitVec.toNat_ofNat]

theorem crcBit_eq_ite (poly c : Half) (bit : Bool) :
    crcBit poly c bit
      = if c.getLsbD 15 = bit then BitVec.ofNat 16 (c.toNat * 2) else BitVec.ofNat 16 (c.toNat * 2) ^^^ poly := by
  have hmsb : c.msb = c.getLsbD 15 := BitVec.msb_eq_getLsbD_last c
  rw [crcBit, hmsb, shiftLeft_one_eq_ofNat]
  cases c.getLsbD 15 <;> cases bit <;> rfl

theorem crcByte_eq_foldl_bits (poly c : Half) (b : Byte) :
    crcByte poly c b = ((List.range 8).map (fun k => b.getLsbD (7 - k))).foldl (crcBit poly) c := rfl

/-- Settles O27: a byte is the fold over its bits, and `crcBit` is the step of the statement. -/
theorem crcIsBitSerial : Obligations.CrcIsBitSerial := by
  unfold Obligations.CrcIsBitSerial
  intro poly init bs
  have hstep : (fun (c : Half) (bit : Bool) =>
      let shifted : Half := BitVec.ofNat 16 (c.toNat * 2)
      if c.getLsbD 15 = bit then shifted else shifted ^^^ poly) = crcBit poly :=
    funext₂ fun c bit => (crcBit_eq_ite poly c bit).symm
  rw [hstep, List.foldl_flatMap, crc16]
  exact congrArg (List.foldl · init bs) (funext₂ (crcByte_eq_foldl_bits poly))

/-! ### A step of the register can be undone (R520)

With bit 0 of the polynomial set, bit 0 after a step says whether the polynomial was added. -/

section

variable {poly : Half}

theorem crcBit_eq_xor (c : Half) (bit : Bool) : crcBit poly c bit = (c <<< 1) ^^^ (if c.msb != bit then poly else 0) := by
  unfold crcBit
  split
  · rfl
  · exact BitVec.xor_zero.symm

theorem crcBit_flip_ne (hpoly : poly.getLsbD 0 = true) (c : Half) (bit : Bool) : crcBit poly c bit ≠ crcBit poly c !bit := by
  have hne : poly ≠ 0#16 := by
    rintro rfl
    cases hpoly
  rw [crcBit_eq_xor, crcBit_eq_xor]
  intro h
  have hadded := (BitVec.xor_right_inj _).1 h
  cases hm : c.msb <;> cases bit <;> simp [hm, hne, hne.symm] at hadded

theorem getLsbD_zero_crcBit (hpoly : poly.getLsbD 0 = true) (c : Half) (bit : Bool) :
    (crcBit poly c bit).getLsbD 0 = (c.msb != bit) := by
  rw [crcBit_eq_xor, BitVec.getLsbD_xor, BitVec.getLsbD_shiftLeft]
  cases c.msb != bit <;> simp [hpoly]

theorem shiftLeft_one_injective {c c' : Half} (hmsb : c.msb = c'.msb) (h : c <<< 1 = c' <<< 1) : c = c' := by
  apply BitVec.eq_of_getElem_eq
  intro i hi
  rcases Nat.lt_succ_iff_lt_or_eq.1 hi with hlow | rfl
  · have hbit := congrArg (BitVec.getLsbD · (i + 1)) h
    simpa [show i + 1 < 16 by omega] using hbit
  · simpa [BitVec.msb_eq_getLsbD_last] using hmsb

theorem crcBit_injective (hpoly : poly.getLsbD 0 = true) (bit : Bool) : Function.Injective (crcBit poly · bit) := by
  intro c c' h
  dsimp only at h
  have hadded : (c.msb != bit) = (c'.msb != bit) := by
    rw [← getLsbD_zero_crcBit hpoly, h, getLsbD_zero_crcBit hpoly]
  rw [crcBit_eq_xor, crcBit_eq_xor, hadded, BitVec.xor_left_inj] at h
  exact shiftLeft_one_injective (Bool.bne_left_inj.1 hadded) h

/-- Two registers that differ differ after the same message. -/
theorem foldl_injective {α β : Type} {f : α → β → α} (hf : ∀ b, Function.Injective (f · b)) (l : List β) :
    Function.Injective (l.foldl f ·) := by
  induction l with
  | nil => exact fun _ _ h => h
  | cons b l ih => exact fun _ _ h => hf b (ih h)

theorem crcByte_injective (hpoly : poly.getLsbD 0 = true) (b : Byte) : Function.Injective (crcByte poly · b) :=
  foldl_injective (f := fun c i => crcBit poly c (b.getLsbD i)) (fun i => crcBit_injective hpoly (b.getLsbD i)) _

/-- Messages that differ in the one bit `k`, which is read once. -/
theorem foldl_crcBit_ne (hpoly : poly.getLsbD 0 = true) {x y : Nat → Bool} {k : Nat} (hk : y k = !x k)
    (hother : ∀ i, i ≠ k → y i = x i) {l : List Nat} (hl : l.Nodup) (hmem : k ∈ l) (c : Half) :
    l.foldl (fun c i => crcBit poly c (x i)) c ≠ l.foldl (fun c i => crcBit poly c (y i)) c := by
  induction l generalizing c with
  | nil => cases hmem
  | cons i l ih =>
    obtain ⟨hi, hl⟩ := List.nodup_cons.1 hl
    rw [List.foldl_cons, List.foldl_cons]
    by_cases hik : i = k
    · subst hik
      have hrest : ∀ c, l.foldl (fun c j => crcBit poly c (y j)) c = l.foldl (fun c j => crcBit poly c (x j)) c :=
        fun c => List.foldl_ext _ _ _ fun c j hj => by rw [hother j (fun h => hi (h ▸ hj))]
      rw [hrest, hk]
      exact (foldl_injective (fun j => crcBit_injective hpoly (x j)) l).ne (crcBit_flip_ne hpoly c (x i))
    · rw [hother i hik]
      exact ih hl (List.mem_of_ne_of_mem (Ne.symm hik) hmem) _

theorem crcByte_flip_ne (hpoly : poly.getLsbD 0 = true) (c : Half) (x : Byte) {k : Nat} (hk : k < 8) :
    crcByte poly c x ≠ crcByte poly c (x ^^^ BitVec.twoPow 8 k) := by
  refine foldl_crcBit_ne hpoly (k := k) ?_ (fun i hi => ?_) (by decide) ?_ c
  · simp [hk]
  · simp [hi.symm]
  · interval_cases k <;> decide

/-- The CRC of a string changes with any one bit of it (R523). -/
theorem crc16_set_flip_ne (hpoly : poly.getLsbD 0 = true) (init : Half) {bs : List Byte} {j k : Nat} (hj : j < bs.length)
    (hk : k < 8) : crc16 poly init bs ≠ crc16 poly init (bs.set j (bs[j] ^^^ BitVec.twoPow 8 k)) := by
  have hsplit : bs = bs.take j ++ bs[j] :: bs.drop (j + 1) := by simp
  rw [List.set_eq_take_append_cons_drop, if_pos hj]
  conv_lhs => rw [hsplit]
  simp only [crc16, List.foldl_append, List.foldl_cons]
  exact (foldl_injective (crcByte_injective hpoly) _).ne (crcByte_flip_ne hpoly _ _ hk)

end

end Sys2Proof.Proofs.Crc

/-! PROOFS. The family 41_header.md: the header commands and CRC16, each from its outcome (O28, O29, O32, O33, O35). -/

namespace Sys2Proof.Proofs.HeaderCommands

open Sys2Proof.Machine Sys2Proof.Proofs.Encoding Sys2Proof.Proofs.BitFields Sys2Proof.Proofs.DerivedValues Sys2Proof.Proofs.Crc
open Sys2Proof.Model hiding State CmdUnit HdrState HdrInfo Engine Counters Record Reg View

/-! ### Operands (41_header.md R501, R531 to R534) -/

theorem heldHeader_of_info {s : State} {d : HdrInfo} (h : s.cu.hdr.info = some d) : heldHeader s = .ok d := by
  rw [heldHeader, h]

theorem heldHeader_of_not_valid {s : State} (hv : s.cu.hdr.valid = false) : heldHeader s = .error ⟨.state, 0⟩ := by
  rw [heldHeader, HdrState.info_of_not_valid hv]

/-- MALFORMED_HEADER with its reason as the statements write it (30_encoding.md R332). -/
theorem raise_malformed (s : State) (r : MalformedReason) :
    s.raise ⟨.malformedHeader, r.code⟩
      = s.withError 4 (match r with | .sync => 1 | .version => 2 | .layer => 3 | .bitrate => 4 | .samplingrate => 5) := by
  rw [raise_eq_withError]
  cases r <;> rfl

/-! ### HDR_DECODE (R530) -/

theorem ofNat_beNat_two (a b : Byte) : BitVec.ofNat 16 (beNat [a, b]) = a ++ b := by
  apply BitVec.eq_of_toNat_eq
  have ha := a.isLt
  have hb := b.isLt
  simp only [toNat_append_eq_add, BitVec.toNat_ofNat, beNat, List.foldl_cons, List.foldl_nil]
  omega

theorem ofNat_beNat_four (a b c d : Byte) : BitVec.ofNat 32 (beNat [a, b, c, d]) = a ++ b ++ c ++ d := by
  apply BitVec.eq_of_toNat_eq
  have ha := a.isLt
  have hb := b.isLt
  have hc := c.isLt
  have hd := d.isLt
  simp only [toNat_append_eq_add, BitVec.toNat_ofNat, beNat, List.foldl_cons, List.foldl_nil]
  omega

theorem exec_hdrDecode_of_valid {off : Nat} {src : HdrSource} {s : State} {w : Word} (hsrc : headerSource s off src = .ok w)
    (hw : validate w = none) : exec (.hdrDecode off src) s = .next (s.setHdr (.decoded w)).succeed := by
  simp only [exec, execHdrDecode, hsrc, validHeader, hw, finishCommand]

theorem exec_hdrDecode_of_malformed {off : Nat} {src : HdrSource} {s : State} {w : Word} {r : MalformedReason}
    (hsrc : headerSource s off src = .ok w) (hw : validate w = some r) :
    exec (.hdrDecode off src) s = .next (s.raise ⟨.malformedHeader, r.code⟩) := by
  simp only [exec, execHdrDecode, hsrc, validHeader, hw, finishCommand]

theorem headerSource_of_fits {s : State} {off : Nat} (h : off + 4 ≤ s.cu.scratchLen.val) :
    headerSource s off .scratch = .ok (BitVec.ofNat 32 (beNat (s.cu.scratch.readBytes off 4))) := by
  rcases readRegion_cases s off 4 with ⟨hpast, _⟩ | ⟨_, hr⟩
  · exact absurd h (Nat.not_le.2 hpast)
  · simp only [headerSource, hr]

theorem exec_hdrDecode_of_short {off : Nat} {s : State} (h : s.cu.scratchLen.val < off + 4) :
    exec (.hdrDecode off .scratch) s = .next (s.withError 2 0) := by
  rcases readRegion_cases s off 4 with ⟨_, hr⟩ | ⟨hfits, _⟩
  · simp only [exec, execHdrDecode, headerSource, hr, finishCommand, raise_eq_withError]
    rfl
  · exact absurd hfits (Nat.not_le.2 h)

/-- Settles O28: the source word or LENGTH, then the word held or the first failing check. -/
theorem hdrDecodeHoldsValidWord : Obligations.HdrDecodeHoldsValidWord := by
  unfold Obligations.HdrDecodeHoldsValidWord
  intro off s _ outcome
  have hdecode : ∀ src w, headerSource s off src = .ok w → exec (.hdrDecode off src) s = outcome w := by
    intro src w hsrc
    dsimp only [outcome]
    cases hw : validate w with
    | none => exact exec_hdrDecode_of_valid hsrc hw
    | some r => exact (exec_hdrDecode_of_malformed hsrc hw).trans (congrArg Host.Outcome.next (raise_malformed s r))
  refine ⟨hdecode .hdrIn s.cu.hdrIn rfl, exec_hdrDecode_of_short, fun hfits => ?_⟩
  rw [hdecode .scratch _ (headerSource_of_fits hfits)]
  exact congrArg outcome (ofNat_beNat_four _ _ _ _)

/-! ### HDR_UPDATE (R531) -/

/-- The header state with what is available from an offset captured. -/
def captured (off : Nat) (s : State) (d : HdrInfo) : HdrState :=
  captureSi s.cu.scratch off (availableFrom s off) d (captureCrc s.cu.scratch off (availableFrom s off) d s.cu.hdr)

theorem exec_hdrUpdate_of_held {off : Nat} {s : State} {d : HdrInfo} (hd : s.cu.hdr.info = some d) :
    exec (.hdrUpdate off) s = .next ((s.setHdr (captured off s d)).setResult (captured off s d).stateBits).succeed := by
  simp only [exec, execHdrUpdate, heldHeader_of_info hd, finishCommand]
  rfl

section

variable {m : Memory} {off avail : Nat} {d : HdrInfo} {h : HdrState}

theorem captureCrc_of_available (hc : d.prot = true ∧ h.crcCap = false ∧ 6 ≤ avail) :
    captureCrc m off avail d h
      = { h with storedCrc := BitVec.ofNat 16 (beNat (m.readBytes (off + 4) 2)), crcCap := true } := if_pos hc

theorem captureCrc_of_not_available (hc : ¬(d.prot = true ∧ h.crcCap = false ∧ 6 ≤ avail)) :
    captureCrc m off avail d h = h := if_neg hc

theorem captureSi_of_available (hc : h.siCap = false ∧ 4 + d.crcLen + d.siLen ≤ avail) :
    captureSi m off avail d h
      = { h with si := writeSi h.si 0 (m.readBytes (off + 4 + d.crcLen) d.siLen), siCap := true } := if_pos hc

theorem captureSi_of_not_available (hc : ¬(h.siCap = false ∧ 4 + d.crcLen + d.siLen ≤ avail)) :
    captureSi m off avail d h = h := if_neg hc

end

theorem getD_readBytes (m : Memory) (a : Nat) {n j : Nat} (hj : j < n) : (m.readBytes a n).getD j 0 = m.read (a + j) := by
  rw [List.getD_eq_getElem?_getD, Memory.getElem?_readBytes, if_pos hj, Option.getD_some]

/-- The side-information file after its first bytes are written (R531). -/
theorem getD_writeSi_readBytes (v : Vector Byte 32) (m : Memory) (a : Nat) {n : Nat} (hn : n ≤ 32) (j : Nat) :
    (writeSi v 0 (m.readBytes a n)).toList.getD j 0 = if j < n then m.read (a + j) else v.toList.getD j 0 := by
  rw [getD_writeSi _ _ _ _ (by rw [Memory.length_readBytes]; omega), Memory.length_readBytes]
  by_cases hj : j < n
  · rw [if_pos (by omega), if_pos hj, Nat.sub_zero, getD_readBytes m a hj]
  · rw [if_neg (by omega), if_neg hj]

/-- Capturing leaves the word and its validity. -/
theorem captured_frame (off : Nat) (s : State) (d : HdrInfo) :
    captured off s d
      = { s.cu.hdr with
          storedCrc := (captured off s d).storedCrc
          crcCap := (captured off s d).crcCap
          si := (captured off s d).si
          siCap := (captured off s d).siCap } := by
  unfold captured
  generalize availableFrom s off = avail
  obtain ⟨hwordCrc, hvalidCrc, -, -⟩ := captureCrc_keeps s.cu.scratch off avail d s.cu.hdr
  obtain ⟨hwordSi, hvalidSi, -, -⟩ :=
    captureSi_keeps s.cu.scratch off avail d (captureCrc s.cu.scratch off avail d s.cu.hdr)
  dsimp only
  rw [← hwordSi.trans hwordCrc, ← hvalidSi.trans hvalidCrc]

/-- The stored CRC after a capture is what `captureCrc` leaves. -/
theorem captured_crc (off : Nat) (s : State) (d : HdrInfo) :
    (captured off s d).crcCap = (captureCrc s.cu.scratch off (availableFrom s off) d s.cu.hdr).crcCap
      ∧ (captured off s d).storedCrc = (captureCrc s.cu.scratch off (availableFrom s off) d s.cu.hdr).storedCrc := by
  obtain ⟨-, -, hstored, hcap⟩ := captureSi_keeps s.cu.scratch off (availableFrom s off) d
    (captureCrc s.cu.scratch off (availableFrom s off) d s.cu.hdr)
  exact ⟨hcap, hstored⟩

/-- The side information after a capture is what `captureSi` leaves of the header state held before. -/
theorem captured_si (off : Nat) (s : State) (d : HdrInfo) :
    (captured off s d).siCap = (captureSi s.cu.scratch off (availableFrom s off) d s.cu.hdr).siCap
      ∧ (captured off s d).si = (captureSi s.cu.scratch off (availableFrom s off) d s.cu.hdr).si := by
  obtain ⟨-, -, hsi, hcap⟩ := captureCrc_keeps s.cu.scratch off (availableFrom s off) d s.cu.hdr
  unfold captured captureSi
  rw [hcap, hsi]
  split
  · exact ⟨rfl, rfl⟩
  · exact ⟨hcap, hsi⟩

/-- Settles O29: the two captures touch different parts of the header state. -/
theorem hdrUpdateCapturesWhatIsAvailable : Obligations.HdrUpdateCapturesWhatIsAvailable := by
  unfold Obligations.HdrUpdateCapturesWhatIsAvailable
  refine fun off s _ => ⟨fun hv => ?notHeld, fun d hv hword => ?held⟩
  case notHeld =>
    simp only [exec, execHdrUpdate, heldHeader_of_not_valid hv, finishCommand, raise_eq_withError]
    rfl
  case held =>
    intro avail crc side
    have hd : s.cu.hdr.info = some d := HdrState.info_eq_some.2 ⟨hv, hword⟩
    obtain ⟨hcrcCap, hstored⟩ := captured_crc off s d
    obtain ⟨hsiCap, hsi⟩ := captured_si off s d
    have hside : (s.cu.hdr.siCap = false ∧ 4 + d.crcLen + d.siLen ≤ avail) ↔ side := by rw [crcLen_eq_ite]
    refine ⟨_, exec_hdrUpdate_of_held hd, ?frame, fun hc => ?crc, fun hc => ?noCrc, fun hs => ?side, fun hs => ?noSide⟩
    case frame =>
      exact congrArg (fun h => ((s.setHdr h).setResult (captured off s d).stateBits).succeed) (captured_frame off s d)
    case crc =>
      rw [captureCrc_of_available (avail := availableFrom s off) hc] at hcrcCap hstored
      exact ⟨hcrcCap, hstored.trans (ofNat_beNat_two _ _)⟩
    case noCrc =>
      rw [captureCrc_of_not_available (avail := availableFrom s off) hc] at hcrcCap hstored
      exact ⟨hcrcCap, hstored⟩
    case side =>
      rw [captureSi_of_available (avail := availableFrom s off) (hside.2 hs)] at hsiCap hsi
      refine ⟨hsiCap, fun j _ => ?_⟩
      change (captured off s d).si.toList.getD j 0 = _
      rw [hsi, getD_writeSi_readBytes _ _ _ (siLen_le d), crcLen_eq_ite, Nat.add_assoc off, Nat.add_assoc off]
      rfl
    case noSide =>
      rw [captureSi_of_not_available (avail := availableFrom s off) (fun h => hs (hside.1 h))] at hsiCap hsi
      exact ⟨hsiCap, hsi⟩

/-! ### HDR_SETF (R533) -/

theorem fieldOperand_of_gt {i : Nat} (h : 12 < i) : fieldOperand i = .error ⟨.illegalCommand, BitVec.ofNat 8 i⟩ := by
  obtain ⟨k, rfl⟩ := Nat.exists_eq_add_of_le' h
  rfl

/-- The fields of the index list with their widths (30_encoding.md R310). -/
theorem fieldOperand_of_row {i n : Nat} {f : HdrField}
    (h : [(HdrField.sync, 11), (.versionCode, 2), (.layerCode, 2), (.crcFlag, 1), (.bitrateCode, 4), (.samplingrateCode, 2),
      (.padding, 1), (.priv, 1), (.channelmode, 2), (.modeextension, 2), (.copyright, 1), (.original, 1),
      (.emphasis, 2)][i]? = some (f, n)) : fieldOperand i = .ok f ∧ n = f.width := by
  have hi : i < 13 := (List.getElem?_eq_some_iff.1 h).1
  interval_cases i <;> cases h <;> exact ⟨rfl, rfl⟩

section

variable {i v : Nat} {s : State} {d : HdrInfo} {f : HdrField}

theorem exec_hdrSetf_of_illegal (hd : s.cu.hdr.info = some d) (hi : 12 < i) :
    exec (.hdrSetf i v) s = .next (s.raise ⟨.illegalCommand, BitVec.ofNat 8 i⟩) := by
  simp only [exec, execHdrSetf, heldHeader_of_info hd, fieldOperand_of_gt hi, finishCommand]

theorem exec_hdrSetf_of_malformed (hd : s.cu.hdr.info = some d) (hf : fieldOperand i = .ok f) {r : MalformedReason}
    (hw : validate (setHdrField s.cu.hdr.word f v) = some r) :
    exec (.hdrSetf i v) s = .next (s.raise ⟨.malformedHeader, r.code⟩) := by
  simp only [exec, execHdrSetf, heldHeader_of_info hd, hf, validHeader, hw, finishCommand]

theorem exec_hdrSetf_of_valid (hd : s.cu.hdr.info = some d) (hf : fieldOperand i = .ok f)
    (hw : validate (setHdrField s.cu.hdr.word f v) = none) :
    exec (.hdrSetf i v) s = .next (s.setHdr (s.cu.hdr.withWord d (setHdrField s.cu.hdr.word f v))).succeed := by
  simp only [exec, execHdrSetf, heldHeader_of_info hd, hf, validHeader, hw, finishCommand]

end

theorem withWord_of_ofWord {h : HdrState} {d d' : HdrInfo} {w : Word} (hd' : HdrInfo.ofWord w = some d') :
    h.withWord d w = if d'.prot ≠ d.prot ∨ d'.siLen ≠ d.siLen then .decoded w else { h with word := w } := by
  rw [HdrState.withWord, hd']

/-- Settles O32: the new word is `setHdrField`, which changes one field, and the checks are taken in their order. -/
theorem hdrSetfReplacesOneField : Obligations.HdrSetfReplacesOneField := by
  unfold Obligations.HdrSetfReplacesOneField
  refine fun i v s hi _ => ⟨fun hv => ?notHeld, fun d hv hword => ⟨fun hgt => ?illegal, fun f n hrow => ?field⟩⟩
  case notHeld =>
    simp only [exec, execHdrSetf, heldHeader_of_not_valid hv, finishCommand, raise_eq_withError]
    rfl
  case illegal =>
    rw [exec_hdrSetf_of_illegal (HdrState.info_eq_some.2 ⟨hv, hword⟩) hgt, raise_eq_withError, BitVec.toNat_ofNat,
      Nat.mod_eq_of_lt hi]
    rfl
  case field =>
    have hd : s.cu.hdr.info = some d := HdrState.info_eq_some.2 ⟨hv, hword⟩
    obtain ⟨hf, rfl⟩ := fieldOperand_of_row hrow
    refine ⟨setHdrField s.cu.hdr.word f v, ?_, fun g hg => ?_, fun r hw => ?malformed, fun d' hw hd' => ?valid⟩
    · rw [hdrField_setHdrField, if_pos rfl]
    · rw [hdrField_setHdrField, if_neg hg]
    case malformed =>
      exact (exec_hdrSetf_of_malformed hd hf hw).trans (congrArg Host.Outcome.next (raise_malformed s r))
    case valid =>
      rw [exec_hdrSetf_of_valid hd hf hw, withWord_of_ofWord hd']
      rfl

/-! ### HDR_CRCCHK and CRC16 (R523, R534, R535) -/

/-- `RESULT` of HDR_CRCCHK: the status, and its validity in bit 8. -/
def statusResult (st : CrcStatus) : Word := BitVec.ofNat 32 (st.code.toNat + 256 * st.valid.toNat)

theorem exec_hdrCrcchk_of_held {s : State} {d : HdrInfo} (hd : s.cu.hdr.info = some d) :
    exec .hdrCrcchk s = .next (s.setResult (statusResult (s.cu.hdr.status d s.cu.crcPoly s.cu.crcInit))).succeed := by
  simp only [exec, execHdrCrcchk, heldHeader_of_info hd, finishCommand]
  rfl

theorem statusResult_crcStatus (prot crcAvail siAvail : Bool) (stored computed : Half) :
    statusResult (crcStatus prot crcAvail siAvail stored computed)
      = if prot = false then 0x100
        else if crcAvail = false ∨ siAvail = false then 0x003
        else if stored = computed then 0x101
        else 0x002 := by
  unfold crcStatus
  cases prot
  · rfl
  · cases crcAvail <;> cases siAvail
    case true.true =>
      by_cases h : stored = computed
      · simp only [h]; rfl
      · simp only [h]; rfl
    all_goals rfl

theorem map_bytesFrom_range (s : State) (off n : Nat) : (List.range n).map (s.bytesFrom off) = s.cu.scratch.readBytes off n := by
  refine List.ext_getElem (by simp) fun j _ hj => ?_
  rw [Memory.getElem_readBytes, List.getElem_map, List.getElem_range]
  rfl

/-- Settles O33: the held header's status as a word, and the CRC of the region read. -/
theorem crcCommandsReturnTheirResult : Obligations.CrcCommandsReturnTheirResult := by
  unfold Obligations.CrcCommandsReturnTheirResult
  refine ⟨fun s => ⟨fun hv => ?notHeld, fun d hv hword => ?held⟩, fun off n s _ _ => ⟨fun hpast => ?past, fun hfits => ?fits⟩⟩
  case notHeld =>
    simp only [exec, execHdrCrcchk, heldHeader_of_not_valid hv, finishCommand, raise_eq_withError]
    rfl
  case held =>
    rw [exec_hdrCrcchk_of_held (HdrState.info_eq_some.2 ⟨hv, hword⟩), HdrState.status, statusResult_crcStatus]
    rfl
  case past =>
    rcases readRegion_cases s off n with ⟨_, hr⟩ | ⟨hfits, _⟩
    · simp only [exec, execCrc16, hr, finishCommand, raise_eq_withError]
      rfl
    · exact absurd hfits (Nat.not_le.2 hpast)
  case fits =>
    rcases readRegion_cases s off n with ⟨hpast, _⟩ | ⟨_, hr⟩
    · exact absurd hfits (Nat.not_le.2 hpast)
    · simp only [exec, execCrc16, hr, finishCommand, map_bytesFrom_range]
      rfl

/-! ### A flipped bit of the side information (R523) -/

theorem eq_isMatch_of_statusResult {st : CrcStatus} (h : statusResult st = 0x101) : st = .isMatch := by
  revert h
  cases st <;> decide

theorem crcStatus_eq_isMatch_iff {prot crcAvail siAvail : Bool} {stored computed : Half} :
    crcStatus prot crcAvail siAvail stored computed = .isMatch
      ↔ prot = true ∧ crcAvail = true ∧ siAvail = true ∧ stored = computed := by
  unfold crcStatus
  cases prot <;> cases crcAvail <;> cases siAvail <;> simp

theorem siBytes_set (h : HdrState) (d : HdrInfo) {j : Nat} (hj : j < 32) (x : Byte) :
    HdrState.siBytes { h with si := h.si.set j x } d = (h.siBytes d).set j x := by
  simp only [HdrState.siBytes, Vector.toList_set, List.take_set]

/-- The header CRC changes with any one bit of the side information. -/
theorem hdrCrc_flip_ne {poly : Half} (hpoly : poly.getLsbD 0 = true) (init : Half) (w : Word) {si : List Byte} {j k : Nat}
    (hj : j < si.length) (hk : k < 8) :
    hdrCrc poly init w si ≠ hdrCrc poly init w (si.set j (si[j] ^^^ BitVec.twoPow 8 k)) :=
  crc16_set_flip_ne hpoly init (bs := crcInput w si) (j := j + 2) (Nat.succ_lt_succ (Nat.succ_lt_succ hj)) hk

/-- Settles O35: a match is an equality of CRCs, and only the computed one changes. -/
theorem crcDetectsSideInfoBitFlip : Obligations.CrcDetectsSideInfoBitFlip := by
  unfold Obligations.CrcDetectsSideInfoBitFlip
  intro s t d j b hj hv hword hprot hpoly hjd hb ht hmatch
  have hd : s.cu.hdr.info = some d := HdrState.info_eq_some.2 ⟨hv, hword⟩
  cases (exec_hdrCrcchk_of_held hd).symm.trans ht
  obtain ⟨-, hcrcCap, hsiCap, hstored⟩ := crcStatus_eq_isMatch_iff.1 (eq_isMatch_of_statusResult hmatch)
  refine ⟨_, exec_hdrCrcchk_of_held (d := d) hd, ?_⟩
  have hlen : j < (s.cu.hdr.siBytes d).length := by
    rw [HdrState.siBytes, List.length_take, Vector.length_toList]
    omega
  have hbyte : (s.cu.hdr.siBytes d)[j] = s.cu.hdr.si[j] := by simp [HdrState.siBytes]
  have hne := hdrCrc_flip_ne hpoly s.cu.crcInit s.cu.hdr.word hlen hb
  rw [hbyte, ← siBytes_set _ _ hj, ← hstored] at hne
  refine (statusResult_crcStatus _ _ _ _ _).trans ?_
  rw [if_neg (by rw [hprot]; nofun), if_neg (by simp only [hcrcCap, hsiCap]; decide)]
  exact if_neg hne

end Sys2Proof.Proofs.HeaderCommands

/-! PROOFS. HDR_ENCODE: its checks, the bytes it writes, and the round trip through HDR_DECODE and HDR_UPDATE (O31, O34). -/

namespace Sys2Proof.Proofs.HeaderEncode

open Sys2Proof.Machine Sys2Proof.Proofs.Encoding Sys2Proof.Proofs.HeaderFields Sys2Proof.Proofs.BitFields
open Sys2Proof.Proofs.Invariant Sys2Proof.Proofs.DerivedValues Sys2Proof.Proofs.HeaderCommands
open Sys2Proof.Model hiding State CmdUnit HdrState HdrInfo Engine Counters Record Reg View

/-! ### The CRC that is written (41_header.md R532) -/

/-- The recomputed CRC, or the stored one. -/
def encodedCrc (inc : Bool) (s : State) (d : HdrInfo) : Half :=
  if inc then hdrCrc s.cu.crcPoly s.cu.crcInit s.cu.hdr.word (s.cu.hdr.siBytes d) else s.cu.hdr.storedCrc

/-- The CRC is not needed, or the bytes it comes from are captured. -/
def CrcSource (inc : Bool) (s : State) (d : HdrInfo) : Prop :=
  d.prot = false ∨ (if inc then s.cu.hdr.siCap else s.cu.hdr.crcCap) = true

theorem encodeCrc_of_source {inc : Bool} {s : State} {d : HdrInfo}
    (h : (if inc then s.cu.hdr.siCap else s.cu.hdr.crcCap) = true) :
    encodeCrc s.cu.crcPoly s.cu.crcInit s.cu.hdr d inc = .ok (encodedCrc inc s d) := by
  cases inc <;> exact if_pos h

theorem encodeCrc_of_no_source {inc : Bool} {s : State} {d : HdrInfo}
    (h : ¬(if inc then s.cu.hdr.siCap else s.cu.hdr.crcCap) = true) :
    encodeCrc s.cu.crcPoly s.cu.crcInit s.cu.hdr d inc = .error ⟨.incomplete, if inc then 0 else 1⟩ := by
  cases inc <;> exact if_neg h

/-! ### Outcomes (R532, R802) -/

/-- The header's bytes. -/
def output (inc : Bool) (s : State) (d : HdrInfo) : List Byte := encodedHeader s.cu.hdr d (encodedCrc inc s d)

/-- The header state after an encode: a recomputed CRC is kept as the stored one. -/
def encodedHdr (inc : Bool) (s : State) (d : HdrInfo) : HdrState :=
  if d.prot && inc then { s.cu.hdr with storedCrc := encodedCrc inc s d, crcCap := true } else s.cu.hdr

/-- The state HDR_ENCODE leaves when the bytes fit. -/
def encoded (off : Nat) (inc : Bool) (s : State) (d : HdrInfo) : State :=
  (((s.storeScratch off (output inc s d)).setHdr (encodedHdr inc s d)).setResult
    (BitVec.ofNat 32 (output inc s d).length)).succeed

theorem encodedHeader_of_not_prot {h : HdrState} {d : HdrInfo} (hp : d.prot = false) (c c' : Half) :
    encodedHeader h d c = encodedHeader h d c' := by
  simp only [encodedHeader, hp, Bool.false_eq_true, if_false]

section

variable {off : Nat} {inc : Bool} {s : State} {d : HdrInfo}

/-- The CRC check passes with a CRC that gives the output and the header state; an unprotected header uses none. -/
theorem crcCheck_of_source (h : CrcSource inc s d) :
    ∃ c, (if d.prot then encodeCrc s.cu.crcPoly s.cu.crcInit s.cu.hdr d inc else .ok 0) = .ok c
      ∧ encodedHeader s.cu.hdr d c = output inc s d
      ∧ (if d.prot && inc then { s.cu.hdr with storedCrc := c, crcCap := true } else s.cu.hdr) = encodedHdr inc s d := by
  cases hp : d.prot with
  | false => exact ⟨0, rfl, encodedHeader_of_not_prot hp _ _, by simp [encodedHdr, hp]⟩
  | true =>
    rcases h with hnot | hsource
    · cases hp.symm.trans hnot
    · exact ⟨encodedCrc inc s d, encodeCrc_of_source hsource, rfl, by simp [encodedHdr, hp]⟩

theorem exec_hdrEncode_of_no_source (hd : s.cu.hdr.info = some d) (h : ¬CrcSource inc s d) :
    exec (.hdrEncode off inc) s = .next (s.withError 5 (if inc then 0 else 1)) := by
  obtain ⟨hprot, hsource⟩ := not_or.1 h
  rw [Bool.not_eq_false] at hprot
  simp only [exec, execHdrEncode, heldHeader_of_info hd, hprot, if_true, encodeCrc_of_no_source hsource, finishCommand,
    raise_eq_withError]
  cases inc <;> rfl

theorem exec_hdrEncode_of_not_fits (hd : s.cu.hdr.info = some d) (h : CrcSource inc s d)
    (hpast : 256 < off + (output inc s d).length) : exec (.hdrEncode off inc) s = .next (s.withError 2 0) := by
  obtain ⟨c, hcrc, hbytes, -⟩ := crcCheck_of_source h
  rcases writeRegion_cases s off (output inc s d) with ⟨_, hw⟩ | ⟨hfits, _⟩
  · simp only [exec, execHdrEncode, heldHeader_of_info hd, hcrc, hbytes, hw, finishCommand, raise_eq_withError]
    rfl
  · exact absurd hfits (Nat.not_le.2 hpast)

theorem exec_hdrEncode_of_fits (hd : s.cu.hdr.info = some d) (h : CrcSource inc s d)
    (hfits : off + (output inc s d).length ≤ 256) : exec (.hdrEncode off inc) s = .next (encoded off inc s d) := by
  obtain ⟨c, hcrc, hbytes, hhdr⟩ := crcCheck_of_source h
  rcases writeRegion_cases s off (output inc s d) with ⟨hpast, _⟩ | ⟨_, hw⟩
  · exact absurd hfits (Nat.not_le.2 hpast)
  · simp only [exec, execHdrEncode, heldHeader_of_info hd, hcrc, hbytes, hw, hhdr, finishCommand]
    rfl

/-! ### The bytes (R532) -/

/-- The four header bytes are always written, so `SCRATCH_LEN` covers the output. -/
theorem scratchLen_encoded (hfits : off + (output inc s d).length ≤ 256) :
    (encoded off inc s d).cu.scratchLen.val = max s.cu.scratchLen.val (off + (output inc s d).length) := by
  have hne : (output inc s d).length ≠ 0 := by simp [output, encodedHeader]
  refine (State.storeScratch_len hfits).trans (if_neg hne)

theorem startsWith_encoded (hm : Memory.wf s.cu.scratch = true) (hfits : off + (output inc s d).length ≤ 256) :
    StartsWith ((encoded off inc s d).bytesFrom off) (output inc s d) :=
  startsWith_storeScratch hm hfits

end

/-- Settles O31: the CRC source, then the length, then the bytes of `encodedHeader`. -/
theorem hdrEncodeWritesHeaderBytes : Obligations.HdrEncodeWritesHeaderBytes := by
  unfold Obligations.HdrEncodeWritesHeaderBytes
  refine fun off inc s _ hm => ⟨fun hv => ?notHeld, fun d hv hword => ?held⟩
  case notHeld =>
    simp only [exec, execHdrEncode, heldHeader_of_not_valid hv, finishCommand, raise_eq_withError]
    rfl
  case held =>
    have hd : s.cu.hdr.info = some d := HdrState.info_eq_some.2 ⟨hv, hword⟩
    refine ⟨exec_hdrEncode_of_no_source hd, exec_hdrEncode_of_not_fits hd, fun hsource hfits =>
      ⟨encoded off inc s d, exec_hdrEncode_of_fits hd hsource hfits, rfl, scratchLen_encoded hfits, fun j hj => ?bytes,
        fun a ha => ?outside⟩⟩
    case bytes =>
      rw [List.getD_eq_getElem _ _ hj]
      exact startsWith_encoded hm hfits j hj
    case outside => exact Memory.read_writeBytes_outside _ _ _ _ ha

end Sys2Proof.Proofs.HeaderEncode

/-! PROOFS. HDR_DECODE and HDR_UPDATE after HDR_ENCODE give the header state back (O34). -/

namespace Sys2Proof.Proofs.HeaderRoundTrip

open Sys2Proof.Machine Sys2Proof.Proofs.HeaderFields Sys2Proof.Proofs.Invariant Sys2Proof.Proofs.DerivedValues
open Sys2Proof.Proofs.HeaderCommands Sys2Proof.Proofs.HeaderEncode
open Sys2Proof.Model hiding State CmdUnit HdrState HdrInfo Engine Counters Record Reg View

/-! ### The parts of the output read back (41_header.md R532) -/

theorem readBytes_add (m : Memory) (a n k : Nat) : m.readBytes a (n + k) = m.readBytes a n ++ m.readBytes (a + n) k := by
  refine List.ext_getElem? fun j => ?_
  rw [List.getElem?_append, Memory.length_readBytes]
  simp only [Memory.getElem?_readBytes]
  by_cases hj : j < n
  · rw [if_pos (by omega), if_pos hj, if_pos hj]
  · rw [if_neg hj, show a + n + (j - n) = a + j by omega]
    congr 1
    exact propext (by omega)

/-- The two bytes of the stored CRC, when the header is protected. -/
def crcBytes (d : HdrInfo) (c : Half) : List Byte := if d.prot then [c.extractLsb' 8 8, c.extractLsb' 0 8] else []

theorem length_crcBytes (d : HdrInfo) (c : Half) : (crcBytes d c).length = d.crcLen := by
  rw [crcBytes, crcLen_eq_ite]
  split <;> rfl

theorem length_siBytes (h : HdrState) (d : HdrInfo) : (h.siBytes d).length = d.siLen := by
  rw [HdrState.siBytes, List.length_take, Vector.length_toList, Nat.min_eq_left (siLen_le d)]

section

variable {off : Nat} {inc : Bool} {s : State} {d : HdrInfo}

theorem output_of_siCap (hsi : s.cu.hdr.siCap = true) :
    output inc s d = headerBytes s.cu.hdr.word ++ crcBytes d (encodedCrc inc s d) ++ s.cu.hdr.siBytes d := by
  rw [output, encodedHeader, if_pos hsi, crcBytes]

theorem length_output_of_siCap (hsi : s.cu.hdr.siCap = true) : (output inc s d).length = 4 + d.crcLen + d.siLen := by
  rw [output_of_siCap hsi, List.length_append, List.length_append, headerBytes_length, length_crcBytes, length_siBytes]

theorem readBytes_encoded (hm : Memory.wf s.cu.scratch = true) (hfits : off + (output inc s d).length ≤ 256)
    (hsi : s.cu.hdr.siCap = true) :
    (encoded off inc s d).cu.scratch.readBytes off 4 = headerBytes s.cu.hdr.word
      ∧ (encoded off inc s d).cu.scratch.readBytes (off + 4) d.crcLen = crcBytes d (encodedCrc inc s d)
      ∧ (encoded off inc s d).cu.scratch.readBytes (off + 4 + d.crcLen) d.siLen = s.cu.hdr.siBytes d := by
  have hall : (encoded off inc s d).cu.scratch.readBytes off (output inc s d).length = output inc s d :=
    Memory.readBytes_writeBytes _ s.cu.scratch off hm hfits
  rw [length_output_of_siCap hsi, readBytes_add, readBytes_add, output_of_siCap hsi] at hall
  obtain ⟨hfront, hside⟩ := List.append_inj hall (by simp [length_crcBytes])
  obtain ⟨hword, hcrc⟩ := List.append_inj hfront (by simp)
  exact ⟨hword, hcrc, by rw [Nat.add_assoc]; exact hside⟩

end

/-! ### Capture after a decode (R530, R531) -/

theorem si_ext {v w : Vector Byte 32} (h : ∀ j, v.toList.getD j 0 = w.toList.getD j 0) : v = w :=
  Vector.ext fun j hj => by simpa [List.getD_eq_getElem?_getD, hj] using h j

/-- Side information with no byte past its length, written into an empty file. -/
theorem writeSi_siBytes {h : HdrState} {d : HdrInfo} (hz : ∀ j, d.siLen ≤ j → h.si.toList.getD j 0 = 0) :
    writeSi (Vector.replicate 32 0) 0 (h.siBytes d) = h.si := by
  have hlen := length_siBytes h d
  have hle := siLen_le d
  refine si_ext fun j => ?_
  rw [getD_writeSi _ _ _ _ (by omega), hlen, getD_zeroSi, Nat.sub_zero, Nat.zero_add]
  split
  · next hj => rw [HdrState.siBytes, List.getD_eq_getElem?_getD, List.getElem?_take_of_lt hj.2, List.getD_eq_getElem?_getD]
  · next hj => exact (hz j (by omega)).symm

/-- The stored CRC is the number of its bytes. -/
theorem ofNat_beNat_crcBytes (c : Half) : BitVec.ofNat 16 (beNat [c.extractLsb' 8 8, c.extractLsb' 0 8]) = c := by
  rw [ofNat_beNat_two, BitVec.extractLsb'_append_extractLsb'_eq_extractLsb' (by decide)]
  exact BitVec.extractLsb'_eq_self

theorem hdrState_ext {h h' : HdrState} (hword : h.word = h'.word) (hvalid : h.valid = h'.valid)
    (hstored : h.storedCrc = h'.storedCrc) (hcrcCap : h.crcCap = h'.crcCap) (hsi : h.si = h'.si)
    (hsiCap : h.siCap = h'.siCap) : h = h' := by
  cases h
  cases h'
  simp only [HdrState.mk.injEq]
  exact ⟨hword, hvalid, hstored, hcrcCap, hsi, hsiCap⟩

/-- An unprotected header holds no CRC. -/
theorem crcCap_of_not_prot {h : HdrState} {d : HdrInfo} (hok : h.Ok) (hd : h.info = some d) (hp : d.prot = false) :
    h.crcCap = false := by
  obtain ⟨-, -, -, -, hflag, -⟩ := hok
  refine Bool.eq_false_iff.2 fun hcap => ?_
  have hprot := (crcFlag_of_prot (HdrState.info_eq_some.1 hd).2).2 (hflag hcap)
  cases hp.symm.trans hprot

/-- The bytes of a header state, captured after a decode of its word, give it back. -/
theorem capture_decoded {m : Memory} {off avail : Nat} {h : HdrState} {d : HdrInfo} (hok : h.Ok)
    (hd : h.info = some d) (hsiCap : h.siCap = true) (hcrcCap : d.prot = true → h.crcCap = true)
    (havail : 4 + d.crcLen + d.siLen ≤ avail) (hcrc : m.readBytes (off + 4) d.crcLen = crcBytes d h.storedCrc)
    (hside : m.readBytes (off + 4 + d.crcLen) d.siLen = h.siBytes d) :
    captureSi m off avail d (captureCrc m off avail d (.decoded h.word)) = h := by
  have ⟨_, _, hstored, _, _, hzero⟩ := hok
  obtain ⟨hvalid, hword⟩ := HdrState.info_eq_some.1 hd
  have hsi := writeSi_siBytes (hzero d hword)
  cases hp : d.prot with
  | true =>
    have hlen : d.crcLen = 2 := by rw [crcLen_eq_ite, hp]; rfl
    rw [hlen, crcBytes, hp, if_pos rfl] at hcrc
    rw [captureCrc_of_available ⟨hp, rfl, by omega⟩, captureSi_of_available ⟨rfl, havail⟩, hside, hcrc, ofNat_beNat_crcBytes]
    exact hdrState_ext rfl hvalid.symm rfl (hcrcCap hp).symm hsi hsiCap.symm
  | false =>
    have hcap := crcCap_of_not_prot hok hd hp
    rw [captureCrc_of_not_available (fun hc => by cases hp.symm.trans hc.1), captureSi_of_available ⟨rfl, havail⟩, hside]
    exact hdrState_ext rfl hvalid.symm (hstored hcap).symm hcap.symm hsi hsiCap.symm

/-! ### The three commands (R530 to R532) -/

section

variable {inc : Bool} {s : State} {d : HdrInfo}

/-- An encode keeps everything of the header state but the stored CRC and whether it is held. -/
theorem encodedHdr_keeps :
    (encodedHdr inc s d).word = s.cu.hdr.word ∧ (encodedHdr inc s d).valid = s.cu.hdr.valid
      ∧ (encodedHdr inc s d).si = s.cu.hdr.si ∧ (encodedHdr inc s d).siCap = s.cu.hdr.siCap := by
  unfold encodedHdr
  split <;> exact ⟨rfl, rfl, rfl, rfl⟩

theorem info_encodedHdr : (encodedHdr inc s d).info = s.cu.hdr.info := by
  obtain ⟨hword, hvalid, -, -⟩ := encodedHdr_keeps (inc := inc) (s := s) (d := d)
  simp only [HdrState.info, hword, hvalid]

theorem encodedHdr_ok (hok : s.cu.hdr.Ok) (hd : s.cu.hdr.info = some d) : (encodedHdr inc s d).Ok := by
  unfold encodedHdr
  split
  · next hp => exact hdrOk_storeCrc hok hd (Bool.and_eq_true_iff.1 hp).1 _
  · exact hok

/-- A recomputed CRC of a protected header is kept. -/
theorem encodedHdr_of_prot (hp : d.prot = true) :
    encodedHdr true s d = { s.cu.hdr with storedCrc := encodedCrc true s d, crcCap := true } :=
  if_pos (Bool.and_eq_true_iff.2 ⟨hp, rfl⟩)

theorem crcBytes_encodedHdr : crcBytes d (encodedHdr true s d).storedCrc = crcBytes d (encodedCrc true s d) := by
  cases hp : d.prot with
  | true => rw [encodedHdr_of_prot hp]
  | false => simp only [crcBytes, hp, Bool.false_eq_true, if_false]

/-- HDR_DECODE of the output holds the word that was encoded. -/
theorem exec_hdrDecode_encoded {off : Nat} (hm : Memory.wf s.cu.scratch = true)
    (hfits : off + (output inc s d).length ≤ 256) (hsi : s.cu.hdr.siCap = true) (hvalid : validate s.cu.hdr.word = none) :
    exec (.hdrDecode off .scratch) (encoded off inc s d)
      = .next ((encoded off inc s d).setHdr (.decoded s.cu.hdr.word)).succeed := by
  obtain ⟨hword, -, -⟩ := readBytes_encoded hm hfits hsi
  have hcovered : off + 4 ≤ (encoded off inc s d).cu.scratchLen.val := by
    rw [scratchLen_encoded hfits, length_output_of_siCap hsi]
    omega
  have hsource := headerSource_of_fits hcovered
  rw [hword, beNat_headerBytes, BitVec.ofNat_toNat, BitVec.setWidth_eq] at hsource
  exact exec_hdrDecode_of_valid hsource hvalid

/-- HDR_UPDATE after that captures the rest of what was encoded. -/
theorem captured_encoded {off : Nat} (hm : Memory.wf s.cu.scratch = true) (hfits : off + (output true s d).length ≤ 256)
    (hok : s.cu.hdr.Ok) (hd : s.cu.hdr.info = some d) (hsi : s.cu.hdr.siCap = true) :
    captured off ((encoded off true s d).setHdr (.decoded s.cu.hdr.word)).succeed d = encodedHdr true s d := by
  obtain ⟨-, hcrc, hside⟩ := readBytes_encoded hm hfits hsi
  obtain ⟨hwordEnc, -, hsiEnc, hsiCapEnc⟩ := encodedHdr_keeps (inc := true) (s := s) (d := d)
  have havail : 4 + d.crcLen + d.siLen ≤ (encoded off true s d).cu.scratchLen.val - off := by
    rw [scratchLen_encoded hfits, length_output_of_siCap hsi]
    omega
  have hsideEnc : (encodedHdr true s d).siBytes d = s.cu.hdr.siBytes d := by rw [HdrState.siBytes, hsiEnc, HdrState.siBytes]
  rw [← hwordEnc]
  exact capture_decoded (encodedHdr_ok hok hd) (info_encodedHdr.trans hd) (hsiCapEnc.trans hsi)
    (fun hp => by rw [encodedHdr_of_prot hp]) havail (hcrc.trans crcBytes_encodedHdr.symm) (hside.trans hsideEnc.symm)

end

/-- A successful HDR_ENCODE left `encoded`: its output fitted. -/
theorem fits_of_exec_hdrEncode {off : Nat} {inc : Bool} {s t : State} {d : HdrInfo} (hd : s.cu.hdr.info = some d)
    (hsource : CrcSource inc s d) (ht : exec (.hdrEncode off inc) s = .next t) (herr : t.cu.err = 0) :
    off + (output inc s d).length ≤ 256 ∧ t = encoded off inc s d := by
  rcases Nat.lt_or_ge 256 (off + (output inc s d).length) with hpast | hfits
  · cases (exec_hdrEncode_of_not_fits hd hsource hpast).symm.trans ht
    exact absurd herr (by change BitVec.ofNat 32 (2 + 2 ^ 8 * 0) ≠ 0; decide)
  · cases (exec_hdrEncode_of_fits hd hsource hfits).symm.trans ht
    exact ⟨hfits, rfl⟩

/-- Settles O34: the output holds the parts of the header state, which a decode and a capture put together again. -/
theorem decodeOfEncodedHeaderGivesItBack : Obligations.DecodeOfEncodedHeaderGivesItBack := by
  unfold Obligations.DecodeOfEncodedHeaderGivesItBack
  intro off s t _ hm hok hv hsi ht herr
  have ⟨hpasses, _, _, _, _, _⟩ := hok
  obtain ⟨d, hword⟩ := Option.isSome_iff_exists.1 ((HdrInfo.ofWord_isSome s.cu.hdr.word).2 (hpasses hv))
  have hd : s.cu.hdr.info = some d := HdrState.info_eq_some.2 ⟨hv, hword⟩
  obtain ⟨hfits, rfl⟩ := fits_of_exec_hdrEncode (inc := true) hd (.inr hsi) ht herr
  have hheld : (HdrState.decoded s.cu.hdr.word : HdrState).info = some d := HdrState.info_eq_some.2 ⟨rfl, hword⟩
  exact ⟨_, _, exec_hdrDecode_encoded hm hfits hsi (hpasses hv), exec_hdrUpdate_of_held hheld,
    captured_encoded hm hfits hok hd hsi, rfl⟩

end Sys2Proof.Proofs.HeaderRoundTrip

/-! PROOFS. The family 42_detector.md: lookups over the bytes that a view shows, the MPEG trial, the order of `find`'s trials
and the bytes it reads (O44, O47, O48). -/

namespace Sys2Proof.Proofs.Detector

open Sys2Proof.Machine Sys2Proof.Proofs.Candidates Sys2Proof.Proofs.HeaderCommands
open Sys2Proof.Model hiding State CmdUnit HdrState HdrInfo Engine Counters Record Reg View

/-! ### The bytes that a view shows (43_engine.md R703) -/

/-- Bytes inside the window that have arrived can be read. -/
theorem readable_of_take {v : View} {q k : Nat} {bs : List Byte} (hk : q + k ≤ v.pos + 8192)
    (h : (v.stream.drop q).take k = bs) : ∃ rest, v.readable q = bs ++ rest := by
  have htake : (v.readable q).take k = bs := by
    have hmin : min k (v.pos + 8192 - q) = k := by omega
    rw [View.readable, mfhc_capacity, List.drop_take, List.take_take, hmin, h]
  exact ⟨(v.readable q).drop k, by rw [← htake, List.take_append_drop]⟩

section

variable {v : View} {q : Nat} (hq : v.pos ≤ q)
include hq

theorem lit_of_decided {n : Nat} (hd : v.Decided q n) {s : List Byte} (hs : s.length ≤ n) :
    lit v q s = .ok (decide ((v.readable q).take s.length = s)) := by
  have h := lit_readable hq hd s 0 (by omega)
  rwa [Nat.add_zero, List.drop_zero] at h

theorem lit_eq_false {n : Nat} (hd : v.Decided q n) {s : List Byte} (hs : s.length ≤ n)
    (h : (v.readable q).take s.length ≠ s) : lit v q s = .ok false := by
  rw [lit_of_decided hq hd hs, decide_eq_false h]

theorem lit_of_take {j : Nat} {s : List Byte} (h : ((v.readable q).drop j).take s.length = s) :
    lit v (q + j) s = .ok true := by
  cases s with
  | nil => rfl
  | cons c cs =>
    have hlen := congrArg List.length h
    rw [List.length_take, List.length_drop, List.length_cons] at hlen
    rw [lit_readable hq (.inr (.inl le_rfl)) _ j (by rw [List.length_cons]; omega), decide_eq_true h]

theorem lit_of_prefix {s : List Byte} (h : (v.readable q).take s.length = s) : lit v q s = .ok true :=
  lit_of_take (j := 0) hq h

/-- Another literal of the same length is there. -/
theorem lit_of_other_prefix {s s' : List Byte} (h : (v.readable q).take s.length = s') (hlen : s'.length = s.length)
    (hne : s' ≠ s) : lit v q s = .ok false := by
  have hl : s.length ≤ (v.readable q).length := by
    rw [← hlen, ← h]
    exact List.length_take_le' _ _
  exact lit_eq_false hq (.inr (.inl le_rfl)) hl (by rwa [h])

theorem bytesAt_of_take {j m : Nat} {bs : List Byte} (h : ((v.readable q).drop j).take m = bs) (hlen : bs.length = m) :
    bytesAt v (q + j) m = .ok (some bs) := by
  cases m with
  | zero => rw [List.length_eq_zero_iff.1 hlen]; rfl
  | succ m =>
    have hl := congrArg List.length h
    rw [hlen, List.length_take, List.length_drop] at hl
    have hin : j + (m + 1) ≤ (v.readable q).length := by omega
    rw [bytesAt_readable hq (.inr (.inl le_rfl)) _ _ hin, if_pos (.inl hin), h]

/-- Decided bytes of which one is ABSENT (42_detector.md R601). -/
theorem bytesAt_of_short {n j m : Nat} (hd : v.Decided q n) (hj : j + m ≤ n) (hm : m ≠ 0)
    (h : (v.readable q).length < j + m) : bytesAt v (q + j) m = .ok none := by
  rw [bytesAt_readable hq hd _ _ hj, if_neg (by omega)]

end

/-! ### The MPEG trial (42_detector.md R610) -/

/-- Bytes that run past the end of the stream. -/
theorem bytesAt_past_end {v : View} (he : v.eos = true) {n : Nat} :
    ∀ {q : Nat}, 0 < n → v.stream.length < q + n → bytesAt v q n = .ok none := by
  induction n with
  | zero => intro q h0; cases h0
  | succ n ih =>
    intro q _ hlen
    have hbyte : streamByte v q = .ok none ∨ ∃ b, q < v.stream.length ∧ streamByte v q = .ok (some b) := by
      unfold streamByte
      split
      · exact .inl rfl
      · split
        · next b hb => exact .inr ⟨b, (List.getElem?_eq_some_iff.1 hb).1, rfl⟩
        · exact .inl rfl
    rw [bytesAt]
    rcases hbyte with h | ⟨b, hq, h⟩
    · rw [h]; rfl
    · rw [h]
      change (bytesAt v (q + 1) n >>= _) = _
      rw [ih (by omega) (by omega)]
      rfl

theorem bytesAt_four {v : View} {q : Nat} {b0 b1 b2 b3 : Byte} (hq : v.pos ≤ q) (hw : q + 3 < v.pos + 8192)
    (h0 : v.stream[q]? = some b0) (h1 : v.stream[q + 1]? = some b1) (h2 : v.stream[q + 2]? = some b2)
    (h3 : v.stream[q + 3]? = some b3) : bytesAt v q 4 = .ok (some [b0, b1, b2, b3]) := by
  have hbyte : ∀ {r b}, q ≤ r → r ≤ q + 3 → v.stream[r]? = some b → streamByte v r = .ok (some b) := by
    intro r b hlo hhi hb
    rw [streamByte, mfhc_capacity, if_neg (by omega), hb]
  simp only [bytesAt, bind, Except.bind, Nat.add_assoc, Nat.reduceAdd, hbyte le_rfl (by omega) h0,
    hbyte (by omega) (by omega) h1, hbyte (by omega) (by omega) h2, hbyte (by omega) le_rfl h3]

section

variable {v : View} {sess : Session} {q : Nat} {strict : Bool}

theorem tryMpeg_of_no_header (h : mpegHeaderAt v sess q strict = .ok none) : tryMpeg v sess q strict = .ok none := by
  rw [tryMpeg, h]; rfl

theorem tryMpeg_of_header {w : Word} {d : HdrInfo} (h : mpegHeaderAt v sess q strict = .ok (some (w, d))) :
    tryMpeg v sess q strict
      = .ok (some { kind := .mpeg, len := d.flen, hdr := w, xtag := 0, xflags := 0, xinfo := false }) := by
  rw [tryMpeg, h]; rfl

theorem mpegHeaderAt_of_absent (h : bytesAt v q 4 = .ok none) : mpegHeaderAt v sess q strict = .ok none := by
  rw [mpegHeaderAt, h]; rfl

section

variable {b0 b1 b2 b3 : Byte} (hb : bytesAt v q 4 = .ok (some [b0, b1, b2, b3]))
include hb

theorem mpegHeaderAt_of_invalid (h : validate (b0 ++ b1 ++ b2 ++ b3) ≠ none) :
    mpegHeaderAt v sess q strict = .ok none := by
  have hnone : HdrInfo.ofWord (b0 ++ b1 ++ b2 ++ b3) = none := by
    rw [← Option.not_isSome_iff_eq_none, HdrInfo.ofWord_isSome]
    exact h
  rw [mpegHeaderAt, hb]
  simp only [bind, Except.bind, ofNat_beNat_four, hnone]

theorem mpegHeaderAt_of_valid {d : HdrInfo} (hd : HdrInfo.ofWord (b0 ++ b1 ++ b2 ++ b3) = some d) :
    mpegHeaderAt v sess q strict
      = .ok (if strict && sess.disagrees d then none else some (b0 ++ b1 ++ b2 ++ b3, d)) := by
  rw [mpegHeaderAt, hb]
  simp only [bind, Except.bind, ofNat_beNat_four, hd]
  split <;> rfl

end

theorem disagrees_iff (sess : Session) (d : HdrInfo) :
    sess.disagrees d = true
      ↔ (∃ x, sess.expVersion = some x ∧ x ≠ d.version) ∨ (∃ x, sess.expLayer = some x ∧ x ≠ d.layer) := by
  unfold Session.disagrees
  cases sess.expVersion <;> cases sess.expLayer <;> simp

theorem disagrees_eq_false_iff (sess : Session) (d : HdrInfo) :
    sess.disagrees d = false
      ↔ (∀ x, sess.expVersion = some x → x = d.version) ∧ (∀ x, sess.expLayer = some x → x = d.layer) := by
  rw [← Bool.not_eq_true, disagrees_iff]
  push Not
  rfl

end

/-- Settles O44: the header is read from four bytes, one of which is ABSENT past the end of the stream or of the window. -/
theorem mpegTrialMatchesValidHeaders : Obligations.MpegTrialMatchesValidHeaders := by
  unfold Obligations.MpegTrialMatchesValidHeaders
  intro v sess q strict
  refine ⟨fun he hlen => ?_, fun hq hwin harrived => ?_, fun b0 b1 b2 b3 hq hwin h0 h1 h2 h3 => ?_⟩
  · exact tryMpeg_of_no_header (mpegHeaderAt_of_absent (bytesAt_past_end he (by omega) hlen))
  · have hshort : (v.readable q).length < 0 + 4 := by
      rw [View.readable, List.length_drop, List.length_take, mfhc_capacity]
      omega
    exact tryMpeg_of_no_header
      (mpegHeaderAt_of_absent (bytesAt_of_short hq (.inr (.inr harrived)) le_rfl (by omega) hshort))
  · have hb := bytesAt_four hq hwin h0 h1 h2 h3
    refine ⟨fun h => tryMpeg_of_no_header (mpegHeaderAt_of_invalid hb h), fun d hd => ?_⟩
    have hheader := mpegHeaderAt_of_valid (sess := sess) (strict := strict) hb hd
    rw [← disagrees_iff, ← disagrees_eq_false_iff]
    refine ⟨fun hs hx => tryMpeg_of_no_header ?_, fun hx => tryMpeg_of_header ?_⟩
    · rw [hheader, hs, hx]; rfl
    · rw [hheader, Bool.and_eq_false_iff.2 hx]; rfl

/-! ### The order of the trials (R602, R603) -/

/-- Settles O47: each clause is `find` with the answers of the trials up to the one that decides. -/
theorem findTriesVariantsInOrder : Obligations.FindTriesVariantsInOrder := by
  unfold Obligations.FindTriesVariantsInOrder
  intro v sess q strict
  refine ⟨fun n h => ?_, fun s1 c h => ?_, fun s1 hxing => ⟨fun n h => ?_, fun c h => ?_, fun hmpeg => ⟨fun n h => ?_,
    fun s2 r h hr => ?_, fun s2 hriff => ⟨fun n h => ?_, fun c h => ?_, fun hid3 => ⟨fun n h => ?_, fun c h => ?_,
    fun h => ?_⟩⟩⟩⟩⟩
  -- XING
  · simp only [find, h, bind, Except.bind]
  · simp only [find, h, bind, Except.bind]
  -- MPEG
  · simp only [find, hxing, h, bind, Except.bind]
  · simp only [find, hxing, h, bind, Except.bind]
  -- RIFF
  · simp only [find, hxing, hmpeg, h, bind, Except.bind]
  · simp only [find, hxing, hmpeg, h, bind, Except.bind]
    cases r with
    | hit c => rfl
    | fatal code off => rfl
    | notThis => exact absurd rfl hr
  -- ID3
  · simp only [find, hxing, hmpeg, hriff, h, bind, Except.bind]
  · simp only [find, hxing, hmpeg, hriff, h, bind, Except.bind]
  -- APE
  · simp only [find, hxing, hmpeg, hriff, hid3, h, bind, Except.bind]
  · simp only [find, hxing, hmpeg, hriff, hid3, h, bind, Except.bind]
  · simp only [find, hxing, hmpeg, hriff, hid3, h, bind, Except.bind]

/-! ### What `find` reads (R600, R650) -/

/-- Two views that answer alike for the `n` bytes from `q` on. -/
def Agree (v w : View) (q n : Nat) : Prop := ∀ k, k < n → streamByte v (q + k) = streamByte w (q + k)

section

variable {v w : View} {q : Nat}

theorem Agree.drop {n : Nat} (h : Agree v w q n) (j : Nat) : Agree v w (q + j) (n - j) := fun k hk => by
  rw [Nat.add_assoc]
  exact h _ (by omega)

theorem lit_congr (s : List Byte) :
    ∀ {q n : Nat}, Agree v w q n → s.length ≤ n → lit v q s = lit w q s := by
  induction s with
  | nil => intro q n _ _; rfl
  | cons c cs ih =>
    intro q n h hn
    rw [List.length_cons] at hn
    have hbyte : streamByte v q = streamByte w q := h 0 (by omega)
    rw [lit, lit, hbyte, ih (h.drop 1) (by omega)]

theorem bytesAt_congr (m : Nat) :
    ∀ {q n : Nat}, Agree v w q n → m ≤ n → bytesAt v q m = bytesAt w q m := by
  induction m with
  | zero => intro q n _ _; rfl
  | succ m ih =>
    intro q n h hn
    have hbyte : streamByte v q = streamByte w q := h 0 (by omega)
    rw [bytesAt, bytesAt, hbyte, ih (h.drop 1) (by omega)]

variable (h : Agree v w q 48)
include h

theorem mpegHeaderAt_congr (sess : Session) (strict : Bool) :
    mpegHeaderAt v sess q strict = mpegHeaderAt w sess q strict := by
  rw [mpegHeaderAt, mpegHeaderAt, bytesAt_congr 4 h (by decide)]

/-- The flags word of the last tag position ends at byte 48: no trial reads farther. -/
theorem xingTagAt_congr (len : Nat) {t : Nat} (ht : t ≤ 40) : xingTagAt v q len t = xingTagAt w q len t := by
  have h8 : Agree v w (q + t) 8 := fun k hk => h.drop t k (by omega)
  rw [xingTagAt, xingTagAt, lit_congr litXing h8 (by decide), lit_congr litInfo h8 (by decide),
    bytesAt_congr 4 (h8.drop 4) le_rfl]

theorem firstXingTag_congr (len : Nat) {ts : List Nat} (hts : ∀ t ∈ ts, t ≤ 40) :
    firstXingTag v q len ts = firstXingTag w q len ts := by
  induction ts with
  | nil => rfl
  | cons t ts ih =>
    rw [firstXingTag, firstXingTag, xingTagAt_congr h len (hts t List.mem_cons_self),
      ih fun t ht => hts t (List.mem_cons_of_mem _ ht)]

theorem tryXing_congr (sess : Session) (strict : Bool) : tryXing v sess q strict = tryXing w sess q strict := by
  have htags : ∀ d : HdrInfo, firstXingTag v q d.flen (xingPositions d) = firstXingTag w q d.flen (xingPositions d) :=
    fun d => firstXingTag_congr h _ fun t ht => xingPositions_le ht
  simp only [tryXing, mpegHeaderAt_congr h, htags]

theorem tryMpeg_congr (sess : Session) (strict : Bool) : tryMpeg v sess q strict = tryMpeg w sess q strict := by
  rw [tryMpeg, tryMpeg, mpegHeaderAt_congr h]

theorem tryRiffChunk_congr : tryRiffChunk v q = tryRiffChunk w q := by
  have hfmt : tryRiffFmt v q = tryRiffFmt w q := by
    rw [tryRiffFmt, tryRiffFmt, lit_congr litFmt h (by decide), bytesAt_congr 6 (h.drop 4) (by decide)]
  have hfact : tryRiffFact v q = tryRiffFact w q := by
    rw [tryRiffFact, tryRiffFact, lit_congr litFact h (by decide), bytesAt_congr 4 (h.drop 4) (by decide)]
  have hdata : tryRiffData v q = tryRiffData w q := by
    rw [tryRiffData, tryRiffData, lit_congr litData h (by decide)]
  rw [tryRiffChunk, tryRiffChunk, hfmt, hfact, hdata]

theorem tryRiff_congr (sess : Session) : tryRiff v sess q = tryRiff w sess q := by
  have hheader : isRiffHeader v q = isRiffHeader w q := by
    rw [isRiffHeader, isRiffHeader, lit_congr litRiff h (by decide), lit_congr litWave (h.drop 8) (by decide)]
  rw [tryRiff, tryRiff, hheader, tryRiffChunk_congr h]

theorem tryId3_congr : tryId3 v q = tryId3 w q := by
  rw [tryId3, tryId3, lit_congr litTag h (by decide), lit_congr litId3 h (by decide),
    bytesAt_congr 7 (h.drop 3) (by decide)]

theorem tryApe_congr : tryApe v q = tryApe w q := by
  rw [tryApe, tryApe, lit_congr litApe h (by decide), bytesAt_congr 8 (h.drop 8) (by decide)]

theorem find_congr (sess : Session) (strict : Bool) : find v sess q strict = find w sess q strict := by
  simp only [find, tryXing_congr h, tryMpeg_congr h, tryRiff_congr h, tryId3_congr h, tryApe_congr h]

end

/-- Settles O48: the trial that answers makes a well-formed candidate, and no trial reads past 48 bytes. -/
theorem detectorIsBoundedAndSound : Obligations.DetectorIsBoundedAndSound :=
  ⟨fun _ _ _ _ _ _ h => find_ok h, fun _ _ sess _ strict h => find_congr h sess strict⟩

end Sys2Proof.Proofs.Detector

/-! PROOFS. The XING trial: the MPEG header of its position and the first tag that fits the frame (O45). -/

namespace Sys2Proof.Proofs.XingTrial

open Sys2Proof.Machine Sys2Proof.Proofs.Candidates Sys2Proof.Proofs.DerivedValues Sys2Proof.Proofs.Detector
open Sys2Proof.Model hiding State CmdUnit HdrState HdrInfo Engine Counters Record Reg View

/-! ### What the trial answers (42_detector.md R602, R611) -/

section

variable {v : View} {sess sess' : Session} {q : Nat} {strict : Bool}

theorem tryMpeg_eq_some {m : Candidate} (h : tryMpeg v sess q strict = .ok (some m)) :
    ∃ d, mpegHeaderAt v sess q strict = .ok (some (m.hdr, d)) ∧ HdrInfo.ofWord m.hdr = some d ∧ m.len = d.flen := by
  obtain ⟨r, hr, h⟩ := Look.bind_eq_ok.1 h
  cases r with
  | none => cases h
  | some p => cases h; exact ⟨p.2, hr, mpegHeaderAt_valid hr, rfl⟩

/-- `HAS_XING` is 0; there is no header; or there is one, and the outcome is that of the tag positions. -/
theorem tryXing_cases {r : Option Candidate} (h : tryXing v sess q strict = .ok (sess', r)) :
    (sess.hasXing = some false ∧ sess' = sess ∧ r = none)
      ∨ (sess.hasXing ≠ some false ∧ mpegHeaderAt v sess q strict = .ok none ∧ sess' = sess ∧ r = none)
      ∨ (sess.hasXing ≠ some false ∧ ∃ w d, mpegHeaderAt v sess q strict = .ok (some (w, d))
        ∧ sess' = { sess with hasXing := some r.isSome }
        ∧ ∀ c, r = some c → ∃ t f info, firstXingTag v q d.flen (xingPositions d) = .ok (some (t, f, info))
          ∧ c = { kind := .xing, len := d.flen, hdr := w, xtag := t, xflags := f, xinfo := info }) := by
  unfold tryXing at h
  split at h
  · next hx => cases h; exact .inl ⟨hx, rfl, rfl⟩
  · next hx =>
    obtain ⟨p, hp, h⟩ := Look.bind_eq_ok.1 h
    split at h
    · cases h; exact .inr (.inl ⟨hx, hp, rfl, rfl⟩)
    · next w d =>
      obtain ⟨tag, htag, h⟩ := Look.bind_eq_ok.1 h
      refine .inr (.inr ⟨hx, w, d, hp, ?_⟩)
      split at h
      · next t f info => cases h; exact ⟨rfl, fun c hc => ⟨t, f, info, htag, (Option.some.inj hc).symm⟩⟩
      · cases h; exact ⟨rfl, nofun⟩

theorem xingPositions_eq (d : HdrInfo) : xingPositions d = d.hlen :: if d.prot then [d.hlen + 2] else [] := by
  unfold xingPositions
  split <;> rfl

theorem mem_xingPositions {d : HdrInfo} {t : Nat} :
    t ∈ xingPositions d ↔ t = d.hlen ∨ (d.prot = true ∧ t = d.hlen + 2) := by
  rw [xingPositions_eq]
  cases d.prot <;> simp

theorem add_xingSpan (t : Nat) (f : BitVec 4) :
    t + xingSpan f
      = t + 8 + 4 * (f.getLsbD 0).toNat + 4 * (f.getLsbD 1).toNat + 100 * (f.getLsbD 2).toNat
          + 4 * (f.getLsbD 3).toNat := by
  simp only [xingSpan, Nat.add_assoc]

/-- A header makes the trial the answer of the tag positions. -/
theorem tryXing_of_header {w : Word} {d : HdrInfo} {tag : Option (Nat × BitVec 4 × Bool)}
    (hx : sess.hasXing ≠ some false) (hw : mpegHeaderAt v sess q strict = .ok (some (w, d)))
    (ht : firstXingTag v q d.flen (xingPositions d) = .ok tag) :
    tryXing v sess q strict
      = .ok ({ sess with hasXing := some tag.isSome },
          tag.map fun (t, f, info) =>
            { kind := .xing, len := d.flen, hdr := w, xtag := t, xflags := f, xinfo := info }) := by
  rw [tryXing, if_neg hx, hw]
  simp only [bind, Except.bind, ht]
  cases tag <;> rfl

end

/-! ### A tag in the bytes that can be read (R611, log entry 15) -/

/-- The flags of a tag at frame offset `t`. -/
def tagFlags (w : List Byte) (t : Nat) : BitVec 4 := (w.getD (t + 7) 0).extractLsb' 0 4

/-- The bytes "Xing" or "Info" at frame offset `t`, with flags whose fields fit a frame of `len` bytes. -/
def HoldsTag (w : List Byte) (len t : Nat) : Prop :=
  t + 8 ≤ w.length ∧ ((w.drop t).take 4 = litXing ∨ (w.drop t).take 4 = litInfo)
    ∧ t + 8 + 4 * ((tagFlags w t).getLsbD 0).toNat + 4 * ((tagFlags w t).getLsbD 1).toNat
        + 100 * ((tagFlags w t).getLsbD 2).toNat + 4 * ((tagFlags w t).getLsbD 3).toNat ≤ len

/-- The flags are the low four bits of the last byte of the flags word. -/
theorem ofNat_beNat_flags {w : List Byte} {t : Nat} (h : t + 8 ≤ w.length) :
    BitVec.ofNat 4 (beNat ((w.drop (t + 4)).take 4)) = tagFlags w t := by
  have hword : (w.drop (t + 4)).take 4 = (w.drop (t + 4)).take 3 ++ [w.getD (t + 7) 0] := by
    rw [List.take_add_one, List.getElem?_drop, List.getElem?_eq_getElem (show t + 4 + 3 < w.length by omega),
      List.getD_eq_getElem w 0 (show t + 7 < w.length by omega)]
    rfl
  rw [hword, beNat, List.foldl_append, tagFlags]
  apply BitVec.eq_of_toNat_eq
  simp only [List.foldl_cons, List.foldl_nil, BitVec.toNat_ofNat, BitVec.extractLsb'_toNat, Nat.shiftRight_zero]
  omega

section

variable {v : View} {q n len t : Nat}

theorem xingTagAt_of_past (h : len < t + 8) : xingTagAt v q len t = .ok none := by
  rw [xingTagAt, if_pos h]

theorem xingTagAt_of_other (hx : lit v (q + t) litXing = .ok false) (hi : lit v (q + t) litInfo = .ok false) :
    xingTagAt v q len t = .ok none := by
  rw [xingTagAt]
  split
  · rfl
  · rw [hx, hi]; rfl

/-- One of the two literals is there: the flags word decides. -/
theorem xingTagAt_of_lits {info : Bool} {flags : Option (List Byte)} (hlen : t + 8 ≤ len)
    (hx : lit v (q + t) litXing = .ok !info) (hi : lit v (q + t) litInfo = .ok info)
    (hf : bytesAt v (q + t + 4) 4 = .ok flags) :
    xingTagAt v q len t
      = .ok (flags.bind fun bs =>
          if t + xingSpan (BitVec.ofNat 4 (beNat bs)) > len then none else some (BitVec.ofNat 4 (beNat bs), info)) := by
  rw [xingTagAt, if_neg (by omega), hx, hi, hf]
  cases info <;> cases flags with
  | none => rfl
  | some bs => exact (apply_ite Except.ok _ _ _).symm

variable (hq : v.pos ≤ q) (hd : v.Decided q n) (ht : t + 8 ≤ n)
include hq hd ht

theorem xingTagAt_of_tag_bytes (hlen : t + 8 ≤ len)
    (htag : ((v.readable q).drop t).take 4 = litXing ∨ ((v.readable q).drop t).take 4 = litInfo) :
    xingTagAt v q len t
      = .ok (if t + 8 ≤ (v.readable q).length ∧ t + xingSpan (tagFlags (v.readable q) t) ≤ len then
          some (tagFlags (v.readable q) t, decide (((v.readable q).drop t).take 4 = litInfo))
        else none) := by
  have hx := lit_readable hq hd litXing t (show t + 4 ≤ n by omega)
  have hi := lit_readable hq hd litInfo t (show t + 4 ≤ n by omega)
  have hf := bytesAt_readable hq hd 4 (t + 4) (by omega)
  rw [← Nat.add_assoc] at hf
  have hone : decide (((v.readable q).drop t).take 4 = litXing) = !decide (((v.readable q).drop t).take 4 = litInfo) := by
    rcases htag with h | h <;> rw [h] <;> rfl
  rw [xingTagAt_of_lits hlen (hx.trans (congrArg _ hone)) hi hf]
  by_cases hw : t + 8 ≤ (v.readable q).length
  · rw [if_pos (.inl (by omega)), Option.bind_some, ofNat_beNat_flags hw]
    split
    · rw [if_neg (by omega)]
    · rw [if_pos (by omega)]
  · rw [if_neg (by omega), if_neg (by omega)]
    rfl

theorem xingTagAt_of_holds (h : HoldsTag (v.readable q) len t) :
    xingTagAt v q len t
      = .ok (some (tagFlags (v.readable q) t, decide (((v.readable q).drop t).take 4 = litInfo))) := by
  obtain ⟨hw, htag, hspan⟩ := h
  rw [xingTagAt_of_tag_bytes hq hd ht (by omega) htag, if_pos ⟨hw, by rwa [add_xingSpan]⟩]

theorem xingTagAt_of_not_holds (h : ¬HoldsTag (v.readable q) len t) : xingTagAt v q len t = .ok none := by
  by_cases hlen : t + 8 ≤ len
  · by_cases htag : ((v.readable q).drop t).take 4 = litXing ∨ ((v.readable q).drop t).take 4 = litInfo
    · rw [xingTagAt_of_tag_bytes hq hd ht hlen htag, if_neg]
      exact fun ⟨hw, hspan⟩ => h ⟨hw, htag, by rwa [← add_xingSpan]⟩
    · obtain ⟨hx, hi⟩ := not_or.1 htag
      refine xingTagAt_of_other ?_ ?_
      · exact (lit_readable hq hd litXing t (show t + 4 ≤ n by omega)).trans (congrArg _ (decide_eq_false hx))
      · exact (lit_readable hq hd litInfo t (show t + 4 ≤ n by omega)).trans (congrArg _ (decide_eq_false hi))
  · exact xingTagAt_of_past (by omega)

end

section

variable {v : View} {q len t : Nat} {ts : List Nat}

theorem firstXingTag_of_some {f : BitVec 4} {info : Bool} (h : xingTagAt v q len t = .ok (some (f, info))) :
    firstXingTag v q len (t :: ts) = .ok (some (t, f, info)) := by
  rw [firstXingTag, h]; rfl

theorem firstXingTag_of_none (h : xingTagAt v q len t = .ok none) :
    firstXingTag v q len (t :: ts) = firstXingTag v q len ts := by
  rw [firstXingTag, h]; rfl

end

/-! ### The obligation (R611) -/

/-- What an answer of the trial says of the MPEG trial at its position. -/
theorem tryXing_refines {v : View} {sess sess' : Session} {q : Nat} {strict : Bool} {r : Option Candidate}
    (h : tryXing v sess q strict = .ok (sess', r)) :
    (sess.hasXing = some false → r = none ∧ sess' = sess)
      ∧ (sess.hasXing ≠ some false → tryMpeg v sess q strict = .ok none → r = none ∧ sess' = sess)
      ∧ (∀ m, sess.hasXing ≠ some false → tryMpeg v sess q strict = .ok (some m) →
          sess' = { sess with hasXing := some r.isSome })
      ∧ (∀ c, r = some c →
          ∃ m, tryMpeg v sess q strict = .ok (some m) ∧ c.kind = .xing ∧ c.len = m.len ∧ c.hdr = m.hdr
            ∧ ∃ d, HdrInfo.ofWord c.hdr = some d ∧ (c.xtag = d.hlen ∨ (d.prot = true ∧ c.xtag = d.hlen + 2))
              ∧ c.xtag + 8 + 4 * (c.xflags.getLsbD 0).toNat + 4 * (c.xflags.getLsbD 1).toNat
                  + 100 * (c.xflags.getLsbD 2).toNat + 4 * (c.xflags.getLsbD 3).toNat ≤ c.len) := by
  rcases tryXing_cases h with ⟨hx, rfl, rfl⟩ | ⟨hx, hw, rfl, rfl⟩ | ⟨hx, w, d, hw, hsess, hc⟩
  · exact ⟨fun _ => ⟨rfl, rfl⟩, fun hn => absurd hx hn, fun _ hn => absurd hx hn, nofun⟩
  · refine ⟨fun _ => ⟨rfl, rfl⟩, fun _ _ => ⟨rfl, rfl⟩, fun m _ hm => ?_, nofun⟩
    cases (tryMpeg_of_no_header hw).symm.trans hm
  · have hm := tryMpeg_of_header hw
    refine ⟨fun hn => absurd hn hx, fun _ hn => (by cases hm.symm.trans hn), fun _ _ _ => hsess, fun c hr => ?_⟩
    obtain ⟨t, f, info, ht, rfl⟩ := hc c hr
    obtain ⟨hmem, hspan⟩ := firstXingTag_span ht
    exact ⟨_, hm, rfl, rfl, rfl, d, mpegHeaderAt_valid hw, mem_xingPositions.1 hmem, add_xingSpan t f ▸ hspan⟩

/-- Settles O45: with 48 bytes decided each tag position holds a tag or fails, and the first that holds one is the tag. -/
theorem xingTrialRefinesMpegTrial : Obligations.XingTrialRefinesMpegTrial := by
  unfold Obligations.XingTrialRefinesMpegTrial
  refine ⟨fun v sess sess' q strict r h => tryXing_refines h, fun v sess q strict m d hq hd hx hm hinfo => ?_⟩
  obtain ⟨d', hw, hinfo', hlen⟩ := tryMpeg_eq_some hm
  cases hinfo.symm.trans hinfo'
  have hpos := hlen_le d
  intro w flags reads holds found
  -- the statement's `holds` and `found` at the first position and at the second
  have hholds : ∀ {t}, t ≤ 40 → HoldsTag w m.len t →
      xingTagAt v q d.flen t = .ok (some (tagFlags w t, decide (reads t litInfo))) :=
    fun ht h => xingTagAt_of_holds hq hd (by omega) (hlen ▸ h)
  have hfails : ∀ {t}, t ≤ 40 → ¬HoldsTag w m.len t → xingTagAt v q d.flen t = .ok none :=
    fun ht h => xingTagAt_of_not_holds hq hd (by omega) (hlen ▸ h)
  have hfound : ∀ {t}, firstXingTag v q d.flen (xingPositions d) = .ok (some (t, tagFlags w t, decide (reads t litInfo))) →
      found t := fun h => ⟨decide (reads _ litInfo), decide_eq_true_iff, by rw [tryXing_of_header hx hw h, hlen]; rfl⟩
  refine ⟨fun h => hfound ?_, fun h1 hp h2 => hfound ?_, fun h1 h2 => ?_⟩
  · rw [xingPositions_eq, firstXingTag_of_some (hholds (by omega) h)]
  · rw [xingPositions_eq, hp, firstXingTag_of_none (hfails (by omega) h1), if_pos rfl,
      firstXingTag_of_some (hholds (by omega) h2)]
  · have hnone : firstXingTag v q d.flen (xingPositions d) = .ok none := by
      rw [xingPositions_eq, firstXingTag_of_none (hfails (by omega) h1)]
      split
      · next hp => rw [firstXingTag_of_none (hfails (by omega) (h2 hp))]; rfl
      · rfl
    exact tryXing_of_header hx hw hnone

end Sys2Proof.Proofs.XingTrial

/-! PROOFS. The RIFF, ID3 and APE trials: what they find, its length, and what is none of them (O46). -/

namespace Sys2Proof.Proofs.ContainerTrials

open Sys2Proof.Machine Sys2Proof.Proofs.Detector
open Sys2Proof.Model hiding State CmdUnit HdrState HdrInfo Engine Counters Record Reg View

/-! ### Lengths (00_scope.md R9, 42_detector.md R631) -/

theorem leNat_two (a b : Byte) : leNat [a, b] = a.toNat + 2 ^ 8 * b.toNat := by
  simp only [leNat]
  omega

theorem leNat_four (a b c d : Byte) :
    leNat [a, b, c, d] = a.toNat + 2 ^ 8 * b.toNat + 2 ^ 16 * c.toNat + 2 ^ 24 * d.toNat := by
  simp only [leNat]
  omega

theorem id3Size_four (a b c d : Byte) :
    id3Size [a, b, c, d] = a.toNat % 128 * 2 ^ 21 + b.toNat % 128 * 2 ^ 14 + c.toNat % 128 * 2 ^ 7 + d.toNat % 128 := by
  simp only [id3Size, List.foldl_cons, List.foldl_nil]
  omega

/-! ### The trials from the answers of their lookups (R620 to R640) -/

section

variable {v : View} {sess : Session} {q : Nat} {bs : List Byte}

theorem tryRiff_of_header (h : isRiffHeader v q = .ok true) :
    tryRiff v sess q = .ok ({ sess with hasRiff := true }, .hit (.plain .riffHdr 12)) := by
  rw [tryRiff, h]; rfl

theorem tryRiff_outside (h : isRiffHeader v q = .ok false) (hr : sess.hasRiff = false) :
    tryRiff v sess q = .ok (sess, .notThis) := by
  simp only [tryRiff, h, hr, bind, Except.bind, Bool.false_eq_true, if_false]

theorem tryRiff_inside (h : isRiffHeader v q = .ok false) (hr : sess.hasRiff = true) {r : Found}
    (hc : tryRiffChunk v q = .ok r) : tryRiff v sess q = .ok (sess, r) := by
  simp only [tryRiff, h, hr, hc, bind, Except.bind, Bool.false_eq_true, if_false, if_true]

theorem isRiffHeader_of_not_riff (h : lit v q litRiff = .ok false) : isRiffHeader v q = .ok false := by
  rw [isRiffHeader, h]; rfl

theorem isRiffHeader_of_riff (h : lit v q litRiff = .ok true) {wave : Bool} (hw : lit v (q + 8) litWave = .ok wave) :
    isRiffHeader v q = .ok (wave && decide (q = 0)) := by
  rw [isRiffHeader, h, hw]
  cases wave <;> rfl

theorem tryRiffChunk_of_fmt {r : Found} (h : tryRiffFmt v q = .ok r) (hr : r ≠ .notThis) : tryRiffChunk v q = .ok r := by
  rw [tryRiffChunk, h]
  cases r with
  | notThis => exact absurd rfl hr
  | _ => rfl

theorem tryRiffChunk_of_fact {r : Found} (hfmt : tryRiffFmt v q = .ok .notThis) (h : tryRiffFact v q = .ok r)
    (hr : r ≠ .notThis) : tryRiffChunk v q = .ok r := by
  rw [tryRiffChunk, hfmt, h]
  cases r with
  | notThis => exact absurd rfl hr
  | _ => rfl

theorem tryRiffChunk_of_data (hfmt : tryRiffFmt v q = .ok .notThis) (hfact : tryRiffFact v q = .ok .notThis) :
    tryRiffChunk v q = tryRiffData v q := by
  rw [tryRiffChunk, hfmt, hfact]; rfl

theorem tryRiff_of_no_chunk (h : isRiffHeader v q = .ok false) (hc : tryRiffChunk v q = .ok .notThis) :
    tryRiff v sess q = .ok (sess, .notThis) := by
  cases hr : sess.hasRiff with
  | false => exact tryRiff_outside h hr
  | true => exact tryRiff_inside h hr hc

theorem tryRiffFmt_of_other (h : lit v q litFmt = .ok false) : tryRiffFmt v q = .ok .notThis := by
  rw [tryRiffFmt, h]; rfl

theorem tryRiffFmt_of_chunk (h : lit v q litFmt = .ok true) (hb : bytesAt v (q + 4) 6 = .ok (some bs)) :
    tryRiffFmt v q
      = .ok (if leNat (bs.drop 4) ≠ 0x55 then .fatal .unsupportedFormat q
        else .hit (.plain .riffFmt (leNat (bs.take 4) + 8))) := by
  rw [tryRiffFmt, h, hb]
  exact (apply_ite Except.ok _ _ _).symm

theorem tryRiffFact_of_other (h : lit v q litFact = .ok false) : tryRiffFact v q = .ok .notThis := by
  rw [tryRiffFact, h]; rfl

theorem tryRiffFact_of_chunk (h : lit v q litFact = .ok true) (hb : bytesAt v (q + 4) 4 = .ok (some bs)) :
    tryRiffFact v q = .ok (.hit (.plain .riffFact (leNat bs + 8))) := by
  rw [tryRiffFact, h, hb]; rfl

theorem tryRiffData_of_other (h : lit v q litData = .ok false) : tryRiffData v q = .ok .notThis := by
  rw [tryRiffData, h]; rfl

theorem tryRiffData_of_chunk (h : lit v q litData = .ok true) :
    tryRiffData v q = .ok (.hit (.plain .riffData 8)) := by
  rw [tryRiffData, h]; rfl

theorem tryId3_of_tag (h : lit v q litTag = .ok true) : tryId3 v q = .ok (some (.plain .id3v1 128)) := by
  rw [tryId3, h]; rfl

theorem tryId3_of_id3 (ht : lit v q litTag = .ok false) (h : lit v q litId3 = .ok true)
    (hb : bytesAt v (q + 3) 7 = .ok (some bs)) :
    tryId3 v q = .ok (some (.plain .id3v2 (id3Size (bs.drop 3) + 10))) := by
  rw [tryId3, ht, h, hb]; rfl

theorem tryApe_of_tag (h : lit v q litApe = .ok true) (hb : bytesAt v (q + 8) 8 = .ok (some bs)) :
    tryApe v q
      = .ok (if leNat (bs.take 4) = 2000 then some (.plain .apev2 (leNat (bs.drop 4) + 32))
        else if leNat (bs.take 4) = 1000 then some (.plain .apev1 (leNat (bs.drop 4) + 32))
        else none) := by
  rw [tryApe, h, hb]
  simp only [apply_ite Except.ok]
  rfl

end

/-! ### The bytes of a chunk or a tag, at the position -/

section

variable {v : View} {sess : Session} {q : Nat} {rest : List Byte} (hq : v.pos ≤ q)
include hq

/-- The container header opens a container at position 0; elsewhere its bytes are no chunk either. -/
theorem tryRiff_of_header_bytes {z0 z1 z2 z3 : Byte}
    (hw : v.readable q = [0x52, 0x49, 0x46, 0x46, z0, z1, z2, z3, 0x57, 0x41, 0x56, 0x45] ++ rest) :
    (q = 0 → tryRiff v sess q = .ok ({ sess with hasRiff := true }, .hit (.plain .riffHdr 12)))
      ∧ (q ≠ 0 → tryRiff v sess q = .ok (sess, .notThis)) := by
  have hriff : (v.readable q).take 4 = litRiff := by rw [hw]; rfl
  have hheader : isRiffHeader v q = .ok (decide (q = 0)) :=
    isRiffHeader_of_riff (lit_of_prefix hq hriff) (lit_of_take hq (by rw [hw]; rfl))
  refine ⟨fun h0 => tryRiff_of_header (by rw [hheader, decide_eq_true h0]), fun h0 => tryRiff_of_no_chunk
    (by rw [hheader, decide_eq_false h0]) ?_⟩
  rw [tryRiffChunk_of_data (tryRiffFmt_of_other (lit_of_other_prefix hq hriff rfl (by decide)))
    (tryRiffFact_of_other (lit_of_other_prefix hq hriff rfl (by decide)))]
  exact tryRiffData_of_other (lit_of_other_prefix hq hriff rfl (by decide))

theorem tryRiff_of_fmt_bytes {n0 n1 n2 n3 t0 t1 : Byte}
    (hw : v.readable q = [0x66, 0x6D, 0x74, 0x20, n0, n1, n2, n3, t0, t1] ++ rest) :
    let n := n0.toNat + 2 ^ 8 * n1.toNat + 2 ^ 16 * n2.toNat + 2 ^ 24 * n3.toNat
    let tag := t0.toNat + 2 ^ 8 * t1.toNat
    (sess.hasRiff = false → tryRiff v sess q = .ok (sess, .notThis))
      ∧ (sess.hasRiff = true → tag = 0x55 → tryRiff v sess q = .ok (sess, .hit (.plain .riffFmt (n + 8))))
      ∧ (sess.hasRiff = true → tag ≠ 0x55 → tryRiff v sess q = .ok (sess, .fatal .unsupportedFormat q)) := by
  have hlit : (v.readable q).take 4 = litFmt := by rw [hw]; rfl
  have hheader := isRiffHeader_of_not_riff (lit_of_other_prefix (s := litRiff) hq hlit rfl (by decide))
  have hbytes : bytesAt v (q + 4) 6 = .ok (some [n0, n1, n2, n3, t0, t1]) := bytesAt_of_take hq (by rw [hw]; rfl) rfl
  have hfmt := tryRiffFmt_of_chunk (lit_of_prefix hq hlit) hbytes
  change tryRiffFmt v q = .ok (if leNat [t0, t1] ≠ 0x55 then .fatal .unsupportedFormat q
    else .hit (.plain .riffFmt (leNat [n0, n1, n2, n3] + 8))) at hfmt
  rw [leNat_two, leNat_four] at hfmt
  refine ⟨tryRiff_outside hheader, fun hr ht => ?_, fun hr ht => ?_⟩
  · rw [if_neg (not_not.2 ht)] at hfmt
    exact tryRiff_inside hheader hr (tryRiffChunk_of_fmt hfmt nofun)
  · rw [if_pos ht] at hfmt
    exact tryRiff_inside hheader hr (tryRiffChunk_of_fmt hfmt nofun)

theorem tryRiff_of_fact_bytes {n0 n1 n2 n3 : Byte} (hw : v.readable q = [0x66, 0x61, 0x63, 0x74, n0, n1, n2, n3] ++ rest)
    (hr : sess.hasRiff = true) :
    tryRiff v sess q
      = .ok (sess, .hit (.plain .riffFact
          (n0.toNat + 2 ^ 8 * n1.toNat + 2 ^ 16 * n2.toNat + 2 ^ 24 * n3.toNat + 8))) := by
  have hlit : (v.readable q).take 4 = litFact := by rw [hw]; rfl
  have hheader := isRiffHeader_of_not_riff (lit_of_other_prefix (s := litRiff) hq hlit rfl (by decide))
  have hfmt := tryRiffFmt_of_other (lit_of_other_prefix (s := litFmt) hq hlit rfl (by decide))
  have hbytes : bytesAt v (q + 4) 4 = .ok (some [n0, n1, n2, n3]) := bytesAt_of_take hq (by rw [hw]; rfl) rfl
  have hfact := tryRiffFact_of_chunk (lit_of_prefix hq hlit) hbytes
  rw [leNat_four] at hfact
  exact tryRiff_inside hheader hr (tryRiffChunk_of_fact hfmt hfact nofun)

theorem tryRiff_of_data_bytes (hw : v.readable q = [0x64, 0x61, 0x74, 0x61] ++ rest) (hr : sess.hasRiff = true) :
    tryRiff v sess q = .ok (sess, .hit (.plain .riffData 8)) := by
  have hlit : (v.readable q).take 4 = litData := by rw [hw]; rfl
  have hheader := isRiffHeader_of_not_riff (lit_of_other_prefix (s := litRiff) hq hlit rfl (by decide))
  have hfmt := tryRiffFmt_of_other (lit_of_other_prefix (s := litFmt) hq hlit rfl (by decide))
  have hfact := tryRiffFact_of_other (lit_of_other_prefix (s := litFact) hq hlit rfl (by decide))
  refine tryRiff_inside hheader hr ?_
  rw [tryRiffChunk_of_data hfmt hfact]
  exact tryRiffData_of_chunk (lit_of_prefix hq hlit)

theorem tryId3_of_tag_bytes (hw : v.readable q = [0x54, 0x41, 0x47] ++ rest) :
    tryId3 v q = .ok (some (.plain .id3v1 128)) :=
  tryId3_of_tag (lit_of_prefix hq (by rw [hw]; rfl))

theorem tryId3_of_id3_bytes {x0 x1 x2 b6 b7 b8 b9 : Byte}
    (hw : v.readable q = [0x49, 0x44, 0x33, x0, x1, x2, b6, b7, b8, b9] ++ rest) :
    tryId3 v q
      = .ok (some (.plain .id3v2
          (b6.toNat % 128 * 2 ^ 21 + b7.toNat % 128 * 2 ^ 14 + b8.toNat % 128 * 2 ^ 7 + b9.toNat % 128 + 10))) := by
  have hlit : (v.readable q).take 3 = litId3 := by rw [hw]; rfl
  have hbytes : bytesAt v (q + 3) 7 = .ok (some [x0, x1, x2, b6, b7, b8, b9]) := bytesAt_of_take hq (by rw [hw]; rfl) rfl
  rw [← id3Size_four]
  exact tryId3_of_id3 (lit_of_other_prefix hq hlit rfl (by decide)) (lit_of_prefix hq hlit) hbytes

theorem tryApe_of_tag_bytes {v0 v1 v2 v3 n0 n1 n2 n3 : Byte}
    (hw : v.readable q
      = [0x41, 0x50, 0x45, 0x54, 0x41, 0x47, 0x45, 0x58, v0, v1, v2, v3, n0, n1, n2, n3] ++ rest) :
    let ver := v0.toNat + 2 ^ 8 * v1.toNat + 2 ^ 16 * v2.toNat + 2 ^ 24 * v3.toNat
    let n := n0.toNat + 2 ^ 8 * n1.toNat + 2 ^ 16 * n2.toNat + 2 ^ 24 * n3.toNat
    (ver = 2000 → tryApe v q = .ok (some (.plain .apev2 (n + 32))))
      ∧ (ver = 1000 → tryApe v q = .ok (some (.plain .apev1 (n + 32))))
      ∧ (ver ≠ 2000 → ver ≠ 1000 → tryApe v q = .ok none) := by
  have hbytes : bytesAt v (q + 8) 8 = .ok (some [v0, v1, v2, v3, n0, n1, n2, n3]) :=
    bytesAt_of_take hq (by rw [hw]; rfl) rfl
  have hape := tryApe_of_tag (lit_of_prefix hq (by rw [hw]; rfl)) hbytes
  simp only [List.take_succ_cons, List.take_zero, List.drop_succ_cons, List.drop_zero, leNat_four] at hape
  refine ⟨fun h => ?_, fun h => ?_, fun h1 h2 => ?_⟩
  · rw [hape, if_pos h]
  · rw [hape, if_neg (by omega), if_pos h]
  · rw [hape, if_neg h1, if_neg h2]

end

/-! ### No frame, once the bytes are decided -/

section

variable {v : View} {sess : Session} {q n : Nat} (hq : v.pos ≤ q) (hd : v.Decided q n)
include hq hd

/-- A literal that is not there, or is there with too few bytes after it. -/
theorem lit_false_or_bytes_absent {s : List Byte} (j m : Nat) (hs : s.length ≤ n) (hj : j + m ≤ n) (hm : m ≠ 0)
    (h : (v.readable q).take s.length ≠ s ∨ (v.readable q).length < j + m) :
    lit v q s = .ok false ∨ (lit v q s = .ok true ∧ bytesAt v (q + j) m = .ok none) := by
  by_cases htake : (v.readable q).take s.length = s
  · exact .inr ⟨by rw [lit_of_decided hq hd hs, decide_eq_true htake],
      bytesAt_of_short hq hd hj hm (h.resolve_left (absurd htake))⟩
  · exact .inl (lit_eq_false hq hd hs htake)

theorem isRiffHeader_eq_false (hn : 12 ≤ n)
    (h : ¬(q = 0 ∧ (v.readable q).take 4 = litRiff ∧ ((v.readable q).drop 8).take 4 = litWave)) :
    isRiffHeader v q = .ok false := by
  by_cases hriff : (v.readable q).take 4 = litRiff
  · rw [isRiffHeader_of_riff (lit_of_prefix hq hriff) (lit_readable hq hd litWave 8 hn), ← Bool.decide_and,
      decide_eq_false]
    exact fun ⟨hwave, h0⟩ => h ⟨h0, hriff, hwave⟩
  · exact isRiffHeader_of_not_riff (lit_eq_false hq hd (show 4 ≤ n by omega) hriff)

theorem tryRiffFmt_eq_notThis (hn : 10 ≤ n) (h : (v.readable q).take 4 ≠ litFmt ∨ (v.readable q).length < 10) :
    tryRiffFmt v q = .ok .notThis := by
  rcases lit_false_or_bytes_absent (s := litFmt) hq hd 4 6 (show 4 ≤ n by omega) hn (by decide) h with hl | ⟨hl, hb⟩
  · exact tryRiffFmt_of_other hl
  · rw [tryRiffFmt, hl, hb]; rfl

theorem tryRiffFact_eq_notThis (hn : 8 ≤ n) (h : (v.readable q).take 4 ≠ litFact ∨ (v.readable q).length < 8) :
    tryRiffFact v q = .ok .notThis := by
  rcases lit_false_or_bytes_absent (s := litFact) hq hd 4 4 (show 4 ≤ n by omega) hn (by decide) h with hl | ⟨hl, hb⟩
  · exact tryRiffFact_of_other hl
  · rw [tryRiffFact, hl, hb]; rfl

theorem tryRiffChunk_eq_notThis (hn : 10 ≤ n) (hfmt : (v.readable q).take 4 ≠ litFmt ∨ (v.readable q).length < 10)
    (hfact : (v.readable q).take 4 ≠ litFact ∨ (v.readable q).length < 8) (hdata : (v.readable q).take 4 ≠ litData) :
    tryRiffChunk v q = .ok .notThis := by
  rw [tryRiffChunk_of_data (tryRiffFmt_eq_notThis hq hd hn hfmt) (tryRiffFact_eq_notThis hq hd (by omega) hfact)]
  exact tryRiffData_of_other (lit_eq_false hq hd (show 4 ≤ n by omega) hdata)

theorem tryId3_eq_none (hn : 10 ≤ n) (htag : (v.readable q).take 3 ≠ litTag)
    (hid3 : (v.readable q).take 3 ≠ litId3 ∨ (v.readable q).length < 10) : tryId3 v q = .ok none := by
  rw [tryId3, lit_eq_false (s := litTag) hq hd (show 3 ≤ n by omega) htag]
  rcases lit_false_or_bytes_absent (s := litId3) hq hd 3 7 (show 3 ≤ n by omega) hn (by decide) hid3 with hl | ⟨hl, hb⟩
  · rw [hl]; rfl
  · rw [hl, hb]; rfl

theorem tryApe_eq_none (hn : 16 ≤ n) (h : (v.readable q).take 8 ≠ litApe ∨ (v.readable q).length < 16) :
    tryApe v q = .ok none := by
  rw [tryApe]
  rcases lit_false_or_bytes_absent (s := litApe) hq hd 8 8 (show 8 ≤ n by omega) hn (by decide) h with hl | ⟨hl, hb⟩
  · rw [hl]; rfl
  · rw [hl, hb]; rfl

end

/-! ### The obligation -/

/-- Fewer than three bytes before the end of the stream are no tag. -/
theorem tags_eq_none_of_short {v : View} {q : Nat} (hq : v.pos ≤ q) (he : v.eos = true)
    (hlen : v.stream.length < q + 3) : tryId3 v q = .ok none ∧ tryApe v q = .ok none := by
  have hshort : (v.readable q).length < 3 := by
    rw [View.readable, List.length_drop, List.length_take]
    omega
  have htag : (v.readable q).take 3 ≠ litTag := fun h => by
    have hthree := congrArg List.length h
    rw [List.length_take] at hthree
    change min 3 _ = 3 at hthree
    omega
  exact ⟨tryId3_eq_none (n := 10) hq (.inl he) le_rfl htag (.inr (by omega)),
    tryApe_eq_none (n := 16) hq (.inl he) le_rfl (.inr (by omega))⟩

/-- Settles O46: the bytes at the position are the readable ones, from which each trial reads its literals and lengths. -/
theorem riffAndTagTrialsReadTheirLengths : Obligations.RiffAndTagTrialsReadTheirLengths := by
  unfold Obligations.RiffAndTagTrialsReadTheirLengths
  refine ⟨fun v sess q hq hin => ⟨fun _ _ _ _ h => ?header, fun _ _ _ _ _ _ h => ?fmt,
      fun _ _ _ _ h => ?fact, fun h => ?data⟩,
    fun v q hq hin => ⟨fun n h hn => ?tag, fun _ _ _ _ _ _ _ h => ?id3, fun _ _ _ _ _ _ _ _ h => ?ape,
      fun he hlen => tags_eq_none_of_short hq he hlen⟩,
    fun v sess q hq => ⟨fun hd hriff => tryRiff_outside (isRiffHeader_eq_false hq hd le_rfl hriff), ?noChunk,
      fun hd htag hid3 => tryId3_eq_none hq hd le_rfl htag hid3, fun hd h => tryApe_eq_none hq hd le_rfl h⟩⟩
  case noChunk =>
    intro hd hriff hfmt hfact hdata
    exact tryRiff_of_no_chunk (isRiffHeader_eq_false hq hd le_rfl hriff)
      (tryRiffChunk_eq_notThis hq hd (by decide) hfmt hfact hdata)
  all_goals obtain ⟨rest, hw⟩ := readable_of_take (by omega) h
  case header => exact tryRiff_of_header_bytes hq hw
  case fmt => exact tryRiff_of_fmt_bytes hq hw
  case fact => exact tryRiff_of_fact_bytes hq hw
  case data => exact tryRiff_of_data_bytes hq hw
  case tag => exact hn ▸ tryId3_of_tag_bytes hq hw
  case id3 => exact tryId3_of_id3_bytes hq hw
  case ape => exact tryApe_of_tag_bytes hq hw

end Sys2Proof.Proofs.ContainerTrials

/-! PROOFS. The commands of 43_engine.md section 5: what each leaves of the engine in each run state (O36 to O39). -/

namespace Sys2Proof.Proofs.EngineCommands

open Sys2Proof.Machine Sys2Proof.Proofs.Scope Sys2Proof.Proofs.StatusRegisters Sys2Proof.Proofs.Encoding
open Sys2Proof.Model hiding State CmdUnit HdrState HdrInfo Engine Counters Record Reg View

/-! ### Completion: an engine left, or STATE(RUNSTATE) -/

/-- The state an engine command leaves that completes with the engine `e` (60_exceptions.md R801). -/
def completedWith (s : State) (e : Engine) : State :=
  { s with cu := { s.cu with err := 0 }, eng := e, irqPend := s.irqPend ||| 0x01 }

theorem finishCommand_setEng (s : State) (e : Engine) : finishCommand s (.ok (s.setEng e)) = .next (completedWith s e) := rfl

theorem finishCommand_stateError (s : State) :
    finishCommand s (.error s.eng.stateError) = .next (s.withError 7 s.eng.run.code) := by
  have hcode : (BitVec.ofNat 8 s.eng.run.code).toNat = s.eng.run.code := by cases s.eng.run <;> rfl
  rw [finishCommand, raise_eq_withError, Engine.stateError, hcode]
  rfl

theorem inactive_iff {r : RunState} : r.active = false ↔ r = .idle ∨ r = .done ∨ r = .error := by
  cases r <;> simp [RunState.active]

/-! ### ENG_START (R740) -/

theorem exec_engStart_of_active {s : State} (h : s.eng.run.active = true) :
    exec .engStart s = .next (s.withError 7 s.eng.run.code) := by
  rw [exec, execEngStart, if_pos h, finishCommand_stateError]

theorem exec_engStart_of_inactive {s : State} (h : s.eng.run.active = false) :
    exec .engStart s = .next (completedWith s (s.eng.started s.cu.crcPoly s.cu.crcInit)) := by
  rw [exec, execEngStart, if_neg (by rw [h]; nofun), finishCommand_setEng]

/-- Settles O36: STATE in the three run states of a session, else the engine of a new session. -/
theorem engStartBeginsFreshSession : Obligations.EngStartBeginsFreshSession := by
  unfold Obligations.EngStartBeginsFreshSession
  intro s
  have active : ∀ r : RunState, r.active = true → s.eng.run = r → exec .engStart s = .next (s.withError 7 r.code) :=
    fun r hr h => h ▸ exec_engStart_of_active (h ▸ hr)
  refine ⟨active .run rfl, active .paused rfl, active .step rfl, 
    fun h => exec_engStart_of_inactive (inactive_iff.2 h)⟩

/-! ### ENG_PAUSE, ENG_RESUME, ENG_STEP (R741, R742, R743) -/

theorem exec_engPause_of_step_in_progress {s : State} (hr : s.eng.run = .run) (hw : s.eng.work ≠ .between) :
    exec .engPause s = .next (completedWith s { s.eng with pauseReq := true }) := by
  simp only [exec, execEngPause, hr, if_neg hw, finishCommand_setEng]

theorem exec_engPause_between {s : State} (hr : s.eng.run = .run) (hw : s.eng.work = .between) :
    exec .engPause s = .next (completedWith s { s.eng with run := .paused, pauseReq := false }) := by
  simp only [exec, execEngPause, hr, hw, if_true, finishCommand_setEng, Engine.boundary]

theorem exec_engPause_of_paused_or_step {s : State} (h : s.eng.run = .paused ∨ s.eng.run = .step) :
    exec .engPause s = .next s.withDone := by
  rcases h with h | h <;> simp only [exec, execEngPause, h] <;> rfl

theorem exec_engPause_of_inactive {s : State} (h : s.eng.run.active = false) :
    exec .engPause s = .next (s.withError 7 s.eng.run.code) := by
  rcases inactive_iff.1 h with h | h | h <;> simp only [exec, execEngPause, h, finishCommand_stateError]

theorem exec_engResume_of_paused {s : State} (hr : s.eng.run = .paused) :
    exec .engResume s = .next (completedWith s { s.eng with run := .run }) := by
  simp only [exec, execEngResume, hr, finishCommand_setEng]

theorem exec_engResume_of_unlooked {s : State} (hr : s.eng.run = .step) (hw : s.eng.work.underway = false) :
    exec .engResume s = .next (completedWith s { s.eng with run := .run }) := by
  simp only [exec, execEngResume, hr, hw, Bool.false_eq_true, if_false, finishCommand_setEng]

theorem exec_engResume_of_underway {s : State} (hr : s.eng.run = .step) (hw : s.eng.work.underway = true) :
    exec .engResume s = .next (completedWith s { s.eng with resumeReq := true }) := by
  simp only [exec, execEngResume, hr, hw, if_true, finishCommand_setEng]

theorem exec_engResume_of_run {s : State} (hr : s.eng.run = .run) :
    exec .engResume s = .next (completedWith s { s.eng with pauseReq := false }) := by
  simp only [exec, execEngResume, hr, finishCommand_setEng]

theorem exec_engResume_of_inactive {s : State} (h : s.eng.run.active = false) :
    exec .engResume s = .next (s.withError 7 s.eng.run.code) := by
  rcases inactive_iff.1 h with h | h | h <;> simp only [exec, execEngResume, h, finishCommand_stateError]

theorem exec_engStep_of_paused {s : State} (hr : s.eng.run = .paused) :
    exec .engStep s = .next (completedWith s { s.eng with run := .step, work := .detect 0 }) := by
  simp only [exec, execEngStep, hr, finishCommand_setEng]

theorem exec_engStep_of_not_paused {s : State} (h : s.eng.run ≠ .paused) :
    exec .engStep s = .next (s.withError 7 s.eng.run.code) := by
  rw [← finishCommand_stateError, exec, execEngStep]
  split
  · next hr => exact absurd hr h
  all_goals rfl

theorem underway_iff (k : Work) : k.underway = true ↔ k ≠ .between ∧ k ≠ .detect 0 := by
  rw [← Bool.not_eq_false, underway_eq_false_iff, not_or]

/-- Settles O37: the three commands in each of the six run states. -/
theorem pauseResumeAndStepSetRunState : Obligations.PauseResumeAndStepSetRunState := by
  unfold Obligations.PauseResumeAndStepSetRunState
  intro s
  have pauseRaises : ∀ r : RunState, r.active = false → s.eng.run = r → exec .engPause s = .next (s.withError 7 r.code) :=
    fun r hr h => h ▸ exec_engPause_of_inactive (h ▸ hr)
  have resumeRaises : ∀ r : RunState, r.active = false → s.eng.run = r → exec .engResume s = .next (s.withError 7 r.code) :=
    fun r hr h => h ▸ exec_engResume_of_inactive (h ▸ hr)
  have stepRaises : ∀ r : RunState, r ≠ .paused → s.eng.run = r → exec .engStep s = .next (s.withError 7 r.code) :=
    fun r hr h => h ▸ exec_engStep_of_not_paused (h ▸ hr)
  refine ⟨⟨exec_engPause_of_step_in_progress, exec_engPause_between, exec_engPause_of_paused_or_step,
      pauseRaises .idle rfl, pauseRaises .done rfl, pauseRaises .error rfl⟩,
    ⟨?resumeAtOnce, ?resumeAtEnd, fun h => (underway_iff _).1 (Engine.underway_of_stall h), exec_engResume_of_run,
      resumeRaises .idle rfl, resumeRaises .done rfl, resumeRaises .error rfl⟩,
    ⟨exec_engStep_of_paused, stepRaises .idle nofun, stepRaises .run nofun, stepRaises .step nofun, stepRaises .done nofun,
      stepRaises .error nofun⟩⟩
  case resumeAtOnce =>
    rintro (hr | ⟨hr, hw⟩)
    · exact exec_engResume_of_paused hr
    · exact exec_engResume_of_unlooked hr ((underway_eq_false_iff _).2 hw)
  case resumeAtEnd =>
    intro hr hw hw0
    have hresume := exec_engResume_of_underway hr ((underway_iff _).2 ⟨hw, hw0⟩)
    refine ⟨hresume, fun t ht => ?_⟩
    cases hresume.symm.trans ht
    -- `RUNSTATE` still reads STEP
    obtain ⟨hcode, -⟩ := engStatus_bits (completedWith s { s.eng with resumeReq := true }).eng
    exact hcode.trans (congrArg RunState.code hr)

/-! ### ENG_ABORT and REC_POP (R744, R745) -/

theorem exec_engAbort_of_idle {s : State} (h : s.eng.run = .idle) : exec .engAbort s = .next s.withDone := by
  rw [exec, execEngAbort, if_pos h]
  rfl

theorem exec_engAbort_of_not_idle {s : State} (h : s.eng.run ≠ .idle) :
    exec .engAbort s = .next (completedWith s s.eng.aborted) := by
  rw [exec, execEngAbort, if_neg h, finishCommand_setEng]

/-- After ENG_ABORT the output port offers FRAME_ABORT alone, when it is owed. -/
theorem offer_aborted (e : Engine) :
    e.aborted.offer = if e.abortOwed || e.work.outputBegun then some .frameAbort else none := by
  rfl

/-- Settles O38: the engine after ENG_ABORT, whose ports follow from what the step in progress had output. -/
theorem engAbortCutsSession : Obligations.EngAbortCutsSession := by
  unfold Obligations.EngAbortCutsSession
  intro s
  refine ⟨exec_engAbort_of_idle,
    fun h => ⟨_, exec_engAbort_of_not_idle h, rfl, fun hbegun => ?_, fun howed hnone => ?_, rfl, rfl⟩⟩
  · change s.eng.aborted.offer = _
    rw [offer_aborted]
    rcases hbegun with ⟨a, sent, hw⟩ | ⟨a, hw⟩ <;> simp [hw, Work.outputBegun]
  · change s.eng.aborted.offer = _
    rw [offer_aborted]
    rcases hnone with hw | ⟨n, hw⟩ | ⟨a, hw⟩ | ⟨a, hw⟩ <;> simp [hw, howed, Work.outputBegun]

theorem exec_recPop_of_nil {s : State} (h : s.eng.fifo = []) : exec .recPop s = .next (s.withError 7 s.eng.run.code) := by
  simp only [exec, execRecPop, h, finishCommand_stateError]

theorem exec_recPop_of_cons {s : State} {r : Record} {rest : List Record} (h : s.eng.fifo = r :: rest) :
    exec .recPop s = .next (completedWith s { s.eng with fifo := rest }) := by
  simp only [exec, execRecPop, h, finishCommand_setEng]

/-- Settles O39: STATE without a record, else the FIFO without its head. -/
theorem recPopRemovesHead : Obligations.RecPopRemovesHead := by
  unfold Obligations.RecPopRemovesHead
  intro s
  refine ⟨fun h => (exec_recPop_of_nil h).trans ?_, fun r rest h => exec_recPop_of_cons h⟩
  cases s.eng.run <;> rfl

end Sys2Proof.Proofs.EngineCommands

/-! PROOFS. The ports of the engine (43_engine.md section 1): what the input port accepts, what a stall on input leaves room
for, and the items of a frame in output (O40, O41, O53). -/

namespace Sys2Proof.Proofs.Ports

open Sys2Proof.Machine Sys2Proof.Proofs.Words Sys2Proof.Proofs.StatusRegisters Sys2Proof.Proofs.Invariant
open Sys2Proof.Model hiding State CmdUnit HdrState HdrInfo Engine Counters Record Reg View

/-! ### The input port (R700) -/

theorem acceptsEos_iff (e : Engine) :
    e.acceptsEos = true ↔ (e.run = .run ∨ e.run = .paused ∨ e.run = .step) ∧ e.eos = false := by
  simp only [Engine.acceptsEos, Bool.and_eq_true, Bool.not_eq_true', active_iff]

theorem acceptsByte_iff (e : Engine) :
    e.acceptsByte = true ↔ (e.run = .run ∨ e.run = .paused ∨ e.run = .step) ∧ e.eos = false ∧ e.windowLen < 8192 := by
  simp only [Engine.acceptsByte, Bool.and_eq_true, Bool.not_eq_true', decide_eq_true_eq, active_iff, and_assoc]

/-- What offering a byte can do: it is delivered, or it is refused and the block stays as it is. -/
theorem hostDo_inByte_cases (s : State) (b : Byte) :
    (s.eng.acceptsByte = true ∧ hostDo s (.inByte b) = (s.setEng (s.eng.deliver b)).popOp)
      ∨ (¬s.eng.acceptsByte = true ∧ (hostDo s (.inByte b) = s ∨ hostDo s (.inByte b) = s.popOp)) := by
  by_cases h : s.eng.acceptsByte = true
  · exact .inl ⟨h, if_pos h⟩
  · refine .inr ⟨h, ?_⟩
    simp only [hostDo, if_neg h]
    split
    · exact .inl rfl
    · exact .inr rfl

/-- What offering the end-of-stream mark can do. -/
theorem hostDo_inEos_cases (s : State) :
    (s.eng.acceptsEos = true ∧ hostDo s .inEos = (s.setEng s.eng.deliverEos).popOp)
      ∨ (¬s.eng.acceptsEos = true ∧ (hostDo s .inEos = s ∨ hostDo s .inEos = s.popOp)) := by
  by_cases h : s.eng.acceptsEos = true
  · exact .inl ⟨h, if_pos h⟩
  · refine .inr ⟨h, ?_⟩
    simp only [hostDo, if_neg h]
    split
    · exact .inl rfl
    · exact .inr rfl

theorem eng_hostDo_inByte (s : State) (b : Byte) :
    (hostDo s (.inByte b)).eng = if s.eng.acceptsByte = true then s.eng.deliver b else s.eng := by
  rcases hostDo_inByte_cases s b with ⟨h, hd⟩ | ⟨h, hd | hd⟩ <;> rw [hd]
  · exact (if_pos h).symm
  · exact (if_neg h).symm
  · exact (if_neg h).symm

theorem eng_hostDo_inEos (s : State) :
    (hostDo s .inEos).eng = if s.eng.acceptsEos = true then s.eng.deliverEos else s.eng := by
  rcases hostDo_inEos_cases s with ⟨h, hd⟩ | ⟨h, hd | hd⟩ <;> rw [hd]
  · exact (if_pos h).symm
  · exact (if_neg h).symm
  · exact (if_neg h).symm

/-- The input port reaches neither the command unit nor the interrupts. -/
theorem hostDo_inByte_frame (s : State) (b : Byte) :
    (hostDo s (.inByte b)).cu = s.cu ∧ (hostDo s (.inByte b)).irqPend = s.irqPend := by
  rcases hostDo_inByte_cases s b with ⟨-, hd⟩ | ⟨-, hd | hd⟩ <;> rw [hd] <;> exact ⟨rfl, rfl⟩

theorem hostDo_inEos_frame (s : State) : (hostDo s .inEos).cu = s.cu ∧ (hostDo s .inEos).irqPend = s.irqPend := by
  rcases hostDo_inEos_cases s with ⟨-, hd⟩ | ⟨-, hd | hd⟩ <;> rw [hd] <;> exact ⟨rfl, rfl⟩

/-- `STATUS.IN_EOS` (10_state.md R113), however many records there are. -/
theorem status_inEos (s : State) : (s.readReg .status).getLsbD 16 = s.eng.eos := by
  have hbusy := s.busy.toNat_le
  have havail := (decide (1 ≤ s.eng.fifo.length)).toNat_le
  have hfull := (decide (16 ≤ s.eng.fifo.length)).toNat_le
  have heos := s.eng.eos.toNat_le
  change s.statusWord.getLsbD 16 = _
  rw [statusWord_eq]
  exact bit_eq (by decide) (by omega)

/-- The window begins at `P` unless a step streams a frame (R702, R734). -/
theorem windowBase_of_no_frame {e : Engine} (h : e.work = .between ∨ ∃ n, e.work = .detect n) : e.windowBase = e.p := by
  rcases h with h | ⟨n, h⟩ <;> simp only [Engine.windowBase, h]

/-- Settles O40: what the port accepts changes the stream or its end, what it refuses nothing. -/
theorem inputPortAcceptsInSession : Obligations.InputPortAcceptsInSession := by
  unfold Obligations.InputPortAcceptsInSession
  intro s b active
  have hbyte := acceptsByte_iff s.eng
  have heos := acceptsEos_iff s.eng
  refine ⟨fun ha he hw => ?byte, fun ha he => ?mark, fun h => ?byteRefused, fun h => ?markRefused, (hostDo_inByte_frame s b).1,
    (hostDo_inEos_frame s).1, (hostDo_inByte_frame s b).2, (hostDo_inEos_frame s).2, fun h => ?window⟩
  case byte =>
    rw [eng_hostDo_inByte, if_pos (hbyte.2 ⟨ha, he, hw⟩)]
    rfl
  case mark =>
    have hmark : (hostDo s .inEos).eng = s.eng.deliverEos := by rw [eng_hostDo_inEos, if_pos (heos.2 ⟨ha, he⟩)]
    exact ⟨hmark, by rw [status_inEos, hmark]; rfl, by rw [hmark]; rfl⟩
  case byteRefused =>
    rw [eng_hostDo_inByte, if_neg]
    rw [hbyte]
    rintro ⟨ha, he, hw⟩
    rcases h with h | h | h
    · exact h ha
    · cases he.symm.trans h
    · omega
  case markRefused =>
    rw [eng_hostDo_inEos, if_neg]
    rw [heos]
    rintro ⟨ha, he⟩
    rcases h with h | h
    · exact h ha
    · cases he.symm.trans h
  case window =>
    have hbase : s.eng.windowBase = s.eng.pos.toNat := windowBase_of_no_frame h
    have hlen : s.eng.windowLen = min (s.eng.stream.length - s.eng.pos.toNat) 8192 := by
      rw [Engine.windowLen, hbase]; rfl
    refine ⟨hlen, ?_⟩
    rw [Engine.window, hbase, hlen, List.take_eq_take_iff, List.length_drop, mfhc_capacity]
    omega

/-! ### A stall on input (R703, R705, R734) -/

/-- The window of an engine that waits for an input byte is full only of bytes of a long frame that the host has not
taken. -/
theorem room_of_stallIn {e : Engine} (he : e.Ok) (hd : e.d < 2 ^ 64) (hs : e.stallIn = true) :
    e.windowLen < 8192 ∨ (e.stallOut = true ∧ ∃ a sent, e.work = .emit a sent ∧ 8192 < a.cand.len) := by
  obtain ⟨-, hrun, hstream⟩ := he
  obtain ⟨hp, hwork, hwin⟩ := hstream hd
  obtain ⟨-, hwait⟩ := (stallIn_iff e).1 hs
  simp only [Engine.windowLen, min_lt_iff, lt_self_iff_false, or_false]
  rcases hwait with ⟨n, hw, hn⟩ | ⟨a, ⟨sent, hw⟩ | hw, hn⟩
  · -- a detection waits for a byte of the window
    simp only [Engine.WorkOk, hw] at hwork
    simp only [Engine.windowBase, hw]
    omega
  · -- a frame in output: a long one whose window is full has bytes that the host can take
    have hstep := stepping_of_work hrun (by rw [hw]; nofun)
    have hwin := hwin (active_of_stepping hstep)
    simp only [Engine.windowBase, hw] at hwin ⊢
    by_cases hlong : 8192 < a.cand.len
    · simp only [if_pos hlong] at hwin ⊢
      by_cases hfull : e.p + sent < e.d
      · exact .inr ⟨(stallOut_iff_of_emit hw).2 ((offer_iff_of_emit hw hstep.abort).2 (.inr (.inl hfull))), a, sent, rfl, hlong⟩
      · exact .inl (by omega)
    · simp only [if_neg hlong]
      exact .inl (by omega)
  · -- a frame to drop: its bytes leave the window as they come
    simp only [Engine.windowBase, hw]
    split <;> omega

/-- Settles O41: a stalled step is one of an active session that has not seen the end of the stream. -/
theorem inputStallLeavesRoom : Obligations.InputStallLeavesRoom := by
  unfold Obligations.InputStallLeavesRoom
  intro e he hd hs
  have hwork : e.work ≠ .between := fun hw => by simp [Engine.stallIn, hw] at hs
  have hactive := active_of_stepping (stepping_of_work he.2.1 hwork)
  have heos := ((stallIn_iff e).1 hs).1
  refine ⟨hactive, (acceptsEos_iff e).2 ⟨(active_iff _).1 hactive, heos⟩, ?_⟩
  rcases room_of_stallIn he hd hs with hroom | howed
  · exact .inl ((acceptsByte_iff e).2 ⟨(active_iff _).1 hactive, heos, hroom⟩)
  · exact .inr howed

/-! ### The output port (R701, R730, R731, R744) -/

section

variable {e : Engine} {a : Accepted} {sent : Nat} (hw : e.work = .emit a sent) (ho : e.abortOwed = false)

include hw ho

theorem offer_of_arrived (hs : sent < a.cand.len) (hd : e.p + sent < e.d) :
    e.offer = some (.frameByte (e.stream[e.p + sent]'hd)) := by
  have hb : e.stream[e.p + sent]? = some (e.stream[e.p + sent]'hd) := List.getElem?_eq_getElem hd
  simp only [Engine.offer, ho, hw, hb, Bool.false_eq_true, if_false, if_neg (Nat.not_le.2 hs)]

theorem taken_of_arrived (hs : sent < a.cand.len) (hd : e.p + sent < e.d) :
    e.taken = { e with work := .emit a (sent + 1) } := by
  have hb : e.stream[e.p + sent]? = some (e.stream[e.p + sent]'hd) := List.getElem?_eq_getElem hd
  simp only [Engine.taken, ho, hw, hb, Bool.false_eq_true, if_false, if_neg (Nat.not_le.2 hs)]

theorem offer_of_not_arrived (hs : sent < a.cand.len) (hd : e.d ≤ e.p + sent) :
    e.offer = if e.eos then some .frameAbort else none := by
  have hb : e.stream[e.p + sent]? = none := List.getElem?_eq_none hd
  simp only [Engine.offer, ho, hw, hb, Bool.false_eq_true, if_false, if_neg (Nat.not_le.2 hs)]

theorem taken_of_cut (hs : sent < a.cand.len) (hd : e.d ≤ e.p + sent) (he : e.eos = true) :
    e.taken = { e with work := .closed a } := by
  have hb : e.stream[e.p + sent]? = none := List.getElem?_eq_none hd
  simp only [Engine.taken, ho, hw, hb, he, Bool.false_eq_true, if_false, if_true, if_neg (Nat.not_le.2 hs)]

theorem offer_of_all_taken (hs : a.cand.len ≤ sent) : e.offer = some .frameEnd := by
  simp only [Engine.offer, ho, hw, Bool.false_eq_true, if_false, ge_iff_le, if_pos hs]

theorem taken_of_all_taken (hs : a.cand.len ≤ sent) : e.taken = { e with work := .push a } := by
  simp only [Engine.taken, ho, hw, Bool.false_eq_true, if_false, ge_iff_le, if_pos hs]

end

theorem takeItems_succ {e : Engine} {x : OutItem} (h : e.offer = some x) (n : Nat) :
    e.takeItems (n + 1) = (x :: (e.taken.takeItems n).1, (e.taken.takeItems n).2) := by
  simp only [Engine.takeItems, h]

/-- Taking `k` bytes that have arrived, and then `n` more items: the bytes come first, and the rest is what the engine offers
with `k` more bytes taken. -/
theorem takeItems_add {a : Accepted} (k n : Nat) {e : Engine} {sent : Nat} (hw : e.work = .emit a sent)
    (ho : e.abortOwed = false) (hs : sent + k ≤ a.cand.len) (hd : e.p + sent + k ≤ e.d) :
    e.takeItems (k + n)
      = (((e.stream.drop (e.p + sent)).take k).map OutItem.frameByte
            ++ (Engine.takeItems n { e with work := .emit a (sent + k) }).1,
          (Engine.takeItems n { e with work := .emit a (sent + k) }).2) := by
  induction k generalizing e sent with
  | zero =>
    have hself : ({ e with work := .emit a sent } : Engine) = e := by rw [← hw]
    simp [hself]
  | succ k ih =>
    have hlt : e.p + sent < e.d := by omega
    have hnext := ih (e := { e with work := .emit a (sent + 1) }) rfl ho (by omega) (by change e.p + (sent + 1) + k ≤ e.d; omega)
    change Engine.takeItems (k + n) { e with work := .emit a (sent + 1) }
      = (((e.stream.drop (e.p + (sent + 1))).take k).map OutItem.frameByte ++ _, _) at hnext
    have hdrop : e.stream.drop (e.p + sent) = e.stream[e.p + sent]'hlt :: e.stream.drop (e.p + (sent + 1)) :=
      List.drop_eq_getElem_cons hlt
    rw [Nat.add_right_comm, takeItems_succ (offer_of_arrived hw ho (by omega) hlt), taken_of_arrived hw ho (by omega) hlt, hnext,
      hdrop, show sent + 1 + k = sent + (k + 1) by omega]
    rfl

theorem takeItems_arrived {e : Engine} {a : Accepted} {sent k : Nat} (hw : e.work = .emit a sent) (ho : e.abortOwed = false)
    (hs : sent + k ≤ a.cand.len) (hd : e.p + sent + k ≤ e.d) :
    e.takeItems k
      = (((e.stream.drop (e.p + sent)).take k).map OutItem.frameByte, { e with work := .emit a (sent + k) }) := by
  have h := takeItems_add k 0 hw ho hs hd
  simpa [Engine.takeItems] using h

/-- With all bytes of the frame taken, FRAME_END is the next item, and its record waits. -/
theorem takeItems_frameEnd {e : Engine} {a : Accepted} {sent : Nat} (hw : e.work = .emit a sent) (ho : e.abortOwed = false)
    (hs : a.cand.len ≤ sent) : e.takeItems 1 = ([.frameEnd], { e with work := .push a }) := by
  rw [takeItems_succ (offer_of_all_taken hw ho hs), taken_of_all_taken hw ho hs]
  rfl

theorem hostDo_take_of_offer {s : State} {x : OutItem} (h : s.eng.offer = some x) :
    hostDo s .take = ((s.setEng s.eng.taken).logItem x).popOp := by
  simp only [hostDo, h]

theorem hostDo_take_of_none {s : State} (h : s.eng.offer = none) :
    hostDo s .take = if s.eng.run = .run ∨ s.eng.run = .paused ∨ s.eng.run = .step then s else s.popOp := by
  simp only [hostDo, h, active_iff]

/-- Settles O53: by induction on the number of bytes taken, and then FRAME_END. -/
theorem emittedFrameIsDeliveredInOrder : Obligations.EmittedFrameIsDeliveredInOrder := by
  unfold Obligations.EmittedFrameIsDeliveredInOrder
  refine ⟨fun e a sent hw ho => ⟨fun k => takeItems_arrived hw ho, fun hs hd he => ⟨?waits, fun b => ?arrives⟩,
      fun hs hd => ?whole⟩,
    fun e ho => ⟨if_pos ho, if_pos ho⟩, fun s => ⟨fun x => hostDo_take_of_offer, hostDo_take_of_none⟩⟩
  case waits =>
    rw [offer_of_not_arrived hw ho hs hd.le, he]
    rfl
  case arrives =>
    have hlt : e.p + sent < (e.stream ++ [b]).length := by
      rw [List.length_append, List.length_singleton]
      exact Nat.lt_succ_of_le hd.ge
    have hoffer := offer_of_arrived (e := { e with stream := e.stream ++ [b] }) hw ho hs hlt
    rw [hoffer]
    have hat : (e.stream ++ [b])[e.p + sent]'hlt = b := by simp [← hd, Engine.d]
    exact congrArg (fun x => some (OutItem.frameByte x)) hat
  case whole =>
    have hall : sent + (a.cand.len - sent) = a.cand.len := Nat.add_sub_cancel' hs
    rw [takeItems_add _ 1 hw ho hall.le (by omega), hall,
      takeItems_frameEnd (e := { e with work := .emit a a.cand.len }) rfl ho le_rfl]

end Sys2Proof.Proofs.Ports

/-! PROOFS. The detection part of a step (43_engine.md section 3): what a decision rests on, and what the move that takes it
leaves (O49 to O52). -/

namespace Sys2Proof.Proofs.Detection

open Sys2Proof.Machine Sys2Proof.Proofs.Invariant
open Sys2Proof.Model hiding State CmdUnit HdrState HdrInfo Engine Counters Record Reg View

/-! ### The move of a detection -/

theorem move_of_decision {e : Engine} {d : Decision} (hdet : e.Detects) (h : e.decision = .ok d) : e.move = e.act d := by
  rw [Engine.move_of_detects hdet, Engine.detectMove, h]

theorem move_of_wait {e : Engine} {n : Nat} (hdet : e.Detects) (h : e.decision = .error n) :
    e.move = ({ e with work := .detect n }, 0) := by
  rw [Engine.move_of_detects hdet, Engine.detectMove, h]

/-! ### What the detection decides (R720, R726) -/

/-- `HAVE` of bytes that have not arrived (R704). -/
theorem haveUpTo_not_arrived {e : Engine} {n : Nat} (h : e.d < n) :
    haveUpTo e.view n = if e.eos then .ok false else .error n := if_neg (Nat.not_le.2 h)

section

variable {e : Engine} (hl : e.p + 5 ≤ e.d)

include hl

theorem decision_of_find_waits {n : Nat} (h : find e.view e.sess e.p (decide (e.sync = .inSync)) = .error n) :
    e.decision = .error n := by
  rw [Engine.decision, mfhc_minRemain, haveUpTo_arrived hl, h]
  rfl

theorem decision_of_notThis {sess : Session}
    (h : find e.view e.sess e.p (decide (e.sync = .inSync)) = .ok (sess, .notThis)) : e.decision = .ok (e.noCandidate sess) := by
  rw [Engine.decision, mfhc_minRemain, haveUpTo_arrived hl, h]
  rfl

theorem decision_of_fatal {sess : Session} {code : ErrCode} {off : Nat}
    (h : find e.view e.sess e.p (decide (e.sync = .inSync)) = .ok (sess, .fatal code off)) :
    e.decision = .ok { verdict := .fatal code off, sess := sess, lost := false, resynced := false } := by
  rw [Engine.decision, mfhc_minRemain, haveUpTo_arrived hl, h]
  rfl

theorem decision_of_hit_inSync {sess : Session} {c : Candidate} (hs : e.sync = .inSync)
    (h : find e.view e.sess e.p true = .ok (sess, .hit c)) :
    e.decision = .ok { verdict := .accept c, sess := sess, lost := false, resynced := false } := by
  rw [Engine.decision, mfhc_minRemain, haveUpTo_arrived hl, hs, decide_eq_true rfl, h]
  rfl

theorem decision_of_hit_lostSync {sess : Session} {c : Candidate} (hs : e.sync = .lostSync)
    (h : find e.view e.sess e.p false = .ok (sess, .hit c)) : e.decision = e.confirm sess c := by
  rw [Engine.decision, mfhc_minRemain, haveUpTo_arrived hl, hs, decide_eq_false nofun, h]
  rfl

end

/-- The look-ahead of a recovery confirmation: the candidate and the latched margin (R726). -/
abbrev lookAhead (e : Engine) (c : Candidate) : Nat := c.len + e.latch.margin.toNat

/-- What the strict trial after a candidate `c` decides, with the session it leaves (R726). -/
def confirmation (e : Engine) (c : Candidate) (sess : Session) : Found → Decision
  | .fatal code off => { verdict := .fatal code off, sess := sess, lost := false, resynced := false }
  | .notThis => e.noCandidate sess
  | .hit _ => { verdict := .accept c, sess := sess, lost := false, resynced := true }

theorem confirm_of_past_window {e : Engine} {c : Candidate} (sess : Session) (h : 8192 < lookAhead e c) :
    e.confirm sess c = .ok (e.noCandidate sess) := if_pos h

section

variable {e : Engine} {c : Candidate} (h : lookAhead e c ≤ 8192)

include h

theorem confirm_of_cut (sess : Session) (hd : e.d < e.p + lookAhead e c) (he : e.eos = true) :
    e.confirm sess c = .ok (e.noCandidate sess) := by
  rw [lookAhead, ← Nat.add_assoc] at hd
  rw [Engine.confirm, if_neg (Nat.not_lt.2 h), haveUpTo_not_arrived hd, he]
  rfl

theorem confirm_of_not_arrived (sess : Session) (hd : e.d < e.p + lookAhead e c) (he : e.eos = false) :
    e.confirm sess c = .error (e.p + lookAhead e c) := by
  rw [lookAhead, ← Nat.add_assoc] at hd ⊢
  rw [Engine.confirm, if_neg (Nat.not_lt.2 h), haveUpTo_not_arrived hd, he]
  rfl

/-- With the look-ahead there, the strict trial after the candidate decides. -/
theorem confirm_of_arrived {s1 s2 : Session} {r : Found} (hd : e.p + lookAhead e c ≤ e.d)
    (hf : find e.view s1 (e.p + c.len) true = .ok (s2, r)) :
    e.confirm s1 c = .ok (confirmation e c s2 r) := by
  rw [lookAhead, ← Nat.add_assoc] at hd
  rw [Engine.confirm, if_neg (Nat.not_lt.2 h), haveUpTo_arrived hd, hf]
  cases r <;> rfl

end

/-! ### Decisions and later delivery (R703, R704, R750) -/

/-- The engine after more of the stream, or its end, has been delivered. -/
def delivered (e : Engine) (more : List Byte) (eos : Bool) : Engine := { e with stream := e.stream ++ more, eos := eos }

section

variable {e : Engine} (he : e.eos = false) (more : List Byte) (eos : Bool)

include he

theorem view_delivered : e.view.Extends (delivered e more eos).view := View.Extends.arrived e.view he more eos

/-- An answer of `HAVE` before the end of the stream is seen says that the bytes are there, which they stay. -/
theorem haveUpTo_delivered {n : Nat} {b : Bool} (h : haveUpTo e.view n = .ok b) :
    b = true ∧ haveUpTo (delivered e more eos).view n = .ok true := by
  rcases haveUpTo_eq_ok h with ⟨rfl, hl⟩ | ⟨-, -, heos⟩
  · refine ⟨rfl, haveUpTo_arrived ?_⟩
    change n ≤ (e.stream ++ more).length
    rw [List.length_append]
    exact Nat.le_add_right_of_le hl
  · cases he.symm.trans heos

theorem find_delivered {sess : Session} {q : Nat} {strict : Bool} {r : Session × Found}
    (h : find e.view sess q strict = .ok r) : find (delivered e more eos).view sess q strict = .ok r :=
  (find_sound (view_delivered he more eos) sess q strict).ok r h

theorem confirm_delivered {sess : Session} {c : Candidate} {d : Decision} (h : e.confirm sess c = .ok d) :
    (delivered e more eos).confirm sess c = .ok d := by
  unfold Engine.confirm at h ⊢
  split at h
  · next hpast => exact (if_pos hpast).trans h
  · next hfits =>
    obtain ⟨b, hb, h⟩ := Look.bind_eq_ok.1 h
    obtain ⟨rfl, hb'⟩ := haveUpTo_delivered he more eos hb
    obtain ⟨r, hr, h⟩ := Look.bind_eq_ok.1 h
    exact (if_neg hfits).trans (Look.bind_eq_ok.2 ⟨true, hb', Look.bind_eq_ok.2 ⟨r, find_delivered he more eos hr, h⟩⟩)

theorem decision_delivered {d : Decision} (h : e.decision = .ok d) : (delivered e more eos).decision = .ok d := by
  unfold Engine.decision at h
  obtain ⟨b, hb, h⟩ := Look.bind_eq_ok.1 h
  obtain ⟨rfl, hb'⟩ := haveUpTo_delivered he more eos hb
  obtain ⟨⟨s1, r⟩, hr, h⟩ := Look.bind_eq_ok.1 h
  refine Look.bind_eq_ok.2 ⟨true, hb', Look.bind_eq_ok.2 ⟨(s1, r), find_delivered he more eos hr, ?_⟩⟩
  cases r with
  | fatal code off => exact h
  | notThis => exact h
  | hit c =>
    have hsync : (delivered e more eos).sync = e.sync := rfl
    simp only [hsync]
    cases hs : e.sync with
    | inSync => simpa only [hs] using h
    | lostSync => exact confirm_delivered he more eos (by simpa only [hs] using h)

end

/-- A detection that waits for the bytes up to `n`, whatever has been delivered since (R703; log entry 17). -/
theorem waiting_delivered (e : Engine) (n : Nat) (more : List Byte) (eos : Bool) :
    let later : Engine := { delivered e more eos with work := .detect n }
    (e.d + more.length < n → eos = false → later.stallIn = true ∧ later.move = (later, 0))
      ∧ (n ≤ e.d + more.length ∨ eos = true → later.stallIn = false ∧ later.Detects) := by
  intro later
  have hstall : later.stallIn = (!eos && decide (e.d + more.length < n)) := by
    change (!eos && decide ((e.stream ++ more).length < n)) = _
    rw [List.length_append]
    rfl
  refine ⟨fun hn he => ?waits, fun h => ?goesOn⟩
  case waits =>
    have hs : later.stallIn = true := by rw [hstall, he, decide_eq_true hn]; rfl
    exact ⟨hs, if_pos hs⟩
  case goesOn =>
    have hs : later.stallIn = false := by
      rw [hstall]
      rcases h with h | h
      · rw [decide_eq_false (Nat.not_lt.2 h), Bool.and_false]
      · rw [h]; rfl
    exact ⟨hs, .inr ⟨n, rfl, hs⟩⟩

/-- Settles O49: an answer of each lookup stays, and a lookup without one names bytes that can still arrive. -/
theorem decisionIgnoresLaterDelivery : Obligations.DecisionIgnoresLaterDelivery := by
  unfold Obligations.DecisionIgnoresLaterDelivery
  refine ⟨fun e d more eos he h => decision_delivered he more eos h,
    fun e => ⟨fun hd he => ?minRemain, fun n hl h => decision_of_find_waits hl h⟩, fun e n hdet h => ?waits⟩
  case minRemain =>
    rw [Engine.decision, mfhc_minRemain, haveUpTo_not_arrived hd, he]
    rfl
  case waits =>
    obtain ⟨he, hlt, hle⟩ := Engine.decision_error mfhc_constraints.2 h
    obtain ⟨hstays, -⟩ := waiting_delivered e n [] false
    have hself : ({ delivered e [] false with work := .detect n } : Engine) = { e with work := .detect n } := by
      rw [delivered, List.append_nil, ← he]
    rw [hself] at hstays
    exact ⟨he, hlt, hle, move_of_wait hdet h, (hstays hlt rfl).1, waiting_delivered e n⟩

/-! ### A fatal result of the detector (42_detector.md R603, R621) -/

theorem tryRiffChunk_fatal {v : View} {q : Nat} {code : ErrCode} {off : Nat}
    (h : tryRiffChunk v q = .ok (.fatal code off)) : code = .unsupportedFormat ∧ off = q := by
  obtain ⟨r, hfmt, h⟩ := Look.bind_eq_ok.1 h
  split at h
  · cases h
  · -- the `fmt ` chunk of another format
    cases h
    obtain ⟨b, -, hfmt⟩ := Look.bind_eq_ok.1 hfmt
    split at hfmt
    · obtain ⟨bs, -, hfmt⟩ := Look.bind_eq_ok.1 hfmt
      split at hfmt
      · cases hfmt
      · split at hfmt
        · cases hfmt; exact ⟨rfl, rfl⟩
        · cases hfmt
    · cases hfmt
  · obtain ⟨r, hfact, h⟩ := Look.bind_eq_ok.1 h
    split at h
    · cases h
    · cases h
      obtain ⟨b, -, hfact⟩ := Look.bind_eq_ok.1 hfact
      split at hfact
      · obtain ⟨bs, -, hfact⟩ := Look.bind_eq_ok.1 hfact
        split at hfact <;> cases hfact
      · cases hfact
    · obtain ⟨b, -, h⟩ := Look.bind_eq_ok.1 h
      split at h <;> cases h

/-- Only the `fmt ` chunk of another format is fatal, at the position of the trial. -/
theorem find_fatal {v : View} {sess sess' : Session} {q : Nat} {strict : Bool} {code : ErrCode} {off : Nat}
    (h : find v sess q strict = .ok (sess', .fatal code off)) : code = .unsupportedFormat ∧ off = q := by
  obtain ⟨r, -, h⟩ := Look.bind_eq_ok.1 h
  split at h
  · cases h
  · obtain ⟨r, -, h⟩ := Look.bind_eq_ok.1 h
    split at h
    · cases h
    · obtain ⟨r, hriff, h⟩ := Look.bind_eq_ok.1 h
      split at h
      · cases h
      · cases h
        obtain ⟨b, -, hriff⟩ := Look.bind_eq_ok.1 hriff
        split at hriff
        · cases hriff
        · split at hriff
          · obtain ⟨r, hchunk, hriff⟩ := Look.bind_eq_ok.1 hriff
            cases hriff
            exact tryRiffChunk_fatal hchunk
          · cases hriff
      · obtain ⟨r, -, h⟩ := Look.bind_eq_ok.1 h
        split at h
        · cases h
        · obtain ⟨r, -, h⟩ := Look.bind_eq_ok.1 h
          split at h <;> cases h

/-! ### What a decision leaves (R720, R728, R735) -/

/-- The engine after a step that discards the byte at `P` (R728), which leaves no synchronisation. -/
def discarded (e : Engine) (sess : Session) : Engine :=
  { e with
    sess := sess
    sync := .lostSync
    pos := e.pos + 1
    cnt :=
      { e.cnt with
        lostSync := if e.sync = .inSync then e.cnt.lostSync + 1 else e.cnt.lostSync
        discard := e.cnt.discard + 1 }
    run := if e.run = .step ∧ e.resumeReq = false ∨ e.pauseReq = true then .paused else .run
    pauseReq := false
    resumeReq := false
    work := .between }

/-- The engine after a step that ends the session with INVALID_DATA at `P` (R728; log entry 26). -/
def invalidated (e : Engine) (sess : Session) : Engine :=
  { e with
    sess := sess
    sync := .lostSync
    cnt := { e.cnt with lostSync := if e.sync = .inSync then e.cnt.lostSync + 1 else e.cnt.lostSync }
    err := some .invalidData
    errOff := e.pos
    run := .error
    pauseReq := false
    resumeReq := false
    work := .between }

/-- The engine after a step that a fatal result of the detector ends (R720, R810). -/
def ended (e : Engine) (sess : Session) (code : ErrCode) (off : Nat) : Engine :=
  { e with
    sess := sess
    err := some code
    errOff := BitVec.ofNat 64 off
    run := .error
    pauseReq := false
    resumeReq := false
    work := .between }

theorem ofNat_p (e : Engine) : BitVec.ofNat 64 e.p = e.pos := (BitVec.ofNat_toNat _ _).trans (BitVec.setWidth_eq _)

theorem act_noCandidate_of_skip {e : Engine} (sess : Session) (hr : e.RunOk) (h : e.run = .run ∨ e.run = .step)
    (hskip : e.latch.cfg.getLsbD 0 = true) :
    e.act (e.noCandidate sess) = (discarded e sess, if e.sync = .inSync then 0x20 else 0) := by
  simp only [Engine.act, Engine.noCandidate, LatchedCfg.skip_eq, hskip, if_true]
  rw [Engine.boundary_of_step hr h]
  · cases hs : e.sync <;> simp [discarded, irqIf, irqLostSync, hs]
  all_goals rfl

theorem act_noCandidate_of_not_skip {e : Engine} (sess : Session) (hskip : e.latch.cfg.getLsbD 0 = false) :
    e.act (e.noCandidate sess) = (invalidated e sess, if e.sync = .inSync then 0x30 else 0x10) := by
  simp only [Engine.act, Engine.noCandidate, LatchedCfg.skip_eq, hskip, Bool.false_eq_true, if_false, Engine.fatal]
  rw [ofNat_p]
  cases hs : e.sync <;> simp [invalidated, Engine.settle, irqIf, irqLostSync, irqEngErr, hs]

theorem act_fatal (e : Engine) (sess : Session) (code : ErrCode) (off : Nat) :
    e.act { verdict := .fatal code off, sess := sess, lost := false, resynced := false } = (ended e sess code off, 0x10) := by
  simp [Engine.act, Engine.settle, Engine.fatal, ended, irqIf, irqEngErr]

theorem act_accept (e : Engine) (sess : Session) (c : Candidate) (resynced : Bool) :
    e.act { verdict := .accept c, sess := sess, lost := false, resynced := resynced }
      = ({ e with
           work := if e.latch.emits c.kind then .emit { cand := c, sess := sess, resynced := resynced } 0
             else .drop { cand := c, sess := sess, resynced := resynced } }, 0) := by
  simp only [Engine.act]
  split <;> rfl

/-- Settles O50: the no-candidate decision, discarding or ending the session as `SKIP_INVALID` says. -/
theorem garbageByteIsDiscarded : Obligations.GarbageByteIsDiscarded := by
  unfold Obligations.GarbageByteIsDiscarded
  intro e sess hdet hr hl hf
  have hmove := move_of_decision hdet (decision_of_notThis hl hf)
  exact ⟨fun hskip => hmove.trans (act_noCandidate_of_skip sess hr (stepping_of_detects hr hdet).run hskip),
    fun hskip => hmove.trans (act_noCandidate_of_not_skip sess hskip)⟩

/-- Settles O51: a fatal decision ends the session, an accepting one begins the output or the drop. -/
theorem fatalEndsAndInSyncCandidateIsAccepted : Obligations.FatalEndsAndInSyncCandidateIsAccepted := by
  unfold Obligations.FatalEndsAndInSyncCandidateIsAccepted
  refine ⟨fun e sess code off hdet hl hf => ⟨?fatal, find_fatal hf⟩, fun e sess c hdet hs hl hf => ?accept⟩
  case fatal => rw [move_of_decision hdet (decision_of_fatal hl hf), act_fatal]; rfl
  case accept =>
    intro a emitted
    have hemits : emitted = e.latch.emits c.kind := by
      dsimp only [emitted]
      cases c.kind <;> rfl
    rw [hemits, move_of_decision hdet (decision_of_hit_inSync hl hs hf), act_accept]

/-! ### Recovery confirmation (R726) -/

/-- Without synchronisation there is none to lose: the no-candidate path keeps `SYNC` and its counter. -/
theorem act_noCandidate_of_lostSync {e : Engine} (sess : Session) (hr : e.RunOk) (h : e.run = .run ∨ e.run = .step)
    (hs : e.sync = .lostSync) :
    e.act (e.noCandidate sess)
      = if e.latch.cfg.getLsbD 0 then
          ({ e with
             sess := sess
             pos := e.pos + 1
             cnt := { e.cnt with discard := e.cnt.discard + 1 }
             run := if e.run = .step ∧ e.resumeReq = false ∨ e.pauseReq = true then .paused else .run
             pauseReq := false
             resumeReq := false
             work := .between }, 0)
        else
          ({ e with
             sess := sess
             err := some .invalidData
             errOff := e.pos
             run := .error
             pauseReq := false
             resumeReq := false
             work := .between }, 0x10) := by
  cases hskip : e.latch.cfg.getLsbD 0 with
  | true => rw [act_noCandidate_of_skip sess hr h hskip, discarded, hs]; rfl
  | false => rw [act_noCandidate_of_not_skip sess hskip, invalidated, hs]; rfl

/-- A decision that accepts in LostSync was confirmed. -/
theorem confirmed_of_accept {e : Engine} {d : Decision} {c : Candidate} (hs : e.sync = .lostSync) (h : e.decision = .ok d)
    (hv : d.verdict = .accept c) :
    d.resynced = true ∧ d.lost = false ∧ lookAhead e c ≤ 8192 ∧ e.p + c.len + e.latch.margin.toNat ≤ e.d
      ∧ ∃ s1 c', find e.view e.sess e.p false = .ok (s1, .hit c)
        ∧ find e.view s1 (e.p + c.len) true = .ok (d.sess, .hit c') := by
  rcases Engine.decision_cases h with ⟨-, -, rfl⟩ | ⟨-, ⟨s1, code, off, -, rfl⟩ | ⟨s1, rfl⟩ | ⟨s1, c', hs', -⟩
    | ⟨s1, c', -, hf, hfits, hl, s2, ⟨code, off, -, rfl⟩ | ⟨c'', hf', rfl⟩⟩⟩
  · dsimp only at hv
    split at hv <;> cases hv
  · cases hv
  · simp only [Engine.noCandidate] at hv
    split at hv <;> cases hv
  · cases hs.symm.trans hs'
  · cases hv
  · cases hv
    exact ⟨rfl, rfl, hfits, hl, s1, c'', hf, hf'⟩

/-- Settles O52: an accepting decision was confirmed, and a candidate is treated as its look-ahead and the strict trial after
it say. -/
theorem lostSyncNeedsConfirmation : Obligations.LostSyncNeedsConfirmation := by
  unfold Obligations.LostSyncNeedsConfirmation
  refine ⟨fun e d c hs h hv => confirmed_of_accept hs h hv, fun e s1 c hs hdet hr hl hf => ?_⟩
  intro look noCandidate
  have hdec := decision_of_hit_lostSync hl hs hf
  have hno : ∀ sess, e.confirm s1 c = .ok (e.noCandidate sess) → e.move = noCandidate sess := fun sess h =>
    (move_of_decision hdet (hdec.trans h)).trans (act_noCandidate_of_lostSync sess hr (stepping_of_detects hr hdet).run hs)
  refine ⟨fun hpast => hno _ (confirm_of_past_window s1 hpast), fun hfits hd he => hno _ (confirm_of_cut hfits s1 hd he),
    fun hfits hd he => ?waits,
    fun hfits hd => ⟨fun s2 h => hno _ (confirm_of_arrived hfits hd h), fun s2 code off h => ⟨?fatal, find_fatal h⟩,
      fun s2 c' h => ?accept⟩⟩
  case waits =>
    have hmove := move_of_wait hdet (hdec.trans (confirm_of_not_arrived hfits s1 hd he))
    refine ⟨hmove, ?_⟩
    rw [hmove]
    change (!e.eos && decide (e.d < e.p + lookAhead e c)) = true
    rw [he, decide_eq_true hd]
    rfl
  case fatal => rw [move_of_decision hdet (hdec.trans (confirm_of_arrived hfits hd h)), confirmation, act_fatal]; rfl
  case accept => rw [move_of_decision hdet (hdec.trans (confirm_of_arrived hfits hd h)), confirmation, act_accept]

end Sys2Proof.Proofs.Detection

/-! PROOFS. The ends of a step (43_engine.md section 4): a frame consumed, the end of the stream, and the progress every
completed step makes (O54, O56 to O58). -/

namespace Sys2Proof.Proofs.StepEnds

open Sys2Proof.Machine Sys2Proof.Proofs.Invariant Sys2Proof.Proofs.StatusRegisters Sys2Proof.Proofs.Ports
open Sys2Proof.Proofs.Detection
open Sys2Proof.Model hiding State CmdUnit HdrState HdrInfo Engine Counters Record Reg View

/-! ### A frame is consumed (R730, R733, R735) -/

theorem accepted_of_not_mpeg {sess : Session} {c : Candidate} (h : c.kind.isMpeg = false) : sess.accepted c = sess := by
  simp only [Session.accepted, h]

theorem accepted_of_mpeg {sess : Session} {c : Candidate} {d : HdrInfo} (h : c.kind.isMpeg = true)
    (hd : HdrInfo.ofWord c.hdr = some d) :
    sess.accepted c = { sess with expVersion := some d.version, expLayer := some d.layer } := by
  simp only [Session.accepted, h, hd]

/-- The counters after a step that regained synchronisation, or did not (R735). -/
def resyncCounted (e : Engine) (a : Accepted) : Counters :=
  { e.cnt with resync := if a.resynced then e.cnt.resync + 1 else e.cnt.resync }

/-- The engine after a step that consumed a frame, with the FIFO and the counters it leaves. -/
def afterFrame (e : Engine) (a : Accepted) (fifo : List Record) (cnt : Counters) : Engine :=
  { e with
    fifo := fifo
    pos := e.pos + BitVec.ofNat 64 a.cand.len
    sess := a.sess.accepted a.cand
    sync := if a.resynced then .inSync else e.sync
    cnt := cnt
    run := if e.run = .step ∧ e.resumeReq = false ∨ e.pauseReq = true then .paused else .run
    pauseReq := false
    resumeReq := false
    work := .between }

section

variable {e : Engine} (a : Accepted) (hr : e.RunOk) (h : e.run = .run ∨ e.run = .step)

include hr h

theorem commitEmitted_eq :
    e.commitEmitted a
      = (afterFrame e a (e.fifo ++ [e.record a.cand]) { resyncCounted e a with frames := e.cnt.frames + 1 },
          if a.resynced then 0x44 else 0x04) := by
  simp only [Engine.commitEmitted]
  rw [Engine.boundary_of_step hr h]
  · cases ha : a.resynced <;> simp [afterFrame, resyncCounted, irqIf, irqRecPush, irqResync, ha]
  all_goals rfl

theorem commitSuppressed_eq :
    e.commitSuppressed a
      = (afterFrame e a e.fifo { resyncCounted e a with suppressed := e.cnt.suppressed + 1 },
          if a.resynced then 0x40 else 0) := by
  simp only [Engine.commitSuppressed]
  rw [Engine.boundary_of_step hr h]
  · cases ha : a.resynced <;> simp [afterFrame, resyncCounted, irqIf, irqResync, ha]
  all_goals rfl

end

theorem move_of_push {e : Engine} {a : Accepted} (hw : e.work = .push a) (hf : e.fifo.length < 16) :
    e.move = e.commitEmitted a := by
  simp only [Engine.move, hw]
  exact if_pos hf

theorem move_of_push_full {e : Engine} {a : Accepted} (hw : e.work = .push a) (hf : 16 ≤ e.fifo.length) :
    e.move = (e, 0) ∧ e.stallOut = true := by
  simp only [Engine.move, Engine.stallOut, hw]
  exact ⟨if_neg (Nat.not_lt.2 hf), decide_eq_true hf⟩

/-- Settles O54: the frame is consumed once the FIFO has room. -/
theorem recordIsPushedWhenFifoHasRoom : Obligations.RecordIsPushedWhenFifoHasRoom := by
  unfold Obligations.RecordIsPushedWhenFifoHasRoom
  intro e a hw hr
  refine ⟨move_of_push_full hw, fun hf => ?_⟩
  have hstep := stepping_of_work hr (by rw [hw]; nofun)
  rw [(move_of_push hw hf).trans (commitEmitted_eq a hr hstep.run)]
  exact ⟨rfl, accepted_of_not_mpeg, fun d => accepted_of_mpeg⟩

theorem move_of_drop_arrived {e : Engine} {a : Accepted} (hw : e.work = .drop a) (hl : e.p + a.cand.len ≤ e.d) :
    e.move = e.commitSuppressed a := by
  simp only [Engine.move, hw, if_pos hl]

theorem move_of_drop_waiting {e : Engine} {a : Accepted} (hw : e.work = .drop a) (hl : e.d < e.p + a.cand.len)
    (he : e.eos = false) : e.move = (e, 0) ∧ e.stallIn = true := by
  simp [Engine.move, Engine.stallIn, hw, he, hl]

/-- Settles O56: the frame is consumed once its bytes have arrived, and nothing of it is offered. -/
theorem suppressedFrameIsDropped : Obligations.SuppressedFrameIsDropped := by
  unfold Obligations.SuppressedFrameIsDropped
  intro e a hw ho hr
  refine ⟨by simp [Engine.offer, ho, hw], move_of_drop_waiting hw, fun hl => ?_⟩
  have hstep := stepping_of_work hr (by rw [hw]; nofun)
  rw [(move_of_drop_arrived hw hl).trans (commitSuppressed_eq a hr hstep.run)]
  exact ⟨rfl, accepted_of_not_mpeg, fun d => accepted_of_mpeg⟩

/-! ### The end of the stream (R720, R722, R730) -/

theorem decision_at_end {e : Engine} (he : e.eos = true) (hd : e.d < e.p + 5) :
    e.decision = .ok
      { verdict := if e.d > e.p ∧ e.latch.skip = false then .fatal .invalidData e.p else .finish
        sess := e.sess, lost := false, resynced := false } := by
  rw [Engine.decision, mfhc_minRemain, haveUpTo_not_arrived hd, he]
  rfl

theorem act_finish (e : Engine) :
    e.act { verdict := .finish, sess := e.sess, lost := false, resynced := false } = (e.finish, 0x08) := rfl

theorem truncated_of_skip {e : Engine} (a : Accepted) (h : e.latch.cfg.getLsbD 0 = true) :
    e.truncated a = ((e.settle a.sess false a.resynced).finish, if a.resynced then 0x48 else 0x08) := by
  simp only [Engine.truncated, LatchedCfg.skip_eq, h, if_true]
  cases a.resynced <;> rfl

theorem truncated_of_not_skip {e : Engine} (a : Accepted) (h : e.latch.cfg.getLsbD 0 = false) :
    e.truncated a = ((e.settle a.sess false a.resynced).fatal .endOfStream e.p, if a.resynced then 0x50 else 0x10) := by
  simp only [Engine.truncated, LatchedCfg.skip_eq, h, Bool.false_eq_true, if_false]
  cases a.resynced <;> rfl

theorem move_of_truncated {e : Engine} {a : Accepted} (he : e.eos = true) (hl : e.d < e.p + a.cand.len)
    (hw : e.work = .drop a ∨ e.work = .closed a) : e.move = e.truncated a := by
  rcases hw with hw | hw
  · simp only [Engine.move, hw, if_neg (Nat.not_le.2 hl), he, if_true]
  · simp only [Engine.move, hw]

/-- Settles O57: too few bytes decide the end of the session, and a frame past the end is closed and ends it. -/
theorem endOfStreamEndsSession : Obligations.EndOfStreamEndsSession := by
  unfold Obligations.EndOfStreamEndsSession
  refine ⟨fun e hdet he hp hd => ?few, fun e a he ho hl => ⟨fun sent hw hsent => ?closes, fun hw => ?past⟩⟩
  case few =>
    have hmove := move_of_decision hdet (decision_at_end he hd)
    refine ⟨fun h => ?_, fun hlt hskip => ?_⟩
    · have hno : ¬(e.d > e.p ∧ e.latch.skip = false) := by
        rintro ⟨hgt, hs⟩
        rcases h with h | h
        · omega
        · cases h.symm.trans hs
      rw [hmove, if_neg hno, act_finish]
      rfl
    · rw [hmove, if_pos ⟨hlt, hskip⟩, act_fatal, ended, ofNat_p]
  case closes =>
    have hlt : sent < a.cand.len := by omega
    exact ⟨by rw [offer_of_not_arrived hw ho hlt hsent.ge, he]; rfl, taken_of_cut hw ho hlt hsent.ge he⟩
  case past =>
    intro sync cnt
    rw [move_of_truncated he hl hw]
    refine ⟨fun hskip => truncated_of_skip a hskip, fun hskip => (truncated_of_not_skip a hskip).trans ?_⟩
    rw [Engine.fatal, ofNat_p]
    rfl

/-! ### Progress (R710, R712, R713, R751) -/

/-- What a completed step leaves: the session ended, or `P` further on and the run state of R712 and R713; no request. -/
def Progress (e e' : Engine) : Prop :=
  (e'.run = .done ∨ e'.run = .error
    ∨ (e'.run = (if e.run = .step ∧ e.resumeReq = false ∨ e.pauseReq = true then .paused else .run)
      ∧ ((e'.p = e.p + 1 ∧ e'.cnt.discard = e.cnt.discard + 1)
        ∨ (e.p + 8 ≤ e'.p ∧ e'.p ≤ e.d
            ∧ (e'.cnt.frames = e.cnt.frames + 1 ∨ e'.cnt.suppressed = e.cnt.suppressed + 1)))))
    ∧ e'.pauseReq = false ∧ e'.resumeReq = false

theorem progress_of_done {e e' : Engine} (h : e'.run = .done ∨ e'.run = .error) (hp : e'.pauseReq = false)
    (hq : e'.resumeReq = false) : Progress e e' :=
  ⟨h.elim .inl fun h => .inr (.inl h), hp, hq⟩

/-- A frame of at least 8 bytes that has arrived is behind `P` once it is consumed. -/
theorem progress_afterFrame {e : Engine} {a : Accepted} {fifo : List Record} {cnt : Counters} (hlen : 8 ≤ a.cand.len)
    (hl : e.p + a.cand.len ≤ e.d) (hd : e.d < 2 ^ 64)
    (hcnt : cnt.frames = e.cnt.frames + 1 ∨ cnt.suppressed = e.cnt.suppressed + 1) :
    Progress e (afterFrame e a fifo cnt) := by
  have hp : (afterFrame e a fifo cnt).p = e.p + a.cand.len := pos_advance hl hd
  refine ⟨.inr (.inr ⟨rfl, .inr ?_⟩), rfl, rfl⟩
  rw [hp]
  exact ⟨Nat.add_le_add_left hlen _, hl, hcnt⟩

/-- A detection that completes the step accepted nothing: it ended the session or discarded a byte. -/
theorem progress_of_detects {e : Engine} (hr : e.RunOk) (hd : e.d < 2 ^ 64) (hdet : e.Detects)
    (hw : e.move.1.work = .between) : Progress e e.move.1 := by
  cases hdec : e.decision with
  | error n =>
    rw [move_of_wait hdet hdec] at hw
    cases hw
  | ok d =>
    rw [move_of_decision hdet hdec] at hw ⊢
    obtain ⟨hl, -⟩ := decision_facts hdec
    unfold Engine.act at hw ⊢
    split at hw
    · exact progress_of_done (.inl rfl) rfl rfl
    · exact progress_of_done (.inr rfl) rfl rfl
    · next hv =>
      have hp : (e.pos + 1).toNat = e.p + 1 := pos_advance (n := 1) (by have := hl hv; change e.p + 1 ≤ e.d; omega) hd
      dsimp only
      rw [Engine.boundary_of_step hr (stepping_of_detects hr hdet).run]
      · exact ⟨.inr (.inr ⟨rfl, .inl ⟨hp, rfl⟩⟩), rfl, rfl⟩
      all_goals rfl
    · dsimp only at hw
      split at hw <;> cases hw

theorem progress_truncated (e : Engine) (a : Accepted) : Progress e (e.truncated a).1 := by
  cases hskip : e.latch.cfg.getLsbD 0 with
  | true => rw [truncated_of_skip a hskip]; exact progress_of_done (.inl rfl) rfl rfl
  | false => rw [truncated_of_not_skip a hskip]; exact progress_of_done (.inr rfl) rfl rfl

/-- The step in progress of an engine that does not detect completes by consuming its frame or by ending the session. -/
theorem progress_of_not_detects {e : Engine} (he : e.Ok) (hd : e.d < 2 ^ 64) (hw : e.work ≠ .between) (hdet : ¬e.Detects)
    (hw' : e.move.1.work = .between) : Progress e e.move.1 := by
  have hrun := (stepping_of_work he.2.1 hw).run
  obtain ⟨-, hwork, -⟩ := he.2.2 hd
  rcases e.move_cases with hm | ⟨hb, -⟩ | ⟨h, -⟩ | ⟨h, -⟩ | ⟨a, ha, hf, hm⟩ | ⟨a, ha, hl, hm⟩ | ⟨a, -, hm⟩
  · rw [hm] at hw'; exact absurd hw' hw
  · exact absurd hb hw
  · exact absurd h hdet
  · exact absurd h hdet
  · simp only [Engine.WorkOk, ha] at hwork
    obtain ⟨hc, -, hl⟩ := hwork
    rw [hm, commitEmitted_eq a he.2.1 hrun]
    exact progress_afterFrame hc.1 hl hd (.inl rfl)
  · simp only [Engine.WorkOk, ha] at hwork
    rw [hm, commitSuppressed_eq a he.2.1 hrun]
    exact progress_afterFrame hwork.1.1 hl hd (.inr rfl)
  · rw [hm]; exact progress_truncated e a

/-- Settles O58: a step completes in its detection, or with its frame. -/
theorem everyStepMakesProgress : Obligations.EveryStepMakesProgress := by
  unfold Obligations.EveryStepMakesProgress
  intro e he hd hstep hw
  by_cases hdet : e.Detects
  · exact progress_of_detects he.2.1 hd hdet hw
  · exact progress_of_not_detects he hd (hstep.resolve_right hdet) hdet hw

end Sys2Proof.Proofs.StepEnds

/-! PROOFS. The run state (43_engine.md section 2): what a step of the machine can make of it, and what a command leaves of a
step in progress (O42). -/

namespace Sys2Proof.Proofs.RunStates

open Sys2Proof.Machine Sys2Proof.Proofs.Scope Sys2Proof.Proofs.Commands Sys2Proof.Proofs.EngineChanges
open Sys2Proof.Proofs.Invariant Sys2Proof.Proofs.EngineCommands Sys2Proof.Proofs.StepEnds
open Sys2Proof.Model hiding State CmdUnit HdrState HdrInfo Engine Counters Record Reg View

/-! ### The table of R710 -/

/-- Where a move of a step in progress can lead from RUN and STEP. -/
theorem mayGo_of_step {r r' : RunState} (h : r = .run ∨ r = .step) (h' : r' = .run ∨ r' = .paused ∨ r' = .done ∨ r' = .error) :
    r' = r ∨ RunStateMayGo r r' := by
  rcases h with rfl | rfl <;> rcases h' with rfl | rfl | rfl | rfl <;> simp [RunStateMayGo]

theorem run_boundary {e : Engine} (h : e.run = .run ∨ e.run = .step) : e.boundary.run = .run ∨ e.boundary.run = .paused := by
  rcases e.boundary_cases with ⟨hr, -, hb⟩ | ⟨-, -, hb⟩ | ⟨-, -, hb⟩ | ⟨-, -, hb⟩ | ⟨hr, hs, -⟩
  · rw [hb]; exact .inl hr
  · rw [hb]; exact .inr rfl
  · rw [hb]; exact .inr rfl
  · rw [hb]; exact .inl rfl
  · exact (h.elim hr hs).elim

theorem mayGo_boundary {e e' : Engine} (h : e.run = .run ∨ e.run = .step) (h' : e'.run = e.run) :
    e'.boundary.run = e.run ∨ RunStateMayGo e.run e'.boundary.run :=
  mayGo_of_step h ((run_boundary (h'.symm ▸ h)).imp_right .inl)

theorem run_act (e : Engine) (d : Decision) (h : e.run = .run ∨ e.run = .step) :
    (e.act d).1.run = e.run ∨ RunStateMayGo e.run (e.act d).1.run := by
  unfold Engine.act
  split
  · exact mayGo_of_step h (.inr (.inr (.inl rfl)))
  · exact mayGo_of_step h (.inr (.inr (.inr rfl)))
  · exact mayGo_boundary h rfl
  · dsimp only; split <;> exact .inl rfl

theorem run_truncated (e : Engine) (a : Accepted) (h : e.run = .run ∨ e.run = .step) :
    (e.truncated a).1.run = e.run ∨ RunStateMayGo e.run (e.truncated a).1.run := by
  simp only [Engine.truncated]
  split
  · exact mayGo_of_step h (.inr (.inr (.inl rfl)))
  · exact mayGo_of_step h (.inr (.inr (.inr rfl)))

theorem run_move {e : Engine} (hr : e.RunOk) : e.move.1.run = e.run ∨ RunStateMayGo e.run e.move.1.run := by
  rcases e.move_cases with hm | ⟨-, h, -, hm⟩ | ⟨-, n, -, hm⟩ | ⟨hdet, d, -, hm⟩ | ⟨a, ha, -, hm⟩ | ⟨a, ha, -, hm⟩
    | ⟨a, ha, hm⟩ <;> rw [hm]
  · exact .inl rfl
  · exact mayGo_of_step (.inl h) (.inr (.inl rfl))
  · exact .inl rfl
  · exact run_act e d (stepping_of_detects hr hdet).run
  · exact mayGo_boundary (stepping_of_work hr (by rw [ha]; nofun)).run rfl
  · exact mayGo_boundary (stepping_of_work hr (by rw [ha]; nofun)).run rfl
  · refine run_truncated e a (stepping_of_work hr ?_).run
    rcases ha with ⟨ha, -, -⟩ | ha <;> rw [ha] <;> nofun

theorem run_taken (e : Engine) : e.taken.run = e.run := by
  rcases e.taken_cases with ⟨-, ht⟩ | ⟨-, ht | ⟨a, sent, -, -, ht⟩ | ⟨a, sent, -, -, -, ht⟩ | ⟨a, sent, -, -, -, -, ht⟩⟩
      <;> rw [ht]

theorem run_engineEffect {e e' : Engine} {poly init : Half} (h : EngineEffect poly init e e') :
    e'.run = e.run ∨ RunStateMayGo e.run e'.run := by
  cases h with
  | start hr =>
    rw [Engine.started_run]
    rcases inactive_iff.1 hr with h | h | h <;> rw [h] <;> exact .inr trivial
  | requestPause => exact .inl rfl
  | pauseNow hr => exact .inr (hr ▸ trivial)
  | resume hr => exact .inr (hr ▸ trivial)
  | resumeAtEnd => exact .inl rfl
  | resumeUnlooked hr => exact .inr (hr ▸ trivial)
  | dropPause => exact .inl rfl
  | singleStep hr => exact .inr (hr ▸ trivial)
  | abort =>
    rw [Engine.aborted_run]
    cases e.run with
    | idle => exact .inl rfl
    | _ => exact .inr trivial
  | popRecord => exact .inl rfl

theorem run_engineChange {e e' : Engine} (hr : e.RunOk) (h : EngineChange e e') :
    e'.run = e.run ∨ RunStateMayGo e.run e'.run ∨ e' = Engine.reset := by
  cases h with
  | move => exact (run_move hr).imp_right .inl
  | command poly init e' h => exact (run_engineEffect h).imp_right .inl
  | take => exact .inl (run_taken e)
  | reset => exact .inr (.inr rfl)
  | _ => exact .inl rfl

theorem move_of_no_step {e : Engine} (hw : e.work = .between) (hr : e.run ≠ .run) (hs : e.run ≠ .step) : e.move = (e, 0) := by
  simp only [Engine.move, hw]
  split
  · next h => exact absurd h hr
  · next h => exact absurd h hs
  all_goals rfl

/-! ### Commands during a step (R711, R712) -/

theorem eng_of_finishCommand {s t : State} {r : Except CmdError State} (h : finishCommand s r = .next t)
    (hr : ∀ u, r = .ok u → u.eng = s.eng) : t.eng = s.eng := by
  cases r with
  | ok u => cases h; exact hr u rfl
  | error e => cases h; rfl

theorem eng_of_writeRegion {s t : State} {off : Nat} {bs : List Byte} (h : writeRegion s off bs = .ok t) : t.eng = s.eng := by
  rcases writeRegion_cases s off bs with ⟨-, hw⟩ | ⟨-, hw⟩ <;> cases hw.symm.trans h
  rfl

/-- The codec and header commands do not reach the engine (60_exceptions.md R851). -/
theorem eng_of_exec {i : Instr} {s t : State} (hi : i.onEngine = false) (h : exec i s = .next t) : t.eng = s.eng := by
  cases i with
  | nop | fmtClear => cases h; rfl
  | fmtAppend | hdrUpdate | hdrCrcchk | crc16 =>
    refine eng_of_finishCommand h fun u hu => ?_
    split at hu <;> cases hu
    rfl
  | pack =>
    refine eng_of_finishCommand h fun u hu => ?_
    split at hu <;> cases hu
    next hw => exact (eng_of_writeRegion hw :)
  | unpack | hdrDecode =>
    refine eng_of_finishCommand h fun u hu => ?_
    split at hu
    · cases hu
    · split at hu <;> cases hu
      rfl
  | hdrEncode =>
    refine eng_of_finishCommand h fun u hu => ?_
    split at hu
    · cases hu
    · split at hu
      · cases hu
      · split at hu <;> cases hu
        next hw => exact (eng_of_writeRegion hw :)
  | hdrSetf =>
    refine eng_of_finishCommand h fun u hu => ?_
    split at hu
    · cases hu
    · split at hu
      · cases hu
      · split at hu <;> cases hu
        rfl
  | _ => cases hi

/-- What an engine command other than ENG_ABORT leaves of a step in progress and of the run state. -/
def KeepsStep (i : Instr) (e e' : Engine) : Prop :=
  e'.work = e.work ∧ (e'.run = e.run ∨ (i = .engResume ∧ e.run = .step ∧ e.work = .detect 0 ∧ e'.run = .run))

theorem keepsStep_of_eq {i : Instr} {s t u : State} (hexec : exec i s = .next u) (h : exec i s = .next t)
    (hu : u.eng.work = s.eng.work ∧ u.eng.run = s.eng.run) : KeepsStep i s.eng t.eng := by
  cases hexec.symm.trans h
  exact ⟨hu.1, .inl hu.2⟩

theorem keepsStep_exec {i : Instr} {s t : State} (hr : s.eng.RunOk) (hw : s.eng.work ≠ .between) (hi : i ≠ .engAbort)
    (h : exec i s = .next t) : KeepsStep i s.eng t.eng := by
  have hrun := (stepping_of_work hr hw).run
  have hnotPaused : s.eng.run ≠ .paused := by rcases hrun with h | h <;> rw [h] <;> nofun
  cases i with
  | engStart =>
    exact keepsStep_of_eq (exec_engStart_of_active (active_of_stepping (stepping_of_work hr hw))) h ⟨rfl, rfl⟩
  | engPause =>
    rcases hrun with hrun | hrun
    · exact keepsStep_of_eq (exec_engPause_of_step_in_progress hrun hw) h ⟨rfl, rfl⟩
    · exact keepsStep_of_eq (exec_engPause_of_paused_or_step (.inr hrun)) h ⟨rfl, rfl⟩
  | engResume =>
    rcases hrun with hrun | hrun
    · exact keepsStep_of_eq (exec_engResume_of_run hrun) h ⟨rfl, rfl⟩
    · cases hu : s.eng.work.underway with
      | true => exact keepsStep_of_eq (exec_engResume_of_underway hrun hu) h ⟨rfl, rfl⟩
      | false =>
        cases (exec_engResume_of_unlooked hrun hu).symm.trans h
        exact ⟨rfl, .inr ⟨rfl, hrun, ((underway_eq_false_iff _).1 hu).resolve_left hw, rfl⟩⟩
  | engStep => exact keepsStep_of_eq (exec_engStep_of_not_paused hnotPaused) h ⟨rfl, rfl⟩
  | engAbort => exact absurd rfl hi
  | recPop =>
    cases hf : s.eng.fifo with
    | nil => exact keepsStep_of_eq (exec_recPop_of_nil hf) h ⟨rfl, rfl⟩
    | cons r rest => exact keepsStep_of_eq (exec_recPop_of_cons hf) h ⟨rfl, rfl⟩
  | _ =>
    have heng := eng_of_exec rfl h
    exact ⟨congrArg _ heng, .inl (congrArg _ heng)⟩

/-- Settles O42: what a step does to the engine changes the run state along the table, and neither an incomplete move nor a
command but ENG_ABORT disturbs a step in progress. -/
theorem runStateFollowsTable : Obligations.RunStateFollowsTable := by
  unfold Obligations.RunStateFollowsTable
  exact ⟨fun s t he h => run_engineChange he.2.1 (engineChange_step h),
    fun e => ⟨move_of_no_step, Engine.move_of_incomplete⟩, fun i s t => keepsStep_exec⟩

end Sys2Proof.Proofs.RunStates

/-! PROOFS. The record of an emitted frame (43_engine.md R731, R736, 42_detector.md R612): its fields from the candidate and the
frame's own bytes (O55). -/

namespace Sys2Proof.Proofs.Records

open Sys2Proof.Machine Sys2Proof.Proofs.HeaderCommands
open Sys2Proof.Model hiding State CmdUnit HdrState HdrInfo Engine Counters Record Reg View

/-! ### The bytes of the frame -/

/-- Byte `k` of the frame at `P`. -/
def frameByte (e : Engine) (k : Nat) : Byte := e.stream.getD (e.p + k) 0

/-- A slice of the frame's bytes that have arrived, byte by byte. -/
theorem drop_frameBytes {e : Engine} {t n : Nat} (h : e.p + (t + n) ≤ e.d) :
    (e.frameBytes (t + n)).drop t = (List.range n).map (fun j => frameByte e (t + j)) := by
  have hlen : ((e.frameBytes (t + n)).drop t).length = n := by
    simp only [Engine.frameBytes, List.length_drop, List.length_take]
    change e.p + (t + n) ≤ e.stream.length at h
    omega
  refine List.ext_getElem (by rw [hlen, List.length_map, List.length_range]) fun j hj _ => ?_
  rw [hlen] at hj
  have hat : e.p + (t + j) < e.stream.length := by
    change e.p + (t + n) ≤ e.stream.length at h
    omega
  simp [Engine.frameBytes, frameByte, hat]

/-- A big-endian word of the frame. -/
def frameWord (e : Engine) (t : Nat) : Word := frameByte e t ++ frameByte e (t + 1) ++ frameByte e (t + 2) ++ frameByte e (t + 3)

theorem xingField_eq {e : Engine} {flag : Bool} {t : Nat} (h : flag = true → e.p + (t + 4) ≤ e.d) :
    e.xingField flag t = if flag then frameWord e t else 0 := by
  cases flag with
  | false => rfl
  | true =>
    rw [Engine.xingField, drop_frameBytes (h rfl)]
    exact ofNat_beNat_four _ _ _ _

/-! ### The CRC status (R736) -/

theorem crcStatus_of_available (stored computed : Half) :
    crcStatus true true true stored computed = if computed = stored then .isMatch else .mismatch := by
  by_cases h : computed = stored
  · rw [if_pos h]
    exact if_pos h.symm
  · rw [if_neg h]
    exact if_neg (Ne.symm h)

theorem frameCrcStatus_eq {e : Engine} {d : HdrInfo} {len : Nat} (h : Word) (hl : e.p + len ≤ e.d) :
    e.frameCrcStatus d h len
      = if d.prot = false then .unprotected
        else if len < 6 + d.siLen then .incomplete
        else if crc16 e.latch.poly e.latch.init
              (h.extractLsb' 8 8 :: h.extractLsb' 0 8 :: (List.range d.siLen).map (fun j => frameByte e (6 + j)))
            = frameByte e 4 ++ frameByte e 5 then .isMatch
        else .mismatch := by
  unfold Engine.frameCrcStatus
  cases d.prot with
  | false => rfl
  | true =>
    simp only [Bool.not_true, Bool.false_eq_true, Bool.true_eq_false, if_false, gt_iff_lt]
    split
    · rfl
    · next hfits =>
      have hstored : (e.frameBytes 6).drop 4 = [frameByte e 4, frameByte e 5] := drop_frameBytes (t := 4) (n := 2) (by omega)
      rw [hstored, ofNat_beNat_two, drop_frameBytes (by omega), crcStatus_of_available]
      rfl

/-! ### The record -/

theorem record_crcStatus_of_not_mpeg (e : Engine) {c : Candidate} (h : c.kind.isMpeg = false) :
    (e.record c).crcStatus = .unprotected := by
  simp only [Engine.record, h]

theorem record_crcStatus_of_mpeg (e : Engine) {c : Candidate} {d : HdrInfo} (h : c.kind.isMpeg = true)
    (hd : HdrInfo.ofWord c.hdr = some d) : (e.record c).crcStatus = e.frameCrcStatus d c.hdr c.len := by
  simp only [Engine.record, h, hd]

theorem isMpeg_iff (k : FrameKind) : k.isMpeg = true ↔ k = .mpeg ∨ k = .xing := by
  cases k <;> simp [FrameKind.isMpeg]

/-- Each Xing field whose flag is set lies in the span of the tag (R611, R612). -/
theorem xingFields_in_span (t : Nat) (f : BitVec 4) :
    let a := t + 8
    let b := a + 4 * (f.getLsbD 0).toNat
    let q := b + 4 * (f.getLsbD 1).toNat + 100 * (f.getLsbD 2).toNat
    (f.getLsbD 0 = true → a + 4 ≤ t + xingSpan f) ∧ (f.getLsbD 1 = true → b + 4 ≤ t + xingSpan f)
      ∧ (f.getLsbD 3 = true → q + 4 ≤ t + xingSpan f) := by
  unfold xingSpan
  refine ⟨fun h => ?_, fun h => ?_, fun h => ?_⟩ <;> rw [h, Bool.toNat_true] <;> omega

/-- The fields of the record of a XING frame (R612). -/
theorem record_of_xing {e : Engine} {c : Candidate} (hc : c.Ok) (hl : e.p + c.len ≤ e.d) (hk : c.kind = .xing) :
    let r := e.record c
    let a := c.xtag + 8
    let b := a + 4 * (c.xflags.getLsbD 0).toNat
    let q := b + 4 * (c.xflags.getLsbD 1).toNat + 100 * (c.xflags.getLsbD 2).toNat
    r.xtagOff.toNat = c.xtag ∧ r.xframes = (if c.xflags.getLsbD 0 then frameWord e a else 0)
      ∧ r.xsize = (if c.xflags.getLsbD 1 then frameWord e b else 0)
      ∧ r.xqual = (if c.xflags.getLsbD 3 then frameWord e q else 0) := by
  obtain ⟨-, -, -, hxing, -⟩ := hc
  obtain ⟨htag, hspan⟩ := hxing hk
  obtain ⟨ha, hb, hq⟩ := xingFields_in_span c.xtag c.xflags
  have arrived : ∀ n, n ≤ c.xtag + xingSpan c.xflags → e.p + n ≤ e.d := fun n hn => by omega
  refine ⟨?_, xingField_eq fun h => arrived _ (ha h), xingField_eq fun h => arrived _ (hb h),
    xingField_eq fun h => arrived _ (hq h)⟩
  change (BitVec.ofNat 8 c.xtag).toNat = c.xtag
  rw [BitVec.toNat_ofNat]
  omega

/-- The record of a frame that is no XING frame has no Xing fields. -/
theorem record_of_not_xing {e : Engine} {c : Candidate} (hc : c.Ok) (hk : c.kind ≠ .xing) :
    let r := e.record c
    r.xflags = 0 ∧ r.xinfo = false ∧ r.xtagOff = 0 ∧ r.xframes = 0 ∧ r.xsize = 0 ∧ r.xqual = 0 := by
  obtain ⟨-, -, -, -, hplain⟩ := hc
  obtain ⟨htag, hflags, hinfo⟩ := hplain hk
  simp [Engine.record, Engine.xingField, htag, hflags, hinfo]

/-- Settles O55: the fields are the candidate's, or read from the frame's bytes, which have arrived. -/
theorem recordHoldsFrameFields : Obligations.RecordHoldsFrameFields := by
  unfold Obligations.RecordHoldsFrameFields
  intro e c hc hl hd r byte be32 a b q
  have ⟨_, _, hplain, _, _⟩ := hc
  have hlen : c.len < 2 ^ 64 := by omega
  refine ⟨rfl, rfl, ⟨hlen, ?len⟩, fun hm hx => ?plain, record_of_not_xing hc, fun hk => ⟨rfl, rfl, record_of_xing hc hl hk⟩,
    fun d hk hdr => ⟨rfl, ?crc⟩⟩
  case len => exact (BitVec.toNat_ofNat _ _).trans (Nat.mod_eq_of_lt hlen)
  case plain =>
    have hk : c.kind.isMpeg = false := Bool.eq_false_iff.2 fun h => ((isMpeg_iff _).1 h).elim hm hx
    exact ⟨hplain hk, record_crcStatus_of_not_mpeg e hk⟩
  case crc => exact (record_crcStatus_of_mpeg e ((isMpeg_iff _).2 hk) hdr).trans (frameCrcStatus_eq c.hdr hl)

end Sys2Proof.Proofs.Records

/-! PROOFS. The family 60_exceptions.md: every command word and every step has a next state, errors are precise, the command
unit and the engine leave each other alone, and pending interrupts stay (O15 to O18). -/

namespace Sys2Proof.Proofs.Exceptions

open Sys2Proof.Machine Sys2Proof.Proofs.Encoding Sys2Proof.Proofs.HostWrites
open Sys2Proof.Proofs.Ports Sys2Proof.Proofs.RunStates Sys2Proof.Proofs.Scope
open Sys2Proof.Model hiding State CmdUnit HdrState HdrInfo Engine Counters Record Reg View

/-! ### Completion and errors (60_exceptions.md R800, R801) -/

theorem code_of_ofCommand {e : CmdError} (h : e.OfCommand) : 1 ≤ e.code.code.toNat ∧ e.code.code.toNat ≤ 7 := by
  rcases h with h | h | h | h | h | h | h <;> rw [h] <;> decide

/-- Settles O15: a command word completes within its frame or raises an error of a command, which is `withError` of its
code and argument. -/
theorem commandErrorsArePrecise : Obligations.CommandErrorsArePrecise := by
  unfold Obligations.CommandErrorsArePrecise
  intro w s
  rcases runCommand_completes w s with ⟨t, ht, hframe⟩ | ⟨e, he, hcode⟩
  · exact ⟨t.succeed, ht, .inl ⟨rfl, congrArg (· ||| irqCmdDone) hframe.irqPend⟩⟩
  · obtain ⟨hlo, hhi⟩ := code_of_ofCommand hcode
    exact ⟨s.raise e, he, .inr ⟨_, _, hlo, hhi, e.arg.isLt, raise_eq_withError s e⟩⟩

/-! ### The command unit and the engine (R851) -/

theorem completes_of_exec {i : Instr} {s t : State} (h : exec i s = .next t) : Completes s (.next t) :=
  h ▸ exec_completes i s

theorem cu_of_finishCommand {s t : State} {r : Except CmdError State} (h : finishCommand s r = .next t)
    (hr : ∀ u, r = .ok u → u.cu = s.cu) : t.cu = { s.cu with err := t.cu.err } := by
  cases r with
  | ok u => cases h; rw [State.succeed_cu, hr u rfl]
  | error e => cases h; rfl

/-- The engine commands reach nothing of the command unit but `ERR`. -/
theorem cu_of_exec {i : Instr} {s t : State} (hi : i.onEngine = true) (h : exec i s = .next t) :
    t.cu = { s.cu with err := t.cu.err } := by
  cases i with
  | engStart | engPause | engResume | engStep | recPop =>
    refine cu_of_finishCommand h fun u hu => ?_
    split at hu <;> cases hu <;> rfl
  | engAbort =>
    refine cu_of_finishCommand (r := .ok _) h fun u hu => ?_
    cases hu
    split <;> rfl
  | _ => cases hi

/-- Settles O16: what a command leaves outside its own unit, by its family, and the engine's move. -/
theorem commandUnitAndEngineAreDisjoint : Obligations.CommandUnitAndEngineAreDisjoint := by
  unfold Obligations.CommandUnitAndEngineAreDisjoint
  refine ⟨fun i s t h hi => ?codec, fun i s t h hi => ?engine, fun s => ⟨rfl, rfl, rfl, rfl⟩⟩
  all_goals obtain ⟨-, -, -, -, -, -, hrest⟩ := (completes_of_exec h).frame
  case codec => exact ⟨eng_of_exec (decide_eq_false (Nat.not_le.2 hi)) h, hrest⟩
  case engine => exact ⟨cu_of_exec (decide_eq_true hi) h, hrest⟩

/-! ### Pending interrupts (R820) -/

/-- Bit `i` of `IRQ_PEND` is set, or the block has been reset. -/
def PendingOrReset (i : Nat) (t : State) : Prop := t.irqPend.getLsbD i = true ∨ (t.irqPend = 0 ∧ t.eng = Engine.reset)

/-- The operation is a host write of a word with bit `i` set to `IRQ_PEND`. -/
def ClearsPending (i : Nat) (op : HostOp) : Prop :=
  ∃ (a : BitVec 12) (v : Word), op = .wr (Config.mfhc.base + a.toNat) v ∧ Reg.ofAddr a = .irqPend ∧ v.getLsbD i = true

theorem completes_irqPend {s t : State} (h : Completes s (.next t)) : ∃ m, t.irqPend = s.irqPend ||| m := by
  rcases h with ⟨u, hu, hframe⟩ | ⟨e, he, -⟩
  · cases hu
    exact ⟨irqCmdDone, congrArg (· ||| irqCmdDone) hframe.irqPend⟩
  · cases he
    exact ⟨_, State.raise_irqPend s e⟩

section
variable {i : Nat} {s t : State} (hp : s.irqPend.getLsbD i = true)
include hp

/-- Raising events clears none. -/
theorem pending_of_or {m : BitVec 8} (h : t.irqPend = s.irqPend ||| m) : t.irqPend.getLsbD i = true := by
  rw [h, BitVec.getLsbD_or, hp, Bool.true_or]

theorem pending_of_completes (h : Completes s (.next t)) : t.irqPend.getLsbD i = true := by
  obtain ⟨m, hm⟩ := completes_irqPend h
  exact pending_of_or hp hm

theorem pendingOrReset_endCommand : PendingOrReset i s.endCommand := by
  rw [State.endCommand_eq]
  split
  · exact .inr ⟨rfl, rfl⟩
  · exact .inl hp

theorem pendingOrReset_commandMove (h : commandMove s = .next t) : PendingOrReset i t := by
  rcases commandMove_cases s with ⟨-, hm⟩ | ⟨f, -, ⟨-, hm⟩ | ⟨-, u, -, hc, hm⟩⟩ <;> cases hm.symm.trans h
  · exact .inl hp
  · exact pendingOrReset_endCommand hp
  · exact pendingOrReset_endCommand (pending_of_completes hp hc)

theorem pending_commandEffectMove (h : commandEffectMove s = .next t) : t.irqPend.getLsbD i = true := by
  rcases commandEffectMove_cases s with hm | ⟨f, -, -, u, -, hc, hm⟩ <;> cases hm.symm.trans h
  · exact hp
  · exact pending_of_completes (t := u) hp hc

theorem pending_unlessBusy (ht : t.irqPend = s.irqPend) : (s.unlessBusy t).irqPend.getLsbD i = true := by
  unfold State.unlessBusy
  split
  · exact pending_of_or hp (State.setIrq_irqPend s irqOverrun)
  · rwa [ht]

/-- Of the register writes only that of a 1 to `IRQ_PEND` clears a pending bit without a reset. -/
theorem pendingOrReset_writeReg (r : Reg) (v : Word) :
    PendingOrReset i (s.writeReg r v) ∨ (r = .irqPend ∧ v.getLsbD i = true) := by
  cases r with
  | irqPend =>
    cases hv : v.getLsbD i with
    | true => exact .inr ⟨rfl, rfl⟩
    | false => exact .inl (.inl ((getLsbD_writeOneToClear s.irqPend v i).trans (by rw [hp, hv]; rfl)))
  | ctrl =>
    simp only [State.writeReg]
    split
    · split
      · exact .inl (.inl hp)
      · exact .inl (.inr ⟨rfl, rfl⟩)
    · exact .inl (.inl hp)
  | cmd | scratchLen | fmtExpect | hdrIn | crcPoly | crcInit | val | scratch =>
    exact .inl (.inl (pending_unlessBusy hp rfl))
  | _ => exact .inl (.inl hp)

theorem pendingOrReset_hostDo (op : HostOp) : PendingOrReset i (hostDo s op) ∨ ClearsPending i op := by
  cases op with
  | wr a v =>
    rcases s.hostWrite_cases a v with h | ⟨off, rfl, h⟩ <;> simp only [hostDo, h]
    · exact .inl (.inl hp)
    · exact (pendingOrReset_writeReg hp (Reg.ofAddr off) v).imp_right fun ⟨hr, hv⟩ => ⟨off, v, rfl, hr, hv⟩
  | rd a => rcases s.hostRead_cases a with h | ⟨off, -, h⟩ <;> simp only [hostDo, h] <;> exact .inl (.inl hp)
  | inByte b => exact .inl (.inl (by rwa [(hostDo_inByte_frame s b).2]))
  | inEos => exact .inl (.inl (by rwa [(hostDo_inEos_frame s).2]))
  | take =>
    simp only [hostDo]
    split
    · exact .inl (.inl hp)
    · split <;> exact .inl (.inl hp)
  | wait => simp only [hostDo]; split <;> exact .inl (.inl hp)
  | hwReset => exact .inl (.inr ⟨rfl, rfl⟩)

end

/-- Settles O17: whichever agent moves, a pending bit stays but for a reset and the host's write of 1 to clear. -/
theorem pendingBitsStayUntilCleared : Obligations.PendingBitsStayUntilCleared := by
  unfold Obligations.PendingBitsStayUntilCleared
  intro s t i h hp
  cases ha : s.agent with
  | commandUnit => exact Or.imp_right .inr (pendingOrReset_commandMove (s := s.popTurn) hp ((step_of_agent ha).symm.trans h))
  | commandEffect => exact .inl (pending_commandEffectMove (s := s.popTurn) hp ((step_of_agent ha).symm.trans h))
  | engine =>
    cases (step_of_agent ha).symm.trans h
    exact .inl (pending_of_or hp (engineMove_irqPend s.popTurn))
  | host =>
    cases (step_of_agent ha).symm.trans h
    cases hprog : s.host.program with
    | nil => exact .inl (by rwa [hostMove_of_empty (s := s.popTurn) hprog])
    | cons op rest =>
      rw [hostMove_of_cons (s := s.popTurn) hprog]
      rcases pendingOrReset_hostDo (s := s.popTurn) hp op with hk | ⟨a, v, rfl, hr, hv⟩
      · exact Or.imp_right .inr hk
      · exact .inr (.inl ⟨rfl, a, v, rest, rfl, hr, hv⟩)

/-! ### No stop (43_engine.md R705, R830) -/

theorem commandMove_next (s : State) : ∃ t, commandMove s = .next t := by
  rcases commandMove_cases s with ⟨-, hm⟩ | ⟨f, -, ⟨-, hm⟩ | ⟨-, u, -, -, hm⟩⟩ <;> exact ⟨_, hm⟩

theorem commandEffectMove_next (s : State) : ∃ t, commandEffectMove s = .next t := by
  rcases commandEffectMove_cases s with hm | ⟨f, -, -, u, -, -, hm⟩ <;> exact ⟨_, hm⟩

/-- Settles O18: the engine's and the host's moves are states, and a command in flight completes. -/
theorem everyStateHasANextState : Obligations.EveryStateHasANextState := by
  unfold Obligations.EveryStateHasANextState
  intro s
  rw [step]
  cases s.agent with
  | commandUnit => exact commandMove_next s.popTurn
  | commandEffect => exact commandEffectMove_next s.popTurn
  | engine => exact ⟨_, rfl⟩
  | host => exact ⟨_, rfl⟩

end Sys2Proof.Proofs.Exceptions

/-! PROOFS. The family 70_reset_and_hazards.md: the state after hardware reset (O1, O59), and what a command keeps of the bytes
that HDR_UPDATE has captured (O30). -/

namespace Sys2Proof.Proofs.ResetAndHazards

open Sys2Proof.Machine Sys2Proof.Proofs.Invariant Sys2Proof.Proofs.CodecRegisters Sys2Proof.Proofs.HeaderCommands
open Sys2Proof.Proofs.HeaderEncode Sys2Proof.Proofs.Exceptions
open Sys2Proof.Model hiding State CmdUnit HdrState HdrInfo Engine Counters Record Reg View

/-! ### What a command keeps of the captured bytes (70_reset_and_hazards.md R922) -/

/-- Under command `i` the header state `h'` keeps what `h` has captured; only HDR_ENCODE with `INCLUDE_CRC` may replace the
stored CRC. -/
structure KeepsCaptured (i : Instr) (h h' : HdrState) : Prop where
  valid : h'.valid = h.valid
  crcCap : h.crcCap = true → h'.crcCap = true
  storedCrc : h.crcCap = true → (∀ off, i ≠ .hdrEncode off true) → h'.storedCrc = h.storedCrc
  si : h.siCap = true → h'.siCap = true ∧ h'.si = h.si

/-- A new header word alone drops nothing. -/
theorem keepsCaptured_setWord (i : Instr) (h : HdrState) (w : Word) : KeepsCaptured i h { h with word := w } :=
  ⟨rfl, id, fun _ _ => rfl, fun hs => ⟨hs, rfl⟩⟩

theorem keepsCaptured_of_eq {i : Instr} {h h' : HdrState} (heq : h' = h) : KeepsCaptured i h h' :=
  heq ▸ keepsCaptured_setWord i h h.word

/-! ### The header state in the outcome of a command -/

/-- The commands that can change the header state (41_header.md R530 to R533). -/
def writesHeader : Instr → Bool
  | .hdrDecode _ _ => true
  | .hdrUpdate _ => true
  | .hdrEncode _ _ => true
  | .hdrSetf _ _ => true
  | _ => false

theorem hdr_of_finishCommand {s t : State} {r : Except CmdError State} (h : finishCommand s r = .next t)
    (hr : ∀ u, r = .ok u → u.cu.hdr = s.cu.hdr) : t.cu.hdr = s.cu.hdr := by
  cases r with
  | ok u => cases h; exact hr u rfl
  | error e => cases h; rfl

theorem hdr_of_writeRegion {s t : State} {off : Nat} {bs : List Byte} (h : writeRegion s off bs = .ok t) :
    t.cu.hdr = s.cu.hdr := by
  rcases writeRegion_cases s off bs with ⟨-, hw⟩ | ⟨-, hw⟩ <;> cases hw.symm.trans h
  rfl

/-- Every other command leaves the header state, the engine's because they reach nothing of the command unit but `ERR`. -/
theorem hdr_of_exec {i : Instr} {s t : State} (hi : writesHeader i = false) (h : exec i s = .next t) :
    t.cu.hdr = s.cu.hdr := by
  cases i with
  | nop | fmtClear => cases h; rfl
  | fmtAppend | hdrCrcchk | crc16 =>
    refine hdr_of_finishCommand h fun u hu => ?_
    split at hu <;> cases hu
    rfl
  | pack =>
    refine hdr_of_finishCommand h fun u hu => ?_
    split at hu <;> cases hu
    next hw => exact (hdr_of_writeRegion hw :)
  | unpack =>
    refine hdr_of_finishCommand h fun u hu => ?_
    split at hu
    · cases hu
    · split at hu <;> cases hu
      rfl
  | hdrDecode | hdrUpdate | hdrEncode | hdrSetf => cases hi
  | engStart | engPause | engResume | engStep | engAbort | recPop => rw [cu_of_exec rfl h]

/-! ### HDR_UPDATE, HDR_ENCODE and HDR_SETF with a held header (R531 to R533) -/

section

variable {s t : State} {d : HdrInfo}

/-- HDR_UPDATE captures only what is not captured yet. -/
theorem keepsCaptured_hdrUpdate {off : Nat} (hd : s.cu.hdr.info = some d) (h : exec (.hdrUpdate off) s = .next t) :
    KeepsCaptured (.hdrUpdate off) s.cu.hdr t.cu.hdr := by
  cases (exec_hdrUpdate_of_held hd).symm.trans h
  obtain ⟨hcrcCap, hstored⟩ := captured_crc off s d
  obtain ⟨hsiCap, hsi⟩ := captured_si off s d
  have hvalid : (captured off s d).valid = s.cu.hdr.valid := by rw [captured_frame]
  refine ⟨hvalid, fun hc => ?crcCap, fun hc _ => ?storedCrc, fun hs => ?si⟩
  case crcCap =>
    rw [captureCrc_of_not_available (by simp [hc])] at hcrcCap
    exact hcrcCap.trans hc
  case storedCrc =>
    rw [captureCrc_of_not_available (by simp [hc])] at hstored
    exact hstored
  case si =>
    rw [captureSi_of_not_available (by simp [hs])] at hsiCap hsi
    exact ⟨hsiCap.trans hs, hsi⟩

theorem keepsCaptured_encodedHdr {off : Nat} {inc : Bool} : KeepsCaptured (.hdrEncode off inc) s.cu.hdr (encodedHdr inc s d) := by
  cases hc : d.prot && inc with
  | false => exact keepsCaptured_of_eq (if_neg (by simp [hc]))
  | true =>
    obtain ⟨-, rfl⟩ := Bool.and_eq_true_iff.1 hc
    rw [encodedHdr, if_pos hc]
    exact ⟨rfl, fun _ => rfl, fun _ hne => absurd rfl (hne off), fun hs => ⟨hs, rfl⟩⟩

/-- HDR_ENCODE raises, or leaves the header state with a recomputed CRC at most. -/
theorem keepsCaptured_hdrEncode {off : Nat} {inc : Bool} (hd : s.cu.hdr.info = some d)
    (h : exec (.hdrEncode off inc) s = .next t) : KeepsCaptured (.hdrEncode off inc) s.cu.hdr t.cu.hdr := by
  by_cases hsource : CrcSource inc s d
  · rcases Nat.lt_or_ge 256 (off + (output inc s d).length) with hpast | hfits
    · cases (exec_hdrEncode_of_not_fits hd hsource hpast).symm.trans h
      exact keepsCaptured_of_eq rfl
    · cases (exec_hdrEncode_of_fits hd hsource hfits).symm.trans h
      exact keepsCaptured_encodedHdr
  · cases (exec_hdrEncode_of_no_source hd hsource).symm.trans h
    exact keepsCaptured_of_eq rfl

/-- A valid new word is held, whether or not the captured bytes are dropped. -/
theorem word_withWord {h : HdrState} {d' : HdrInfo} {w : Word} (hd' : HdrInfo.ofWord w = some d') :
    (h.withWord d w).word = w := by
  rw [withWord_of_ofWord hd']
  split <;> rfl

/-- HDR_SETF raises, or holds the new word; with the protection and the length of before it drops nothing. -/
theorem keepsCaptured_hdrSetf {index value : Nat} (hd : s.cu.hdr.info = some d) (h : exec (.hdrSetf index value) s = .next t)
    (hsame : ∀ d', HdrInfo.ofWord t.cu.hdr.word = some d' → d'.prot = d.prot ∧ d'.siLen = d.siLen) :
    KeepsCaptured (.hdrSetf index value) s.cu.hdr t.cu.hdr := by
  rcases fieldOperand_cases index with ⟨-, herr⟩ | ⟨f, -, hf⟩
  · simp only [exec, execHdrSetf, heldHeader_of_info hd, herr, finishCommand] at h
    cases h
    exact keepsCaptured_of_eq rfl
  · cases hw : validate (setHdrField s.cu.hdr.word f value) with
    | some r =>
      cases (exec_hdrSetf_of_malformed hd hf hw).symm.trans h
      exact keepsCaptured_of_eq rfl
    | none =>
      obtain ⟨d', hd'⟩ := Option.isSome_iff_exists.1 ((HdrInfo.ofWord_isSome _).2 hw)
      cases (exec_hdrSetf_of_valid hd hf hw).symm.trans h
      obtain ⟨hprot, hlen⟩ := hsame d' ((congrArg HdrInfo.ofWord (word_withWord hd')).trans hd')
      rw [State.succeed_cu, State.setHdr_cu, withWord_of_ofWord hd', if_neg (by simp [hprot, hlen])]
      exact keepsCaptured_setWord _ _ _

end

/-- Settles O30: HDR_UPDATE, HDR_ENCODE and HDR_SETF keep what is captured, and the other commands leave the header state. -/
theorem capturedBytesAreSticky : Obligations.CapturedBytesAreSticky := by
  unfold Obligations.CapturedBytesAreSticky
  intro i s t h hdecode hsetf hv hw
  obtain ⟨d, hword⟩ := Option.isSome_iff_exists.1 ((HdrInfo.ofWord_isSome _).2 hw)
  have hd : s.cu.hdr.info = some d := HdrState.info_eq_some.2 ⟨hv, hword⟩
  have hkeeps : KeepsCaptured i s.cu.hdr t.cu.hdr := by
    cases i with
    | hdrDecode off src => exact absurd rfl (hdecode off src)
    | hdrUpdate => exact keepsCaptured_hdrUpdate hd h
    | hdrEncode => exact keepsCaptured_hdrEncode hd h
    | hdrSetf index value => exact keepsCaptured_hdrSetf hd h fun d' hd' => hsetf index value d d' rfl hword hd'
    | _ => exact keepsCaptured_of_eq (hdr_of_exec rfl h)
  exact ⟨hkeeps.valid.trans hv, hkeeps.crcCap, hkeeps.storedCrc, hkeeps.si⟩

/-! ### The state after hardware reset (70_reset_and_hazards.md R900) -/

/-- Outside the registers with a reset value of their own, and those the rule leaves open, every register reads 0. -/
theorem readReg_reset_eq_zero {r : Reg}
    (hr : r ∉ [Reg.id, .version, .crcPoly, .crcInit, .engCfg, .engMargin, .engLowwater, .engCapacity])
    (hval : ∀ i, r ≠ .val i) (hscratch : ∀ k, r ≠ .scratch k) : State.reset.readReg r = 0 := by
  obtain ⟨hderived, hbitrate, hsrate, hcrc, hsi⟩ :=
    derived_of_none (HdrState.info_of_not_valid (h := HdrState.reset) rfl) State.reset.cu.crcPoly State.reset.cu.crcInit
  cases r with
  | id | version | crcPoly | crcInit | engCfg | engMargin | engLowwater | engCapacity => exact absurd (by simp) hr
  | val i => exact absurd rfl (hval i)
  | scratch k => exact absurd rfl (hscratch k)
  | hdrDerived => exact hderived
  | hdrBitrate => exact hbitrate
  | hdrSrate => exact hsrate
  | hdrCrc => exact hcrc
  | hdrSi k => exact hsi k.val
  | fmtDesc i => exact (fmtDesc_fmtExp_above (f := []) (Nat.zero_le i.val)).1
  | fmtExp i => exact (fmtDesc_fmtExp_above (f := []) (Nat.zero_le i.val)).2
  | _ => rfl

/-- The reset input leaves the host's side and the order of the agents, and puts the block in its reset state. -/
theorem hostDo_hwReset (s : State) :
    hostDo s .hwReset
      = { State.reset with host := { s.host with program := s.host.program.tail }, turns := s.turns } := rfl

/-- Settles O1: the table of R900 register by register; the reset input leaves in `VAL` and SCRATCH what `State.reset` has. -/
theorem resetLeavesResetValues : Obligations.ResetLeavesResetValues := by
  unfold Obligations.ResetLeavesResetValues
  refine ⟨fun r => readReg_reset_eq_zero, ?_⟩
  refine ⟨rfl, rfl, rfl, rfl, rfl, rfl, rfl, rfl, ?_⟩ -- the registers with a value of their own
  refine ⟨rfl, rfl, rfl, ?_⟩ -- the command unit
  refine ⟨rfl, rfl, rfl, rfl, rfl, rfl, rfl, rfl, rfl, rfl, rfl, rfl, rfl, rfl, ?_⟩ -- the engine
  refine ⟨rfl, rfl, rfl, rfl, rfl, rfl, ?_⟩ -- interrupts and ports
  exact fun s => ⟨State.reset.cu.val, State.reset.cu.scratch, hostDo_hwReset s⟩

/-- Settles O59: the command unit's part and the engine's part of the invariant hold after reset. -/
theorem resetMeetsInvariant : Obligations.ResetMeetsInvariant := by
  unfold Obligations.ResetMeetsInvariant
  exact ⟨cuOk_reset Memory.wf_nil _, engOk_reset⟩

end Sys2Proof.Proofs.ResetAndHazards
